-- ==== Sys2Proof/Word.lean ====
section
/-! DEFINITION. The units of storage of the core: the byte (20_memory.md section 1) and the formats of the words of
spec/opcode_table.json (30_encoding.md rule R67). -/

namespace Sys2Proof

/-- One byte of `SRC` or `OUT` (20_memory.md rules R44, R45). Bit 0 is its first stream bit (R8). -/
abbrev Byte := BitVec 8

/-- The formats of `opcode_table.json` that have a word (30_encoding.md rule R67). -/
inductive Format where
  /-- block header, 3 bits (R58) -/
  | bh
  /-- dynamic header, 14 bits (R59) -/
  | dh
  /-- one CL code length, 3 bits (R64) -/
  | cll
  /-- a decoded CL symbol, 5 bits (R64) -/
  | cls
  /-- a decoded literal/length symbol, 9 bits (R65) -/
  | ll
  /-- a decoded distance symbol, 5 bits (R65) -/
  | d
  deriving DecidableEq, Repr

/-- How many bits a word of the format has (R67). -/
def Format.width : Format → Nat
  | .bh => 3
  | .dh => 14
  | .cll => 3
  | .cls => 5
  | .ll => 9
  | .d => 5

end Sys2Proof
end

