-- ==== Sys2Proof/Config.lean ====
section
/-! DEFINITION. The parameters of 00_scope.md rule R7. `OUT_CAPACITY` and `SRCLEN` are given by the host, so they stand in
State. One value is left free. -/

namespace Sys2Proof.Config

/-- `READ_MAX`: the widest `READBITS` or `PEEKBITS` the BitReader accepts (R7, decision D2). -/
def readMax : Nat := 16

/-- `HAS_PEEK`: `PEEKBITS` exists (R7, decision D3). -/
def hasPeek : Bool := true

/-- The 19 symbols of the CL alphabet (R6). -/
def clSymbols : Nat := 19

/-- The 286 symbols of the literal/length alphabet (R6). -/
def llSymbols : Nat := 286

/-- The 30 symbols of the distance alphabet (R6). -/
def dSymbols : Nat := 30

/-- The maximum code length of the CL alphabet (R5). -/
def clMaxLen : Nat := 7

/-- The maximum code length of the literal/length and distance alphabets (R4). -/
def maxLen : Nat := 15

/-- `MAX_LENGTH`, the largest back-reference length (R7). -/
def maxLength : Nat := 258

/-- `MAX_DISTANCE`, the largest back-reference distance (R7). -/
def maxDistance : Nat := 32768

/-- `NODES_CL`, the arena of the CL tree (R7, decision D25). -/
def nodesCl : Nat := 88

/-- `NODES_LL`, the arena of the literal/length tree (R7, decision D25). -/
def nodesLl : Nat := 2513

/-- `NODES_D`, the arena of the distance tree (R7, decision D25). -/
def nodesD : Nat := 361

/-- A FREE VALUE (entry 23): the error kind of the `k`-th read of a register that holds no value, one of the five that the
core raises. 93_implementation_defined.md I10 has the model take a fatal error there and names no kind. -/
opaque unwrittenErr : Nat → Fin 5

end Sys2Proof.Config
end

