-- ==== Sys2Proof/Syntax.lean ====
section
/-! DEFINITION. The instructions: one constructor for each of the 107 rows of spec/opcode_table.json, in the table's order. -/

namespace Sys2Proof

/-- The three trees of a block (10_state.md rule R22). -/
inductive TreeId where
  | cl
  | ll
  | d
  deriving DecidableEq, Repr

/-- The instructions. Operands are the fields of the row's word; extra bits (formats CLS, LL and D) are no operand, since
the rules read them from the stream after the symbol. -/
inductive Instr where
  /-- `BLK_DYNAMIC`, operand `BFINAL` (R120). -/
  | blkDynamic (bfinal : BitVec 1)
  /-- `BLK_STORED`, operand `BFINAL` (R121). -/
  | blkStored (bfinal : BitVec 1)
  /-- `BLK_FIXED`, operand `BFINAL` (R121). -/
  | blkFixed (bfinal : BitVec 1)
  /-- `BLK_RESERVED`, operand `BFINAL` (R121). -/
  | blkReserved (bfinal : BitVec 1)
  /-- `DYN_HEADER`, operands `HLIT`, `HDIST`, `HCLEN` (R122). -/
  | dynHeader (hlit hdist : BitVec 5) (hclen : BitVec 4)
  /-- `DYN_HLIT_RESERVED`: `HLIT` 30 or 31 (R123). -/
  | dynHlitReserved (hlit hdist : BitVec 5) (hclen : BitVec 4)
  /-- `DYN_HDIST_RESERVED`: `HDIST` 30 or 31 (R123). -/
  | dynHdistReserved (hlit hdist : BitVec 5) (hclen : BitVec 4)
  /-- `CL_LEN`: the next CL code length (R100). -/
  | clLen (n : BitVec 3)
  /-- `CL_LIT_0` to `CL_LIT_15`: append one code length (R103). -/
  | clLit0
  | clLit1
  | clLit2
  | clLit3
  | clLit4
  | clLit5
  | clLit6
  | clLit7
  | clLit8
  | clLit9
  | clLit10
  | clLit11
  | clLit12
  | clLit13
  | clLit14
  | clLit15
  /-- `CL_REP16`: repeat the previous length (R104). -/
  | clRep16
  /-- `CL_ZERO17`: 3 to 10 zeros (R105). -/
  | clZero17
  /-- `CL_ZERO18`: 11 to 138 zeros (R106). -/
  | clZero18
  /-- `LIT`: append one byte (R126). -/
  | lit (b : Byte)
  /-- `EOB`: end of block (R127). -/
  | eob
  /-- `LEN_257` to `LEN_285`: a back-reference length (R128). -/
  | len257
  | len258
  | len259
  | len260
  | len261
  | len262
  | len263
  | len264
  | len265
  | len266
  | len267
  | len268
  | len269
  | len270
  | len271
  | len272
  | len273
  | len274
  | len275
  | len276
  | len277
  | len278
  | len279
  | len280
  | len281
  | len282
  | len283
  | len284
  | len285
  /-- `LITLEN_286` and `LITLEN_287`: reserved (R66, I12). -/
  | litLen286
  | litLen287
  /-- `DIST_0` to `DIST_29`: a back-reference distance (R129). -/
  | dist0
  | dist1
  | dist2
  | dist3
  | dist4
  | dist5
  | dist6
  | dist7
  | dist8
  | dist9
  | dist10
  | dist11
  | dist12
  | dist13
  | dist14
  | dist15
  | dist16
  | dist17
  | dist18
  | dist19
  | dist20
  | dist21
  | dist22
  | dist23
  | dist24
  | dist25
  | dist26
  | dist27
  | dist28
  | dist29
  /-- `DIST_30` and `DIST_31`: reserved (R66, I12). -/
  | dist30
  | dist31
  /-- `READBITS(n)` (R70). -/
  | readBits (n : Nat)
  /-- `REFILL()` (R71). -/
  | refill
  /-- `PEEKBITS(n)` (R72). -/
  | peekBits (n : Nat)
  /-- `CANON(lengths, maxLen)` (R80). -/
  | canon (lengths : List Nat) (maxLen : Nat)
  /-- `ADDLEAF(T, c, L, s)` (R91). -/
  | addLeaf (t : TreeId) (c len sym : Nat)
  /-- `DECODESTEP(T, b)` (R92). -/
  | decodeStep (t : TreeId) (b : Bool)
  /-- `RESETCURSOR(T)` (R93). -/
  | resetCursor (t : TreeId)
  /-- `DECODESYM(T)` (R94). -/
  | decodeSym (t : TreeId)
  /-- `T <- BUILD(lengths, maxLen)` (R96). -/
  | build (t : TreeId) (lengths : List Nat) (maxLen : Nat)
  /-- `OVERRUN_CHECK()` (R107). -/
  | overrunCheck
  /-- `RANGE_CHECK()` (R123). -/
  | rangeCheck
  /-- `TABLES()` (R124). -/
  | tables
  /-- `CHECK()` (R130). -/
  | check
  /-- `COPYBYTE`, one byte of the copy (R131). -/
  | copyByte
  /-- `START(SRC, SRCLEN)`: `SRCLEN` is the length of the list (R180). -/
  | start (src : List Byte)
  deriving DecidableEq, Repr

end Sys2Proof
end

