-- ==== Sys2Proof/Machine/State.lean ====
section
/-! DEFINITION. The state of the core as plain data (10_state.md), the reasons a step can stop, and the state after
power-on. -/

namespace Sys2Proof.Machine

/-- `STATUS` (10_state.md rule R15). -/
inductive Status where
  | idle
  | running
  | complete
  | faulted
  deriving DecidableEq, Repr

/-- `ERR` (10_state.md rule R16, 60_exceptions.md rule R150). Code 7 is never written (I18), so it has no constructor. -/
inductive ErrCode where
  | none
  | headerError
  | unsupportedBlockType
  | malformedHuffmanCode
  | invalidRunLengthContext
  | invalidBackReference
  | streamExhausted
  deriving DecidableEq, Repr

/-- `PHASE`, the BlockState (10_state.md rule R17). -/
inductive Phase where
  | readHeader
  | readDynamicTables
  | decodeSymbols
  | done
  deriving DecidableEq, Repr

/-- A node of a tree's arena; a child is a node index or NONE (42_huffman_tree.md rule R90). -/
inductive Node where
  | internal (child0 child1 : Option Nat)
  | leaf (symbol : Nat)
  deriving DecidableEq, Repr

/-- A tree cursor (10_state.md rule R22): the registers `T.NODE` and `T.DEPTH`, `none` where one holds no value (R18). -/
structure TreeCursor where
  node : Option Nat
  depth : Option Nat
  deriving DecidableEq, Repr

/-- A HuffmanDecodeTree: node `i` is the list's entry `i`, so `T.count` is the list's length, and `T.maxlen` (10_state.md rule
R22, 42_huffman_tree.md rule R90). The tree's cursor is a block register of its own. -/
structure Tree where
  nodes : List Node
  maxlen : Nat
  deriving DecidableEq, Repr

/-- A CanonicalCode entry: the code value and its length (41_huffman_builder.md rule R80). -/
structure Code where
  code : Nat
  len : Nat
  deriving DecidableEq, Repr

/-- What a component operation returns to its caller. -/
inductive OpResult where
  /-- `READBITS`, `PEEKBITS` (R70, R72) -/
  | value (n : Nat)
  /-- `CANON`: symbol `s`'s code, none for a symbol of length 0 (R80) -/
  | codes (cs : List (Option Code))
  /-- `DECODESTEP` at a leaf, `DECODESYM` (R92, R94) -/
  | symbol (s : Nat)
  /-- the CONTINUE sentinel of `DECODESTEP` (R25, R92) -/
  | cont
  deriving DecidableEq, Repr

/-- The byte spaces (20_memory.md section 1). -/
inductive Space where
  | src
  | out
  deriving DecidableEq, Repr

/-- The registers that can hold no value (10_state.md rules R17, R18). -/
inductive Reg where
  | bfinal
  | hclen
  | nlit
  | ndist
  | lenseq (i : Nat)
  | seqcnt
  | lllen
  | dlen
  | tree (t : TreeId)
  /-- `T.NODE` -/
  | node (t : TreeId)
  /-- `T.DEPTH` -/
  | depth (t : TreeId)
  | sym
  | rep
  | length
  | distance
  | copyrem
  /-- a child field of a LEAF node, or any field of a node that was never created (42_huffman_tree.md rule R90) -/
  | treeNode (t : TreeId)
  deriving DecidableEq, Repr

/-- Why the machine stops. Every one is SAFE: the core takes no step there, or the rules say no rule gets there. -/
inductive Fault where
  /-- raised by the step: `STATUS` is IDLE and no `START` is pending; "in IDLE the core takes no step" (R182). Safe. -/
  | idle
  /-- raised by the step: `STATUS` is COMPLETE, final until `START` (R15). Safe. -/
  | sessionComplete
  /-- raised by the step: `STATUS` is FAULTED, final until `START` (R15, R161). Safe. -/
  | sessionFaulted
  /-- raised by `OutAppend`: `OUT` is full, "no step (the model is stuck)" (R45, decision D16). Safe. -/
  | outFull
  /-- raised by a read of `SRC` or `OUT` at an address that holds no byte (20_memory.md section 1). Safe. -/
  | badAddress (sp : Space) (a : Nat)
  /-- raised by a CL symbol that would write past `LENSEQ[315]`; R107 and R123 keep every run below it (R20). Safe. -/
  | lenseqFull
  /-- raised by `COPYBYTE` with `DISTANCE > OUTLEN`: `OUTLEN - DISTANCE` is an address only after R130 has passed (R8,
  R131). Safe. -/
  | copyBeforeStart
  /-- raised by `ADDLEAF` as an operation of its own: the nodes do not fit the arena (R90, decision D25). Safe. -/
  | arenaFull (t : TreeId)
  deriving DecidableEq, Repr

/-- Why a request has no meaning. Every one is SAFE: nothing is claimed about what the hardware does. -/
inductive Refusal where
  /-- raised by `exec`'s arm of an instruction that has no meaning yet. Safe. -/
  | notModelled (mnemonic : String)
  /-- raised by `READBITS` and `PEEKBITS` with `n > READ_MAX`: "a model given one refuses it" (R75). Safe. -/
  | readTooWide (n : Nat)
  /-- raised by `PEEKBITS` where `HAS_PEEK` is false (I1); never in this configuration. Safe. -/
  | peekAbsent
  /-- raised by `REFILL` as an operation of its own with `BITCNT` above 15: "`BITCNT <= 15` before any refill" (R11). Safe. -/
  | refillNoRoom
  /-- raised by `CANON`, `BUILD`, `ADDLEAF` with operands outside the rule's ranges (R80, R91). Safe. -/
  | operandOutOfRange
  /-- raised by the sequencer: a tree gave a symbol that no row has; no built tree does (R66). Safe. -/
  | noInstruction (f : Format) (w : Nat)
  deriving DecidableEq, Repr

/-- `SRC` or `OUT`: the bytes listed by address, strictly rising; an unlisted address holds no byte. -/
abbrev Memory := List Host.Cell

/-- The model's own: which part of ReadDynamicTables runs next (44_block_decoder.md rule R122). -/
inductive ClPoint where
  /-- the dynamic header (R122) -/
  | dynHeader
  /-- the loop over the CL code lengths (R100), then `BUILD` of the CL tree (R101) -/
  | clLens
  /-- the loop over the CL symbols (R102), then the split (R108) and `TABLES` (R124) -/
  | clSyms
  deriving DecidableEq, Repr

/-- The model's own: which part of DecodeSymbols runs next (44_block_decoder.md rule R125). -/
inductive SymPoint where
  /-- a literal/length symbol (R125) -/
  | symbols
  /-- the distance of a back-reference (R129) -/
  | dist
  /-- the copy loop (R131) -/
  | copy
  /-- the `OutAppend` of the literal in `SYM`, which waits because `OUT` is full (R126, R45) -/
  | append
  deriving DecidableEq, Repr

/-- One BlockState instance (10_state.md rule R17): the block registers of section 1.2, the operation registers of section
1.3, and the model's own sequencing points. `none` is the spec's "holds no value" (R18); `clcursor`, `llcursor` and `dcursor`
are `T.NODE` and `T.DEPTH` of the three trees, written by R92 and R93 only. `LENSEQ`, `LLLEN` and `DLEN` list the entries
written, strictly rising; an entry that is not listed holds no value. -/
structure BlockState where
  bfinal : Option (BitVec 1)
  btype : Option (BitVec 2)
  hlit : Option (BitVec 5)
  hdist : Option (BitVec 5)
  hclen : Option (BitVec 4)
  nlit : Option Nat
  ndist : Option Nat
  cllen : Option (List (BitVec 3))
  lenseq : List (Nat × BitVec 4)
  seqcnt : Option Nat
  lllen : List (Nat × BitVec 4)
  dlen : List (Nat × BitVec 4)
  cltree : Option Tree
  lltree : Option Tree
  dtree : Option Tree
  clcursor : TreeCursor
  llcursor : TreeCursor
  dcursor : TreeCursor
  sym : Option Nat
  clsym : Option Nat
  rep : Option Nat
  length : Option Nat
  dsym : Option Nat
  distance : Option Nat
  copyrem : Option Nat
  clPoint : ClPoint
  clIdx : Nat
  symPoint : SymPoint
  deriving DecidableEq, Repr

/-- A cursor that no rule has written (R18). -/
def TreeCursor.unwritten : TreeCursor where
  node := none
  depth := none

/-- A BlockState that has just been created: no register holds a value (R17, R18). -/
def BlockState.fresh : BlockState where
  bfinal := none
  btype := none
  hlit := none
  hdist := none
  hclen := none
  nlit := none
  ndist := none
  cllen := none
  lenseq := []
  seqcnt := none
  lllen := []
  dlen := []
  cltree := none
  lltree := none
  dtree := none
  clcursor := .unwritten
  llcursor := .unwritten
  dcursor := .unwritten
  sym := none
  clsym := none
  rep := none
  length := none
  dsym := none
  distance := none
  copyrem := none
  clPoint := .dynHeader
  clIdx := 0
  symPoint := .symbols

/-- The state of the core and of its host channels. `unwrittenReads` is the model's own: how many reads of a register that
holds no value have been answered with the free value of Config (entry 23). -/
structure State where
  hostStart : Option (List Byte)
  outCapacity : Option Nat
  src : Memory
  srclen : Nat
  status : Status
  err : ErrCode
  phase : Phase
  bytepos : Nat
  acc : BitVec 24
  bitcnt : Nat
  out : Memory
  outlen : Nat
  blocks : Nat
  blk : BlockState
  result : Option OpResult
  unwrittenReads : Nat
  deriving DecidableEq, Repr

/-- Power-on (10_state.md rule R26, 70_reset_and_hazards.md rule R182): `STATUS` IDLE, `ERR` 0, no block register holds a
value. DESIGN CHOICE, unsafe (entry 4): the session registers that the spec gives no value hold 0. DESIGN CHOICE, unsafe
(entry 6): `OUT_CAPACITY` is unbounded. DESIGN CHOICE, safe (entry 23): `unwrittenReads` starts at 0. -/
def State.reset : State where
  hostStart := none
  outCapacity := none
  src := []
  srclen := 0
  status := .idle
  err := .none
  phase := .readHeader
  bytepos := 0
  acc := 0
  bitcnt := 0
  out := []
  outlen := 0
  blocks := 0
  blk := BlockState.fresh
  result := none
  unwrittenReads := 0

end Sys2Proof.Machine
end

