-- ==== Sys2Proof/WellFormed.lean ====
section
/-! DEFINITION. Which instructions are well formed: operands the rows and the rules admit. -/

namespace Sys2Proof

/-- The alphabet of a tree (00_scope.md rule R6). -/
def TreeId.symbols : TreeId → Nat
  | .cl => Config.clSymbols
  | .ll => Config.llSymbols
  | .d => Config.dSymbols

/-- The greatest code length of a tree (00_scope.md rules R4, R5). -/
def TreeId.maxLen : TreeId → Nat
  | .cl => Config.clMaxLen
  | .ll => Config.maxLen
  | .d => Config.maxLen

/-- The arena of a tree (42_huffman_tree.md rule R90). -/
def TreeId.capacity : TreeId → Nat
  | .cl => Config.nodesCl
  | .ll => Config.nodesLl
  | .d => Config.nodesD

/-- A CodeLengthTable for `BUILD` of the tree `t`: `maxLen` is the tree's greatest code length, every entry is at most
`maxLen`, and there are no more entries than the tree's alphabet has symbols (00_scope.md rules R4 to R6,
41_huffman_builder.md rule R80). A shorter table stands for one filled up with zeros (entry 17). -/
def buildOk (t : TreeId) (lengths : List Nat) (maxLen : Nat) : Bool :=
  decide (maxLen = t.maxLen) && lengths.all (· ≤ maxLen) && decide (lengths.length ≤ t.symbols)

/-- A CodeLengthTable for `CANON`, which is given no tree: one for the CL alphabet or one for the literal/length alphabet; a
table for the distance alphabet is one of the second kind (41_huffman_builder.md rule R80). -/
def lengthTableOk (lengths : List Nat) (maxLen : Nat) : Bool :=
  buildOk .cl lengths maxLen || buildOk .ll lengths maxLen

/-- The operands of `ADDLEAF` (42_huffman_tree.md rule R91): `L` in 1..maxLen, `c` an L-bit value, a symbol of the tree's
alphabet. -/
def addLeafOk (t : TreeId) (c len sym : Nat) : Bool :=
  decide (1 ≤ len) && decide (len ≤ t.maxLen) && decide (c < 2 ^ len) && decide (sym < t.symbols)

/-- The check of an instruction's operands. A reserved dynamic header with both counts out of range is the HLIT row, so the
HDIST row has `HLIT` in range (30_encoding.md rule R67; entry 11). -/
def WellFormed : Instr → Bool
  | .dynHeader hlit hdist _ => decide (hlit.toNat < 30) && decide (hdist.toNat < 30)
  | .dynHlitReserved hlit _ _ => decide (30 ≤ hlit.toNat)
  | .dynHdistReserved hlit hdist _ => decide (hlit.toNat < 30) && decide (30 ≤ hdist.toNat)
  | .readBits n => decide (n ≤ Config.readMax)
  | .peekBits n => decide (n ≤ Config.readMax)
  | .canon lengths maxLen => lengthTableOk lengths maxLen
  | .build t lengths maxLen => buildOk t lengths maxLen
  | .addLeaf t c len sym => addLeafOk t c len sym
  | _ => true

end Sys2Proof
end

