-- ==== Sys2Proof/Machine/Ops.lean ====
section
/-! DEFINITION. The shared operations: the tables of cells, register reads, taking an error, the BitReader
(40_bitreader.md) and the output buffer (20_memory.md). -/

namespace Sys2Proof.Machine

/-! ## Cells: sparse storage by address -/

/-- The value at address `a`, none where no value is held. -/
def Cells.read {α : Type} (m : List (Nat × α)) (a : Nat) : Option α :=
  match m with
  | [] => none
  | (b, v) :: rest => if a = b then some v else Cells.read rest a

/-- `m` with `v` at address `a`, addresses kept strictly rising. -/
def Cells.write {α : Type} (m : List (Nat × α)) (a : Nat) (v : α) : List (Nat × α) :=
  match m with
  | [] => [(a, v)]
  | (b, w) :: rest =>
    if a < b then (a, v) :: (b, w) :: rest
    else if a = b then (a, v) :: rest
    else (b, w) :: Cells.write rest a v

/-- `n` writes of `v` from address `a` up. -/
def Cells.writeRun {α : Type} (m : List (Nat × α)) (a : Nat) (v : α) : Nat → List (Nat × α)
  | 0 => m
  | n + 1 => Cells.writeRun (Cells.write m a v) (a + 1) v n

/-- The cells of a list placed from address `a` up. -/
def Cells.ofList {α : Type} (a : Nat) : List α → List (Nat × α)
  | [] => []
  | v :: rest => (a, v) :: Cells.ofList (a + 1) rest

/-- The `n` values from address `a` up, none where one is not held. -/
def Cells.readList {α : Type} (m : List (Nat × α)) (a : Nat) : Nat → Option (List α)
  | 0 => some []
  | n + 1 =>
    match Cells.read m a, Cells.readList m (a + 1) n with
    | some v, some vs => some (v :: vs)
    | _, _ => none

/-- The canonical form: addresses strictly rising. -/
abbrev Cells.wf {α : Type} (m : List (Nat × α)) : Prop :=
  (m.map Prod.fst).Pairwise (· < ·)

/-- The canonical form of `SRC` and `OUT`. An unlisted address holds no byte, so no entry can equal it. -/
abbrev Memory.wf (m : Memory) : Prop :=
  Cells.wf m

/-! ## The outcome of an operation -/

/-- What an operation that returns a value of type `α` does. -/
inductive Res (α : Type) where
  /-- it completed -/
  | ok (a : α) (s : State)
  /-- a rule raised the error `e`; `s` is the state at that moment (60_exceptions.md rule R151) -/
  | raised (e : ErrCode) (s : State)
  /-- a rule read the register `r`, which holds no value; `s` is the state at that moment (10_state.md rule R18) -/
  | unwritten (r : Reg) (s : State)
  /-- the machine stops -/
  | stop (f : Fault)
  /-- the request has no meaning -/
  | refused (r : Refusal)
  deriving Repr

/-- First `r`, then `k` on what `r` returned. -/
def Res.bind {α β : Type} (r : Res α) (k : α → State → Res β) : Res β :=
  match r with
  | .ok a s => k a s
  | .raised e s => .raised e s
  | .unwritten r s => .unwritten r s
  | .stop f => .stop f
  | .refused x => .refused x

/-- `raise E(info)`: `ERR <- code(E)`, `STATUS <- FAULTED`, every other register keeps its value; `info` is not stored
(60_exceptions.md rules R151, R160). -/
def State.raise (e : ErrCode) (s : State) : State :=
  { s with err := e, status := .faulted }

/-- The five error kinds that a rule of the core raises (60_exceptions.md rules R150, R152). -/
def ErrCode.fatal (k : Fin 5) : ErrCode :=
  match k with
  | 0 => .unsupportedBlockType
  | 1 => .malformedHuffmanCode
  | 2 => .invalidRunLengthContext
  | 3 => .invalidBackReference
  | 4 => .streamExhausted

/-- The read of a register that holds no value: "a model that finds such a read faults rather than supplying a value"
(10_state.md rule R18, decision D29), by 93_implementation_defined.md I10 a fatal error. DESIGN CHOICE, safe (entry 23): it is
taken as `raise` takes every error (R151), and its kind, which the spec does not name, is a free value. -/
def State.raiseUnwritten (s : State) : State :=
  { s.raise (.fatal (Config.unwrittenErr s.unwrittenReads)) with unwrittenReads := s.unwrittenReads + 1 }

/-- An operation as a step: an error raised is taken as one indivisible step to the FAULTED state (R151). -/
def Res.outcome {α : Type} (r : Res α) : Host.Outcome State Fault Refusal :=
  match r with
  | .ok _ s => .next s
  | .raised e s => .next (s.raise e)
  | .unwritten _ s => .next s.raiseUnwritten
  | .stop f => .fault f
  | .refused x => .refused x

/-- The only way out of FAULTED: `START(SRC, SRCLEN)` (70_reset_and_hazards.md rule R180; there is no return from an error,
R161). The host's channels `hostStart` and `outCapacity` stay, and so does the model's count `unwrittenReads`. -/
def State.start (src : List Byte) (s : State) : State :=
  { s with
    src := Cells.ofList 0 src
    srclen := src.length
    status := .running
    err := .none
    phase := .readHeader
    bytepos := 0
    acc := 0
    bitcnt := 0
    out := []
    outlen := 0
    blocks := 0
    blk := BlockState.fresh
    result := none }

/-! ## Registers that may hold no value -/

/-- The value of register `r`, or the fatal error of a read that finds none (10_state.md rule R18; entries 5 and 23). -/
def need {α : Type} (r : Reg) (o : Option α) (s : State) : Res α :=
  match o with
  | some v => .ok v s
  | none => .unwritten r s

/-- `s` with its BlockState replaced. -/
def State.withBlk (s : State) (b : BlockState) : State :=
  { s with blk := b }

/-- `phase <- P` (00_scope.md rule R9). -/
def State.withPhase (s : State) (p : Phase) : State :=
  { s with phase := p }

/-- The model's own: what a component operation returned (entry 8). -/
def State.withResult (s : State) (r : OpResult) : State :=
  { s with result := some r }

/-- A tree of the block. -/
def BlockState.tree (b : BlockState) : TreeId → Option Tree
  | .cl => b.cltree
  | .ll => b.lltree
  | .d => b.dtree

/-- The block with a tree replaced. -/
def BlockState.withTree (b : BlockState) (t : TreeId) (T : Tree) : BlockState :=
  match t with
  | .cl => { b with cltree := some T }
  | .ll => { b with lltree := some T }
  | .d => { b with dtree := some T }

/-- `s` with a tree of its block replaced. -/
def State.withTree (s : State) (t : TreeId) (T : Tree) : State :=
  s.withBlk (s.blk.withTree t T)

/-- The cursor of a tree of the block. -/
def BlockState.cursor (b : BlockState) : TreeId → TreeCursor
  | .cl => b.clcursor
  | .ll => b.llcursor
  | .d => b.dcursor

/-- The block with a tree's cursor replaced. -/
def BlockState.withTreeCursor (b : BlockState) (t : TreeId) (c : TreeCursor) : BlockState :=
  match t with
  | .cl => { b with clcursor := c }
  | .ll => { b with llcursor := c }
  | .d => { b with dcursor := c }

/-- `s` with a tree's cursor replaced. -/
def State.withTreeCursor (s : State) (t : TreeId) (c : TreeCursor) : State :=
  s.withBlk (s.blk.withTreeCursor t c)

/-- A new tree replaces the block's tree of the same name; no rule has written its cursor, which holds no value (10_state.md
rule R18). DEDUCED, safe (entry 5). -/
def State.withNewTree (s : State) (t : TreeId) (T : Tree) : State :=
  (s.withTree t T).withTreeCursor t .unwritten

/-- `LLLEN[i] <- v`. -/
def BlockState.writeLllen (b : BlockState) (i : Nat) (v : BitVec 4) : BlockState :=
  { b with lllen := Cells.write b.lllen i v }

/-- `DLEN[i] <- v`. -/
def BlockState.writeDlen (b : BlockState) (i : Nat) (v : BitVec 4) : BlockState :=
  { b with dlen := Cells.write b.dlen i v }

/-- `CLLEN`: an entry that no rule has written in the block is 0 (10_state.md rule R19). -/
def BlockState.clLens (b : BlockState) : List (BitVec 3) :=
  b.cllen.getD (List.replicate 19 0)

/-! ## BitReader -/

/-- `BITPOS = 8*BYTEPOS - BITCNT`, the program counter (10_state.md rule R12). -/
def State.bitpos (s : State) : Nat :=
  8 * s.bytepos - s.bitcnt

/-- The BitCursor (10_state.md rule R10) with new contents. -/
def State.withCursor (s : State) (bytepos : Nat) (acc : BitVec 24) (bitcnt : Nat) : State :=
  { s with bytepos := bytepos, acc := acc, bitcnt := bitcnt }

/-- `REFILL()` (40_bitreader.md rule R71). -/
def refill (s : State) : Res Unit :=
  if s.srclen ≤ s.bytepos then .raised .streamExhausted s
  else
    match Cells.read s.src s.bytepos with
    | none => .stop (.badAddress .src s.bytepos)
    | some b =>
      .ok () (s.withCursor (s.bytepos + 1) (s.acc ||| (b.setWidth 24 <<< s.bitcnt)) (s.bitcnt + 8))

/-- `while BITCNT < n: REFILL()` (rules R70, R72). `n` turns are enough, since each adds eight bits. -/
def fillLoop (n : Nat) : Nat → State → Res Unit
  | 0, s => .ok () s
  | turns + 1, s =>
    if s.bitcnt < n then (refill s).bind fun _ s1 => fillLoop n turns s1
    else .ok () s

/-- Refill until `BITCNT >= n`. -/
def fill (n : Nat) (s : State) : Res Unit :=
  fillLoop n n s

/-- `ACC[n-1:0]`, 0 when `n = 0` (rule R70). -/
def State.accLow (s : State) (n : Nat) : Nat :=
  s.acc.toNat % 2 ^ n

/-- `READBITS(n)` (40_bitreader.md rule R70). -/
def readBits (n : Nat) (s : State) : Res Nat :=
  (fill n s).bind fun _ s1 =>
    .ok (s1.accLow n) (s1.withCursor s1.bytepos (s1.acc >>> n) (s1.bitcnt - n))

/-- `PEEKBITS(n)` (40_bitreader.md rule R72). -/
def peekBits (n : Nat) (s : State) : Res Nat :=
  (fill n s).bind fun _ s1 => .ok (s1.accLow n) s1

/-! ## The output buffer -/

/-- Whether `OUT` has no room for a further byte; an unbounded `OUT` always has (20_memory.md rule R45). -/
def State.outIsFull (s : State) : Bool :=
  match s.outCapacity with
  | none => false
  | some c => decide (c ≤ s.outlen)

/-- `OUT[OUTLEN] <- b; OUTLEN <- OUTLEN + 1`. -/
def State.append (s : State) (b : Byte) : State :=
  { s with out := Cells.write s.out s.outlen b, outlen := s.outlen + 1 }

/-- `OutAppend(b)` (20_memory.md rule R45). -/
def outAppend (b : Byte) (s : State) : Res Unit :=
  if s.outIsFull then .stop .outFull else .ok () (s.append b)

/-- `MemRead(OUT, a, 1)` (20_memory.md rule R45). -/
def outRead (a : Nat) (s : State) : Res Byte :=
  match Cells.read s.out a with
  | some b => .ok b s
  | none => .stop (.badAddress .out a)

end Sys2Proof.Machine
end

