-- ==== Sys2Proof/Machine/BitReader.lean ====
section
/-! DEFINITION. The BitReader's operations as instructions (40_bitreader.md). What an operation returns goes to `result`
(entry 8). -/

namespace Sys2Proof.Machine

/-- `READBITS(n)` (R70); a request wider than `READ_MAX` is refused (R75). -/
def execReadBits (n : Nat) (s : State) : Host.Outcome State Fault Refusal :=
  if Config.readMax < n then .refused (.readTooWide n)
  else ((readBits n s).bind fun v s1 => .ok () (s1.withResult (.value v))).outcome

/-- `REFILL()` (R71). As an operation of its own it is refused when there is a byte to fetch and `BITCNT` is above 15, for
`BITCNT` never exceeds 23 (R11; entry 15). -/
def execRefill (s : State) : Host.Outcome State Fault Refusal :=
  if s.bytepos < s.srclen ∧ 15 < s.bitcnt then .refused .refillNoRoom
  else (refill s).outcome

/-- `PEEKBITS(n)` (R72), present when `HAS_PEEK`; a request wider than `READ_MAX` is refused (R75). -/
def execPeekBits (n : Nat) (s : State) : Host.Outcome State Fault Refusal :=
  if Config.hasPeek = false then .refused .peekAbsent
  else if Config.readMax < n then .refused (.readTooWide n)
  else ((peekBits n s).bind fun v s1 => .ok () (s1.withResult (.value v))).outcome

end Sys2Proof.Machine
end

