-- ==== Sys2Proof/Machine/Flags.lean ====
section
/-! DEFINITION. The flags. The core has no condition codes; its flags are `BFINAL` and the bits of `STATUS` and `ERR`
(10_state.md rule R25). -/

namespace Sys2Proof.Machine

/-- The two bits of `STATUS` (10_state.md rule R15). -/
def Status.code : Status → BitVec 2
  | .idle => 0
  | .running => 1
  | .complete => 2
  | .faulted => 3

/-- The three bits of `ERR` (60_exceptions.md rule R150). -/
def ErrCode.code : ErrCode → BitVec 3
  | .none => 0
  | .headerError => 1
  | .unsupportedBlockType => 2
  | .malformedHuffmanCode => 3
  | .invalidRunLengthContext => 4
  | .invalidBackReference => 5
  | .streamExhausted => 6

/-- The two bits of `PHASE` (10_state.md section 1.1). -/
def Phase.code : Phase → BitVec 2
  | .readHeader => 0
  | .readDynamicTables => 1
  | .decodeSymbols => 2
  | .done => 3

/-- `BFINAL <- f` (44_block_decoder.md rule R120). -/
def State.withBFinal (s : State) (f : BitVec 1) : State :=
  s.withBlk { s.blk with bfinal := some f }

/-- `BTYPE <- t` (44_block_decoder.md rule R120). -/
def State.withBType (s : State) (t : BitVec 2) : State :=
  s.withBlk { s.blk with btype := some t }

/-- The `BFINAL` test of Done: `STATUS <- COMPLETE` after the last block, else `PHASE <- ReadHeader` and the BlockState is
destroyed (44_block_decoder.md rule R132, 10_state.md rule R17). After the last block its registers keep their values: the
core never reads them again and I11 leaves them any value (DESIGN CHOICE, entry 22). -/
def State.endBlock (s : State) (bfinal : BitVec 1) : State :=
  if bfinal = 1 then { s with status := .complete }
  else { s with phase := .readHeader, blk := BlockState.fresh }

end Sys2Proof.Machine
end

