-- ==== Sys2Proof/Machine/Huffman.lean ====
section
/-! DEFINITION. The pure parts of the CanonicalHuffmanBuilder (41_huffman_builder.md) and of the HuffmanDecodeTree
(42_huffman_tree.md), over plain data. -/

namespace Sys2Proof.Machine

/-! ## Canonical codes -/

/-- `bl_count[L]`: how many symbols have length `L` (R80). -/
def blCount (lengths : List Nat) (L : Nat) : Nat :=
  lengths.count L

/-- `next_code[L]` before the first assignment: `next_code[1] = 0` and `next_code[L] = (next_code[L-1] + bl_count[L-1]) << 1`
(R80). -/
def firstCode (lengths : List Nat) : Nat → Nat
  | 0 => 0
  | 1 => 0
  | L + 2 => (firstCode lengths (L + 1) + blCount lengths (L + 1)) <<< 1

/-- `next_code[0..maxLen]` before the first assignment; entry 0 is not used. -/
def firstCodes (lengths : List Nat) (maxLen : Nat) : List Nat :=
  (List.range (maxLen + 1)).map (firstCode lengths)

/-- The assignment loop in ascending symbol order, from symbol `s` on (R80): the error is the symbol whose code does not
fit its length (R81). -/
def assignCodes (nextCode : List Nat) (s : Nat) : List Nat → Except Nat (List (Option Code))
  | [] => .ok []
  | L :: rest =>
    if L = 0 then
      match assignCodes nextCode (s + 1) rest with
      | .ok cs => .ok (none :: cs)
      | .error e => .error e
    else if 2 ^ L ≤ nextCode.getD L 0 then .error s
    else
      match assignCodes (nextCode.set L (nextCode.getD L 0 + 1)) (s + 1) rest with
      | .ok cs => .ok (some ⟨nextCode.getD L 0, L⟩ :: cs)
      | .error e => .error e

/-- `CANON(lengths, maxLen)` (R80): each symbol's code, or the symbol at which the table over-subscribes. -/
def canon (lengths : List Nat) (maxLen : Nat) : Except Nat (List (Option Code)) :=
  assignCodes (firstCodes lengths maxLen) 0 lengths

/-! ## The tree -/

/-- Why an operation on a tree does not complete. -/
inductive TreeErr where
  /-- `MalformedHuffmanCode` is raised -/
  | malformed
  /-- a field that holds no value is read: a child of a LEAF or a node never created -/
  | noNode
  deriving DecidableEq, Repr

/-- A new tree: one INTERNAL root with no child, `T.maxlen` 0 (R90). -/
def Tree.new : Tree where
  nodes := [.internal none none]
  maxlen := 0

/-- `T.count`, the nodes in use (R90). -/
def Tree.count (T : Tree) : Nat :=
  T.nodes.length

/-- `T.child[i][b]`, none where node `i` has no child field. -/
def Tree.child (T : Tree) (i : Nat) (b : Bool) : Option (Option Nat) :=
  match T.nodes[i]? with
  | some (.internal c0 c1) => some (if b then c1 else c0)
  | _ => none

/-- A node with its child `b` replaced. -/
def Node.withChild (n : Node) (b : Bool) (j : Nat) : Node :=
  match n with
  | .internal c0 c1 => if b then .internal c0 (some j) else .internal (some j) c1
  | .leaf s => .leaf s

/-- `T.child[i][b] <- NEWNODE(T, n)`: node `T.count` is created and made the child (R90, R91). -/
def Tree.addChild (T : Tree) (i : Nat) (b : Bool) (n : Node) : Tree :=
  { T with nodes := T.nodes.modify i (·.withChild b T.count) ++ [n] }

/-- The loop of `ADDLEAF` over the code bits `i` down to 1, from `node` (R91). -/
def Tree.addPath (c : Nat) : Nat → Tree → Nat → Except TreeErr (Tree × Nat)
  | 0, T, node => .ok (T, node)
  | i + 1, T, node =>
    match T.child node (c.testBit (i + 1)) with
    | none => .error .noNode
    | some none => Tree.addPath c i (T.addChild node (c.testBit (i + 1)) (.internal none none)) T.count
    | some (some j) =>
      match T.nodes[j]? with
      | none => .error .noNode
      | some (.leaf _) => .error .malformed
      | some (.internal _ _) => Tree.addPath c i T j

/-- `ADDLEAF(T, c, L, s)` (R91). -/
def Tree.addLeaf (T : Tree) (c L s : Nat) : Except TreeErr Tree :=
  match Tree.addPath c (L - 1) T 0 with
  | .error e => .error e
  | .ok (T1, node) =>
    match T1.child node (c.testBit 0) with
    | none => .error .noNode
    | some (some _) => .error .malformed
    | some none => .ok { T1.addChild node (c.testBit 0) (.leaf s) with maxlen := max T1.maxlen L }

/-- The insertion loop of `BUILD` in ascending symbol order, from symbol `s` on (R96). -/
def Tree.addCodes (T : Tree) (s : Nat) : List (Option Code) → Except TreeErr Tree
  | [] => .ok T
  | none :: rest => T.addCodes (s + 1) rest
  | some c :: rest =>
    match T.addLeaf c.code c.len s with
    | .error e => .error e
    | .ok T1 => T1.addCodes (s + 1) rest

/-- `BUILD(lengths, maxLen)` (R96). -/
def Tree.build (lengths : List Nat) (maxLen : Nat) : Except TreeErr Tree :=
  match canon lengths maxLen with
  | .error _ => .error .malformed
  | .ok cs => Tree.new.addCodes 0 cs

/-- What one `DECODESTEP` finds (R92). -/
inductive StepOut where
  /-- a LEAF -/
  | symbol (s : Nat)
  /-- an INTERNAL node above the depth bound -/
  | cont (node : Nat)
  /-- no child, or an INTERNAL node at the depth bound -/
  | malformed
  /-- a field that holds no value is read -/
  | noNode
  deriving DecidableEq, Repr

/-- `DECODESTEP(T, b)` with `T.NODE` at `n` and `T.DEPTH` at `d`: what it finds (R92). -/
def Tree.decodeStep (T : Tree) (n d : Nat) (b : Bool) : StepOut :=
  match T.child n b with
  | none => .noNode
  | some none => .malformed
  | some (some j) =>
    match T.nodes[j]? with
    | none => .noNode
    | some (.leaf s) => .symbol s
    | some (.internal _ _) => if T.maxlen ≤ d + 1 then .malformed else .cont j

/-! ## The trees in the machine -/

/-- The error of a tree operation as the machine takes it. -/
def treeRes {α : Type} (t : TreeId) (r : Except TreeErr α) (s : State) : Res α :=
  match r with
  | .ok a => .ok a s
  | .error .malformed => .raised .malformedHuffmanCode s
  | .error .noNode => .unwritten (.treeNode t) s

/-- `T <- BUILD(lengths, maxLen)`: the new tree replaces the block's tree of the same name (R96). -/
def buildTree (t : TreeId) (lengths : List Nat) (maxLen : Nat) (s : State) : Res Unit :=
  (treeRes t (Tree.build lengths maxLen) s).bind fun T s1 => .ok () (s1.withNewTree t T)

/-- The cursor at the root. -/
def TreeCursor.root : TreeCursor where
  node := some 0
  depth := some 0

/-- `RESETCURSOR(T)`: two writes, no read, no exception (R93). DEDUCED, safe (entry 5): it completes whether or not a `BUILD`
of the block has made the tree `T`. -/
def resetCursor (t : TreeId) (s : State) : Res Unit :=
  .ok () (s.withTreeCursor t .root)

/-- `DECODESTEP(T, b)` on a tree of the block: the symbol, or none for CONTINUE (R92). A step that raises has not started, so
it leaves the cursor as it found it (60_exceptions.md rule R159; entry 12). -/
def decodeStep (t : TreeId) (b : Bool) (s : State) : Res (Option Nat) :=
  (need (.tree t) (s.blk.tree t) s).bind fun T s1 =>
    (need (.node t) (s1.blk.cursor t).node s1).bind fun n s2 =>
      (need (.depth t) (s2.blk.cursor t).depth s2).bind fun d s3 =>
        match T.decodeStep n d b with
        | .symbol v => .ok (some v) (s3.withTreeCursor t ⟨some n, some (d + 1)⟩)
        | .cont j => .ok none (s3.withTreeCursor t ⟨some j, some (d + 1)⟩)
        | .malformed => .raised .malformedHuffmanCode s3
        | .noNode => .unwritten (.treeNode t) s3

/-- Turns enough for the loop of `DECODESYM`: the depth check of `DECODESTEP` ends it within `T.maxlen` (R97), and without a
tree the first `DECODESTEP` ends it. -/
def descentTurns (o : Option Tree) : Nat :=
  match o with
  | some T => T.maxlen + 1
  | none => 1

/-- The loop of `DECODESYM(T)` (R94). Past the turns given it would take the document's guaranteed failure path (R97). -/
def decodeLoop (t : TreeId) : Nat → State → Res Nat
  | 0, s => .raised .malformedHuffmanCode s
  | turns + 1, s =>
    (readBits 1 s).bind fun b s1 =>
      (decodeStep t (b == 1) s1).bind fun r s2 =>
        match r with
        | some v => (resetCursor t s2).bind fun _ s3 => .ok v s3
        | none => decodeLoop t turns s2

/-- `DECODESYM(T)` (R94). -/
def decodeSym (t : TreeId) (s : State) : Res Nat :=
  (resetCursor t s).bind fun _ s1 => decodeLoop t (descentTurns (s1.blk.tree t)) s1

end Sys2Proof.Machine
end

