-- ==== Sys2Proof/Machine/BlockHeader.lean ====
section
/-! DEFINITION. The block header and the dynamic header (44_block_decoder.md sections 1 and 2). The header's bits have been
consumed when a meaning runs. -/

namespace Sys2Proof.Machine

/-- `BFINAL` and `BTYPE` written, then the `BTYPE` check (R120, R121). -/
def blockHeader (bfinal : BitVec 1) (btype : BitVec 2) (s : State) : Res Unit :=
  if btype = 2 then .ok () (((s.withBFinal bfinal).withBType btype).withPhase .readDynamicTables)
  else .raised .unsupportedBlockType ((s.withBFinal bfinal).withBType btype)

/-- `HLIT <- h; NLIT <- HLIT + 257` (R122). -/
def State.withHlit (s : State) (h : BitVec 5) : State :=
  s.withBlk { s.blk with hlit := some h, nlit := some (h.toNat + 257) }

/-- `HDIST <- h; NDIST <- HDIST + 1` (R122). -/
def State.withHdist (s : State) (h : BitVec 5) : State :=
  s.withBlk { s.blk with hdist := some h, ndist := some (h.toNat + 1) }

/-- `HCLEN <- h` (R122). -/
def State.withHclen (s : State) (h : BitVec 4) : State :=
  s.withBlk { s.blk with hclen := some h }

/-- The five registers of the dynamic header (R122). -/
def State.withDynHeader (s : State) (hlit hdist : BitVec 5) (hclen : BitVec 4) : State :=
  ((s.withHlit hlit).withHdist hdist).withHclen hclen

/-- `RANGE_CHECK()` (R123). -/
def rangeCheck (s : State) : Res Unit :=
  (need .nlit s.blk.nlit s).bind fun nlit s1 =>
    (need .ndist s1.blk.ndist s1).bind fun ndist s2 =>
      if 286 < nlit ∨ 30 < ndist then .raised .malformedHuffmanCode s2 else .ok () s2

/-- `TABLES()` (R124): the literal/length tree first, then the distance tree. -/
def tables (s : State) : Res Unit :=
  (need .lllen (Cells.readList s.blk.lllen 0 286) s).bind fun ll s1 =>
    (buildTree .ll (ll.map BitVec.toNat) Config.maxLen s1).bind fun _ s2 =>
      (need .dlen (Cells.readList s2.blk.dlen 0 30) s2).bind fun d s3 =>
        (buildTree .d (d.map BitVec.toNat) Config.maxLen s3).bind fun _ s4 => .ok () (s4.withPhase .decodeSymbols)

/-- `BLK_DYNAMIC` (R120). -/
def execBlkDynamic (bfinal : BitVec 1) (s : State) : Host.Outcome State Fault Refusal :=
  (blockHeader bfinal 2 s).outcome

/-- `BLK_STORED` (R121). -/
def execBlkStored (bfinal : BitVec 1) (s : State) : Host.Outcome State Fault Refusal :=
  (blockHeader bfinal 0 s).outcome

/-- `BLK_FIXED` (R121). -/
def execBlkFixed (bfinal : BitVec 1) (s : State) : Host.Outcome State Fault Refusal :=
  (blockHeader bfinal 1 s).outcome

/-- `BLK_RESERVED` (R121). -/
def execBlkReserved (bfinal : BitVec 1) (s : State) : Host.Outcome State Fault Refusal :=
  (blockHeader bfinal 3 s).outcome

/-- `DYN_HEADER` (R122, R123). -/
def execDynHeader (hlit hdist : BitVec 5) (hclen : BitVec 4) (s : State) : Host.Outcome State Fault Refusal :=
  (rangeCheck (s.withDynHeader hlit hdist hclen)).outcome

/-- `DYN_HLIT_RESERVED` (R123). -/
def execDynHlitReserved (hlit hdist : BitVec 5) (hclen : BitVec 4) (s : State) : Host.Outcome State Fault Refusal :=
  .next ((s.withDynHeader hlit hdist hclen).raise .malformedHuffmanCode)

/-- `DYN_HDIST_RESERVED` (R123). -/
def execDynHdistReserved (hlit hdist : BitVec 5) (hclen : BitVec 4) (s : State) : Host.Outcome State Fault Refusal :=
  .next ((s.withDynHeader hlit hdist hclen).raise .malformedHuffmanCode)

/-- `RANGE_CHECK()` (R123). -/
def execRangeCheck (s : State) : Host.Outcome State Fault Refusal :=
  (rangeCheck s).outcome

/-- `TABLES()` (R124). -/
def execTables (s : State) : Host.Outcome State Fault Refusal :=
  (tables s).outcome

end Sys2Proof.Machine
end

