-- ==== Sys2Proof/Machine/Operands.lean ====
section
/-! DEFINITION. The hardwired tables (10_state.md section 1.4) and operand assembly: a base plus zero-extended extra bits
(30_encoding.md section 2). -/

namespace Sys2Proof.Machine

/-- `CL_ORDER` (30_encoding.md rule R57). -/
def clOrder : List Nat :=
  [16, 17, 18, 0, 8, 7, 9, 6, 10, 5, 11, 4, 12, 3, 13, 2, 14, 1, 15]

/-- `LENGTH_BASE` (30_encoding.md rule R60). -/
def lengthBase : List Nat :=
  [3, 4, 5, 6, 7, 8, 9, 10, 11, 13, 15, 17, 19, 23, 27, 31, 35, 43, 51, 59, 67, 83, 99, 115, 131, 163, 195, 227, 258]

/-- `LENGTH_EXTRA` (30_encoding.md rule R60). -/
def lengthExtra : List Nat :=
  [0, 0, 0, 0, 0, 0, 0, 0, 1, 1, 1, 1, 2, 2, 2, 2, 3, 3, 3, 3, 4, 4, 4, 4, 5, 5, 5, 5, 0]

/-- `DIST_BASE` (30_encoding.md rule R62). -/
def distBase : List Nat :=
  [1, 2, 3, 4, 5, 7, 9, 13, 17, 25, 33, 49, 65, 97, 129, 193, 257, 385, 513, 769, 1025, 1537, 2049, 3073, 4097, 6145,
    8193, 12289, 16385, 24577]

/-- `DIST_EXTRA`, 30 entries (30_encoding.md rule R62, 90_conflicts.md C2). -/
def distExtra : List Nat :=
  [0, 0, 0, 0, 1, 1, 2, 2, 3, 3, 4, 4, 5, 5, 6, 6, 7, 7, 8, 8, 9, 9, 10, 10, 11, 11, 12, 12, 13, 13]

/-- `base + READBITS(extra)`: how every length, distance and run length is assembled (30_encoding.md rules R61, R63, R64). -/
def basePlusExtra (base extra : Nat) (s : State) : Res Nat :=
  (readBits extra s).bind fun x s1 => .ok (base + x) s1

end Sys2Proof.Machine
end

