-- ==== Sys2Proof/Machine/CodeLengths.lean ====
section
/-! DEFINITION. The CodeLengthAlphabetDecoder (43_code_length_expander.md). The symbol's Huffman code has been consumed when
a CL symbol's meaning runs; its extra bits have not. -/

namespace Sys2Proof.Machine

/-- The start of rule R100: every `CLLEN` entry is 0 (R19), and the loop begins at field 0. -/
def State.beginClLens (s : State) : State :=
  s.withBlk { s.blk with cllen := some (List.replicate 19 0), clIdx := 0, clPoint := .clLens }

/-- One turn of the loop of R100: `CLLEN[CL_ORDER[i]] <- n`, a write; an entry not written in the block is 0 (R19). -/
def clLen (n : BitVec 3) (s : State) : Res Unit :=
  match clOrder[s.blk.clIdx]? with
  | none => .refused .operandOutOfRange
  | some sym => .ok () (s.withBlk { s.blk with cllen := some (s.blk.clLens.set sym n), clIdx := s.blk.clIdx + 1 })

/-- `LENSEQ[SEQCNT..SEQCNT+n-1] <- v; SEQCNT <- SEQCNT + n`. `LENSEQ` has 316 entries (R20). -/
def writeLens (v : BitVec 4) (n : Nat) (s : State) : Res Unit :=
  (need .seqcnt s.blk.seqcnt s).bind fun k s1 =>
    if 316 < k + n then .stop .lenseqFull
    else
      .ok () (s1.withBlk { s1.blk with lenseq := Cells.writeRun s1.blk.lenseq k v n, seqcnt := some (k + n) })

/-- `TOTAL = NLIT + NDIST` (R102). -/
def seqTotal (s : State) : Res Nat :=
  (need .nlit s.blk.nlit s).bind fun a s1 => (need .ndist s1.blk.ndist s1).bind fun b s2 => .ok (a + b) s2

/-- `OVERRUN_CHECK()` (R107). -/
def overrunCheck (s : State) : Res Unit :=
  (need .seqcnt s.blk.seqcnt s).bind fun k s1 =>
    (need .rep s1.blk.rep s1).bind fun r s2 =>
      (seqTotal s2).bind fun total s3 =>
        if total < k + r then .raised .invalidRunLengthContext s3 else .ok () s3

/-- A CL repeat: `REP <- base + READBITS(extra)`, `OVERRUN_CHECK()`, then `REP` entries `v` (R104, R105, R106). -/
def repeatLen (v : BitVec 4) (base extra : Nat) (s : State) : Res Unit :=
  (basePlusExtra base extra s).bind fun r s1 =>
    (overrunCheck (s1.withBlk { s1.blk with rep := some r })).bind fun _ s2 => writeLens v r s2

/-- `CL_REP16` (R104): the check for a previous length comes before the extra bits (decision D9). -/
def clRep16 (s : State) : Res Unit :=
  (need .seqcnt s.blk.seqcnt s).bind fun k s1 =>
    if k = 0 then .raised .invalidRunLengthContext s1
    else
      (need (.lenseq (k - 1)) (Cells.read s1.blk.lenseq (k - 1)) s1).bind fun prev s2 => repeatLen prev 3 2 s2

/-- `(i < count) ? LENSEQ[base + i] : 0` (R108). -/
def splitEntry (base count i : Nat) (s : State) : Res (BitVec 4) :=
  if i < count then need (.lenseq (base + i)) (Cells.read s.blk.lenseq (base + i)) s else .ok 0 s

/-- The `n` entries from `i` on of one loop of R108, each written by `w`. -/
def splitLoop (w : BlockState → Nat → BitVec 4 → BlockState) (base count : Nat) : Nat → Nat → State → Res Unit
  | 0, _, s => .ok () s
  | n + 1, i, s =>
    (splitEntry base count i s).bind fun v s1 => splitLoop w base count n (i + 1) (s1.withBlk (w s1.blk i v))

/-- The split of the sequence into `LLLEN` and `DLEN` (R108). -/
def splitLengths (s : State) : Res Unit :=
  (need .nlit s.blk.nlit s).bind fun nlit s1 =>
    (splitLoop BlockState.writeLllen 0 nlit 286 0 s1).bind fun _ s2 =>
      (need .ndist s2.blk.ndist s2).bind fun ndist s3 => splitLoop BlockState.writeDlen nlit ndist 30 0 s3

/-- `CL_LEN` (R100). -/
def execClLen (n : BitVec 3) (s : State) : Host.Outcome State Fault Refusal :=
  (clLen n s).outcome

/-- `CL_LIT_0` (R103). -/
def execClLit0 (s : State) : Host.Outcome State Fault Refusal :=
  (writeLens 0 1 s).outcome

/-- `CL_LIT_1` (R103). -/
def execClLit1 (s : State) : Host.Outcome State Fault Refusal :=
  (writeLens 1 1 s).outcome

/-- `CL_LIT_2` (R103). -/
def execClLit2 (s : State) : Host.Outcome State Fault Refusal :=
  (writeLens 2 1 s).outcome

/-- `CL_LIT_3` (R103). -/
def execClLit3 (s : State) : Host.Outcome State Fault Refusal :=
  (writeLens 3 1 s).outcome

/-- `CL_LIT_4` (R103). -/
def execClLit4 (s : State) : Host.Outcome State Fault Refusal :=
  (writeLens 4 1 s).outcome

/-- `CL_LIT_5` (R103). -/
def execClLit5 (s : State) : Host.Outcome State Fault Refusal :=
  (writeLens 5 1 s).outcome

/-- `CL_LIT_6` (R103). -/
def execClLit6 (s : State) : Host.Outcome State Fault Refusal :=
  (writeLens 6 1 s).outcome

/-- `CL_LIT_7` (R103). -/
def execClLit7 (s : State) : Host.Outcome State Fault Refusal :=
  (writeLens 7 1 s).outcome

/-- `CL_LIT_8` (R103). -/
def execClLit8 (s : State) : Host.Outcome State Fault Refusal :=
  (writeLens 8 1 s).outcome

/-- `CL_LIT_9` (R103). -/
def execClLit9 (s : State) : Host.Outcome State Fault Refusal :=
  (writeLens 9 1 s).outcome

/-- `CL_LIT_10` (R103). -/
def execClLit10 (s : State) : Host.Outcome State Fault Refusal :=
  (writeLens 10 1 s).outcome

/-- `CL_LIT_11` (R103). -/
def execClLit11 (s : State) : Host.Outcome State Fault Refusal :=
  (writeLens 11 1 s).outcome

/-- `CL_LIT_12` (R103). -/
def execClLit12 (s : State) : Host.Outcome State Fault Refusal :=
  (writeLens 12 1 s).outcome

/-- `CL_LIT_13` (R103). -/
def execClLit13 (s : State) : Host.Outcome State Fault Refusal :=
  (writeLens 13 1 s).outcome

/-- `CL_LIT_14` (R103). -/
def execClLit14 (s : State) : Host.Outcome State Fault Refusal :=
  (writeLens 14 1 s).outcome

/-- `CL_LIT_15` (R103). -/
def execClLit15 (s : State) : Host.Outcome State Fault Refusal :=
  (writeLens 15 1 s).outcome

/-- `CL_REP16` (R104). -/
def execClRep16 (s : State) : Host.Outcome State Fault Refusal :=
  (clRep16 s).outcome

/-- `CL_ZERO17` (R105). -/
def execClZero17 (s : State) : Host.Outcome State Fault Refusal :=
  (repeatLen 0 3 3 s).outcome

/-- `CL_ZERO18` (R106). -/
def execClZero18 (s : State) : Host.Outcome State Fault Refusal :=
  (repeatLen 0 11 7 s).outcome

/-- `OVERRUN_CHECK()` (R107). -/
def execOverrunCheck (s : State) : Host.Outcome State Fault Refusal :=
  (overrunCheck s).outcome

end Sys2Proof.Machine
end

