-- ==== Sys2Proof/Machine/Distance.lean ====
section
/-! DEFINITION. The distance symbols, the check and the copy (44_block_decoder.md section 3). The symbol's Huffman code has
been consumed when a meaning runs; its extra bits have not. -/

namespace Sys2Proof.Machine

/-- `CHECK()` (R130). -/
def check (s : State) : Res Unit :=
  (need .distance s.blk.distance s).bind fun d s1 =>
    if s1.outlen < d then .raised .invalidBackReference s1 else .ok () s1

/-- A distance symbol `d`: `DISTANCE <- DIST_BASE[d] + READBITS(DIST_EXTRA[d])`, then `CHECK()` (R129). -/
def distanceSym (d : Nat) (s : State) : Res Unit :=
  (basePlusExtra (distBase.getD d 0) (distExtra.getD d 0) s).bind fun v s1 =>
    check (s1.withBlk { s1.blk with distance := some v })

/-- One turn of the copy loop (R131); with `COPYREM = 0` the loop has ended and nothing is done. -/
def copyByte (s : State) : Res Unit :=
  (need .copyrem s.blk.copyrem s).bind fun r s1 =>
    if r = 0 then .ok () s1
    else
      (need .distance s1.blk.distance s1).bind fun d s2 =>
        if s2.outlen < d then .stop .copyBeforeStart
        else
          (outRead (s2.outlen - d) s2).bind fun b s3 =>
            (outAppend b s3).bind fun _ s4 => .ok () (s4.withBlk { s4.blk with copyrem := some (r - 1) })

/-- `DIST_0` (R129). -/
def execDist0 (s : State) : Host.Outcome State Fault Refusal :=
  (distanceSym 0 s).outcome

/-- `DIST_1` (R129). -/
def execDist1 (s : State) : Host.Outcome State Fault Refusal :=
  (distanceSym 1 s).outcome

/-- `DIST_2` (R129). -/
def execDist2 (s : State) : Host.Outcome State Fault Refusal :=
  (distanceSym 2 s).outcome

/-- `DIST_3` (R129). -/
def execDist3 (s : State) : Host.Outcome State Fault Refusal :=
  (distanceSym 3 s).outcome

/-- `DIST_4` (R129). -/
def execDist4 (s : State) : Host.Outcome State Fault Refusal :=
  (distanceSym 4 s).outcome

/-- `DIST_5` (R129). -/
def execDist5 (s : State) : Host.Outcome State Fault Refusal :=
  (distanceSym 5 s).outcome

/-- `DIST_6` (R129). -/
def execDist6 (s : State) : Host.Outcome State Fault Refusal :=
  (distanceSym 6 s).outcome

/-- `DIST_7` (R129). -/
def execDist7 (s : State) : Host.Outcome State Fault Refusal :=
  (distanceSym 7 s).outcome

/-- `DIST_8` (R129). -/
def execDist8 (s : State) : Host.Outcome State Fault Refusal :=
  (distanceSym 8 s).outcome

/-- `DIST_9` (R129). -/
def execDist9 (s : State) : Host.Outcome State Fault Refusal :=
  (distanceSym 9 s).outcome

/-- `DIST_10` (R129). -/
def execDist10 (s : State) : Host.Outcome State Fault Refusal :=
  (distanceSym 10 s).outcome

/-- `DIST_11` (R129). -/
def execDist11 (s : State) : Host.Outcome State Fault Refusal :=
  (distanceSym 11 s).outcome

/-- `DIST_12` (R129). -/
def execDist12 (s : State) : Host.Outcome State Fault Refusal :=
  (distanceSym 12 s).outcome

/-- `DIST_13` (R129). -/
def execDist13 (s : State) : Host.Outcome State Fault Refusal :=
  (distanceSym 13 s).outcome

/-- `DIST_14` (R129). -/
def execDist14 (s : State) : Host.Outcome State Fault Refusal :=
  (distanceSym 14 s).outcome

/-- `DIST_15` (R129). -/
def execDist15 (s : State) : Host.Outcome State Fault Refusal :=
  (distanceSym 15 s).outcome

/-- `DIST_16` (R129). -/
def execDist16 (s : State) : Host.Outcome State Fault Refusal :=
  (distanceSym 16 s).outcome

/-- `DIST_17` (R129). -/
def execDist17 (s : State) : Host.Outcome State Fault Refusal :=
  (distanceSym 17 s).outcome

/-- `DIST_18` (R129). -/
def execDist18 (s : State) : Host.Outcome State Fault Refusal :=
  (distanceSym 18 s).outcome

/-- `DIST_19` (R129). -/
def execDist19 (s : State) : Host.Outcome State Fault Refusal :=
  (distanceSym 19 s).outcome

/-- `DIST_20` (R129). -/
def execDist20 (s : State) : Host.Outcome State Fault Refusal :=
  (distanceSym 20 s).outcome

/-- `DIST_21` (R129). -/
def execDist21 (s : State) : Host.Outcome State Fault Refusal :=
  (distanceSym 21 s).outcome

/-- `DIST_22` (R129). -/
def execDist22 (s : State) : Host.Outcome State Fault Refusal :=
  (distanceSym 22 s).outcome

/-- `DIST_23` (R129). -/
def execDist23 (s : State) : Host.Outcome State Fault Refusal :=
  (distanceSym 23 s).outcome

/-- `DIST_24` (R129). -/
def execDist24 (s : State) : Host.Outcome State Fault Refusal :=
  (distanceSym 24 s).outcome

/-- `DIST_25` (R129). -/
def execDist25 (s : State) : Host.Outcome State Fault Refusal :=
  (distanceSym 25 s).outcome

/-- `DIST_26` (R129). -/
def execDist26 (s : State) : Host.Outcome State Fault Refusal :=
  (distanceSym 26 s).outcome

/-- `DIST_27` (R129). -/
def execDist27 (s : State) : Host.Outcome State Fault Refusal :=
  (distanceSym 27 s).outcome

/-- `DIST_28` (R129). -/
def execDist28 (s : State) : Host.Outcome State Fault Refusal :=
  (distanceSym 28 s).outcome

/-- `DIST_29` (R129). -/
def execDist29 (s : State) : Host.Outcome State Fault Refusal :=
  (distanceSym 29 s).outcome

/-- `DIST_30`: a model that decoded one raises `MalformedHuffmanCode` (R66, I12). -/
def execDist30 (s : State) : Host.Outcome State Fault Refusal :=
  .next (s.raise .malformedHuffmanCode)

/-- `DIST_31`: a model that decoded one raises `MalformedHuffmanCode` (R66, I12). -/
def execDist31 (s : State) : Host.Outcome State Fault Refusal :=
  .next (s.raise .malformedHuffmanCode)

/-- `CHECK()` (R130). -/
def execCheck (s : State) : Host.Outcome State Fault Refusal :=
  (check s).outcome

/-- `COPYBYTE` (R131). -/
def execCopyByte (s : State) : Host.Outcome State Fault Refusal :=
  (copyByte s).outcome

end Sys2Proof.Machine
end

