-- ==== Sys2Proof/Machine/HuffmanOps.lean ====
section
/-! DEFINITION. The operations of the CanonicalHuffmanBuilder and of the HuffmanDecodeTree as instructions
(41_huffman_builder.md, 42_huffman_tree.md). Operands outside the rule's ranges are refused (entry 17). -/

namespace Sys2Proof.Machine

/-- `CANON(lengths, maxLen)` (R80, R81). -/
def execCanon (lengths : List Nat) (maxLen : Nat) (s : State) : Host.Outcome State Fault Refusal :=
  if lengthTableOk lengths maxLen then
    match canon lengths maxLen with
    | .ok cs => .next (s.withResult (.codes cs))
    | .error _ => .next (s.raise .malformedHuffmanCode)
  else .refused .operandOutOfRange

/-- `ADDLEAF(T, c, L, s)` on a tree of the block (R91); nodes beyond the arena stop the machine (R90; entry 16). -/
def addLeafOp (t : TreeId) (c len sym : Nat) (s : State) : Res Unit :=
  (need (.tree t) (s.blk.tree t) s).bind fun T s1 =>
    (treeRes t (T.addLeaf c len sym) s1).bind fun T1 s2 =>
      if t.capacity < T1.count then .stop (.arenaFull t) else .ok () (s2.withTree t T1)

/-- `ADDLEAF` (R91). -/
def execAddLeaf (t : TreeId) (c len sym : Nat) (s : State) : Host.Outcome State Fault Refusal :=
  if addLeafOk t c len sym then (addLeafOp t c len sym s).outcome else .refused .operandOutOfRange

/-- `DECODESTEP(T, b)` (R92); CONTINUE is a return value (R25). -/
def execDecodeStep (t : TreeId) (b : Bool) (s : State) : Host.Outcome State Fault Refusal :=
  ((decodeStep t b s).bind fun r s1 =>
    match r with
    | some v => .ok () (s1.withResult (.symbol v))
    | none => .ok () (s1.withResult .cont)).outcome

/-- `RESETCURSOR(T)` (R93). -/
def execResetCursor (t : TreeId) (s : State) : Host.Outcome State Fault Refusal :=
  (resetCursor t s).outcome

/-- `DECODESYM(T)` (R94). -/
def execDecodeSym (t : TreeId) (s : State) : Host.Outcome State Fault Refusal :=
  ((decodeSym t s).bind fun v s1 => .ok () (s1.withResult (.symbol v))).outcome

/-- `T <- BUILD(lengths, maxLen)` (R96). The table is one for the tree's own alphabet, so the tree fits its arena (R90). -/
def execBuild (t : TreeId) (lengths : List Nat) (maxLen : Nat) (s : State) : Host.Outcome State Fault Refusal :=
  if buildOk t lengths maxLen then (buildTree t lengths maxLen s).outcome
  else .refused .operandOutOfRange

end Sys2Proof.Machine
end

