-- ==== Sys2Proof/Machine/Session.lean ====
section
/-! DEFINITION. The host's command (70_reset_and_hazards.md section 1). -/

namespace Sys2Proof.Machine

/-- `START(SRC, SRCLEN)` in any `STATUS` (R180, R181). -/
def execStart (src : List Byte) (s : State) : Host.Outcome State Fault Refusal :=
  .next (s.start src)

end Sys2Proof.Machine
end

