-- ==== Sys2Proof/Machine/Symbols.lean ====
section
/-! DEFINITION. The literal/length symbols (44_block_decoder.md section 3). The symbol's Huffman code has been consumed when a
meaning runs; its extra bits have not. -/

namespace Sys2Proof.Machine

/-- A length symbol of index `i = SYM - 257`: `LENGTH <- LENGTH_BASE[i] + READBITS(LENGTH_EXTRA[i])` (R128). `DIST()` is the
sequencer's next instruction. -/
def lengthSym (i : Nat) (s : State) : Res Unit :=
  (basePlusExtra (lengthBase.getD i 0) (lengthExtra.getD i 0) s).bind fun v s1 =>
    .ok () (s1.withBlk { s1.blk with length := some v })

/-- `LIT` (R126). -/
def execLit (b : Byte) (s : State) : Host.Outcome State Fault Refusal :=
  (outAppend b s).outcome

/-- `EOB` (R127). -/
def execEob (s : State) : Host.Outcome State Fault Refusal :=
  .next (s.withPhase .done)

/-- `LEN_257` (R128). -/
def execLen257 (s : State) : Host.Outcome State Fault Refusal :=
  (lengthSym 0 s).outcome

/-- `LEN_258` (R128). -/
def execLen258 (s : State) : Host.Outcome State Fault Refusal :=
  (lengthSym 1 s).outcome

/-- `LEN_259` (R128). -/
def execLen259 (s : State) : Host.Outcome State Fault Refusal :=
  (lengthSym 2 s).outcome

/-- `LEN_260` (R128). -/
def execLen260 (s : State) : Host.Outcome State Fault Refusal :=
  (lengthSym 3 s).outcome

/-- `LEN_261` (R128). -/
def execLen261 (s : State) : Host.Outcome State Fault Refusal :=
  (lengthSym 4 s).outcome

/-- `LEN_262` (R128). -/
def execLen262 (s : State) : Host.Outcome State Fault Refusal :=
  (lengthSym 5 s).outcome

/-- `LEN_263` (R128). -/
def execLen263 (s : State) : Host.Outcome State Fault Refusal :=
  (lengthSym 6 s).outcome

/-- `LEN_264` (R128). -/
def execLen264 (s : State) : Host.Outcome State Fault Refusal :=
  (lengthSym 7 s).outcome

/-- `LEN_265` (R128). -/
def execLen265 (s : State) : Host.Outcome State Fault Refusal :=
  (lengthSym 8 s).outcome

/-- `LEN_266` (R128). -/
def execLen266 (s : State) : Host.Outcome State Fault Refusal :=
  (lengthSym 9 s).outcome

/-- `LEN_267` (R128). -/
def execLen267 (s : State) : Host.Outcome State Fault Refusal :=
  (lengthSym 10 s).outcome

/-- `LEN_268` (R128). -/
def execLen268 (s : State) : Host.Outcome State Fault Refusal :=
  (lengthSym 11 s).outcome

/-- `LEN_269` (R128). -/
def execLen269 (s : State) : Host.Outcome State Fault Refusal :=
  (lengthSym 12 s).outcome

/-- `LEN_270` (R128). -/
def execLen270 (s : State) : Host.Outcome State Fault Refusal :=
  (lengthSym 13 s).outcome

/-- `LEN_271` (R128). -/
def execLen271 (s : State) : Host.Outcome State Fault Refusal :=
  (lengthSym 14 s).outcome

/-- `LEN_272` (R128). -/
def execLen272 (s : State) : Host.Outcome State Fault Refusal :=
  (lengthSym 15 s).outcome

/-- `LEN_273` (R128). -/
def execLen273 (s : State) : Host.Outcome State Fault Refusal :=
  (lengthSym 16 s).outcome

/-- `LEN_274` (R128). -/
def execLen274 (s : State) : Host.Outcome State Fault Refusal :=
  (lengthSym 17 s).outcome

/-- `LEN_275` (R128). -/
def execLen275 (s : State) : Host.Outcome State Fault Refusal :=
  (lengthSym 18 s).outcome

/-- `LEN_276` (R128). -/
def execLen276 (s : State) : Host.Outcome State Fault Refusal :=
  (lengthSym 19 s).outcome

/-- `LEN_277` (R128). -/
def execLen277 (s : State) : Host.Outcome State Fault Refusal :=
  (lengthSym 20 s).outcome

/-- `LEN_278` (R128). -/
def execLen278 (s : State) : Host.Outcome State Fault Refusal :=
  (lengthSym 21 s).outcome

/-- `LEN_279` (R128). -/
def execLen279 (s : State) : Host.Outcome State Fault Refusal :=
  (lengthSym 22 s).outcome

/-- `LEN_280` (R128). -/
def execLen280 (s : State) : Host.Outcome State Fault Refusal :=
  (lengthSym 23 s).outcome

/-- `LEN_281` (R128). -/
def execLen281 (s : State) : Host.Outcome State Fault Refusal :=
  (lengthSym 24 s).outcome

/-- `LEN_282` (R128). -/
def execLen282 (s : State) : Host.Outcome State Fault Refusal :=
  (lengthSym 25 s).outcome

/-- `LEN_283` (R128). -/
def execLen283 (s : State) : Host.Outcome State Fault Refusal :=
  (lengthSym 26 s).outcome

/-- `LEN_284` (R128). -/
def execLen284 (s : State) : Host.Outcome State Fault Refusal :=
  (lengthSym 27 s).outcome

/-- `LEN_285` (R128). -/
def execLen285 (s : State) : Host.Outcome State Fault Refusal :=
  (lengthSym 28 s).outcome

/-- `LITLEN_286`: a model that decoded one raises `MalformedHuffmanCode` (R66, I12). -/
def execLitLen286 (s : State) : Host.Outcome State Fault Refusal :=
  .next (s.raise .malformedHuffmanCode)

/-- `LITLEN_287`: a model that decoded one raises `MalformedHuffmanCode` (R66, I12). -/
def execLitLen287 (s : State) : Host.Outcome State Fault Refusal :=
  .next (s.raise .malformedHuffmanCode)

end Sys2Proof.Machine
end

