-- ==== Sys2Proof/Machine/Dispatch.lean ====
section
/-! DEFINITION. One arm per instruction. -/

namespace Sys2Proof.Machine

def exec (i : Instr) (s : State) : Host.Outcome State Fault Refusal :=
  match i with
  | .blkDynamic bfinal => Sys2Proof.Machine.execBlkDynamic bfinal s
  | .blkStored bfinal => Sys2Proof.Machine.execBlkStored bfinal s
  | .blkFixed bfinal => Sys2Proof.Machine.execBlkFixed bfinal s
  | .blkReserved bfinal => Sys2Proof.Machine.execBlkReserved bfinal s
  | .dynHeader hlit hdist hclen => Sys2Proof.Machine.execDynHeader hlit hdist hclen s
  | .dynHlitReserved hlit hdist hclen => Sys2Proof.Machine.execDynHlitReserved hlit hdist hclen s
  | .dynHdistReserved hlit hdist hclen => Sys2Proof.Machine.execDynHdistReserved hlit hdist hclen s
  | .clLen n => Sys2Proof.Machine.execClLen n s
  | .clLit0 => Sys2Proof.Machine.execClLit0 s
  | .clLit1 => Sys2Proof.Machine.execClLit1 s
  | .clLit2 => Sys2Proof.Machine.execClLit2 s
  | .clLit3 => Sys2Proof.Machine.execClLit3 s
  | .clLit4 => Sys2Proof.Machine.execClLit4 s
  | .clLit5 => Sys2Proof.Machine.execClLit5 s
  | .clLit6 => Sys2Proof.Machine.execClLit6 s
  | .clLit7 => Sys2Proof.Machine.execClLit7 s
  | .clLit8 => Sys2Proof.Machine.execClLit8 s
  | .clLit9 => Sys2Proof.Machine.execClLit9 s
  | .clLit10 => Sys2Proof.Machine.execClLit10 s
  | .clLit11 => Sys2Proof.Machine.execClLit11 s
  | .clLit12 => Sys2Proof.Machine.execClLit12 s
  | .clLit13 => Sys2Proof.Machine.execClLit13 s
  | .clLit14 => Sys2Proof.Machine.execClLit14 s
  | .clLit15 => Sys2Proof.Machine.execClLit15 s
  | .clRep16 => Sys2Proof.Machine.execClRep16 s
  | .clZero17 => Sys2Proof.Machine.execClZero17 s
  | .clZero18 => Sys2Proof.Machine.execClZero18 s
  | .lit b => Sys2Proof.Machine.execLit b s
  | .eob => Sys2Proof.Machine.execEob s
  | .len257 => Sys2Proof.Machine.execLen257 s
  | .len258 => Sys2Proof.Machine.execLen258 s
  | .len259 => Sys2Proof.Machine.execLen259 s
  | .len260 => Sys2Proof.Machine.execLen260 s
  | .len261 => Sys2Proof.Machine.execLen261 s
  | .len262 => Sys2Proof.Machine.execLen262 s
  | .len263 => Sys2Proof.Machine.execLen263 s
  | .len264 => Sys2Proof.Machine.execLen264 s
  | .len265 => Sys2Proof.Machine.execLen265 s
  | .len266 => Sys2Proof.Machine.execLen266 s
  | .len267 => Sys2Proof.Machine.execLen267 s
  | .len268 => Sys2Proof.Machine.execLen268 s
  | .len269 => Sys2Proof.Machine.execLen269 s
  | .len270 => Sys2Proof.Machine.execLen270 s
  | .len271 => Sys2Proof.Machine.execLen271 s
  | .len272 => Sys2Proof.Machine.execLen272 s
  | .len273 => Sys2Proof.Machine.execLen273 s
  | .len274 => Sys2Proof.Machine.execLen274 s
  | .len275 => Sys2Proof.Machine.execLen275 s
  | .len276 => Sys2Proof.Machine.execLen276 s
  | .len277 => Sys2Proof.Machine.execLen277 s
  | .len278 => Sys2Proof.Machine.execLen278 s
  | .len279 => Sys2Proof.Machine.execLen279 s
  | .len280 => Sys2Proof.Machine.execLen280 s
  | .len281 => Sys2Proof.Machine.execLen281 s
  | .len282 => Sys2Proof.Machine.execLen282 s
  | .len283 => Sys2Proof.Machine.execLen283 s
  | .len284 => Sys2Proof.Machine.execLen284 s
  | .len285 => Sys2Proof.Machine.execLen285 s
  | .litLen286 => Sys2Proof.Machine.execLitLen286 s
  | .litLen287 => Sys2Proof.Machine.execLitLen287 s
  | .dist0 => Sys2Proof.Machine.execDist0 s
  | .dist1 => Sys2Proof.Machine.execDist1 s
  | .dist2 => Sys2Proof.Machine.execDist2 s
  | .dist3 => Sys2Proof.Machine.execDist3 s
  | .dist4 => Sys2Proof.Machine.execDist4 s
  | .dist5 => Sys2Proof.Machine.execDist5 s
  | .dist6 => Sys2Proof.Machine.execDist6 s
  | .dist7 => Sys2Proof.Machine.execDist7 s
  | .dist8 => Sys2Proof.Machine.execDist8 s
  | .dist9 => Sys2Proof.Machine.execDist9 s
  | .dist10 => Sys2Proof.Machine.execDist10 s
  | .dist11 => Sys2Proof.Machine.execDist11 s
  | .dist12 => Sys2Proof.Machine.execDist12 s
  | .dist13 => Sys2Proof.Machine.execDist13 s
  | .dist14 => Sys2Proof.Machine.execDist14 s
  | .dist15 => Sys2Proof.Machine.execDist15 s
  | .dist16 => Sys2Proof.Machine.execDist16 s
  | .dist17 => Sys2Proof.Machine.execDist17 s
  | .dist18 => Sys2Proof.Machine.execDist18 s
  | .dist19 => Sys2Proof.Machine.execDist19 s
  | .dist20 => Sys2Proof.Machine.execDist20 s
  | .dist21 => Sys2Proof.Machine.execDist21 s
  | .dist22 => Sys2Proof.Machine.execDist22 s
  | .dist23 => Sys2Proof.Machine.execDist23 s
  | .dist24 => Sys2Proof.Machine.execDist24 s
  | .dist25 => Sys2Proof.Machine.execDist25 s
  | .dist26 => Sys2Proof.Machine.execDist26 s
  | .dist27 => Sys2Proof.Machine.execDist27 s
  | .dist28 => Sys2Proof.Machine.execDist28 s
  | .dist29 => Sys2Proof.Machine.execDist29 s
  | .dist30 => Sys2Proof.Machine.execDist30 s
  | .dist31 => Sys2Proof.Machine.execDist31 s
  | .readBits n => Sys2Proof.Machine.execReadBits n s
  | .refill => Sys2Proof.Machine.execRefill s
  | .peekBits n => Sys2Proof.Machine.execPeekBits n s
  | .canon lengths maxLen => Sys2Proof.Machine.execCanon lengths maxLen s
  | .addLeaf t c len sym => Sys2Proof.Machine.execAddLeaf t c len sym s
  | .decodeStep t b => Sys2Proof.Machine.execDecodeStep t b s
  | .resetCursor t => Sys2Proof.Machine.execResetCursor t s
  | .decodeSym t => Sys2Proof.Machine.execDecodeSym t s
  | .build t lengths maxLen => Sys2Proof.Machine.execBuild t lengths maxLen s
  | .overrunCheck => Sys2Proof.Machine.execOverrunCheck s
  | .rangeCheck => Sys2Proof.Machine.execRangeCheck s
  | .tables => Sys2Proof.Machine.execTables s
  | .check => Sys2Proof.Machine.execCheck s
  | .copyByte => Sys2Proof.Machine.execCopyByte s
  | .start src => Sys2Proof.Machine.execStart src s

end Sys2Proof.Machine
end

