-- ==== Sys2Proof/Decode.lean ====
section
/-! DEFINITION. The decoder, from the word of a format to an instruction, total and rejecting by name; after it the
encoder. Formats and words are those of 30_encoding.md rules R58, R59, R64, R65 and R67. A Huffman code is not decoded here:
the machine descends the block's tree to a symbol (R68), and the symbol's value is the word. -/

namespace Sys2Proof

/-- Why a word is no instruction. -/
inductive DecodeError where
  /-- the word has a bit set at or above the format's width (R67) -/
  | wordTooWide (f : Format) (w : Nat)
  /-- no row has this symbol: a CL symbol of 19 to 31, a literal/length symbol of 288 to 511 -/
  | noSuchSymbol (f : Format) (w : Nat)
  deriving DecidableEq, Repr

/-- The bit field `w[hi:lo]` (00_scope.md rule R8). -/
def bitField (w hi lo : Nat) : Nat :=
  (w >>> lo) % 2 ^ (hi - lo + 1)

/-- The instructions of the CL symbols 0 to 18, in symbol order (R64). -/
def clsInstrs : List Instr :=
  [.clLit0, .clLit1, .clLit2, .clLit3, .clLit4, .clLit5, .clLit6, .clLit7,
    .clLit8, .clLit9, .clLit10, .clLit11, .clLit12, .clLit13, .clLit14, .clLit15,
    .clRep16, .clZero17, .clZero18]

/-- The instructions of the literal/length symbols 256 to 287, in symbol order (R65, R66). -/
def llInstrs : List Instr :=
  [.eob, .len257, .len258, .len259, .len260, .len261, .len262, .len263,
    .len264, .len265, .len266, .len267, .len268, .len269, .len270, .len271,
    .len272, .len273, .len274, .len275, .len276, .len277, .len278, .len279,
    .len280, .len281, .len282, .len283, .len284, .len285, .litLen286, .litLen287]

/-- The instructions of the distance symbols 0 to 31, in symbol order (R63, R66). -/
def dInstrs : List Instr :=
  [.dist0, .dist1, .dist2, .dist3, .dist4, .dist5, .dist6, .dist7,
    .dist8, .dist9, .dist10, .dist11, .dist12, .dist13, .dist14, .dist15,
    .dist16, .dist17, .dist18, .dist19, .dist20, .dist21, .dist22, .dist23,
    .dist24, .dist25, .dist26, .dist27, .dist28, .dist29, .dist30, .dist31]

/-- Format BH: `w[0]` is `BFINAL`, `w[2:1]` is `BTYPE` (R58). -/
def decodeBh (w : Nat) : Instr :=
  let bfinal := BitVec.ofNat 1 (bitField w 0 0)
  match bitField w 2 1 with
  | 0 => .blkStored bfinal
  | 1 => .blkFixed bfinal
  | 2 => .blkDynamic bfinal
  | _ => .blkReserved bfinal

/-- Format DH: `HLIT`, `HDIST`, `HCLEN` from bit 0 up (R59). The rejected forms win over `DYN_HEADER` (R67); with both
counts out of range the HLIT row is taken (entry 11). -/
def decodeDh (w : Nat) : Instr :=
  let hlit := BitVec.ofNat 5 (bitField w 4 0)
  let hdist := BitVec.ofNat 5 (bitField w 9 5)
  let hclen := BitVec.ofNat 4 (bitField w 13 10)
  if 30 ≤ hlit.toNat then .dynHlitReserved hlit hdist hclen
  else if 30 ≤ hdist.toNat then .dynHdistReserved hlit hdist hclen
  else .dynHeader hlit hdist hclen

/-- The instruction of a symbol, or a rejection by name. -/
def symbolInstr (f : Format) (w : Nat) : Option Instr → Except DecodeError Instr
  | some i => .ok i
  | none => .error (.noSuchSymbol f w)

/-- The instruction a word of a format stands for (R67). -/
def decode (f : Format) (w : Nat) : Except DecodeError Instr :=
  if 2 ^ f.width ≤ w then .error (.wordTooWide f w)
  else
    match f with
    | .bh => .ok (decodeBh w)
    | .dh => .ok (decodeDh w)
    | .cll => .ok (.clLen (BitVec.ofNat 3 (bitField w 2 0)))
    | .cls => symbolInstr .cls w clsInstrs[w]?
    | .ll =>
      if w < 256 then .ok (.lit (BitVec.ofNat 8 (bitField w 7 0)))
      else symbolInstr .ll w llInstrs[w - 256]?
    | .d => symbolInstr .d w dInstrs[w]?

/-- The 14-bit word of a dynamic header (R59). -/
def dhWord (hlit hdist : BitVec 5) (hclen : BitVec 4) : Nat :=
  hlit.toNat + hdist.toNat * 2 ^ 5 + hclen.toNat * 2 ^ 10

/-- The 3-bit word of a block header (R58). -/
def bhWord (bfinal : BitVec 1) (btype : Nat) : Nat :=
  bfinal.toNat + btype * 2

/-- The format and word of an instruction (R58, R59, R64, R65); a component operation has none (R67). -/
def encode : Instr → Option (Format × Nat)
  | .blkDynamic f => some (.bh, bhWord f 2)
  | .blkStored f => some (.bh, bhWord f 0)
  | .blkFixed f => some (.bh, bhWord f 1)
  | .blkReserved f => some (.bh, bhWord f 3)
  | .dynHeader hlit hdist hclen => some (.dh, dhWord hlit hdist hclen)
  | .dynHlitReserved hlit hdist hclen => some (.dh, dhWord hlit hdist hclen)
  | .dynHdistReserved hlit hdist hclen => some (.dh, dhWord hlit hdist hclen)
  | .clLen n => some (.cll, n.toNat)
  | .clLit0 => some (.cls, 0)
  | .clLit1 => some (.cls, 1)
  | .clLit2 => some (.cls, 2)
  | .clLit3 => some (.cls, 3)
  | .clLit4 => some (.cls, 4)
  | .clLit5 => some (.cls, 5)
  | .clLit6 => some (.cls, 6)
  | .clLit7 => some (.cls, 7)
  | .clLit8 => some (.cls, 8)
  | .clLit9 => some (.cls, 9)
  | .clLit10 => some (.cls, 10)
  | .clLit11 => some (.cls, 11)
  | .clLit12 => some (.cls, 12)
  | .clLit13 => some (.cls, 13)
  | .clLit14 => some (.cls, 14)
  | .clLit15 => some (.cls, 15)
  | .clRep16 => some (.cls, 16)
  | .clZero17 => some (.cls, 17)
  | .clZero18 => some (.cls, 18)
  | .lit b => some (.ll, b.toNat)
  | .eob => some (.ll, 256)
  | .len257 => some (.ll, 257)
  | .len258 => some (.ll, 258)
  | .len259 => some (.ll, 259)
  | .len260 => some (.ll, 260)
  | .len261 => some (.ll, 261)
  | .len262 => some (.ll, 262)
  | .len263 => some (.ll, 263)
  | .len264 => some (.ll, 264)
  | .len265 => some (.ll, 265)
  | .len266 => some (.ll, 266)
  | .len267 => some (.ll, 267)
  | .len268 => some (.ll, 268)
  | .len269 => some (.ll, 269)
  | .len270 => some (.ll, 270)
  | .len271 => some (.ll, 271)
  | .len272 => some (.ll, 272)
  | .len273 => some (.ll, 273)
  | .len274 => some (.ll, 274)
  | .len275 => some (.ll, 275)
  | .len276 => some (.ll, 276)
  | .len277 => some (.ll, 277)
  | .len278 => some (.ll, 278)
  | .len279 => some (.ll, 279)
  | .len280 => some (.ll, 280)
  | .len281 => some (.ll, 281)
  | .len282 => some (.ll, 282)
  | .len283 => some (.ll, 283)
  | .len284 => some (.ll, 284)
  | .len285 => some (.ll, 285)
  | .litLen286 => some (.ll, 286)
  | .litLen287 => some (.ll, 287)
  | .dist0 => some (.d, 0)
  | .dist1 => some (.d, 1)
  | .dist2 => some (.d, 2)
  | .dist3 => some (.d, 3)
  | .dist4 => some (.d, 4)
  | .dist5 => some (.d, 5)
  | .dist6 => some (.d, 6)
  | .dist7 => some (.d, 7)
  | .dist8 => some (.d, 8)
  | .dist9 => some (.d, 9)
  | .dist10 => some (.d, 10)
  | .dist11 => some (.d, 11)
  | .dist12 => some (.d, 12)
  | .dist13 => some (.d, 13)
  | .dist14 => some (.d, 14)
  | .dist15 => some (.d, 15)
  | .dist16 => some (.d, 16)
  | .dist17 => some (.d, 17)
  | .dist18 => some (.d, 18)
  | .dist19 => some (.d, 19)
  | .dist20 => some (.d, 20)
  | .dist21 => some (.d, 21)
  | .dist22 => some (.d, 22)
  | .dist23 => some (.d, 23)
  | .dist24 => some (.d, 24)
  | .dist25 => some (.d, 25)
  | .dist26 => some (.d, 26)
  | .dist27 => some (.d, 27)
  | .dist28 => some (.d, 28)
  | .dist29 => some (.d, 29)
  | .dist30 => some (.d, 30)
  | .dist31 => some (.d, 31)
  | .readBits _ => none
  | .refill => none
  | .peekBits _ => none
  | .canon _ _ => none
  | .addLeaf _ _ _ _ => none
  | .decodeStep _ _ => none
  | .resetCursor _ => none
  | .decodeSym _ => none
  | .build _ _ _ => none
  | .overrunCheck => none
  | .rangeCheck => none
  | .tables => none
  | .check => none
  | .copyByte => none
  | .start _ => none

/-- The format whose row a word of opcode_table.json selects when only the number of its bits is known. In the machine the
format comes from PHASE; the table's words carry no format, so the convention of entry 9 chooses. -/
def tableFormat (nbits w : Nat) : Option Format :=
  if nbits ≤ 3 then some .bh
  else if nbits ≤ 8 then
    if w < 19 then some .cls else if w < 32 then some .d else none
  else if nbits ≤ 9 then some .ll
  else if 18 ≤ w ∧ w < 30 then some .d
  else if w < 256 ∧ bitField w 4 1 ≠ 15 then some .ll
  else if 256 ≤ w ∧ w < 288 then some .ll
  else some .dh

/-- The instruction the decoder reads from a word of opcode_table.json (entry 9). -/
def decodeTableWord (nbits w : Nat) : Option Instr :=
  match tableFormat nbits w with
  | none => none
  | some f => (decode f w).toOption

end Sys2Proof
end

