-- ==== Sys2Proof/Machine/Sequencer.lean ====
section
/-! DEFINITION. The BlockDecoder's sequencing (44_block_decoder.md): which instruction comes next and what its fetch
consumes, the loop heads of rules R100, R102, R125 and R131, and Done. -/

namespace Sys2Proof.Machine

/-- The instruction of a word, as the sequencer uses it. -/
def decodeRes (f : Format) (w : Nat) (s : State) : Res Instr :=
  match decode f w with
  | .ok i => .ok i s
  | .error _ => .refused (.noInstruction f w)

/-- ReadHeader: a new BlockState, then `BFINAL <- READBITS(1)`, `BTYPE <- READBITS(2)` (R120). -/
def fetchBlockHeader (s : State) : Res Instr :=
  (readBits 1 (s.withBlk BlockState.fresh)).bind fun f s1 =>
    (readBits 2 (s1.withBFinal (BitVec.ofNat 1 f))).bind fun t s2 =>
      decodeRes .bh (f + t * 2) (s2.withBType (BitVec.ofNat 2 t))

/-- `HLIT <- READBITS(5)`, `HDIST <- READBITS(5)`, `HCLEN <- READBITS(4)`, with `NLIT` and `NDIST` (R122). -/
def fetchDynHeader (s : State) : Res Instr :=
  (readBits 5 s).bind fun hlit s1 =>
    (readBits 5 (s1.withHlit (BitVec.ofNat 5 hlit))).bind fun hdist s2 =>
      (readBits 4 (s2.withHdist (BitVec.ofNat 5 hdist))).bind fun hclen s3 =>
        decodeRes .dh (hlit + hdist * 2 ^ 5 + hclen * 2 ^ 10) (s3.withHclen (BitVec.ofNat 4 hclen))

/-- The head of the loop of R100: one more CL code length while `i < HCLEN + 4`, else `BUILD(CLLEN, 7)` (R101). -/
def fetchClLen (s : State) : Res Instr :=
  (need .hclen s.blk.hclen s).bind fun hclen s1 =>
    if s1.blk.clIdx < hclen.toNat + 4 then (readBits 3 s1).bind fun w s2 => decodeRes .cll w s2
    else .ok (.build .cl (s1.blk.clLens.map BitVec.toNat) Config.clMaxLen) s1

/-- The head of the loop of R102: `CLSYM <- DECODESYM(CLTREE)` while `SEQCNT < TOTAL`, else the split (R108) and
`TABLES()`. -/
def fetchClSym (s : State) : Res Instr :=
  (need .seqcnt s.blk.seqcnt s).bind fun k s1 =>
    (seqTotal s1).bind fun total s2 =>
      if k < total then
        (decodeSym .cl s2).bind fun v s3 => decodeRes .cls v (s3.withBlk { s3.blk with clsym := some v })
      else (splitLengths s2).bind fun _ s3 => .ok .tables s3

/-- `SYM <- DECODESYM(LLTREE)` (R125). -/
def fetchSymbol (s : State) : Res Instr :=
  (decodeSym .ll (s.withBlk { s.blk with symPoint := .symbols })).bind fun v s1 =>
    decodeRes .ll v (s1.withBlk { s1.blk with sym := some v })

/-- The literal in `SYM` whose `OutAppend` waits (R126): the code is consumed, the instruction is fetched again. -/
def fetchAppend (s : State) : Res Instr :=
  (need .sym s.blk.sym s).bind fun v s1 => decodeRes .ll v (s1.withBlk { s1.blk with symPoint := .symbols })

/-- `DSYM <- DECODESYM(DTREE)` (R129). -/
def fetchDistance (s : State) : Res Instr :=
  (decodeSym .d s).bind fun v s1 => decodeRes .d v (s1.withBlk { s1.blk with dsym := some v })

/-- The head of the copy loop of R131: `COPYBYTE` while `COPYREM > 0`, else back to R125. -/
def fetchCopy (s : State) : Res Instr :=
  (need .copyrem s.blk.copyrem s).bind fun r s1 => if r = 0 then fetchSymbol s1 else .ok .copyByte s1

/-- The next instruction of a running session and the state its fetch leaves. In Done no instruction is fetched; the step
runs R132 there, and this function is not used. -/
def fetch (s : State) : Res Instr :=
  match s.phase with
  | .readHeader => fetchBlockHeader s
  | .readDynamicTables =>
    match s.blk.clPoint with
    | .dynHeader => fetchDynHeader s
    | .clLens => fetchClLen s
    | .clSyms => fetchClSym s
  | .decodeSymbols =>
    match s.blk.symPoint with
    | .symbols => fetchSymbol s
    | .dist => fetchDistance s
    | .copy => fetchCopy s
    | .append => fetchAppend s
  | .done => fetchBlockHeader s

/-- What the sequencer does after an instruction that completed: the rule that follows it in the pseudocode. -/
inductive Follow where
  /-- the instruction's own rule says all -/
  | stay
  /-- after the dynamic header, the start of R100 -/
  | toClLens
  /-- after `BUILD` of the CL tree, the start of R102 -/
  | toClSyms
  /-- after a length symbol, R129 -/
  | toDist
  /-- after a distance symbol, the start of R131 -/
  | toCopy
  deriving DecidableEq, Repr

/-- The follow-up of an instruction the sequencer issued (R122, R101, R128, R129). -/
def follow (i : Instr) : Follow :=
  match encode i, i with
  | some (.dh, _), _ => .toClLens
  | some (.ll, w), _ => if 257 ≤ w then .toDist else .stay
  | some (.d, _), _ => .toCopy
  | none, .build _ _ _ => .toClSyms
  | _, _ => .stay

/-- The registers the follow-up writes: `SEQCNT <- 0` (R102), `COPYREM <- LENGTH` (R131). -/
def Follow.apply (fl : Follow) (s : State) : Res Unit :=
  match fl with
  | .stay => .ok () s
  | .toClLens => .ok () s.beginClLens
  | .toClSyms => .ok () (s.withBlk { s.blk with seqcnt := some 0, clPoint := .clSyms })
  | .toDist => .ok () (s.withBlk { s.blk with symPoint := .dist })
  | .toCopy =>
    (need .length s.blk.length s).bind fun n s1 =>
      .ok () (s1.withBlk { s1.blk with copyrem := some n, symPoint := .copy })

/-- The step's end: the follow-up, unless the instruction raised an error and froze the state (60_exceptions.md rule R151). -/
def afterExec (i : Instr) (r : Host.Outcome State Fault Refusal) : Host.Outcome State Fault Refusal :=
  match r with
  | .next s => if s.status = .running then ((follow i).apply s).outcome else .next s
  | .fault f => .fault f
  | .refused x => .refused x

/-- Whether the fetched instruction is a literal whose `OutAppend` cannot start because `OUT` is full: then the step is the
fetch alone, for `DECODESYM` has completed and its effects stand (20_memory.md rule R45, 60_exceptions.md rule R159). -/
def waitsForRoom (s : State) (i : Instr) (s1 : State) : Bool :=
  match i with
  | .lit _ => decide (s.blk.symPoint ≠ .append) && s1.outIsFull
  | _ => false

/-- Done: `BLOCKS <- BLOCKS + 1` (R133), then the `BFINAL` test (R132). -/
def blockDone (s : State) : Res Unit :=
  (need .bfinal s.blk.bfinal { s with blocks := s.blocks + 1 }).bind fun f s1 => .ok () (s1.endBlock f)

/-- The stop of a core that takes no step (10_state.md rule R15, 70_reset_and_hazards.md rule R182). -/
def Status.stopFault : Status → Fault
  | .idle => .idle
  | .running => .idle
  | .complete => .sessionComplete
  | .faulted => .sessionFaulted

/-! ## Placing one word of opcode_table.json before the step (entry 9) -/

/-- A tree whose one code, the bit 0, stands for `sym`. -/
def oneLeafTree (sym : Nat) : Tree where
  nodes := [.internal (some 1) none, .leaf sym]
  maxlen := 1

/-- The bytes of a word, low byte first. -/
def wordBytes (w : Nat) : List Byte :=
  [BitVec.ofNat 8 w, BitVec.ofNat 8 (w / 256), 0, 0]

/-- A running session positioned at the first bit of `src`, in phase `p`. -/
def State.placed (s : State) (src : List Byte) (p : Phase) : State :=
  { s with
    hostStart := none
    src := Cells.ofList 0 src
    srclen := src.length
    status := .running
    err := .none
    phase := p
    bytepos := 0
    acc := 0
    bitcnt := 0 }

/-- `s` with the word `w` of format `f` as what the next step fetches: a header word or a field as the stream's next bits; a
symbol as the one leaf of the block's tree, the stream all zeros. -/
def State.placeWord (s : State) (f : Format) (w : Nat) : State :=
  match f with
  | .bh => s.placed (wordBytes w) .readHeader
  | .dh =>
    (s.placed (wordBytes w) .readDynamicTables).withBlk { s.blk with clPoint := .dynHeader }
  | .cll =>
    (s.placed (wordBytes w) .readDynamicTables).withBlk
      { s.blk with hclen := some 0, cllen := some (List.replicate 19 0), clIdx := 0, clPoint := .clLens }
  | .cls =>
    (s.placed [0, 0, 0, 0] .readDynamicTables).withBlk
      { s.blk with
        nlit := some 257, ndist := some 1, seqcnt := some 1, lenseq := [(0, 0)], cltree := some (oneLeafTree w),
        clPoint := .clSyms }
  | .ll =>
    (s.placed [0, 0, 0, 0] .decodeSymbols).withBlk
      { s.blk with lltree := some (oneLeafTree w), symPoint := .symbols }
  | .d =>
    (s.placed [0, 0, 0, 0] .decodeSymbols).withBlk
      { s.blk with length := some 3, dtree := some (oneLeafTree w), symPoint := .dist }

end Sys2Proof.Machine
end

