-- ==== Sys2Proof/Machine/Step.lean ====
section
/-! DEFINITION. One step of the core: a pending `START`, or one instruction of the running session, or Done. -/

namespace Sys2Proof.Machine

/-- One step of a running session (44_block_decoder.md). -/
def stepRunning (s : State) : Host.Outcome State Fault Refusal :=
  match s.phase with
  | .done => (blockDone s).outcome
  | _ =>
    match fetch s with
    | .ok i s1 =>
      if waitsForRoom s i s1 then .next (s1.withBlk { s1.blk with symPoint := .append })
      else afterExec i (exec i s1)
    | .raised e s1 => .next (s1.raise e)
    | .unwritten _ s1 => .next s1.raiseUnwritten
    | .stop f => .fault f
    | .refused r => .refused r

/-- One step. A `START` the host has issued is taken first, in any `STATUS`, between two instructions (R180, R181; entry 3);
otherwise only a RUNNING core takes a step (R15, R182). -/
def step (s : State) : Host.Outcome State Fault Refusal :=
  match s.hostStart with
  | some src => exec (.start src) { s with hostStart := none }
  | none => if s.status = .running then stepRunning s else .fault s.status.stopFault

/-- `s` with an instruction of opcode_table.json placed where the next step fetches it (entry 9); `s` itself where the
decoder reads no instruction from the word. -/
def State.withFetchWord (s : State) (nbits w : Nat) : State :=
  match tableFormat nbits w with
  | none => s
  | some f => s.placeWord f w

end Sys2Proof.Machine
end

