-- ==== Sys2Proof/Machine/Primitives.lean ====
section
/-! DEFINITION. A step at the grain of 70_reset_and_hazards.md rule R196: the states after each primitive (`READBITS`,
`REFILL`, `DECODESTEP`, `ADDLEAF`, `OutAppend`, a register write), in the order of the rules' pseudocode. The step itself runs
them in one (entry 1). Each entry of a table and each of `T.NODE`, `T.DEPTH` is a register write of its own (00_scope.md rule
R9). -/

namespace Sys2Proof.Machine

/-- The state a primitive leaves: none where it does not complete. -/
def Res.seen {α : Type} (r : Res α) : List State :=
  match r with
  | .ok _ s => [s]
  | _ => []

/-- The states of what follows `r`: none where `r` does not complete. -/
def Res.andThen {α : Type} (r : Res α) (k : α → State → List State) : List State :=
  match r with
  | .ok a s => k a s
  | _ => []

/-! ## The BitReader -/

/-- The states of the refills of `fillLoop` (40_bitreader.md rules R70, R71). -/
def fillStates (n : Nat) : Nat → State → List State
  | 0, _ => []
  | turns + 1, s =>
    if s.bitcnt < n then (refill s).andThen fun _ s1 => s1 :: fillStates n turns s1
    else []

/-- The states of `READBITS(n)` (R70). -/
def readStates (n : Nat) (s : State) : List State :=
  fillStates n n s ++ (readBits n s).seen

/-- The states of `READBITS(n)`, then those of what follows it. -/
def afterRead (n : Nat) (s : State) (k : Nat → State → List State) : List State :=
  readStates n s ++ (readBits n s).andThen k

/-! ## Trees -/

/-- The states of `RESETCURSOR(T)`: `T.NODE <- 0`, then `T.DEPTH <- 0` (42_huffman_tree.md rule R93). -/
def resetStates (t : TreeId) (s : State) : List State :=
  [s.withTreeCursor t ⟨some 0, (s.blk.cursor t).depth⟩, s.withTreeCursor t .root]

/-- The states of the loop of `DECODESYM` (42_huffman_tree.md rule R94). -/
def decodeLoopStates (t : TreeId) : Nat → State → List State
  | 0, _ => []
  | turns + 1, s =>
    afterRead 1 s fun b s1 =>
      (decodeStep t (b == 1) s1).andThen fun r s2 =>
        s2 :: match r with
          | some _ => resetStates t s2
          | none => decodeLoopStates t turns s2

/-- The states of `DECODESYM(T)` (R94). -/
def decodeSymStates (t : TreeId) (s : State) : List State :=
  resetStates t s ++ (resetCursor t s).andThen fun _ s1 => decodeLoopStates t (descentTurns (s1.blk.tree t)) s1

/-- The states of the `ADDLEAF`s of `BUILD`, in ascending symbol order, from symbol `k` and the tree `T` on (R96). -/
def addCodesStates (t : TreeId) (T : Tree) (k : Nat) (s : State) : List (Option Code) → List State
  | [] => []
  | none :: rest => addCodesStates t T (k + 1) s rest
  | some c :: rest =>
    match T.addLeaf c.code c.len k with
    | .error _ => []
    | .ok T1 => s.withNewTree t T1 :: addCodesStates t T1 (k + 1) s rest

/-- The states of `BUILD`: the new tree, then each `ADDLEAF`; none where `CANON` raises (R96). The block's tree is written by
R90 and R91 (10_state.md section 1.2), so it is the tree that grows. -/
def buildStates (t : TreeId) (lengths : List Nat) (maxLen : Nat) (s : State) : List State :=
  match canon lengths maxLen with
  | .error _ => []
  | .ok cs => s.withNewTree t Tree.new :: addCodesStates t Tree.new 0 s cs

/-! ## Fetches -/

/-- `HLIT <- h`, then `NLIT <- HLIT + 257` (44_block_decoder.md rule R122). -/
def hlitStates (h : BitVec 5) (s : State) : List State :=
  [s.withBlk { s.blk with hlit := some h }, s.withHlit h]

/-- `HDIST <- h`, then `NDIST <- HDIST + 1` (R122). -/
def hdistStates (h : BitVec 5) (s : State) : List State :=
  [s.withBlk { s.blk with hdist := some h }, s.withHdist h]

/-- The states of the block header's fetch (R120). -/
def blockHeaderStates (s : State) : List State :=
  s.withBlk BlockState.fresh ::
    afterRead 1 (s.withBlk BlockState.fresh) fun f s1 =>
      s1.withBFinal (BitVec.ofNat 1 f) ::
        afterRead 2 (s1.withBFinal (BitVec.ofNat 1 f)) fun t s2 => [s2.withBType (BitVec.ofNat 2 t)]

/-- The states of the dynamic header's fetch (R122). -/
def dynHeaderStates (s : State) : List State :=
  afterRead 5 s fun hlit s1 =>
    hlitStates (BitVec.ofNat 5 hlit) s1 ++
      afterRead 5 (s1.withHlit (BitVec.ofNat 5 hlit)) fun hdist s2 =>
        hdistStates (BitVec.ofNat 5 hdist) s2 ++
          afterRead 4 (s2.withHdist (BitVec.ofNat 5 hdist)) fun hclen s3 => [s3.withHclen (BitVec.ofNat 4 hclen)]

/-- The states of `DECODESYM`, then the write of the symbol's register by `w`. -/
def symbolStates (t : TreeId) (w : BlockState → Nat → BlockState) (s : State) : List State :=
  decodeSymStates t s ++ (decodeSym t s).andThen fun v s1 => [s1.withBlk (w s1.blk v)]

/-- The states of `SYM <- DECODESYM(LLTREE)` (44_block_decoder.md rule R125). -/
def fetchSymbolStates (s : State) : List State :=
  symbolStates .ll (fun b v => { b with sym := some v }) (s.withBlk { s.blk with symPoint := .symbols })

/-- The states of one loop of the split, entry by entry (43_code_length_expander.md rule R108). -/
def splitStates (w : BlockState → Nat → BitVec 4 → BlockState) (base count : Nat) : Nat → Nat → State → List State
  | 0, _, _ => []
  | n + 1, i, s =>
    (splitEntry base count i s).andThen fun v s1 =>
      s1.withBlk (w s1.blk i v) :: splitStates w base count n (i + 1) (s1.withBlk (w s1.blk i v))

/-- The states of the split (R108). -/
def splitLengthsStates (s : State) : List State :=
  (need .nlit s.blk.nlit s).andThen fun nlit s1 =>
    splitStates BlockState.writeLllen 0 nlit 286 0 s1 ++
      (splitLoop BlockState.writeLllen 0 nlit 286 0 s1).andThen fun _ s2 =>
        (need .ndist s2.blk.ndist s2).andThen fun ndist s3 => splitStates BlockState.writeDlen nlit ndist 30 0 s3

/-- The states of a fetch that completes or takes an error (R120, R122, R125, R129, 43_code_length_expander.md rules R100, R102,
R108). -/
def fetchStates (s : State) : List State :=
  match s.phase with
  | .readHeader => blockHeaderStates s
  | .readDynamicTables =>
    match s.blk.clPoint with
    | .dynHeader => dynHeaderStates s
    | .clLens =>
      (need .hclen s.blk.hclen s).andThen fun hclen s1 =>
        if s1.blk.clIdx < hclen.toNat + 4 then readStates 3 s1 else []
    | .clSyms =>
      (need .seqcnt s.blk.seqcnt s).andThen fun k s1 =>
        (seqTotal s1).andThen fun total s2 =>
          if k < total then symbolStates .cl (fun b v => { b with clsym := some v }) s2 else splitLengthsStates s2
  | .decodeSymbols =>
    match s.blk.symPoint with
    | .symbols => fetchSymbolStates s
    | .dist => symbolStates .d (fun b v => { b with dsym := some v }) s
    | .copy =>
      (need .copyrem s.blk.copyrem s).andThen fun r s1 => if r = 0 then fetchSymbolStates s1 else []
    | .append => (fetchAppend s).seen
  | .done => []

/-! ## Instructions -/

/-- `LENSEQ[k+j] <- v` for `j` below `n`, one entry at a time (43_code_length_expander.md rules R103 to R106). -/
def lenseqStates (v : BitVec 4) (k : Nat) : Nat → State → List State
  | 0, _ => []
  | n + 1, s =>
    s.withBlk { s.blk with lenseq := Cells.write s.blk.lenseq k v } ::
      lenseqStates v (k + 1) n (s.withBlk { s.blk with lenseq := Cells.write s.blk.lenseq k v })

/-- The states of `writeLens` before `SEQCNT` is written. -/
def writeLensStates (v : BitVec 4) (n : Nat) (s : State) : List State :=
  (need .seqcnt s.blk.seqcnt s).andThen fun k s1 => if 316 < k + n then [] else lenseqStates v k n s1

/-- The states of a CL repeat before `SEQCNT` is written (R104 to R106). -/
def repeatStates (v : BitVec 4) (base extra : Nat) (s : State) : List State :=
  afterRead extra s fun x s1 =>
    s1.withBlk { s1.blk with rep := some (base + x) } ::
      (overrunCheck (s1.withBlk { s1.blk with rep := some (base + x) })).andThen fun _ s2 => writeLensStates v (base + x) s2

/-- The states of `CL_REP16` before `SEQCNT` is written (R104). -/
def rep16States (s : State) : List State :=
  (need .seqcnt s.blk.seqcnt s).andThen fun k s1 =>
    if k = 0 then []
    else (need (.lenseq (k - 1)) (Cells.read s1.blk.lenseq (k - 1)) s1).andThen fun prev s2 => repeatStates prev 3 2 s2

/-- The states of `TABLES()` before `PHASE` is written (44_block_decoder.md rule R124). -/
def tablesStates (s : State) : List State :=
  (need .lllen (Cells.readList s.blk.lllen 0 286) s).andThen fun ll s1 =>
    buildStates .ll (ll.map BitVec.toNat) Config.maxLen s1 ++
      (buildTree .ll (ll.map BitVec.toNat) Config.maxLen s1).andThen fun _ s2 =>
        (need .dlen (Cells.readList s2.blk.dlen 0 30) s2).andThen fun d s3 => buildStates .d (d.map BitVec.toNat) Config.maxLen s3

/-- The states of `START`, one register at a time, before the block registers are emptied (70_reset_and_hazards.md rule
R180). -/
def startStates (src : List Byte) (s : State) : List State :=
  let s1 := { s with src := Cells.ofList 0 src, srclen := src.length }
  let s2 := { s1 with bytepos := 0 }
  let s3 := { s2 with acc := 0 }
  let s4 := { s3 with bitcnt := 0 }
  let s5 := { s4 with out := [] }
  let s6 := { s5 with outlen := 0 }
  let s7 := { s6 with blocks := 0 }
  let s8 := { s7 with err := .none }
  let s9 := { s8 with status := .running }
  [s1, s2, s3, s4, s5, s6, s7, s8, s9, { s9 with phase := .readHeader }]

/-- The states of an instruction before its last write. -/
def execStates (i : Instr) (s : State) : List State :=
  match encode i, i with
  | some (.bh, w), _ =>
    [s.withBFinal (BitVec.ofNat 1 w), (s.withBFinal (BitVec.ofNat 1 w)).withBType (BitVec.ofNat 2 (w / 2))]
  | some (.dh, w), _ =>
    hlitStates (BitVec.ofNat 5 w) s ++ hdistStates (BitVec.ofNat 5 (w / 2 ^ 5)) (s.withHlit (BitVec.ofNat 5 w))
      ++ [s.withDynHeader (BitVec.ofNat 5 w) (BitVec.ofNat 5 (w / 2 ^ 5)) (BitVec.ofNat 4 (w / 2 ^ 10))]
  | some (.cll, _), _ => []
  | some (.cls, w), _ =>
    if w < 16 then writeLensStates (BitVec.ofNat 4 w) 1 s
    else if w = 16 then rep16States s
    else if w = 17 then repeatStates 0 3 3 s
    else repeatStates 0 11 7 s
  | some (.ll, w), _ => if 257 ≤ w ∧ w ≤ 285 then readStates (lengthExtra.getD (w - 257) 0) s else []
  | some (.d, w), _ =>
    if w < 30 then
      afterRead (distExtra.getD w 0) s fun x s1 =>
        [s1.withBlk { s1.blk with distance := some (distBase.getD w 0 + x) }]
    else []
  | none, .readBits n => if Config.readMax < n then [] else readStates n s
  | none, .peekBits n => if Config.readMax < n then [] else fillStates n n s
  | none, .resetCursor t => resetStates t s
  | none, .decodeSym t => decodeSymStates t s
  | none, .build t lengths maxLen => if buildOk t lengths maxLen then buildStates t lengths maxLen s else []
  | none, .tables => tablesStates s
  | none, .copyByte => (copyByte s).andThen fun _ s1 => [s1.withBlk s.blk]
  | none, .start src => startStates src s
  | none, _ => []

/-! ## The step -/

/-- `CLLEN[i] <- 0` for `n` entries from `i` on (43_code_length_expander.md rule R100). -/
def zeroStates : Nat → Nat → State → List State
  | 0, _, _ => []
  | n + 1, i, s =>
    s.withBlk { s.blk with cllen := some (s.blk.clLens.set i 0) } ::
      zeroStates n (i + 1) (s.withBlk { s.blk with cllen := some (s.blk.clLens.set i 0) })

/-- The states of the follow-up of `i` before its last write. -/
def followStates (i : Instr) (s : State) : List State :=
  match follow i with
  | .toClLens => zeroStates 19 0 s
  | _ => []

/-- The states of Done before its last write: `BLOCKS <- BLOCKS + 1`, and before a further block `PHASE <- ReadHeader`
(44_block_decoder.md rules R132, R133). -/
def doneStates (s : State) : List State :=
  { s with blocks := s.blocks + 1 } ::
    if s.blk.bfinal = some 0 then [{ s with blocks := s.blocks + 1, phase := .readHeader }] else []

/-- The next state of an outcome. -/
def nextState (r : Host.Outcome State Fault Refusal) : List State :=
  match r with
  | .next t => [t]
  | _ => []

/-- The states of the primitives of a step, before its last. -/
def stepStates (s : State) : List State :=
  match s.hostStart with
  | some src => startStates src { s with hostStart := none }
  | none =>
    if s.status = .running then
      if s.phase = .done then doneStates s
      else
        fetchStates s ++ (fetch s).andThen fun i s1 =>
          if waitsForRoom s i s1 then []
          else
            execStates i s1 ++
              match exec i s1 with
              | .next t => t :: if t.status = .running then followStates i t else []
              | _ => []
    else []

/-- A list of values without those equal to the one before, the first after `a`. -/
def changes {α : Type} [DecidableEq α] (a : α) : List α → List α
  | [] => []
  | b :: rest => if b = a then changes a rest else b :: changes b rest

/-- The states after each primitive of the step from `s`, in order, the last one the next state; where the step stops, those
of the primitives that have completed. A primitive that changes nothing is not shown. -/
def primStates (s : State) : List State :=
  changes s (stepStates s ++ nextState (step s))

end Sys2Proof.Machine
end

