-- ==== Sys2Proof/Machine/Views.lean ====
section
/-! DEFINITION. What the host reads, at any time (10_state.md rule R23): between two steps, and between two primitives of one
step (70_reset_and_hazards.md rule R196). -/

namespace Sys2Proof.Machine

/-- The registers the host may read. -/
structure HostView where
  status : Status
  err : ErrCode
  outlen : Nat
  out : Memory
  blocks : Nat
  bytepos : Nat
  deriving DecidableEq, Repr

/-- The host's view of a state. -/
def State.hostView (s : State) : HostView where
  status := s.status
  err := s.err
  outlen := s.outlen
  out := s.out
  blocks := s.blocks
  bytepos := s.bytepos

/-- What the host can read during the step from `s` after its view of `s`, in order, each view once. -/
def hostViews (s : State) : List HostView :=
  changes s.hostView ((primStates s).map State.hostView)

end Sys2Proof.Machine
end

