-- ==== Sys2Proof/Safety.lean ====
section
/-! DEFINITION. What a safe run keeps, and the terms the statements are written in: the stream as the spec sees it, the
trie read as paths, and the invariants of a session. -/

namespace Sys2Proof.Machine

/-! ## The stream -/

/-- Stream bit `k` of the byte source: bit `k mod 8` of byte `k div 8` (00_scope.md rule R8). -/
def srcBit (s : State) (k : Nat) : Bool :=
  match Cells.read s.src (k / 8) with
  | some b => b.getLsbD (k % 8)
  | none => false

/-- The `n` stream bits from position `p` as an unsigned integer, the first bit least significant (20_memory.md rule R42). -/
def streamValue (s : State) (p : Nat) : Nat → Nat
  | 0 => 0
  | n + 1 => (srcBit s p).toNat + 2 * streamValue s (p + 1) n

/-- The `n` stream bits from position `p`, first bit first. -/
def streamBits (s : State) (p n : Nat) : List Bool :=
  (List.range n).map fun j => srcBit s (p + j)

/-- `s` with the BitCursor at stream position `p` and `bytepos` source bytes fetched (10_state.md rules R10, R12). -/
def State.cursorAt (s : State) (p bytepos : Nat) : State :=
  s.withCursor bytepos (BitVec.ofNat 24 (streamValue s p (8 * bytepos - p))) (8 * bytepos - p)

/-- The least number of bytes fetched that covers stream position `p`, at least those already fetched: refills happen one
byte at a time and only when needed (40_bitreader.md rule R71). -/
def State.bytesFor (s : State) (p : Nat) : Nat :=
  max s.bytepos ((p + 7) / 8)

/-- `s` after reading up to stream position `p`. -/
def State.seek (s : State) (p : Nat) : State :=
  s.cursorAt p (s.bytesFor p)

/-! ## Codes and tries -/

/-- The bits of a code in stream order, most significant first (20_memory.md rule R43). -/
def Code.bits (c : Code) : List Bool :=
  (List.range c.len).map fun j => c.code.testBit (c.len - 1 - j)

/-- The node a path of bits leads to from node `i`, none where a child is NONE or the path leaves a LEAF. -/
def Tree.walk (T : Tree) (i : Nat) : List Bool → Option Node
  | [] => T.nodes[i]?
  | b :: rest =>
    match T.child i b with
    | some (some j) => T.walk j rest
    | _ => none

/-- `2^maxLen` times the Kraft sum of a CodeLengthTable (41_huffman_builder.md rule R81). -/
def kraftSum (lengths : List Nat) (maxLen : Nat) : Nat :=
  ((lengths.filter (· ≠ 0)).map fun l => 2 ^ (maxLen - l)).sum

/-- A table is legal when it satisfies the Kraft inequality (41_huffman_builder.md rule R82). -/
def kraftOk (lengths : List Nat) (maxLen : Nat) : Prop :=
  kraftSum lengths maxLen ≤ 2 ^ maxLen

/-! ## Invariants -/

/-- `SRC` holds a byte at exactly the addresses 0 to `SRCLEN-1` (20_memory.md rule R40). -/
def SrcOk (s : State) : Prop :=
  s.src.map Prod.fst = List.range s.srclen

/-- `OUT` holds a byte at exactly the addresses 0 to `OUTLEN-1` (20_memory.md section 1). -/
def OutOk (s : State) : Prop :=
  s.out.map Prod.fst = List.range s.outlen

/-- The memories of a state: each in its canonical form, each covering exactly its addresses. -/
structure MemInv (s : State) : Prop where
  src : SrcOk s
  out : OutOk s
  lenseq : Cells.wf s.blk.lenseq

/-- The BitCursor (10_state.md rules R10, R11): `BITCNT` valid bits of the source, none beyond. -/
structure CursorOk (s : State) : Prop where
  bytepos_le : s.bytepos ≤ s.srclen
  bitcnt_le : s.bitcnt ≤ 23
  bitcnt_le_fetched : s.bitcnt ≤ 8 * s.bytepos
  acc_lt : s.acc.toNat < 2 ^ s.bitcnt
  acc_bits : ∀ j, j < s.bitcnt → s.acc.getLsbD j = srcBit s (s.bitpos + j)

/-- The BitCursor of a session in which no `PEEKBITS` is issued: between two instructions `BITCNT` is at most 7, unless an
error has frozen the cursor in the middle of one (10_state.md rule R24, 60_exceptions.md rule R157). -/
structure CursorInv (s : State) : Prop where
  src : SrcOk s
  cursor : CursorOk s
  few : s.status ≠ .faulted → s.bitcnt ≤ 7

/-- `ERR` is 0 exactly while `STATUS` is not FAULTED, and the core never raises `HeaderError` (10_state.md rule R16,
60_exceptions.md rule R152). -/
structure StatusInv (s : State) : Prop where
  faulted_iff : s.status = .faulted ↔ s.err ≠ .none
  no_header_error : s.err ≠ .headerError

/-- A tree whose fields are all there: node 0 is INTERNAL, every child is a node, every symbol is in the alphabet of `n`
symbols, and no code is longer than `m` (42_huffman_tree.md rule R90). -/
structure TreeOk (n m : Nat) (T : Tree) : Prop where
  root : ∃ c0 c1, T.nodes[0]? = some (Node.internal c0 c1)
  child0 : ∀ (i j : Nat) c1, T.nodes[i]? = some (Node.internal (some j) c1) → j < T.nodes.length
  child1 : ∀ (i : Nat) c0 (j : Nat), T.nodes[i]? = some (Node.internal c0 (some j)) → j < T.nodes.length
  symbols : ∀ (i v : Nat), T.nodes[i]? = some (Node.leaf v) → v < n
  maxlen : T.maxlen ≤ m

/-- Where they hold a value, `T.NODE` is an INTERNAL node of the tree and `T.DEPTH` at most the longest code (10_state.md rule
R22). -/
structure CursorIn (T : Tree) (c : TreeCursor) : Prop where
  node : ∀ n, c.node = some n → ∃ c0 c1, T.nodes[n]? = some (Node.internal c0 c1)
  depth : ∀ d, c.depth = some d → d ≤ T.maxlen

/-- The arena is a tree: the root is no child, and no node is the child of two nodes, or of one node twice. -/
structure TreeShaped (T : Tree) : Prop where
  root : ∀ i b, T.child i b ≠ some (some 0)
  parent : ∀ i b k d j, T.child i b = some (some j) → T.child k d = some (some j) → i = k ∧ b = d

/-- The ranges of 10_state.md sections 1.2 and 1.3 for the registers that hold a natural number; a table that R108 fills holds
all of its entries or none. -/
structure RangesOk (b : BlockState) : Prop where
  nlit : ∀ v, b.nlit = some v → 257 ≤ v ∧ v ≤ 288
  ndist : ∀ v, b.ndist = some v → 1 ≤ v ∧ v ≤ 32
  cllen : ∀ l, b.cllen = some l → l.length = 19
  seqcnt : ∀ v, b.seqcnt = some v → v ≤ 316
  lllen : b.lllen = [] ∨ b.lllen.map Prod.fst = List.range 286
  dlen : b.dlen = [] ∨ b.dlen.map Prod.fst = List.range 30
  cltree : ∀ T, b.cltree = some T → TreeOk Config.clSymbols Config.clMaxLen T
  lltree : ∀ T, b.lltree = some T → TreeOk Config.llSymbols Config.maxLen T
  dtree : ∀ T, b.dtree = some T → TreeOk Config.dSymbols Config.maxLen T
  cursor : ∀ t T, b.tree t = some T → CursorIn T (b.cursor t)
  sym : ∀ v, b.sym = some v → v ≤ 285
  clsym : ∀ v, b.clsym = some v → v ≤ 18
  rep : ∀ v, b.rep = some v → 3 ≤ v ∧ v ≤ 138
  length : ∀ v, b.length = some v → 3 ≤ v ∧ v ≤ Config.maxLength
  dsym : ∀ v, b.dsym = some v → v ≤ 29
  distance : ∀ v, b.distance = some v → 1 ≤ v ∧ v ≤ Config.maxDistance
  copyrem : ∀ v, b.copyrem = some v → v ≤ Config.maxLength

/-- The counts of the dynamic header once RANGE_CHECK has passed (44_block_decoder.md rule R123). -/
def countsOk (b : BlockState) : Prop :=
  ∃ nlit ndist, b.nlit = some nlit ∧ nlit ≤ 286 ∧ b.ndist = some ndist ∧ ndist ≤ 30

/-- `LENSEQ` holds exactly the entries 0 to `SEQCNT-1`, at most `NLIT + NDIST` of them (10_state.md rule R20). -/
def seqOk (b : BlockState) : Prop :=
  ∃ nlit ndist k, b.nlit = some nlit ∧ b.ndist = some ndist ∧ b.seqcnt = some k ∧ k ≤ nlit + ndist
    ∧ b.lenseq.map Prod.fst = List.range k

/-- The registers that hold a value at each point of a running session, so that no rule reads one that does not (10_state.md
rule R18). -/
def pointOk (s : State) : Prop :=
  match s.phase with
  | .readHeader => True
  | .readDynamicTables =>
    s.blk.bfinal.isSome ∧ s.blk.symPoint = .symbols ∧
      match s.blk.clPoint with
      | .dynHeader => s.blk.lenseq = []
      | .clLens =>
        s.blk.lenseq = [] ∧ countsOk s.blk ∧ s.blk.cllen.isSome
          ∧ ∃ c, s.blk.hclen = some c ∧ s.blk.clIdx ≤ c.toNat + 4
      | .clSyms => countsOk s.blk ∧ seqOk s.blk ∧ s.blk.cltree.isSome
  | .decodeSymbols =>
    s.blk.bfinal.isSome ∧ s.blk.lltree.isSome ∧ s.blk.dtree.isSome ∧
      match s.blk.symPoint with
      | .symbols => True
      | .dist => s.blk.length.isSome
      | .copy =>
        s.blk.copyrem.isSome ∧ ∃ d, s.blk.distance = some d ∧ d ≤ s.outlen
      | .append => s.blk.sym.isSome
  | .done => s.blk.bfinal.isSome

/-- The BlockState of a session: every register in its range, and while RUNNING every register the next rule reads holds a
value. -/
structure BlockInv (s : State) : Prop where
  ranges : RangesOk s.blk
  point : s.status = .running → pointOk s

/-- A state a session can be in. -/
structure SessionInv (s : State) : Prop where
  mem : MemInv s
  cursor : CursorInv s
  status : StatusInv s
  block : BlockInv s

/-- The stops that are no defect of a session: the core takes no step, or `OUT` is full. -/
def Fault.expected : Fault → Bool
  | .idle => true
  | .sessionComplete => true
  | .sessionFaulted => true
  | .outFull => true
  | _ => false

end Sys2Proof.Machine
end

