-- ==== Sys2Proof/Certificates/Slice0/Obligations.lean ====
section
/-! DEFINITION. The statements for the provers, from the numbered rules of spec/. -/

open Sys2Proof
open Sys2Proof.Machine

namespace Sys2Proof.Certificates

/-! Tables transcribed from the rules, independently of the model's own. -/

/-- The CL symbols 0 to 15 and the length each appends (43_code_length_expander.md rule R103). -/
def clLitRows : List (Instr × Nat) :=
  [(.clLit0, 0), (.clLit1, 1), (.clLit2, 2), (.clLit3, 3), (.clLit4, 4), (.clLit5, 5), (.clLit6, 6), (.clLit7, 7),
    (.clLit8, 8), (.clLit9, 9), (.clLit10, 10), (.clLit11, 11), (.clLit12, 12), (.clLit13, 13), (.clLit14, 14),
    (.clLit15, 15)]

/-- The table of 30_encoding.md rule R61: symbol, extra bits, base. -/
def lengthRows : List (Instr × Nat × Nat) :=
  [(.len257, 0, 3), (.len258, 0, 4), (.len259, 0, 5), (.len260, 0, 6), (.len261, 0, 7), (.len262, 0, 8),
    (.len263, 0, 9), (.len264, 0, 10), (.len265, 1, 11), (.len266, 1, 13), (.len267, 1, 15), (.len268, 1, 17),
    (.len269, 2, 19), (.len270, 2, 23), (.len271, 2, 27), (.len272, 2, 31), (.len273, 3, 35), (.len274, 3, 43),
    (.len275, 3, 51), (.len276, 3, 59), (.len277, 4, 67), (.len278, 4, 83), (.len279, 4, 99), (.len280, 4, 115),
    (.len281, 5, 131), (.len282, 5, 163), (.len283, 5, 195), (.len284, 5, 227), (.len285, 0, 258)]

/-- The table of 30_encoding.md rule R63: symbol, extra bits, base. -/
def distanceRows : List (Instr × Nat × Nat) :=
  [(.dist0, 0, 1), (.dist1, 0, 2), (.dist2, 0, 3), (.dist3, 0, 4), (.dist4, 1, 5), (.dist5, 1, 7), (.dist6, 2, 9),
    (.dist7, 2, 13), (.dist8, 3, 17), (.dist9, 3, 25), (.dist10, 4, 33), (.dist11, 4, 49), (.dist12, 5, 65),
    (.dist13, 5, 97), (.dist14, 6, 129), (.dist15, 6, 193), (.dist16, 7, 257), (.dist17, 7, 385), (.dist18, 8, 513),
    (.dist19, 8, 769), (.dist20, 9, 1025), (.dist21, 9, 1537), (.dist22, 10, 2049), (.dist23, 10, 3073),
    (.dist24, 11, 4097), (.dist25, 11, 6145), (.dist26, 12, 8193), (.dist27, 12, 12289), (.dist28, 13, 16385),
    (.dist29, 13, 24577)]

/-- The order of the CL code lengths (30_encoding.md rule R57). -/
def clOrderRow : List Nat :=
  [16, 17, 18, 0, 8, 7, 9, 6, 10, 5, 11, 4, 12, 3, 13, 2, 14, 1, 15]

/-- The instructions that read the stream: the reads of the BitReader, `DECODESYM`, and the symbols with extra bits. -/
def ReadsStream (i : Instr) : Prop :=
  (∃ n, i = .readBits n ∨ i = .peekBits n) ∨ i = .refill ∨ (∃ t, i = .decodeSym t)
    ∨ i ∈ [Instr.clRep16, .clZero17, .clZero18] ∨ (∃ p ∈ lengthRows, i = p.1) ∨ ∃ p ∈ distanceRows, i = p.1

/-- The instructions that make a new tree `t`: `BUILD`, and TABLES, which builds `LLTREE` and `DTREE`. -/
def MakesTree (i : Instr) (t : TreeId) : Prop :=
  (∃ ls m, i = .build t ls m) ∨ (i = .tables ∧ t ≠ .cl)

/-- The instructions that write the tree `t`. -/
def WritesTree (i : Instr) (t : TreeId) : Prop :=
  (∃ c L v, i = .addLeaf t c L v) ∨ MakesTree i t

/-- The instructions that write the cursor of the tree `t`. -/
def WritesCursor (i : Instr) (t : TreeId) : Prop :=
  (∃ b, i = .decodeStep t b) ∨ i = .resetCursor t ∨ i = .decodeSym t ∨ MakesTree i t

/-- The instructions that return a value to their caller. -/
def ReturnsValue (i : Instr) : Prop :=
  (∃ n, i = .readBits n ∨ i = .peekBits n) ∨ (∃ ls m, i = .canon ls m) ∨ (∃ t b, i = .decodeStep t b)
    ∨ ∃ t, i = .decodeSym t

/-- `i` is an instruction of the format `f`. -/
def HasFormat (i : Instr) (f : Format) : Prop :=
  ∃ w, encode i = some (f, w)

/-- A running session with no `START` pending, in phase `p`. -/
def RunningIn (s : State) (p : Phase) : Prop :=
  s.hostStart = none ∧ s.status = .running ∧ s.phase = p

/-- The register file `m` holds the `n` entries of `l`. -/
def HoldsTable (m : List (Nat × BitVec 4)) (n : Nat) (l : List (BitVec 4)) : Prop :=
  l.length = n ∧ ∀ i, i < n → Cells.read m i = l[i]?

/-- `OUT` has room for `n` further bytes. -/
def Room (s : State) (n : Nat) : Prop :=
  ∀ c, s.outCapacity = some c → s.outlen + n ≤ c

end Sys2Proof.Certificates

open Sys2Proof.Certificates

/-! ## Encoding -/

/-- 30_encoding.md rules R58, R59, R64, R65: every well-formed instruction that has a word is what its word decodes to. -/
def Obligations.EncodedInstructionDecodesBack : Prop :=
  ∀ (i : Instr) (f : Format) (w : Nat), WellFormed i = true → encode i = some (f, w) → decode f w = .ok i

/-- 30_encoding.md rule R67: a word that decodes has one meaning, a well-formed instruction whose word it is. -/
def Obligations.DecodedWordEncodesBack : Prop :=
  ∀ (f : Format) (w : Nat) (i : Instr), decode f w = .ok i → WellFormed i = true ∧ encode i = some (f, w)

/-- Words written out from 30_encoding.md rules R58, R59, R64, R65 decode to their instructions. -/
def Obligations.WrittenWordsDecode : Prop :=
  decode .bh 0b101 = .ok (.blkDynamic 1) ∧ decode .bh 0b010 = .ok (.blkFixed 0)
    ∧ decode .dh 0b11100001100011 = .ok (.dynHeader 3 3 14)
    ∧ decode .dh 0b00000000011110 = .ok (.dynHlitReserved 30 0 0)
    ∧ decode .dh 0b00001111000000 = .ok (.dynHdistReserved 0 30 0)
    ∧ decode .cll 0b110 = .ok (.clLen 6) ∧ decode .cls 0b01111 = .ok .clLit15 ∧ decode .cls 0b10000 = .ok .clRep16
    ∧ decode .ll 0b001100001 = .ok (.lit 0x61) ∧ decode .ll 0b100000000 = .ok .eob
    ∧ decode .ll 0b100001001 = .ok .len265 ∧ decode .d 0b11101 = .ok .dist29

/-- 30_encoding.md rule R66, 93 I12: the symbols 286, 287, 30 and 31 raise `MalformedHuffmanCode`. -/
def Obligations.ReservedSymbolsRaiseMalformed : Prop :=
  ∀ s : State, ∀ i ∈ [Instr.litLen286, .litLen287, .dist30, .dist31],
    exec i s = .next { s with err := .malformedHuffmanCode, status := .faulted }

/-- 30_encoding.md rule R63: every distance 1 to 32768 has exactly one symbol and extra value. -/
def Obligations.EveryDistanceHasOneEncoding : Prop :=
  ∀ D, 1 ≤ D → D ≤ 32768 →
    ∃! p : Nat × Nat, p.1 < 30 ∧ p.2 < 2 ^ distExtra.getD p.1 0 ∧ distBase.getD p.1 0 + p.2 = D

/-! ## BitReader -/

/-- 40_bitreader.md rules R70, R75: with `n` bits left, `READBITS(n)` returns the next `n` stream bits least significant
first, advances the stream position by `n` and has fetched no byte it did not need; with fewer it raises `StreamExhausted`,
every byte fetched and no bit consumed; a request wider than 16 is refused. That the value goes to `result` is the model's
choice (entry 8). -/
def Obligations.ReadBitsReturnsNextStreamBits : Prop :=
  ∀ (s : State) (n : Nat), SrcOk s → CursorOk s →
    (n ≤ 16 → s.bitpos + n ≤ 8 * s.srclen →
      exec (.readBits n) s = .next ((s.seek (s.bitpos + n)).withResult (.value (streamValue s s.bitpos n)))
        ∧ (s.seek (s.bitpos + n)).bitpos = s.bitpos + n)
    ∧ (n ≤ 16 → 8 * s.srclen < s.bitpos + n →
      exec (.readBits n) s = .next ((s.cursorAt s.bitpos s.srclen).raise .streamExhausted))
    ∧ (16 < n → exec (.readBits n) s = .refused (.readTooWide n))

/-- 40_bitreader.md rule R72: `PEEKBITS(n)` returns the same value, fetches the same bytes and leaves the stream position, and
a `READBITS(m)` after it with `m <= n` returns `PEEKBITS(n)[m-1:0]`. A request wider than 16 is refused (R75). That the value
goes to `result` is the model's choice (entry 8). -/
def Obligations.PeekBitsConsumesNothing : Prop :=
  ∀ (s : State) (n : Nat), SrcOk s → CursorOk s →
    (n ≤ 16 → s.bitpos + n ≤ 8 * s.srclen →
      exec (.peekBits n) s =
          .next ((s.cursorAt s.bitpos (s.bytesFor (s.bitpos + n))).withResult (.value (streamValue s s.bitpos n)))
        ∧ (s.cursorAt s.bitpos (s.bytesFor (s.bitpos + n))).bitpos = s.bitpos
        ∧ ∀ m t, m ≤ n → exec (.peekBits n) s = .next t →
          exec (.readBits m) t =
            .next ((s.cursorAt (s.bitpos + m) (s.bytesFor (s.bitpos + n))).withResult
              (.value (streamValue s s.bitpos n % 2 ^ m))))
    ∧ (n ≤ 16 → 8 * s.srclen < s.bitpos + n →
      exec (.peekBits n) s = .next ((s.cursorAt s.bitpos s.srclen).raise .streamExhausted))
    ∧ (16 < n → exec (.peekBits n) s = .refused (.readTooWide n))

/-- 40_bitreader.md rule R71: `REFILL` fetches the byte at `BYTEPOS` above the valid bits, or raises `StreamExhausted` at the
end of the source and changes nothing else. That a REFILL with more than 15 bits buffered is refused is the model's reading
of R11 (entry 15). -/
def Obligations.RefillFetchesOneByte : Prop :=
  ∀ s : State, SrcOk s → CursorOk s →
    (s.bytepos < s.srclen → s.bitcnt ≤ 15 → exec .refill s = .next (s.cursorAt s.bitpos (s.bytepos + 1)))
    ∧ (s.bytepos = s.srclen → exec .refill s = .next { s with err := .streamExhausted, status := .faulted })
    ∧ (s.bytepos < s.srclen → 15 < s.bitcnt → exec .refill s = .refused .refillNoRoom)

/-- 40_bitreader.md rule R74, the concatenation law. -/
def Obligations.ReadsConcatenate : Prop :=
  ∀ (s : State) (a b : Nat), SrcOk s → CursorOk s → a + b ≤ 16 →
    (∀ z t, readBits (a + b) s = .ok z t ↔
      ∃ x s1 y, readBits a s = .ok x s1 ∧ readBits b s1 = .ok y t ∧ z = x + y <<< a)
    ∧ (∀ e t, readBits (a + b) s = .raised e t →
      e = .streamExhausted ∧ ∃ t1, t1.bytepos = t.bytepos ∧
        (readBits a s = .raised .streamExhausted t1 ∨
          ∃ x s1, readBits a s = .ok x s1 ∧ readBits b s1 = .raised .streamExhausted t1))

/-! ## Canonical codes and trees -/

/-- 41_huffman_builder.md rules R81, R82: `CANON` gives codes exactly for a table that satisfies the Kraft inequality, and
raises `MalformedHuffmanCode` for every other. -/
def Obligations.CanonAcceptsExactlyKraftTables : Prop :=
  ∀ (s : State) (ls : List Nat) (m : Nat), lengthTableOk ls m = true →
    (kraftOk ls m → ∃ cs, canon ls m = .ok cs ∧ exec (.canon ls m) s = .next { s with result := some (.codes cs) })
    ∧ (¬ kraftOk ls m → exec (.canon ls m) s = .next { s with err := .malformedHuffmanCode, status := .faulted })

/-- 41_huffman_builder.md rules R80, R81: symbol `k` of length `L` gets the code that many above `sum over l < L of
bl_count[l] * 2^(L-l)` as there are earlier symbols of length `L`; a symbol of length 0 gets none. -/
def Obligations.CanonCodesAscendBySymbol : Prop :=
  ∀ (ls : List Nat) (m : Nat) (cs : List (Option Code)), lengthTableOk ls m = true → canon ls m = .ok cs →
    cs.length = ls.length ∧
      ∀ k L, ls[k]? = some L →
        cs[k]? = some (if L = 0 then none
          else some (Code.mk (((List.range' 1 (L - 1)).map fun l => ls.count l * 2 ^ (L - l)).sum + (ls.take k).count L) L))

/-- 41_huffman_builder.md rule R83: no code is a prefix of another. -/
def Obligations.CanonCodesArePrefixFree : Prop :=
  ∀ (ls : List Nat) (m : Nat) (cs : List (Option Code)) (i j : Nat) (ci cj : Code), lengthTableOk ls m = true → canon ls m = .ok cs → i ≠ j →
    cs[i]? = some (some ci) → cs[j]? = some (some cj) → ¬ ci.bits <+: cj.bits

/-- 41_huffman_builder.md rule R80, 42_huffman_tree.md rule R96: `CANON` returns the codes it computes; the tree that `BUILD`
makes replaces the block's tree, whatever was there, and its cursor holds no value (entry 5). Operands that are no
CodeLengthTable, for `BUILD` one of the tree's own alphabet, are refused, which is the model's choice (entry 17). -/
def Obligations.CanonAndBuildComplete : Prop :=
  ∀ (s : State) (t : TreeId) (ls : List Nat) (m : Nat),
    (∀ cs, lengthTableOk ls m = true → canon ls m = .ok cs → exec (.canon ls m) s = .next (s.withResult (.codes cs)))
    ∧ (lengthTableOk ls m = false → exec (.canon ls m) s = .refused .operandOutOfRange)
    ∧ (∀ T, buildOk t ls m = true → Tree.build ls m = .ok T →
      exec (.build t ls m) s = .next ((s.withTree t T).withTreeCursor t ⟨none, none⟩))
    ∧ (buildOk t ls m = false → exec (.build t ls m) s = .refused .operandOutOfRange)

/-- 42_huffman_tree.md rule R96: `BUILD` completes for every legal table, whatever tree it replaces, and raises
`MalformedHuffmanCode` for every other; in the tree every code's path, and no other, leads to its symbol's leaf. A table that
is none of the tree's own alphabet is refused (entry 17). -/
def Obligations.BuildCompletesOnLegalTables : Prop :=
  ∀ (s : State) (t : TreeId) (ls : List Nat) (m : Nat), buildOk t ls m = true →
    (kraftOk ls m → ∃ T cs, Tree.build ls m = .ok T ∧ canon ls m = .ok cs
        ∧ exec (.build t ls m) s = .next ((s.withTree t T).withTreeCursor t ⟨none, none⟩)
        ∧ ∀ p k, T.walk 0 p = some (Node.leaf k) ↔ ∃ c, cs[k]? = some (some c) ∧ p = c.bits)
    ∧ (¬ kraftOk ls m → exec (.build t ls m) s = .next { s with err := .malformedHuffmanCode, status := .faulted })

/-- 42_huffman_tree.md rule R91: `ADDLEAF` into a tree whose codes do not collide with `c` adds its path and keeps every
other, and where the arena is a tree no other path leads to a leaf; a collision raises `MalformedHuffmanCode`. The limit of
the arena is the model's (entry 16). -/
def Obligations.AddLeafAddsOnePath : Prop :=
  ∀ (s : State) (t : TreeId) (c L v : Nat) (T : Tree), addLeafOk t c L v = true → s.blk.tree t = some T → TreeOk t.symbols t.maxLen T →
    ((∀ p u, p <+: Code.bits (Code.mk c L) → T.walk 0 p ≠ some (Node.leaf u)) → T.walk 0 (Code.bits (Code.mk c L)) = none →
      T.count + L ≤ t.capacity →
      ∃ T1, exec (.addLeaf t c L v) s = .next (s.withTree t T1)
        ∧ T1.walk 0 (Code.bits (Code.mk c L)) = some (Node.leaf v)
        ∧ (∀ p u, T.walk 0 p = some (Node.leaf u) → T1.walk 0 p = some (Node.leaf u))
        ∧ (TreeShaped T → ∀ p u, T1.walk 0 p = some (Node.leaf u) →
          T.walk 0 p = some (Node.leaf u) ∨ (p = Code.bits (Code.mk c L) ∧ u = v))
        ∧ T1.maxlen = max T.maxlen L)
    ∧ (((∃ p u, p <+: Code.bits (Code.mk c L) ∧ T.walk 0 p = some (Node.leaf u)) ∨ T.walk 0 (Code.bits (Code.mk c L)) ≠ none) →
      exec (.addLeaf t c L v) s = .next { s with err := .malformedHuffmanCode, status := .faulted })

/-- 42_huffman_tree.md rule R92: the four outcomes of `DECODESTEP`. A step that raises leaves the cursor as it found it
(60_exceptions.md rule R159; entry 12). A read of a tree, of `T.NODE` or of `T.DEPTH` that no rule has written takes a fatal
error and changes nothing else (10_state.md rule R18, I10); its kind is a free value of the model (entry 23). -/
def Obligations.DecodeStepFollowsTheTree : Prop :=
  ∀ (s : State) (t : TreeId) (b : Bool),
    (∀ T n d, s.blk.tree t = some T → TreeOk t.symbols t.maxLen T → s.blk.cursor t = ⟨some n, some d⟩ → CursorIn T ⟨some n, some d⟩ →
      (T.child n b = some none →
        exec (.decodeStep t b) s = .next { s with err := .malformedHuffmanCode, status := .faulted })
      ∧ (∀ j v, T.child n b = some (some j) → T.nodes[j]? = some (Node.leaf v) →
        exec (.decodeStep t b) s = .next ((s.withTreeCursor t ⟨some n, some (d + 1)⟩).withResult (.symbol v)))
      ∧ (∀ j c0 c1, T.child n b = some (some j) → T.nodes[j]? = some (Node.internal c0 c1) → d + 1 < T.maxlen →
        exec (.decodeStep t b) s = .next ((s.withTreeCursor t ⟨some j, some (d + 1)⟩).withResult .cont))
      ∧ (∀ j c0 c1, T.child n b = some (some j) → T.nodes[j]? = some (Node.internal c0 c1) → T.maxlen ≤ d + 1 →
        exec (.decodeStep t b) s = .next { s with err := .malformedHuffmanCode, status := .faulted }))
    ∧ (s.blk.tree t = none ∨ (s.blk.cursor t).node = none ∨ (s.blk.cursor t).depth = none →
      ∃ e, e ≠ .none ∧ e ≠ .headerError ∧ exec (.decodeStep t b) s =
        .next { s with err := e, status := .faulted, unwrittenReads := s.unwrittenReads + 1 })

/-- 42_huffman_tree.md rule R93: `RESETCURSOR` returns the cursor to the root, raises nothing and changes nothing else, in
every state. That it does so where no `BUILD` of the block has made the tree is the model's reading (entry 5). -/
def Obligations.ResetCursorGoesToTheRoot : Prop :=
  ∀ (s : State) (t : TreeId), exec (.resetCursor t) s = .next (s.withTreeCursor t ⟨some 0, some 0⟩)

/-- 42_huffman_tree.md rule R94: from the root, whatever the cursor was, `DECODESYM` follows the next stream bits to a leaf,
returns its symbol, consumes exactly those bits and leaves the cursor at the root. -/
def Obligations.DecodeSymFollowsTheStreamBits : Prop :=
  ∀ (s : State) (t : TreeId) (T : Tree) (n v : Nat), s.blk.tree t = some T → SrcOk s → CursorOk s → 1 ≤ n → n ≤ T.maxlen →
    s.bitpos + n ≤ 8 * s.srclen → T.walk 0 (streamBits s s.bitpos n) = some (Node.leaf v) →
      exec (.decodeSym t) s =
        .next (((s.seek (s.bitpos + n)).withTreeCursor t ⟨some 0, some 0⟩).withResult (.symbol v))

/-- 42_huffman_tree.md rules R94, R95, 20_memory.md rule R43: with the tree `BUILD` made and a symbol's code, most
significant bit first, next in the stream, `DECODESYM` returns that symbol, consumes exactly its code and leaves the cursor
at the root. -/
def Obligations.DecodeSymReturnsTheCodedSymbol : Prop :=
  ∀ (s : State) (t : TreeId) (ls : List Nat) (m : Nat) (T : Tree) (cs : List (Option Code)) (k : Nat) (c : Code),
    buildOk t ls m = true → Tree.build ls m = .ok T → canon ls m = .ok cs →
    cs[k]? = some (some c) → s.blk.tree t = some T → SrcOk s → CursorOk s →
    s.bitpos + c.len ≤ 8 * s.srclen → streamBits s s.bitpos c.len = c.bits →
      exec (.decodeSym t) s =
        .next (((s.seek (s.bitpos + c.len)).withTreeCursor t ⟨some 0, some 0⟩).withResult (.symbol k))

/-- 42_huffman_tree.md rule R95: at the smallest `k` at which the next `k` bits are neither a code nor a proper prefix of
one, `DECODESYM` raises `MalformedHuffmanCode`, those `k` bits consumed, and the cursor stands where the `k - 1` bits before
lead, for the step that raises writes nothing (60_exceptions.md rule R159; entry 12). -/
def Obligations.DecodeSymFailsAtTheDivergingBit : Prop :=
  ∀ (s : State) (t : TreeId) (ls : List Nat) (m : Nat) (T : Tree) (cs : List (Option Code)) (k : Nat),
    buildOk t ls m = true → Tree.build ls m = .ok T → canon ls m = .ok cs →
    s.blk.tree t = some T → SrcOk s → CursorOk s → 1 ≤ k → s.bitpos + k ≤ 8 * s.srclen →
    (∀ c, some c ∈ cs → ¬ c.bits <+: streamBits s s.bitpos k ∧ ¬ streamBits s s.bitpos k <+: c.bits) →
    (k = 1 ∨ ∃ c, some c ∈ cs ∧ streamBits s s.bitpos (k - 1) <+: c.bits) →
      ∃ n, T.nodes[n]? = T.walk 0 (streamBits s s.bitpos (k - 1)) ∧
        exec (.decodeSym t) s =
          .next (((s.seek (s.bitpos + k)).withTreeCursor t ⟨some n, some (k - 1)⟩).raise .malformedHuffmanCode)

/-- 42_huffman_tree.md rule R95, 60_exceptions.md rule R157: a source that ends inside a code raises `StreamExhausted`, every
bit consumed, the cursor where those bits lead. -/
def Obligations.DecodeSymStopsAtTheSourceEnd : Prop :=
  ∀ (s : State) (t : TreeId) (ls : List Nat) (m : Nat) (T : Tree) (cs : List (Option Code)) (k : Nat),
    buildOk t ls m = true → Tree.build ls m = .ok T → canon ls m = .ok cs →
    s.blk.tree t = some T → SrcOk s → CursorOk s → s.bitpos + k = 8 * s.srclen →
    (∀ c, some c ∈ cs → ¬ c.bits <+: streamBits s s.bitpos k) →
    (k = 0 ∨ ∃ c, some c ∈ cs ∧ streamBits s s.bitpos k <+: c.bits) →
      ∃ n, T.nodes[n]? = T.walk 0 (streamBits s s.bitpos k) ∧
        exec (.decodeSym t) s =
          .next (((s.cursorAt (8 * s.srclen) s.srclen).withTreeCursor t ⟨some n, some k⟩).raise .streamExhausted)

/-! ## Block header and dynamic header -/

/-- 44_block_decoder.md rules R120, R121: `BFINAL` and `BTYPE` are written; type 2 goes on to ReadDynamicTables, every other
raises `UnsupportedBlockType`. -/
def Obligations.BlockHeaderForms : Prop :=
  ∀ (s : State) (f : BitVec 1),
    exec (.blkDynamic f) s =
        .next { s with phase := .readDynamicTables, blk := { s.blk with bfinal := some f, btype := some 2 } }
    ∧ exec (.blkStored f) s =
        .next { s with
          err := .unsupportedBlockType, status := .faulted, blk := { s.blk with bfinal := some f, btype := some 0 } }
    ∧ exec (.blkFixed f) s =
        .next { s with
          err := .unsupportedBlockType, status := .faulted, blk := { s.blk with bfinal := some f, btype := some 1 } }
    ∧ exec (.blkReserved f) s =
        .next { s with
          err := .unsupportedBlockType, status := .faulted, blk := { s.blk with bfinal := some f, btype := some 3 } }

/-- 44_block_decoder.md rules R120, R121, 30_encoding.md rule R58: in ReadHeader a step creates a new BlockState, reads
`BFINAL` and then `BTYPE` from the stream, and takes the block or raises `UnsupportedBlockType` after exactly 3 bits; with
fewer than 3 bits left it raises `StreamExhausted`, `BTYPE` not written. That this is one step is the model's choice
(entry 1). -/
def Obligations.BlockHeaderStepReadsThreeBits : Prop :=
  ∀ s : State, RunningIn s .readHeader → SrcOk s → CursorOk s →
    let f := BitVec.ofNat 1 (streamValue s s.bitpos 1)
    let ty := streamValue s (s.bitpos + 1) 2
    let b := { BlockState.fresh with bfinal := some f, btype := some (BitVec.ofNat 2 ty) }
    (s.bitpos + 3 ≤ 8 * s.srclen → ty = 2 →
      step s = .next (((s.seek (s.bitpos + 3)).withBlk b).withPhase .readDynamicTables))
    ∧ (s.bitpos + 3 ≤ 8 * s.srclen → ty ≠ 2 →
      step s = .next (((s.seek (s.bitpos + 3)).withBlk b).raise .unsupportedBlockType))
    ∧ (8 * s.srclen < s.bitpos + 3 →
      ∃ t, step s = .next t ∧ t.status = .faulted ∧ t.err = .streamExhausted ∧ t.bytepos = s.srclen ∧ t.blk.btype = none)

/-- 44_block_decoder.md rules R122, R123: the five registers are written; a count out of range raises
`MalformedHuffmanCode`. -/
def Obligations.DynamicHeaderForms : Prop :=
  ∀ (s : State) (hl hd : BitVec 5) (hc : BitVec 4),
    let b := { s.blk with
      hlit := some hl, nlit := some (hl.toNat + 257), hdist := some hd, ndist := some (hd.toNat + 1),
      hclen := some hc }
    (hl.toNat + 257 ≤ 286 → hd.toNat + 1 ≤ 30 → exec (.dynHeader hl hd hc) s = .next { s with blk := b })
    ∧ (286 < hl.toNat + 257 →
      exec (.dynHlitReserved hl hd hc) s =
        .next { s with blk := b, err := .malformedHuffmanCode, status := .faulted })
    ∧ (30 < hd.toNat + 1 →
      exec (.dynHdistReserved hl hd hc) s =
        .next { s with blk := b, err := .malformedHuffmanCode, status := .faulted })

/-- 44_block_decoder.md rules R122, R123, 30_encoding.md rule R59, 43 R100: the dynamic header's step reads 14 stream bits;
with both counts in range it begins the CL code lengths with every `CLLEN` entry 0, else it raises `MalformedHuffmanCode`;
with fewer than 14 bits left it raises `StreamExhausted`, whatever `HLIT` says (R158). That this is one step
(entry 1) and the fields `clIdx` and `clPoint` (entry 20) are the model's choice. -/
def Obligations.DynamicHeaderStepReadsFourteenBits : Prop :=
  ∀ s : State, RunningIn s .readDynamicTables → s.blk.clPoint = .dynHeader → SrcOk s → CursorOk s →
    let hl := streamValue s s.bitpos 5
    let hd := streamValue s (s.bitpos + 5) 5
    let hc := streamValue s (s.bitpos + 10) 4
    let b := { s.blk with
      hlit := some (BitVec.ofNat 5 hl), nlit := some (hl + 257), hdist := some (BitVec.ofNat 5 hd),
      ndist := some (hd + 1), hclen := some (BitVec.ofNat 4 hc) }
    (s.bitpos + 14 ≤ 8 * s.srclen → hl + 257 ≤ 286 → hd + 1 ≤ 30 →
      step s = .next ((s.seek (s.bitpos + 14)).withBlk
        { b with cllen := some (List.replicate 19 0), clIdx := 0, clPoint := .clLens }))
    ∧ (s.bitpos + 14 ≤ 8 * s.srclen → 286 < hl + 257 ∨ 30 < hd + 1 →
      step s = .next (((s.seek (s.bitpos + 14)).withBlk b).raise .malformedHuffmanCode))
    ∧ (8 * s.srclen < s.bitpos + 14 →
      ∃ t, step s = .next t ∧ t.status = .faulted ∧ t.err = .streamExhausted ∧ t.bytepos = s.srclen
        ∧ t.blk.hclen = s.blk.hclen)

/-- 44_block_decoder.md rule R123 as an operation. -/
def Obligations.RangeCheckRejectsLongTables : Prop :=
  ∀ (s : State) (a b : Nat), s.blk.nlit = some a → s.blk.ndist = some b →
    (a ≤ 286 → b ≤ 30 → exec .rangeCheck s = .next s)
    ∧ (286 < a ∨ 30 < b →
      exec .rangeCheck s = .next { s with err := .malformedHuffmanCode, status := .faulted })

/-- 44_block_decoder.md rule R124: both trees are built, literal/length first, and DecodeSymbols begins; a table that does
not build raises `MalformedHuffmanCode`, the literal/length table before `DLEN` is looked at. That a new tree's cursor holds
no value is the model's reading (entry 5). -/
def Obligations.TablesBuildsBothTrees : Prop :=
  ∀ (s : State) (l : List (BitVec 4)), HoldsTable s.blk.lllen 286 l →
    (∀ d T U, HoldsTable s.blk.dlen 30 d → Tree.build (l.map BitVec.toNat) 15 = .ok T →
      Tree.build (d.map BitVec.toNat) 15 = .ok U →
      exec .tables s =
        .next { s with
          phase := .decodeSymbols
          blk := { s.blk with lltree := some T, dtree := some U, llcursor := ⟨none, none⟩, dcursor := ⟨none, none⟩ } })
    ∧ (Tree.build (l.map BitVec.toNat) 15 = .error .malformed →
      exec .tables s = .next { s with err := .malformedHuffmanCode, status := .faulted })
    ∧ (∀ d T, HoldsTable s.blk.dlen 30 d → Tree.build (l.map BitVec.toNat) 15 = .ok T →
      Tree.build (d.map BitVec.toNat) 15 = .error .malformed →
      exec .tables s =
        .next { s with
          err := .malformedHuffmanCode, status := .faulted,
          blk := { s.blk with lltree := some T, llcursor := ⟨none, none⟩ } })

/-! ## Code lengths -/

/-- 43_code_length_expander.md rule R100: field `i` is the code length of CL symbol `CL_ORDER[i]`; every other entry stays, and one
that no rule has written is 0 (10_state.md rule R19). The loop variable `i` is held in the model's field `clIdx` (entry 20). -/
def Obligations.ClLenWritesInPermutationOrder : Prop :=
  ∀ (s : State) (n : BitVec 3) (l : List (BitVec 3)) (k sym : Nat),
    s.blk.cllen = some l ∨ (s.blk.cllen = none ∧ l = List.replicate 19 0) → l.length = 19 → s.blk.clIdx = k →
    clOrderRow[k]? = some sym →
    ∃ l1, exec (.clLen n) s = .next (s.withBlk { s.blk with cllen := some l1, clIdx := k + 1 })
      ∧ l1.length = 19 ∧ l1[sym]? = some n ∧ ∀ j, j ≠ sym → l1[j]? = l[j]?

/-- 43_code_length_expander.md rule R103: CL symbol `v` appends the length `v`. -/
def Obligations.ClLitAppendsItsLength : Prop :=
  ∀ (s : State) (k : Nat), s.blk.seqcnt = some k → k < 316 → ∀ p ∈ clLitRows,
    ∃ q, exec p.1 s = .next (s.withBlk { s.blk with lenseq := q, seqcnt := some (k + 1) })
      ∧ Cells.read q k = some (BitVec.ofNat 4 p.2) ∧ ∀ j, j ≠ k → Cells.read q j = Cells.read s.blk.lenseq j

/-- 43_code_length_expander.md rules R104, R107, R109: CL symbol 16 repeats the last entry `3 + READBITS(2)` times; it raises
`InvalidRunLengthContext` with no entry before it, no extra bit read, or on overrun, no entry written. -/
def Obligations.ClRep16RepeatsThePreviousLength : Prop :=
  ∀ (s : State) (k a b : Nat), s.blk.seqcnt = some k → s.blk.nlit = some a → s.blk.ndist = some b → a + b ≤ 316 →
    SrcOk s → CursorOk s →
    (k = 0 → exec .clRep16 s = .next { s with err := .invalidRunLengthContext, status := .faulted })
    ∧ (∀ prev, k ≠ 0 → Cells.read s.blk.lenseq (k - 1) = some prev → s.bitpos + 2 ≤ 8 * s.srclen →
      let r := 3 + streamValue s s.bitpos 2
      (k + r ≤ a + b →
        ∃ q, exec .clRep16 s = .next ((s.seek (s.bitpos + 2)).withBlk
            { s.blk with rep := some r, lenseq := q, seqcnt := some (k + r) })
          ∧ ∀ j, Cells.read q j = if k ≤ j ∧ j < k + r then some prev else Cells.read s.blk.lenseq j)
      ∧ (a + b < k + r →
        exec .clRep16 s = .next (((s.seek (s.bitpos + 2)).withBlk { s.blk with rep := some r }).raise
          .invalidRunLengthContext)))
    ∧ (∀ prev, k ≠ 0 → Cells.read s.blk.lenseq (k - 1) = some prev → 8 * s.srclen < s.bitpos + 2 →
      exec .clRep16 s = .next ((s.cursorAt s.bitpos s.srclen).raise .streamExhausted))

/-- 43_code_length_expander.md rules R105, R106, R107: CL symbol 17 writes `3 + READBITS(3)` zeros, 18 writes
`11 + READBITS(7)`; an overrun raises `InvalidRunLengthContext` after the extra bits, no entry written. -/
def Obligations.ClZeroRunsWriteZeros : Prop :=
  ∀ (s : State) (k a b : Nat), s.blk.seqcnt = some k → s.blk.nlit = some a → s.blk.ndist = some b → a + b ≤ 316 →
    SrcOk s → CursorOk s → ∀ p ∈ [(Instr.clZero17, 3, 3), (Instr.clZero18, 7, 11)],
    (s.bitpos + p.2.1 ≤ 8 * s.srclen →
      let r := p.2.2 + streamValue s s.bitpos p.2.1
      (k + r ≤ a + b →
        ∃ q, exec p.1 s = .next ((s.seek (s.bitpos + p.2.1)).withBlk
            { s.blk with rep := some r, lenseq := q, seqcnt := some (k + r) })
          ∧ ∀ j, Cells.read q j = if k ≤ j ∧ j < k + r then some 0 else Cells.read s.blk.lenseq j)
      ∧ (a + b < k + r →
        exec p.1 s = .next (((s.seek (s.bitpos + p.2.1)).withBlk { s.blk with rep := some r }).raise
          .invalidRunLengthContext)))
    ∧ (8 * s.srclen < s.bitpos + p.2.1 →
      exec p.1 s = .next ((s.cursorAt s.bitpos s.srclen).raise .streamExhausted))

/-- 43_code_length_expander.md rule R107 as an operation. -/
def Obligations.OverrunCheckComparesWithTotal : Prop :=
  ∀ (s : State) (k r a b : Nat), s.blk.seqcnt = some k → s.blk.rep = some r → s.blk.nlit = some a → s.blk.ndist = some b →
    (k + r ≤ a + b → exec .overrunCheck s = .next s)
    ∧ (a + b < k + r →
      exec .overrunCheck s = .next { s with err := .invalidRunLengthContext, status := .faulted })

/-- 43_code_length_expander.md rule R108: when the sequence is complete its first `NLIT` entries become `LLLEN` and the rest
`DLEN`, the other symbols unused, and `TABLES` is next. -/
def Obligations.CompleteSequenceIsSplit : Prop :=
  ∀ (s : State) (a b : Nat) (len : Nat → BitVec 4), s.phase = .readDynamicTables → s.blk.clPoint = .clSyms → s.blk.nlit = some a → a ≤ 286 →
    s.blk.ndist = some b → b ≤ 30 → s.blk.seqcnt = some (a + b) →
    (∀ j, j < a + b → Cells.read s.blk.lenseq j = some (len j)) →
      ∃ ll d, fetch s = .ok .tables (s.withBlk { s.blk with lllen := ll, dlen := d })
        ∧ (∀ i, Cells.read ll i =
          if i < 286 then some (if i < a then len i else 0) else Cells.read s.blk.lllen i)
        ∧ ∀ i, Cells.read d i = if i < 30 then some (if i < b then len (a + i) else 0) else Cells.read s.blk.dlen i

/-! ## Symbols, distances and the copy -/

/-- 44_block_decoder.md rule R126, 20_memory.md rule R45: LIT appends its byte at `OUTLEN`; on a full `OUT` the append takes no
step (R45), in the model the fault `outFull` (DESIGN CHOICE, entry 6). -/
def Obligations.LitAppendsItsByte : Prop :=
  ∀ (s : State) (b : Byte),
    (Room s 1 → ∃ m, exec (.lit b) s = .next { s with out := m, outlen := s.outlen + 1 }
      ∧ Cells.read m s.outlen = some b ∧ ∀ a, a ≠ s.outlen → Cells.read m a = Cells.read s.out a)
    ∧ (∀ c, s.outCapacity = some c → c ≤ s.outlen → exec (.lit b) s = .fault .outFull)

/-- 44_block_decoder.md rules R127, R132, R133: EOB makes the phase Done; the step of Done counts the block and ends the
session when `BFINAL` is 1, else begins the next block with no register of the old one. That Done is a step of its own is
the model's choice (entry 1); so is that the old block's registers are emptied there (entry 5) and kept at COMPLETE
(entry 22), where I11 leaves them any value. -/
def Obligations.EobEndsTheBlock : Prop :=
  ∀ s : State,
    exec .eob s = .next { s with phase := .done }
    ∧ (∀ f, RunningIn s .done → s.blk.bfinal = some f →
      (f = 1 → step s = .next { s with blocks := s.blocks + 1, status := .complete })
      ∧ (f = 0 → step s =
        .next { s with blocks := s.blocks + 1, phase := .readHeader, blk := BlockState.fresh }))

/-- 44_block_decoder.md rule R128, 30_encoding.md rule R61: each length symbol gives its base plus its extra bits, and
nothing else changes; a truncated extra field raises `StreamExhausted`. -/
def Obligations.LengthSymbolsGiveTheirLengths : Prop :=
  ∀ s : State, SrcOk s → CursorOk s → ∀ p ∈ lengthRows,
    (s.bitpos + p.2.1 ≤ 8 * s.srclen →
      exec p.1 s = .next ((s.seek (s.bitpos + p.2.1)).withBlk
        { s.blk with length := some (p.2.2 + streamValue s s.bitpos p.2.1) }))
    ∧ (8 * s.srclen < s.bitpos + p.2.1 →
      exec p.1 s = .next ((s.cursorAt s.bitpos s.srclen).raise .streamExhausted))

/-- 44_block_decoder.md rules R129, R130, 30_encoding.md rule R63: each distance symbol gives its base plus its extra bits;
a distance greater than `OUTLEN` raises `InvalidBackReference` with the extra bits consumed and nothing copied. -/
def Obligations.DistanceSymbolsGiveTheirDistances : Prop :=
  ∀ s : State, SrcOk s → CursorOk s → ∀ p ∈ distanceRows,
    (s.bitpos + p.2.1 ≤ 8 * s.srclen →
      let d := p.2.2 + streamValue s s.bitpos p.2.1
      let s1 := (s.seek (s.bitpos + p.2.1)).withBlk { s.blk with distance := some d }
      (d ≤ s.outlen → exec p.1 s = .next s1)
      ∧ (s.outlen < d → exec p.1 s = .next (s1.raise .invalidBackReference)))
    ∧ (8 * s.srclen < s.bitpos + p.2.1 →
      exec p.1 s = .next ((s.cursorAt s.bitpos s.srclen).raise .streamExhausted))

/-- 44_block_decoder.md rule R130 as an operation. -/
def Obligations.CheckComparesDistanceWithOutlen : Prop :=
  ∀ (s : State) (d : Nat), s.blk.distance = some d →
    (d ≤ s.outlen → exec .check s = .next s)
    ∧ (s.outlen < d → exec .check s = .next { s with err := .invalidBackReference, status := .faulted })

/-- 44_block_decoder.md rule R131, 20_memory.md rule R45: one turn appends the byte `DISTANCE` before the end and counts
`COPYREM` down. That COPYBYTE as an operation of its own with `COPYREM` 0 does nothing (entry 21), and that a full `OUT`,
where R45 takes no step, is the fault `outFull` (entry 6), are the model's choice. -/
def Obligations.CopyByteAppendsTheByteBehind : Prop :=
  ∀ (s : State) (d : Nat), s.blk.distance = some d → 1 ≤ d → d ≤ s.outlen → OutOk s →
    (∀ r, s.blk.copyrem = some (r + 1) → Room s 1 →
      ∃ m, exec .copyByte s =
          .next { s with out := m, outlen := s.outlen + 1, blk := { s.blk with copyrem := some r } }
        ∧ Cells.read m s.outlen = Cells.read s.out (s.outlen - d)
        ∧ (Cells.read m s.outlen).isSome
        ∧ ∀ a, a ≠ s.outlen → Cells.read m a = Cells.read s.out a)
    ∧ (s.blk.copyrem = some 0 → exec .copyByte s = .next s)
    ∧ (∀ r c, s.blk.copyrem = some (r + 1) → s.outCapacity = some c → c ≤ s.outlen →
      exec .copyByte s = .fault .outFull)

/-- 44_block_decoder.md rules R131, R134: the copy steps of a back-reference append `LENGTH` bytes, the last `DISTANCE` bytes
repeated with period `DISTANCE`, and change no byte before and no other register. -/
def Obligations.CopyRepeatsWithPeriodDistance : Prop :=
  ∀ (s : State) L D, RunningIn s .decodeSymbols → s.blk.symPoint = .copy → s.blk.copyrem = some L →
    s.blk.distance = some D → 1 ≤ D → D ≤ s.outlen → OutOk s → Room s L →
      ∃ m, Host.Core.run Sys2Proof.core L s =
          .next { s with out := m, outlen := s.outlen + L, blk := { s.blk with copyrem := some 0 } }
        ∧ (∀ k, k < L → Cells.read m (s.outlen + k) = Cells.read s.out (s.outlen - D + k % D))
        ∧ ∀ a, a < s.outlen → Cells.read m a = Cells.read s.out a

/-- 44_block_decoder.md rules R125, R126, R131, 42 R95, 20 R43: with the literal/length tree `BUILD` made and the code of a
symbol below 256 next in the stream, one step appends that byte and consumes exactly the code, also where it follows a
back-reference whose copy has ended. That one step is one instruction is the model's choice (entry 1). -/
def Obligations.CodedLiteralIsAppended : Prop :=
  ∀ (s : State) (ls : List Nat) (T : Tree) (cs : List (Option Code)) (k : Nat) (c : Code), RunningIn s .decodeSymbols →
    s.blk.symPoint = .symbols ∨ (s.blk.symPoint = .copy ∧ s.blk.copyrem = some 0) → buildOk .ll ls 15 = true →
    Tree.build ls 15 = .ok T → canon ls 15 = .ok cs → cs[k]? = some (some c) → k < 256 →
    s.blk.lltree = some T → SrcOk s → CursorOk s → s.bitpos + c.len ≤ 8 * s.srclen →
    streamBits s s.bitpos c.len = c.bits → Room s 1 →
      step s = .next (((s.seek (s.bitpos + c.len)).withBlk
        { s.blk with llcursor := ⟨some 0, some 0⟩, sym := some k, symPoint := .symbols }).append (BitVec.ofNat 8 k))

/-! ## Sessions -/

/-- 70_reset_and_hazards.md rules R180, R181, 10_state.md rule R26: a pending `START` is taken in any `STATUS` and gives the
session's values, whatever went before. That the pending `START` stands in `hostStart` and is taken before all else
(entry 3), that `OUT_CAPACITY` stays (entry 6), that `result` is cleared (entry 8) and that the count `unwrittenReads` stays
(entry 23) are the model's choice. -/
def Obligations.StartBeginsAFreshSession : Prop :=
  ∀ (s : State) (src : List Byte), s.hostStart = some src →
    ∃ m, step s = .next
        { hostStart := none, outCapacity := s.outCapacity, src := m, srclen := src.length, status := .running,
          err := .none, phase := .readHeader, bytepos := 0, acc := 0, bitcnt := 0, out := [], outlen := 0, blocks := 0,
          blk := BlockState.fresh, result := none,
          unwrittenReads := s.unwrittenReads }
      ∧ (∀ a, Cells.read m a = src[a]?)
      ∧ exec (.start src) { s with hostStart := none } = step s

/-- 10_state.md rule R15, 60_exceptions.md rule R161, 70_reset_and_hazards.md rule R182: IDLE, COMPLETE and FAULTED take no
step without `START`. Which fault the model answers there is its own (entry 7). -/
def Obligations.NoStepOutsideARunningSession : Prop :=
  ∀ s : State, s.hostStart = none →
    (s.status = .idle → step s = .fault .idle)
    ∧ (s.status = .complete → step s = .fault .sessionComplete)
    ∧ (s.status = .faulted → step s = .fault .sessionFaulted)

/-- 70_reset_and_hazards.md rule R182, 10_state.md rules R17, R26: after power-on `STATUS` is IDLE, `ERR` is 0, no block or
operation register holds a value, and the core takes no step. -/
def Obligations.PowerOnIsIdle : Prop :=
  State.reset.status = .idle ∧ State.reset.err = .none ∧ State.reset.blk = BlockState.fresh
    ∧ step State.reset = .fault .idle

/-- 60_exceptions.md rules R151, R159: a step that faults the session writes `ERR` and `STATUS`; `OUT`, `OUTLEN`, `BLOCKS`,
`PHASE` and the source are as before the instruction. Done takes no error where `BFINAL` holds a value, as it does in every
session (`StepKeepsTheBlockRegisters`). -/
def Obligations.FaultEntryFreezesTheOutput : Prop :=
  ∀ s t : State, (s.phase = .done → s.blk.bfinal.isSome) → step s = .next t → t.status = .faulted →
    s.hostStart = none ∧ s.status = .running ∧ t.err ≠ .none ∧ t.err ≠ .headerError ∧ t.out = s.out
      ∧ t.outlen = s.outlen ∧ t.blocks = s.blocks ∧ t.phase = s.phase ∧ t.src = s.src ∧ t.srclen = s.srclen

/-- 10_state.md rule R13, 20_memory.md rule R45: in a session a step leaves `OUT` as it is or appends one byte at `OUTLEN`. -/
def Obligations.OutputIsAppendOnly : Prop :=
  ∀ s t : State, s.hostStart = none → step s = .next t →
    (t.outlen = s.outlen ∧ ∀ a, Cells.read t.out a = Cells.read s.out a)
    ∨ (t.outlen = s.outlen + 1 ∧ (Cells.read t.out s.outlen).isSome
      ∧ ∀ a, a ≠ s.outlen → Cells.read t.out a = Cells.read s.out a)

/-- 10_state.md rules R15, R17, 44_block_decoder.md: the only ways a step of a session changes `PHASE` and `STATUS`; `BLOCKS`
counts by one at Done and nowhere else (R14, R133). -/
def Obligations.PhaseAndStatusFollowTheDiagram : Prop :=
  ∀ s t : State, s.hostStart = none → step s = .next t →
    (t.phase = s.phase
      ∨ (s.phase = .readHeader ∧ t.phase = .readDynamicTables)
      ∨ (s.phase = .readDynamicTables ∧ t.phase = .decodeSymbols)
      ∨ (s.phase = .decodeSymbols ∧ t.phase = .done)
      ∨ (s.phase = .done ∧ t.phase = .readHeader ∧ s.blk.bfinal = some 0))
    ∧ (t.status = .running ∨ t.status = .faulted
      ∨ (t.status = .complete ∧ s.phase = .done ∧ s.blk.bfinal = some 1))
    ∧ t.blocks = if s.phase = .done then s.blocks + 1 else s.blocks

/-- 20_memory.md rules R44, R49, 70_reset_and_hazards.md rule R195: a step of a session never writes the source, and the
bytes it has not fetched by its end have no effect on it. -/
def Obligations.UnfetchedSourceBytesHaveNoEffect : Prop :=
  ∀ (s t : State) (m : Memory), s.hostStart = none → step s = .next t →
    (∀ a, s.bytepos ≤ a → a < t.bytepos → Cells.read m a = Cells.read s.src a) →
      t.src = s.src ∧ s.bytepos ≤ t.bytepos ∧ step { s with src := m } = .next { t with src := m }

/-- 10_state.md rule R12: the stream position never goes back in a session and never passes `8*SRCLEN`. -/
def Obligations.StreamPositionNeverGoesBack : Prop :=
  ∀ s t : State, s.hostStart = none → CursorInv s → step s = .next t →
    s.bitpos ≤ t.bitpos ∧ t.bitpos ≤ 8 * t.srclen

/-- What an instruction leaves alone, register by register: each is unchanged unless the instruction is one that the rules
let write it (10_state.md sections 1.1 to 1.3, the column "written by"). `START` writes every session register (O42). Of
`OUT` only the byte at the old `OUTLEN` may change, and only by LIT and COPYBYTE; `STATUS` and `ERR` change only together, to
FAULTED, and the model's count `unwrittenReads` (entry 23) only with them. The registers that only a fetch or the step writes, and the model's own `clPoint`, `symPoint` (entry 20), no
instruction writes; CL_LEN advances `clIdx` (entry 20), and a returned value goes to `result` (entry 8). -/
def Obligations.InstructionsWriteOnlyTheirRegisters : Prop :=
  ∀ (i : Instr) (s t : State), exec i s = .next t → (∀ src, i ≠ .start src) →
    (t.hostStart = s.hostStart ∧ t.outCapacity = s.outCapacity ∧ t.src = s.src ∧ t.srclen = s.srclen
      ∧ t.blocks = s.blocks)
    ∧ (∀ a, a ≠ s.outlen → Cells.read t.out a = Cells.read s.out a)
    ∧ ((∀ b, i ≠ .lit b) → i ≠ .copyByte → t.outlen = s.outlen ∧ ∀ a, Cells.read t.out a = Cells.read s.out a)
    ∧ ((∀ f, i ≠ .blkDynamic f) → i ≠ .eob → i ≠ .tables → t.phase = s.phase)
    ∧ ((t.status = s.status ∧ t.err = s.err ∧ t.unwrittenReads = s.unwrittenReads)
      ∨ (t.status = .faulted ∧ t.err ≠ .none
        ∧ (t.unwrittenReads = s.unwrittenReads ∨ t.unwrittenReads = s.unwrittenReads + 1)))
    ∧ (¬ ReadsStream i → t.bytepos = s.bytepos ∧ t.acc = s.acc ∧ t.bitcnt = s.bitcnt)
    ∧ (¬ ReturnsValue i → t.result = s.result)
    ∧ (¬ HasFormat i .bh → t.blk.bfinal = s.blk.bfinal ∧ t.blk.btype = s.blk.btype)
    ∧ (¬ HasFormat i .dh → t.blk.hlit = s.blk.hlit ∧ t.blk.nlit = s.blk.nlit ∧ t.blk.hdist = s.blk.hdist
      ∧ t.blk.ndist = s.blk.ndist ∧ t.blk.hclen = s.blk.hclen)
    ∧ ((∀ n, i ≠ .clLen n) → t.blk.cllen = s.blk.cllen ∧ t.blk.clIdx = s.blk.clIdx)
    ∧ (¬ HasFormat i .cls → t.blk.lenseq = s.blk.lenseq ∧ t.blk.seqcnt = s.blk.seqcnt)
    ∧ (i ∉ [Instr.clRep16, .clZero17, .clZero18] → t.blk.rep = s.blk.rep)
    ∧ ((∀ p ∈ lengthRows, i ≠ p.1) → t.blk.length = s.blk.length)
    ∧ ((∀ p ∈ distanceRows, i ≠ p.1) → t.blk.distance = s.blk.distance)
    ∧ (i ≠ .copyByte → t.blk.copyrem = s.blk.copyrem)
    ∧ (∀ T, (¬ WritesTree i T → t.blk.tree T = s.blk.tree T) ∧ (¬ WritesCursor i T → t.blk.cursor T = s.blk.cursor T))
    ∧ (t.blk.lllen = s.blk.lllen ∧ t.blk.dlen = s.blk.dlen ∧ t.blk.sym = s.blk.sym ∧ t.blk.clsym = s.blk.clsym
      ∧ t.blk.dsym = s.blk.dsym ∧ t.blk.clPoint = s.blk.clPoint ∧ t.blk.symPoint = s.blk.symPoint)

/-- The step runs what the fetch decoded: `exec` of it on the state the fetch leaves, then the follow-up the pseudocode names
(`Follow`), unless an error froze the state; an error raised by the fetch itself is taken there. A read of a register that
holds no value, in the fetch or in the follow-up, takes its fatal error there (I10; entry 23). A literal whose `OutAppend`
finds `OUT` full waits with its code consumed, for `DECODESYM` has completed (20_memory.md rule R45, 60_exceptions.md rule
R159; entries 6 and 20). That one step is one instruction is the model's choice (entry 1). -/
def Obligations.StepRunsTheFetchedInstruction : Prop :=
  ∀ (s : State) (p : Phase), RunningIn s p → p ≠ .done →
    (∀ i s1, fetch s = .ok i s1 → (∀ b, i = .lit b → s.blk.symPoint = .append ∨ s1.outIsFull = false) →
      (∀ t u, exec i s1 = .next t → t.status = .running → (follow i).apply t = .ok () u → step s = .next u)
      ∧ (∀ t r u, exec i s1 = .next t → t.status = .running → (follow i).apply t = .unwritten r u →
        step s = .next u.raiseUnwritten)
      ∧ (∀ t, exec i s1 = .next t → t.status ≠ .running → step s = .next t)
      ∧ ∀ f, exec i s1 = .fault f → step s = .fault f)
    ∧ (∀ b s1, fetch s = .ok (.lit b) s1 → s.blk.symPoint ≠ .append → s1.outIsFull = true →
      step s = .next (s1.withBlk { s1.blk with symPoint := .append }))
    ∧ (∀ e s1, fetch s = .raised e s1 → step s = .next (s1.raise e))
    ∧ ∀ r s1, fetch s = .unwritten r s1 → step s = .next s1.raiseUnwritten

/-- What the sequencer adds after an instruction that completed: after the dynamic header the code lengths begin, all 0 (43
R100, 10 R19); after the code-length tree `SEQCNT` is 0 (43 R102); after a length its distance is due (44 R128); after a
distance `COPYREM` is `LENGTH` (44 R131), and a `LENGTH` that holds no value takes a fatal error (10 R18; entry 23); after
every other instruction nothing. The fields `clIdx`, `clPoint` and `symPoint` are the model's (entry 20). -/
def Obligations.FollowUpOfEachInstruction : Prop :=
  (∀ i w, encode i = some (.dh, w) → ∀ t : State,
      (follow i).apply t =
        .ok () { t with blk := { t.blk with cllen := some (List.replicate 19 0), clIdx := 0, clPoint := .clLens } })
    ∧ (∀ T ls m, ∀ t : State, (follow (.build T ls m)).apply t =
        .ok () { t with blk := { t.blk with seqcnt := some 0, clPoint := .clSyms } })
    ∧ (∀ p ∈ lengthRows, ∀ t : State,
        (follow p.1).apply t = .ok () { t with blk := { t.blk with symPoint := .dist } })
    ∧ (∀ p ∈ distanceRows, ∀ t : State,
        (∀ n, t.blk.length = some n →
          (follow p.1).apply t = .ok () { t with blk := { t.blk with copyrem := some n, symPoint := .copy } })
        ∧ (t.blk.length = none → (follow p.1).apply t = .unwritten .length t))
    ∧ ∀ i, (∃ w, encode i = some (.bh, w) ∨ encode i = some (.cll, w) ∨ encode i = some (.cls, w))
        ∨ (∃ b, i = .lit b) ∨ i = .eob ∨ i = .tables ∨ i = .copyByte → ∀ t : State, (follow i).apply t = .ok () t

/-- 44_block_decoder.md rules R125, R129, R131, 43 R100, R101, R102: where the next symbol is due, its Huffman code is
descended in the block's tree, the symbol's register is written and the symbol's instruction is fetched; in the copy loop
COPYBYTE is fetched while `COPYREM` is above 0, then the next literal/length symbol; a code-length field is the next 3 stream
bits; after `HCLEN + 4` of them the CL tree is built from `CLLEN`. The literal that waits for room in `OUT` is fetched again
from `SYM` (20_memory.md rule R45). The sequencing fields are the model's (entry 20). -/
def Obligations.FetchDecodesTheNextSymbol : Prop :=
  ∀ s s1 : State,
    (∀ v i, s.phase = .decodeSymbols → s.blk.symPoint = .symbols → decodeSym .ll s = .ok v s1 → decode .ll v = .ok i →
      fetch s = .ok i (s1.withBlk { s1.blk with sym := some v }))
    ∧ (∀ v i, s.phase = .decodeSymbols → s.blk.symPoint = .copy → s.blk.copyrem = some 0 →
      decodeSym .ll (s.withBlk { s.blk with symPoint := .symbols }) = .ok v s1 → decode .ll v = .ok i →
      fetch s = .ok i (s1.withBlk { s1.blk with sym := some v }))
    ∧ (∀ r, s.phase = .decodeSymbols → s.blk.symPoint = .copy → s.blk.copyrem = some (r + 1) →
      fetch s = .ok .copyByte s)
    ∧ (∀ v i, s.phase = .decodeSymbols → s.blk.symPoint = .append → s.blk.sym = some v → decode .ll v = .ok i →
      fetch s = .ok i (s.withBlk { s.blk with symPoint := .symbols }))
    ∧ (∀ v i, s.phase = .decodeSymbols → s.blk.symPoint = .dist → decodeSym .d s = .ok v s1 → decode .d v = .ok i →
      fetch s = .ok i (s1.withBlk { s1.blk with dsym := some v }))
    ∧ (∀ v i k a b, s.phase = .readDynamicTables → s.blk.clPoint = .clSyms → s.blk.seqcnt = some k →
      s.blk.nlit = some a → s.blk.ndist = some b → k < a + b → decodeSym .cl s = .ok v s1 → decode .cls v = .ok i →
      fetch s = .ok i (s1.withBlk { s1.blk with clsym := some v }))
    ∧ (∀ c, s.phase = .readDynamicTables → s.blk.clPoint = .clLens → s.blk.hclen = some c →
      s.blk.clIdx < c.toNat + 4 → SrcOk s → CursorOk s → s.bitpos + 3 ≤ 8 * s.srclen →
      fetch s = .ok (.clLen (BitVec.ofNat 3 (streamValue s s.bitpos 3))) (s.seek (s.bitpos + 3)))
    ∧ ∀ c l, s.phase = .readDynamicTables → s.blk.clPoint = .clLens → s.blk.hclen = some c →
      c.toNat + 4 ≤ s.blk.clIdx → s.blk.cllen = some l ∨ (s.blk.cllen = none ∧ l = List.replicate 19 0) →
      fetch s = .ok (.build .cl (l.map BitVec.toNat) 7) s

/-! ## Invariants -/

/-- The state after power-on meets every invariant. The zeros of its session registers are the model's choice (entry 4). -/
def Obligations.PowerOnMeetsTheInvariants : Prop :=
  SessionInv State.reset

/-- 20_memory.md rules R40, R45: every step keeps `SRC` and `OUT` at exactly their addresses, in canonical form. -/
def Obligations.StepKeepsTheMemories : Prop :=
  ∀ s t : State, MemInv s → step s = .next t → MemInv t

/-- 10_state.md rules R10, R11, R24: every step keeps the BitCursor a view of the source, with at most 7 bits buffered
between instructions unless the session has faulted. -/
def Obligations.StepKeepsTheBitCursor : Prop :=
  ∀ s t : State, CursorInv s → step s = .next t → CursorInv t

/-- 10_state.md rule R16, 60_exceptions.md rule R152: every step keeps `ERR` 0 exactly while `STATUS` is not FAULTED, and
`HeaderError` is never raised. -/
def Obligations.StepKeepsErrAndStatus : Prop :=
  ∀ s t : State, StatusInv s → step s = .next t → StatusInv t

/-- 10_state.md sections 1.2 and 1.3, rule R18: every step keeps each block and operation register in its range and, while
RUNNING, the registers the next rule reads written. -/
def Obligations.StepKeepsTheBlockRegisters : Prop :=
  ∀ s t : State, BlockInv s → step s = .next t → BlockInv t

/-- 10_state.md rule R18: no rule of a session reads a register that holds no value, so no step of one counts such a read
(entry 23); a session's step stops only where the spec says the core takes no step, and no request of the core is refused. -/
def Obligations.NoSessionReadsAnUnwrittenRegister : Prop :=
  ∀ s : State, SessionInv s →
    (∀ t, step s = .next t → t.unwrittenReads = s.unwrittenReads)
    ∧ (∀ f, step s = .fault f → f.expected = true) ∧ ∀ r, step s ≠ .refused r

/-- 70_reset_and_hazards.md rule R186, decision D11: every session ends, COMPLETE, FAULTED or stuck on a full `OUT`, within a
number of steps bounded by the stream bits left. The bound is the model's (entry 1). -/
def Obligations.EverySessionEnds : Prop :=
  ∀ s : State, SessionInv s → s.hostStart = none → s.status = .running →
    Host.Core.run Sys2Proof.core (300 * (8 * s.srclen - s.bitpos) + 300) s = .fault Fault.sessionComplete
    ∨ Host.Core.run Sys2Proof.core (300 * (8 * s.srclen - s.bitpos) + 300) s = .fault Fault.sessionFaulted
    ∨ Host.Core.run Sys2Proof.core (300 * (8 * s.srclen - s.bitpos) + 300) s = .fault Fault.outFull
end

