-- ==== Sys2Proof/Laws/State.lean ====
section
/-! SUPPORT. One lemma per field per update, true by rfl, so that no later proof unfolds a record update. -/

namespace Sys2Proof.Machine

/-! ### raise -/

@[simp] theorem State.raise_hostStart (s : State) (e : ErrCode) :
    (s.raise e).hostStart = s.hostStart := rfl
@[simp] theorem State.raise_outCapacity (s : State) (e : ErrCode) :
    (s.raise e).outCapacity = s.outCapacity := rfl
@[simp] theorem State.raise_src (s : State) (e : ErrCode) :
    (s.raise e).src = s.src := rfl
@[simp] theorem State.raise_srclen (s : State) (e : ErrCode) :
    (s.raise e).srclen = s.srclen := rfl
@[simp] theorem State.raise_status (s : State) (e : ErrCode) :
    (s.raise e).status = .faulted := rfl
@[simp] theorem State.raise_err (s : State) (e : ErrCode) :
    (s.raise e).err = e := rfl
@[simp] theorem State.raise_phase (s : State) (e : ErrCode) :
    (s.raise e).phase = s.phase := rfl
@[simp] theorem State.raise_bytepos (s : State) (e : ErrCode) :
    (s.raise e).bytepos = s.bytepos := rfl
@[simp] theorem State.raise_acc (s : State) (e : ErrCode) :
    (s.raise e).acc = s.acc := rfl
@[simp] theorem State.raise_bitcnt (s : State) (e : ErrCode) :
    (s.raise e).bitcnt = s.bitcnt := rfl
@[simp] theorem State.raise_out (s : State) (e : ErrCode) :
    (s.raise e).out = s.out := rfl
@[simp] theorem State.raise_outlen (s : State) (e : ErrCode) :
    (s.raise e).outlen = s.outlen := rfl
@[simp] theorem State.raise_blocks (s : State) (e : ErrCode) :
    (s.raise e).blocks = s.blocks := rfl
@[simp] theorem State.raise_blk (s : State) (e : ErrCode) :
    (s.raise e).blk = s.blk := rfl
@[simp] theorem State.raise_result (s : State) (e : ErrCode) :
    (s.raise e).result = s.result := rfl
@[simp] theorem State.raise_unwrittenReads (s : State) (e : ErrCode) :
    (s.raise e).unwrittenReads = s.unwrittenReads := rfl

/-! ### raiseUnwritten -/

@[simp] theorem State.raiseUnwritten_hostStart (s : State) :
    s.raiseUnwritten.hostStart = s.hostStart := rfl
@[simp] theorem State.raiseUnwritten_outCapacity (s : State) :
    s.raiseUnwritten.outCapacity = s.outCapacity := rfl
@[simp] theorem State.raiseUnwritten_src (s : State) :
    s.raiseUnwritten.src = s.src := rfl
@[simp] theorem State.raiseUnwritten_srclen (s : State) :
    s.raiseUnwritten.srclen = s.srclen := rfl
@[simp] theorem State.raiseUnwritten_status (s : State) :
    s.raiseUnwritten.status = .faulted := rfl
@[simp] theorem State.raiseUnwritten_err (s : State) :
    s.raiseUnwritten.err = .fatal (Config.unwrittenErr s.unwrittenReads) := rfl
@[simp] theorem State.raiseUnwritten_phase (s : State) :
    s.raiseUnwritten.phase = s.phase := rfl
@[simp] theorem State.raiseUnwritten_bytepos (s : State) :
    s.raiseUnwritten.bytepos = s.bytepos := rfl
@[simp] theorem State.raiseUnwritten_acc (s : State) :
    s.raiseUnwritten.acc = s.acc := rfl
@[simp] theorem State.raiseUnwritten_bitcnt (s : State) :
    s.raiseUnwritten.bitcnt = s.bitcnt := rfl
@[simp] theorem State.raiseUnwritten_out (s : State) :
    s.raiseUnwritten.out = s.out := rfl
@[simp] theorem State.raiseUnwritten_outlen (s : State) :
    s.raiseUnwritten.outlen = s.outlen := rfl
@[simp] theorem State.raiseUnwritten_blocks (s : State) :
    s.raiseUnwritten.blocks = s.blocks := rfl
@[simp] theorem State.raiseUnwritten_blk (s : State) :
    s.raiseUnwritten.blk = s.blk := rfl
@[simp] theorem State.raiseUnwritten_result (s : State) :
    s.raiseUnwritten.result = s.result := rfl
@[simp] theorem State.raiseUnwritten_unwrittenReads (s : State) :
    s.raiseUnwritten.unwrittenReads = s.unwrittenReads + 1 := rfl

/-- Each is an error that the core raises. -/
@[simp] theorem ErrCode.fatal_ne_none (k : Fin 5) : ErrCode.fatal k ≠ .none := by revert k; decide
@[simp] theorem ErrCode.fatal_ne_headerError (k : Fin 5) : ErrCode.fatal k ≠ .headerError := by revert k; decide

/-! ### withBlk -/

@[simp] theorem State.withBlk_hostStart (s : State) (b : BlockState) :
    (s.withBlk b).hostStart = s.hostStart := rfl
@[simp] theorem State.withBlk_outCapacity (s : State) (b : BlockState) :
    (s.withBlk b).outCapacity = s.outCapacity := rfl
@[simp] theorem State.withBlk_src (s : State) (b : BlockState) :
    (s.withBlk b).src = s.src := rfl
@[simp] theorem State.withBlk_srclen (s : State) (b : BlockState) :
    (s.withBlk b).srclen = s.srclen := rfl
@[simp] theorem State.withBlk_status (s : State) (b : BlockState) :
    (s.withBlk b).status = s.status := rfl
@[simp] theorem State.withBlk_err (s : State) (b : BlockState) :
    (s.withBlk b).err = s.err := rfl
@[simp] theorem State.withBlk_phase (s : State) (b : BlockState) :
    (s.withBlk b).phase = s.phase := rfl
@[simp] theorem State.withBlk_bytepos (s : State) (b : BlockState) :
    (s.withBlk b).bytepos = s.bytepos := rfl
@[simp] theorem State.withBlk_acc (s : State) (b : BlockState) :
    (s.withBlk b).acc = s.acc := rfl
@[simp] theorem State.withBlk_bitcnt (s : State) (b : BlockState) :
    (s.withBlk b).bitcnt = s.bitcnt := rfl
@[simp] theorem State.withBlk_out (s : State) (b : BlockState) :
    (s.withBlk b).out = s.out := rfl
@[simp] theorem State.withBlk_outlen (s : State) (b : BlockState) :
    (s.withBlk b).outlen = s.outlen := rfl
@[simp] theorem State.withBlk_blocks (s : State) (b : BlockState) :
    (s.withBlk b).blocks = s.blocks := rfl
@[simp] theorem State.withBlk_blk (s : State) (b : BlockState) :
    (s.withBlk b).blk = b := rfl
@[simp] theorem State.withBlk_result (s : State) (b : BlockState) :
    (s.withBlk b).result = s.result := rfl
@[simp] theorem State.withBlk_unwrittenReads (s : State) (b : BlockState) :
    (s.withBlk b).unwrittenReads = s.unwrittenReads := rfl

/-! ### withPhase -/

@[simp] theorem State.withPhase_hostStart (s : State) (p : Phase) :
    (s.withPhase p).hostStart = s.hostStart := rfl
@[simp] theorem State.withPhase_outCapacity (s : State) (p : Phase) :
    (s.withPhase p).outCapacity = s.outCapacity := rfl
@[simp] theorem State.withPhase_src (s : State) (p : Phase) :
    (s.withPhase p).src = s.src := rfl
@[simp] theorem State.withPhase_srclen (s : State) (p : Phase) :
    (s.withPhase p).srclen = s.srclen := rfl
@[simp] theorem State.withPhase_status (s : State) (p : Phase) :
    (s.withPhase p).status = s.status := rfl
@[simp] theorem State.withPhase_err (s : State) (p : Phase) :
    (s.withPhase p).err = s.err := rfl
@[simp] theorem State.withPhase_phase (s : State) (p : Phase) :
    (s.withPhase p).phase = p := rfl
@[simp] theorem State.withPhase_bytepos (s : State) (p : Phase) :
    (s.withPhase p).bytepos = s.bytepos := rfl
@[simp] theorem State.withPhase_acc (s : State) (p : Phase) :
    (s.withPhase p).acc = s.acc := rfl
@[simp] theorem State.withPhase_bitcnt (s : State) (p : Phase) :
    (s.withPhase p).bitcnt = s.bitcnt := rfl
@[simp] theorem State.withPhase_out (s : State) (p : Phase) :
    (s.withPhase p).out = s.out := rfl
@[simp] theorem State.withPhase_outlen (s : State) (p : Phase) :
    (s.withPhase p).outlen = s.outlen := rfl
@[simp] theorem State.withPhase_blocks (s : State) (p : Phase) :
    (s.withPhase p).blocks = s.blocks := rfl
@[simp] theorem State.withPhase_blk (s : State) (p : Phase) :
    (s.withPhase p).blk = s.blk := rfl
@[simp] theorem State.withPhase_result (s : State) (p : Phase) :
    (s.withPhase p).result = s.result := rfl
@[simp] theorem State.withPhase_unwrittenReads (s : State) (p : Phase) :
    (s.withPhase p).unwrittenReads = s.unwrittenReads := rfl

/-! ### withResult -/

@[simp] theorem State.withResult_hostStart (s : State) (r : OpResult) :
    (s.withResult r).hostStart = s.hostStart := rfl
@[simp] theorem State.withResult_outCapacity (s : State) (r : OpResult) :
    (s.withResult r).outCapacity = s.outCapacity := rfl
@[simp] theorem State.withResult_src (s : State) (r : OpResult) :
    (s.withResult r).src = s.src := rfl
@[simp] theorem State.withResult_srclen (s : State) (r : OpResult) :
    (s.withResult r).srclen = s.srclen := rfl
@[simp] theorem State.withResult_status (s : State) (r : OpResult) :
    (s.withResult r).status = s.status := rfl
@[simp] theorem State.withResult_err (s : State) (r : OpResult) :
    (s.withResult r).err = s.err := rfl
@[simp] theorem State.withResult_phase (s : State) (r : OpResult) :
    (s.withResult r).phase = s.phase := rfl
@[simp] theorem State.withResult_bytepos (s : State) (r : OpResult) :
    (s.withResult r).bytepos = s.bytepos := rfl
@[simp] theorem State.withResult_acc (s : State) (r : OpResult) :
    (s.withResult r).acc = s.acc := rfl
@[simp] theorem State.withResult_bitcnt (s : State) (r : OpResult) :
    (s.withResult r).bitcnt = s.bitcnt := rfl
@[simp] theorem State.withResult_out (s : State) (r : OpResult) :
    (s.withResult r).out = s.out := rfl
@[simp] theorem State.withResult_outlen (s : State) (r : OpResult) :
    (s.withResult r).outlen = s.outlen := rfl
@[simp] theorem State.withResult_blocks (s : State) (r : OpResult) :
    (s.withResult r).blocks = s.blocks := rfl
@[simp] theorem State.withResult_blk (s : State) (r : OpResult) :
    (s.withResult r).blk = s.blk := rfl
@[simp] theorem State.withResult_result (s : State) (r : OpResult) :
    (s.withResult r).result = some r := rfl
@[simp] theorem State.withResult_unwrittenReads (s : State) (r : OpResult) :
    (s.withResult r).unwrittenReads = s.unwrittenReads := rfl

/-! ### withTree -/

@[simp] theorem State.withTree_hostStart (s : State) (t : TreeId) (T : Tree) :
    (s.withTree t T).hostStart = s.hostStart := rfl
@[simp] theorem State.withTree_outCapacity (s : State) (t : TreeId) (T : Tree) :
    (s.withTree t T).outCapacity = s.outCapacity := rfl
@[simp] theorem State.withTree_src (s : State) (t : TreeId) (T : Tree) :
    (s.withTree t T).src = s.src := rfl
@[simp] theorem State.withTree_srclen (s : State) (t : TreeId) (T : Tree) :
    (s.withTree t T).srclen = s.srclen := rfl
@[simp] theorem State.withTree_status (s : State) (t : TreeId) (T : Tree) :
    (s.withTree t T).status = s.status := rfl
@[simp] theorem State.withTree_err (s : State) (t : TreeId) (T : Tree) :
    (s.withTree t T).err = s.err := rfl
@[simp] theorem State.withTree_phase (s : State) (t : TreeId) (T : Tree) :
    (s.withTree t T).phase = s.phase := rfl
@[simp] theorem State.withTree_bytepos (s : State) (t : TreeId) (T : Tree) :
    (s.withTree t T).bytepos = s.bytepos := rfl
@[simp] theorem State.withTree_acc (s : State) (t : TreeId) (T : Tree) :
    (s.withTree t T).acc = s.acc := rfl
@[simp] theorem State.withTree_bitcnt (s : State) (t : TreeId) (T : Tree) :
    (s.withTree t T).bitcnt = s.bitcnt := rfl
@[simp] theorem State.withTree_out (s : State) (t : TreeId) (T : Tree) :
    (s.withTree t T).out = s.out := rfl
@[simp] theorem State.withTree_outlen (s : State) (t : TreeId) (T : Tree) :
    (s.withTree t T).outlen = s.outlen := rfl
@[simp] theorem State.withTree_blocks (s : State) (t : TreeId) (T : Tree) :
    (s.withTree t T).blocks = s.blocks := rfl
@[simp] theorem State.withTree_blk (s : State) (t : TreeId) (T : Tree) :
    (s.withTree t T).blk = s.blk.withTree t T := rfl
@[simp] theorem State.withTree_result (s : State) (t : TreeId) (T : Tree) :
    (s.withTree t T).result = s.result := rfl
@[simp] theorem State.withTree_unwrittenReads (s : State) (t : TreeId) (T : Tree) :
    (s.withTree t T).unwrittenReads = s.unwrittenReads := rfl

/-! ### withTreeCursor -/

@[simp] theorem State.withTreeCursor_hostStart (s : State) (t : TreeId) (c : TreeCursor) :
    (s.withTreeCursor t c).hostStart = s.hostStart := rfl
@[simp] theorem State.withTreeCursor_outCapacity (s : State) (t : TreeId) (c : TreeCursor) :
    (s.withTreeCursor t c).outCapacity = s.outCapacity := rfl
@[simp] theorem State.withTreeCursor_src (s : State) (t : TreeId) (c : TreeCursor) :
    (s.withTreeCursor t c).src = s.src := rfl
@[simp] theorem State.withTreeCursor_srclen (s : State) (t : TreeId) (c : TreeCursor) :
    (s.withTreeCursor t c).srclen = s.srclen := rfl
@[simp] theorem State.withTreeCursor_status (s : State) (t : TreeId) (c : TreeCursor) :
    (s.withTreeCursor t c).status = s.status := rfl
@[simp] theorem State.withTreeCursor_err (s : State) (t : TreeId) (c : TreeCursor) :
    (s.withTreeCursor t c).err = s.err := rfl
@[simp] theorem State.withTreeCursor_phase (s : State) (t : TreeId) (c : TreeCursor) :
    (s.withTreeCursor t c).phase = s.phase := rfl
@[simp] theorem State.withTreeCursor_bytepos (s : State) (t : TreeId) (c : TreeCursor) :
    (s.withTreeCursor t c).bytepos = s.bytepos := rfl
@[simp] theorem State.withTreeCursor_acc (s : State) (t : TreeId) (c : TreeCursor) :
    (s.withTreeCursor t c).acc = s.acc := rfl
@[simp] theorem State.withTreeCursor_bitcnt (s : State) (t : TreeId) (c : TreeCursor) :
    (s.withTreeCursor t c).bitcnt = s.bitcnt := rfl
@[simp] theorem State.withTreeCursor_out (s : State) (t : TreeId) (c : TreeCursor) :
    (s.withTreeCursor t c).out = s.out := rfl
@[simp] theorem State.withTreeCursor_outlen (s : State) (t : TreeId) (c : TreeCursor) :
    (s.withTreeCursor t c).outlen = s.outlen := rfl
@[simp] theorem State.withTreeCursor_blocks (s : State) (t : TreeId) (c : TreeCursor) :
    (s.withTreeCursor t c).blocks = s.blocks := rfl
@[simp] theorem State.withTreeCursor_result (s : State) (t : TreeId) (c : TreeCursor) :
    (s.withTreeCursor t c).result = s.result := rfl
@[simp] theorem State.withTreeCursor_unwrittenReads (s : State) (t : TreeId) (c : TreeCursor) :
    (s.withTreeCursor t c).unwrittenReads = s.unwrittenReads := rfl
@[simp] theorem State.withTreeCursor_blk (s : State) (t : TreeId) (c : TreeCursor) :
    (s.withTreeCursor t c).blk = s.blk.withTreeCursor t c := rfl

/-! ### withNewTree -/

@[simp] theorem State.withNewTree_hostStart (s : State) (t : TreeId) (T : Tree) :
    (s.withNewTree t T).hostStart = s.hostStart := rfl
@[simp] theorem State.withNewTree_outCapacity (s : State) (t : TreeId) (T : Tree) :
    (s.withNewTree t T).outCapacity = s.outCapacity := rfl
@[simp] theorem State.withNewTree_src (s : State) (t : TreeId) (T : Tree) :
    (s.withNewTree t T).src = s.src := rfl
@[simp] theorem State.withNewTree_srclen (s : State) (t : TreeId) (T : Tree) :
    (s.withNewTree t T).srclen = s.srclen := rfl
@[simp] theorem State.withNewTree_status (s : State) (t : TreeId) (T : Tree) :
    (s.withNewTree t T).status = s.status := rfl
@[simp] theorem State.withNewTree_err (s : State) (t : TreeId) (T : Tree) :
    (s.withNewTree t T).err = s.err := rfl
@[simp] theorem State.withNewTree_phase (s : State) (t : TreeId) (T : Tree) :
    (s.withNewTree t T).phase = s.phase := rfl
@[simp] theorem State.withNewTree_bytepos (s : State) (t : TreeId) (T : Tree) :
    (s.withNewTree t T).bytepos = s.bytepos := rfl
@[simp] theorem State.withNewTree_acc (s : State) (t : TreeId) (T : Tree) :
    (s.withNewTree t T).acc = s.acc := rfl
@[simp] theorem State.withNewTree_bitcnt (s : State) (t : TreeId) (T : Tree) :
    (s.withNewTree t T).bitcnt = s.bitcnt := rfl
@[simp] theorem State.withNewTree_out (s : State) (t : TreeId) (T : Tree) :
    (s.withNewTree t T).out = s.out := rfl
@[simp] theorem State.withNewTree_outlen (s : State) (t : TreeId) (T : Tree) :
    (s.withNewTree t T).outlen = s.outlen := rfl
@[simp] theorem State.withNewTree_blocks (s : State) (t : TreeId) (T : Tree) :
    (s.withNewTree t T).blocks = s.blocks := rfl
@[simp] theorem State.withNewTree_result (s : State) (t : TreeId) (T : Tree) :
    (s.withNewTree t T).result = s.result := rfl
@[simp] theorem State.withNewTree_unwrittenReads (s : State) (t : TreeId) (T : Tree) :
    (s.withNewTree t T).unwrittenReads = s.unwrittenReads := rfl
@[simp] theorem State.withNewTree_blk (s : State) (t : TreeId) (T : Tree) :
    (s.withNewTree t T).blk = (s.blk.withTree t T).withTreeCursor t .unwritten := rfl

/-! ### withCursor -/

@[simp] theorem State.withCursor_hostStart (s : State) (p : Nat) (a : BitVec 24) (c : Nat) :
    (s.withCursor p a c).hostStart = s.hostStart := rfl
@[simp] theorem State.withCursor_outCapacity (s : State) (p : Nat) (a : BitVec 24) (c : Nat) :
    (s.withCursor p a c).outCapacity = s.outCapacity := rfl
@[simp] theorem State.withCursor_src (s : State) (p : Nat) (a : BitVec 24) (c : Nat) :
    (s.withCursor p a c).src = s.src := rfl
@[simp] theorem State.withCursor_srclen (s : State) (p : Nat) (a : BitVec 24) (c : Nat) :
    (s.withCursor p a c).srclen = s.srclen := rfl
@[simp] theorem State.withCursor_status (s : State) (p : Nat) (a : BitVec 24) (c : Nat) :
    (s.withCursor p a c).status = s.status := rfl
@[simp] theorem State.withCursor_err (s : State) (p : Nat) (a : BitVec 24) (c : Nat) :
    (s.withCursor p a c).err = s.err := rfl
@[simp] theorem State.withCursor_phase (s : State) (p : Nat) (a : BitVec 24) (c : Nat) :
    (s.withCursor p a c).phase = s.phase := rfl
@[simp] theorem State.withCursor_bytepos (s : State) (p : Nat) (a : BitVec 24) (c : Nat) :
    (s.withCursor p a c).bytepos = p := rfl
@[simp] theorem State.withCursor_acc (s : State) (p : Nat) (a : BitVec 24) (c : Nat) :
    (s.withCursor p a c).acc = a := rfl
@[simp] theorem State.withCursor_bitcnt (s : State) (p : Nat) (a : BitVec 24) (c : Nat) :
    (s.withCursor p a c).bitcnt = c := rfl
@[simp] theorem State.withCursor_out (s : State) (p : Nat) (a : BitVec 24) (c : Nat) :
    (s.withCursor p a c).out = s.out := rfl
@[simp] theorem State.withCursor_outlen (s : State) (p : Nat) (a : BitVec 24) (c : Nat) :
    (s.withCursor p a c).outlen = s.outlen := rfl
@[simp] theorem State.withCursor_blocks (s : State) (p : Nat) (a : BitVec 24) (c : Nat) :
    (s.withCursor p a c).blocks = s.blocks := rfl
@[simp] theorem State.withCursor_blk (s : State) (p : Nat) (a : BitVec 24) (c : Nat) :
    (s.withCursor p a c).blk = s.blk := rfl
@[simp] theorem State.withCursor_result (s : State) (p : Nat) (a : BitVec 24) (c : Nat) :
    (s.withCursor p a c).result = s.result := rfl
@[simp] theorem State.withCursor_unwrittenReads (s : State) (p : Nat) (a : BitVec 24) (c : Nat) :
    (s.withCursor p a c).unwrittenReads = s.unwrittenReads := rfl

/-! ### append -/

@[simp] theorem State.append_hostStart (s : State) (b : Byte) :
    (s.append b).hostStart = s.hostStart := rfl
@[simp] theorem State.append_outCapacity (s : State) (b : Byte) :
    (s.append b).outCapacity = s.outCapacity := rfl
@[simp] theorem State.append_src (s : State) (b : Byte) :
    (s.append b).src = s.src := rfl
@[simp] theorem State.append_srclen (s : State) (b : Byte) :
    (s.append b).srclen = s.srclen := rfl
@[simp] theorem State.append_status (s : State) (b : Byte) :
    (s.append b).status = s.status := rfl
@[simp] theorem State.append_err (s : State) (b : Byte) :
    (s.append b).err = s.err := rfl
@[simp] theorem State.append_phase (s : State) (b : Byte) :
    (s.append b).phase = s.phase := rfl
@[simp] theorem State.append_bytepos (s : State) (b : Byte) :
    (s.append b).bytepos = s.bytepos := rfl
@[simp] theorem State.append_acc (s : State) (b : Byte) :
    (s.append b).acc = s.acc := rfl
@[simp] theorem State.append_bitcnt (s : State) (b : Byte) :
    (s.append b).bitcnt = s.bitcnt := rfl
@[simp] theorem State.append_out (s : State) (b : Byte) :
    (s.append b).out = Cells.write s.out s.outlen b := rfl
@[simp] theorem State.append_outlen (s : State) (b : Byte) :
    (s.append b).outlen = s.outlen + 1 := rfl
@[simp] theorem State.append_blocks (s : State) (b : Byte) :
    (s.append b).blocks = s.blocks := rfl
@[simp] theorem State.append_blk (s : State) (b : Byte) :
    (s.append b).blk = s.blk := rfl
@[simp] theorem State.append_result (s : State) (b : Byte) :
    (s.append b).result = s.result := rfl
@[simp] theorem State.append_unwrittenReads (s : State) (b : Byte) :
    (s.append b).unwrittenReads = s.unwrittenReads := rfl

/-! ### withBFinal -/

@[simp] theorem State.withBFinal_hostStart (s : State) (f : BitVec 1) :
    (s.withBFinal f).hostStart = s.hostStart := rfl
@[simp] theorem State.withBFinal_outCapacity (s : State) (f : BitVec 1) :
    (s.withBFinal f).outCapacity = s.outCapacity := rfl
@[simp] theorem State.withBFinal_src (s : State) (f : BitVec 1) :
    (s.withBFinal f).src = s.src := rfl
@[simp] theorem State.withBFinal_srclen (s : State) (f : BitVec 1) :
    (s.withBFinal f).srclen = s.srclen := rfl
@[simp] theorem State.withBFinal_status (s : State) (f : BitVec 1) :
    (s.withBFinal f).status = s.status := rfl
@[simp] theorem State.withBFinal_err (s : State) (f : BitVec 1) :
    (s.withBFinal f).err = s.err := rfl
@[simp] theorem State.withBFinal_phase (s : State) (f : BitVec 1) :
    (s.withBFinal f).phase = s.phase := rfl
@[simp] theorem State.withBFinal_bytepos (s : State) (f : BitVec 1) :
    (s.withBFinal f).bytepos = s.bytepos := rfl
@[simp] theorem State.withBFinal_acc (s : State) (f : BitVec 1) :
    (s.withBFinal f).acc = s.acc := rfl
@[simp] theorem State.withBFinal_bitcnt (s : State) (f : BitVec 1) :
    (s.withBFinal f).bitcnt = s.bitcnt := rfl
@[simp] theorem State.withBFinal_out (s : State) (f : BitVec 1) :
    (s.withBFinal f).out = s.out := rfl
@[simp] theorem State.withBFinal_outlen (s : State) (f : BitVec 1) :
    (s.withBFinal f).outlen = s.outlen := rfl
@[simp] theorem State.withBFinal_blocks (s : State) (f : BitVec 1) :
    (s.withBFinal f).blocks = s.blocks := rfl
@[simp] theorem State.withBFinal_blk (s : State) (f : BitVec 1) :
    (s.withBFinal f).blk = { s.blk with bfinal := some f } := rfl
@[simp] theorem State.withBFinal_result (s : State) (f : BitVec 1) :
    (s.withBFinal f).result = s.result := rfl
@[simp] theorem State.withBFinal_unwrittenReads (s : State) (f : BitVec 1) :
    (s.withBFinal f).unwrittenReads = s.unwrittenReads := rfl

/-! ### withBType -/

@[simp] theorem State.withBType_hostStart (s : State) (t : BitVec 2) :
    (s.withBType t).hostStart = s.hostStart := rfl
@[simp] theorem State.withBType_outCapacity (s : State) (t : BitVec 2) :
    (s.withBType t).outCapacity = s.outCapacity := rfl
@[simp] theorem State.withBType_src (s : State) (t : BitVec 2) :
    (s.withBType t).src = s.src := rfl
@[simp] theorem State.withBType_srclen (s : State) (t : BitVec 2) :
    (s.withBType t).srclen = s.srclen := rfl
@[simp] theorem State.withBType_status (s : State) (t : BitVec 2) :
    (s.withBType t).status = s.status := rfl
@[simp] theorem State.withBType_err (s : State) (t : BitVec 2) :
    (s.withBType t).err = s.err := rfl
@[simp] theorem State.withBType_phase (s : State) (t : BitVec 2) :
    (s.withBType t).phase = s.phase := rfl
@[simp] theorem State.withBType_bytepos (s : State) (t : BitVec 2) :
    (s.withBType t).bytepos = s.bytepos := rfl
@[simp] theorem State.withBType_acc (s : State) (t : BitVec 2) :
    (s.withBType t).acc = s.acc := rfl
@[simp] theorem State.withBType_bitcnt (s : State) (t : BitVec 2) :
    (s.withBType t).bitcnt = s.bitcnt := rfl
@[simp] theorem State.withBType_out (s : State) (t : BitVec 2) :
    (s.withBType t).out = s.out := rfl
@[simp] theorem State.withBType_outlen (s : State) (t : BitVec 2) :
    (s.withBType t).outlen = s.outlen := rfl
@[simp] theorem State.withBType_blocks (s : State) (t : BitVec 2) :
    (s.withBType t).blocks = s.blocks := rfl
@[simp] theorem State.withBType_blk (s : State) (t : BitVec 2) :
    (s.withBType t).blk = { s.blk with btype := some t } := rfl
@[simp] theorem State.withBType_result (s : State) (t : BitVec 2) :
    (s.withBType t).result = s.result := rfl
@[simp] theorem State.withBType_unwrittenReads (s : State) (t : BitVec 2) :
    (s.withBType t).unwrittenReads = s.unwrittenReads := rfl

/-! ### withHlit -/

@[simp] theorem State.withHlit_hostStart (s : State) (h : BitVec 5) :
    (s.withHlit h).hostStart = s.hostStart := rfl
@[simp] theorem State.withHlit_outCapacity (s : State) (h : BitVec 5) :
    (s.withHlit h).outCapacity = s.outCapacity := rfl
@[simp] theorem State.withHlit_src (s : State) (h : BitVec 5) :
    (s.withHlit h).src = s.src := rfl
@[simp] theorem State.withHlit_srclen (s : State) (h : BitVec 5) :
    (s.withHlit h).srclen = s.srclen := rfl
@[simp] theorem State.withHlit_status (s : State) (h : BitVec 5) :
    (s.withHlit h).status = s.status := rfl
@[simp] theorem State.withHlit_err (s : State) (h : BitVec 5) :
    (s.withHlit h).err = s.err := rfl
@[simp] theorem State.withHlit_phase (s : State) (h : BitVec 5) :
    (s.withHlit h).phase = s.phase := rfl
@[simp] theorem State.withHlit_bytepos (s : State) (h : BitVec 5) :
    (s.withHlit h).bytepos = s.bytepos := rfl
@[simp] theorem State.withHlit_acc (s : State) (h : BitVec 5) :
    (s.withHlit h).acc = s.acc := rfl
@[simp] theorem State.withHlit_bitcnt (s : State) (h : BitVec 5) :
    (s.withHlit h).bitcnt = s.bitcnt := rfl
@[simp] theorem State.withHlit_out (s : State) (h : BitVec 5) :
    (s.withHlit h).out = s.out := rfl
@[simp] theorem State.withHlit_outlen (s : State) (h : BitVec 5) :
    (s.withHlit h).outlen = s.outlen := rfl
@[simp] theorem State.withHlit_blocks (s : State) (h : BitVec 5) :
    (s.withHlit h).blocks = s.blocks := rfl
@[simp] theorem State.withHlit_blk (s : State) (h : BitVec 5) :
    (s.withHlit h).blk = { s.blk with hlit := some h, nlit := some (h.toNat + 257) } := rfl
@[simp] theorem State.withHlit_result (s : State) (h : BitVec 5) :
    (s.withHlit h).result = s.result := rfl
@[simp] theorem State.withHlit_unwrittenReads (s : State) (h : BitVec 5) :
    (s.withHlit h).unwrittenReads = s.unwrittenReads := rfl

/-! ### withHdist -/

@[simp] theorem State.withHdist_hostStart (s : State) (h : BitVec 5) :
    (s.withHdist h).hostStart = s.hostStart := rfl
@[simp] theorem State.withHdist_outCapacity (s : State) (h : BitVec 5) :
    (s.withHdist h).outCapacity = s.outCapacity := rfl
@[simp] theorem State.withHdist_src (s : State) (h : BitVec 5) :
    (s.withHdist h).src = s.src := rfl
@[simp] theorem State.withHdist_srclen (s : State) (h : BitVec 5) :
    (s.withHdist h).srclen = s.srclen := rfl
@[simp] theorem State.withHdist_status (s : State) (h : BitVec 5) :
    (s.withHdist h).status = s.status := rfl
@[simp] theorem State.withHdist_err (s : State) (h : BitVec 5) :
    (s.withHdist h).err = s.err := rfl
@[simp] theorem State.withHdist_phase (s : State) (h : BitVec 5) :
    (s.withHdist h).phase = s.phase := rfl
@[simp] theorem State.withHdist_bytepos (s : State) (h : BitVec 5) :
    (s.withHdist h).bytepos = s.bytepos := rfl
@[simp] theorem State.withHdist_acc (s : State) (h : BitVec 5) :
    (s.withHdist h).acc = s.acc := rfl
@[simp] theorem State.withHdist_bitcnt (s : State) (h : BitVec 5) :
    (s.withHdist h).bitcnt = s.bitcnt := rfl
@[simp] theorem State.withHdist_out (s : State) (h : BitVec 5) :
    (s.withHdist h).out = s.out := rfl
@[simp] theorem State.withHdist_outlen (s : State) (h : BitVec 5) :
    (s.withHdist h).outlen = s.outlen := rfl
@[simp] theorem State.withHdist_blocks (s : State) (h : BitVec 5) :
    (s.withHdist h).blocks = s.blocks := rfl
@[simp] theorem State.withHdist_blk (s : State) (h : BitVec 5) :
    (s.withHdist h).blk = { s.blk with hdist := some h, ndist := some (h.toNat + 1) } := rfl
@[simp] theorem State.withHdist_result (s : State) (h : BitVec 5) :
    (s.withHdist h).result = s.result := rfl
@[simp] theorem State.withHdist_unwrittenReads (s : State) (h : BitVec 5) :
    (s.withHdist h).unwrittenReads = s.unwrittenReads := rfl

/-! ### withHclen -/

@[simp] theorem State.withHclen_hostStart (s : State) (h : BitVec 4) :
    (s.withHclen h).hostStart = s.hostStart := rfl
@[simp] theorem State.withHclen_outCapacity (s : State) (h : BitVec 4) :
    (s.withHclen h).outCapacity = s.outCapacity := rfl
@[simp] theorem State.withHclen_src (s : State) (h : BitVec 4) :
    (s.withHclen h).src = s.src := rfl
@[simp] theorem State.withHclen_srclen (s : State) (h : BitVec 4) :
    (s.withHclen h).srclen = s.srclen := rfl
@[simp] theorem State.withHclen_status (s : State) (h : BitVec 4) :
    (s.withHclen h).status = s.status := rfl
@[simp] theorem State.withHclen_err (s : State) (h : BitVec 4) :
    (s.withHclen h).err = s.err := rfl
@[simp] theorem State.withHclen_phase (s : State) (h : BitVec 4) :
    (s.withHclen h).phase = s.phase := rfl
@[simp] theorem State.withHclen_bytepos (s : State) (h : BitVec 4) :
    (s.withHclen h).bytepos = s.bytepos := rfl
@[simp] theorem State.withHclen_acc (s : State) (h : BitVec 4) :
    (s.withHclen h).acc = s.acc := rfl
@[simp] theorem State.withHclen_bitcnt (s : State) (h : BitVec 4) :
    (s.withHclen h).bitcnt = s.bitcnt := rfl
@[simp] theorem State.withHclen_out (s : State) (h : BitVec 4) :
    (s.withHclen h).out = s.out := rfl
@[simp] theorem State.withHclen_outlen (s : State) (h : BitVec 4) :
    (s.withHclen h).outlen = s.outlen := rfl
@[simp] theorem State.withHclen_blocks (s : State) (h : BitVec 4) :
    (s.withHclen h).blocks = s.blocks := rfl
@[simp] theorem State.withHclen_blk (s : State) (h : BitVec 4) :
    (s.withHclen h).blk = { s.blk with hclen := some h } := rfl
@[simp] theorem State.withHclen_result (s : State) (h : BitVec 4) :
    (s.withHclen h).result = s.result := rfl
@[simp] theorem State.withHclen_unwrittenReads (s : State) (h : BitVec 4) :
    (s.withHclen h).unwrittenReads = s.unwrittenReads := rfl

/-! ### withDynHeader -/

@[simp] theorem State.withDynHeader_hostStart (s : State) (hl hd : BitVec 5) (hc : BitVec 4) :
    (s.withDynHeader hl hd hc).hostStart = s.hostStart := rfl
@[simp] theorem State.withDynHeader_outCapacity (s : State) (hl hd : BitVec 5) (hc : BitVec 4) :
    (s.withDynHeader hl hd hc).outCapacity = s.outCapacity := rfl
@[simp] theorem State.withDynHeader_src (s : State) (hl hd : BitVec 5) (hc : BitVec 4) :
    (s.withDynHeader hl hd hc).src = s.src := rfl
@[simp] theorem State.withDynHeader_srclen (s : State) (hl hd : BitVec 5) (hc : BitVec 4) :
    (s.withDynHeader hl hd hc).srclen = s.srclen := rfl
@[simp] theorem State.withDynHeader_status (s : State) (hl hd : BitVec 5) (hc : BitVec 4) :
    (s.withDynHeader hl hd hc).status = s.status := rfl
@[simp] theorem State.withDynHeader_err (s : State) (hl hd : BitVec 5) (hc : BitVec 4) :
    (s.withDynHeader hl hd hc).err = s.err := rfl
@[simp] theorem State.withDynHeader_phase (s : State) (hl hd : BitVec 5) (hc : BitVec 4) :
    (s.withDynHeader hl hd hc).phase = s.phase := rfl
@[simp] theorem State.withDynHeader_bytepos (s : State) (hl hd : BitVec 5) (hc : BitVec 4) :
    (s.withDynHeader hl hd hc).bytepos = s.bytepos := rfl
@[simp] theorem State.withDynHeader_acc (s : State) (hl hd : BitVec 5) (hc : BitVec 4) :
    (s.withDynHeader hl hd hc).acc = s.acc := rfl
@[simp] theorem State.withDynHeader_bitcnt (s : State) (hl hd : BitVec 5) (hc : BitVec 4) :
    (s.withDynHeader hl hd hc).bitcnt = s.bitcnt := rfl
@[simp] theorem State.withDynHeader_out (s : State) (hl hd : BitVec 5) (hc : BitVec 4) :
    (s.withDynHeader hl hd hc).out = s.out := rfl
@[simp] theorem State.withDynHeader_outlen (s : State) (hl hd : BitVec 5) (hc : BitVec 4) :
    (s.withDynHeader hl hd hc).outlen = s.outlen := rfl
@[simp] theorem State.withDynHeader_blocks (s : State) (hl hd : BitVec 5) (hc : BitVec 4) :
    (s.withDynHeader hl hd hc).blocks = s.blocks := rfl
@[simp] theorem State.withDynHeader_blk (s : State) (hl hd : BitVec 5) (hc : BitVec 4) :
    (s.withDynHeader hl hd hc).blk = ((s.withHlit hl).withHdist hd |>.withHclen hc).blk := rfl
@[simp] theorem State.withDynHeader_result (s : State) (hl hd : BitVec 5) (hc : BitVec 4) :
    (s.withDynHeader hl hd hc).result = s.result := rfl
@[simp] theorem State.withDynHeader_unwrittenReads (s : State) (hl hd : BitVec 5) (hc : BitVec 4) :
    (s.withDynHeader hl hd hc).unwrittenReads = s.unwrittenReads := rfl

/-! ### beginClLens -/

@[simp] theorem State.beginClLens_hostStart (s : State) :
    s.beginClLens.hostStart = s.hostStart := rfl
@[simp] theorem State.beginClLens_outCapacity (s : State) :
    s.beginClLens.outCapacity = s.outCapacity := rfl
@[simp] theorem State.beginClLens_src (s : State) :
    s.beginClLens.src = s.src := rfl
@[simp] theorem State.beginClLens_srclen (s : State) :
    s.beginClLens.srclen = s.srclen := rfl
@[simp] theorem State.beginClLens_status (s : State) :
    s.beginClLens.status = s.status := rfl
@[simp] theorem State.beginClLens_err (s : State) :
    s.beginClLens.err = s.err := rfl
@[simp] theorem State.beginClLens_phase (s : State) :
    s.beginClLens.phase = s.phase := rfl
@[simp] theorem State.beginClLens_bytepos (s : State) :
    s.beginClLens.bytepos = s.bytepos := rfl
@[simp] theorem State.beginClLens_acc (s : State) :
    s.beginClLens.acc = s.acc := rfl
@[simp] theorem State.beginClLens_bitcnt (s : State) :
    s.beginClLens.bitcnt = s.bitcnt := rfl
@[simp] theorem State.beginClLens_out (s : State) :
    s.beginClLens.out = s.out := rfl
@[simp] theorem State.beginClLens_outlen (s : State) :
    s.beginClLens.outlen = s.outlen := rfl
@[simp] theorem State.beginClLens_blocks (s : State) :
    s.beginClLens.blocks = s.blocks := rfl
@[simp] theorem State.beginClLens_blk (s : State) :
    s.beginClLens.blk = { s.blk with cllen := some (List.replicate 19 0), clIdx := 0, clPoint := .clLens } := rfl
@[simp] theorem State.beginClLens_result (s : State) :
    s.beginClLens.result = s.result := rfl
@[simp] theorem State.beginClLens_unwrittenReads (s : State) :
    s.beginClLens.unwrittenReads = s.unwrittenReads := rfl

/-! ### start -/

@[simp] theorem State.start_hostStart (s : State) (l : List Byte) : (s.start l).hostStart = s.hostStart := rfl
@[simp] theorem State.start_outCapacity (s : State) (l : List Byte) : (s.start l).outCapacity = s.outCapacity := rfl
@[simp] theorem State.start_src (s : State) (l : List Byte) : (s.start l).src = Cells.ofList 0 l := rfl
@[simp] theorem State.start_srclen (s : State) (l : List Byte) : (s.start l).srclen = l.length := rfl
@[simp] theorem State.start_status (s : State) (l : List Byte) : (s.start l).status = .running := rfl
@[simp] theorem State.start_err (s : State) (l : List Byte) : (s.start l).err = .none := rfl
@[simp] theorem State.start_phase (s : State) (l : List Byte) : (s.start l).phase = .readHeader := rfl
@[simp] theorem State.start_bytepos (s : State) (l : List Byte) : (s.start l).bytepos = 0 := rfl
@[simp] theorem State.start_acc (s : State) (l : List Byte) : (s.start l).acc = 0 := rfl
@[simp] theorem State.start_bitcnt (s : State) (l : List Byte) : (s.start l).bitcnt = 0 := rfl
@[simp] theorem State.start_out (s : State) (l : List Byte) : (s.start l).out = [] := rfl
@[simp] theorem State.start_outlen (s : State) (l : List Byte) : (s.start l).outlen = 0 := rfl
@[simp] theorem State.start_blocks (s : State) (l : List Byte) : (s.start l).blocks = 0 := rfl
@[simp] theorem State.start_blk (s : State) (l : List Byte) : (s.start l).blk = BlockState.fresh := rfl
@[simp] theorem State.start_result (s : State) (l : List Byte) : (s.start l).result = none := rfl
@[simp] theorem State.start_unwrittenReads (s : State) (l : List Byte) :
    (s.start l).unwrittenReads = s.unwrittenReads := rfl

/-! ### A block with a tree replaced -/

@[simp] theorem BlockState.withTree_bfinal (b : BlockState) (t : TreeId) (T : Tree) :
    (b.withTree t T).bfinal = b.bfinal := by cases t <;> rfl
@[simp] theorem BlockState.withTree_btype (b : BlockState) (t : TreeId) (T : Tree) :
    (b.withTree t T).btype = b.btype := by cases t <;> rfl
@[simp] theorem BlockState.withTree_hlit (b : BlockState) (t : TreeId) (T : Tree) :
    (b.withTree t T).hlit = b.hlit := by cases t <;> rfl
@[simp] theorem BlockState.withTree_hdist (b : BlockState) (t : TreeId) (T : Tree) :
    (b.withTree t T).hdist = b.hdist := by cases t <;> rfl
@[simp] theorem BlockState.withTree_hclen (b : BlockState) (t : TreeId) (T : Tree) :
    (b.withTree t T).hclen = b.hclen := by cases t <;> rfl
@[simp] theorem BlockState.withTree_nlit (b : BlockState) (t : TreeId) (T : Tree) :
    (b.withTree t T).nlit = b.nlit := by cases t <;> rfl
@[simp] theorem BlockState.withTree_ndist (b : BlockState) (t : TreeId) (T : Tree) :
    (b.withTree t T).ndist = b.ndist := by cases t <;> rfl
@[simp] theorem BlockState.withTree_cllen (b : BlockState) (t : TreeId) (T : Tree) :
    (b.withTree t T).cllen = b.cllen := by cases t <;> rfl
@[simp] theorem BlockState.withTree_lenseq (b : BlockState) (t : TreeId) (T : Tree) :
    (b.withTree t T).lenseq = b.lenseq := by cases t <;> rfl
@[simp] theorem BlockState.withTree_seqcnt (b : BlockState) (t : TreeId) (T : Tree) :
    (b.withTree t T).seqcnt = b.seqcnt := by cases t <;> rfl
@[simp] theorem BlockState.withTree_lllen (b : BlockState) (t : TreeId) (T : Tree) :
    (b.withTree t T).lllen = b.lllen := by cases t <;> rfl
@[simp] theorem BlockState.withTree_dlen (b : BlockState) (t : TreeId) (T : Tree) :
    (b.withTree t T).dlen = b.dlen := by cases t <;> rfl
@[simp] theorem BlockState.withTree_sym (b : BlockState) (t : TreeId) (T : Tree) :
    (b.withTree t T).sym = b.sym := by cases t <;> rfl
@[simp] theorem BlockState.withTree_clsym (b : BlockState) (t : TreeId) (T : Tree) :
    (b.withTree t T).clsym = b.clsym := by cases t <;> rfl
@[simp] theorem BlockState.withTree_rep (b : BlockState) (t : TreeId) (T : Tree) :
    (b.withTree t T).rep = b.rep := by cases t <;> rfl
@[simp] theorem BlockState.withTree_length (b : BlockState) (t : TreeId) (T : Tree) :
    (b.withTree t T).length = b.length := by cases t <;> rfl
@[simp] theorem BlockState.withTree_dsym (b : BlockState) (t : TreeId) (T : Tree) :
    (b.withTree t T).dsym = b.dsym := by cases t <;> rfl
@[simp] theorem BlockState.withTree_distance (b : BlockState) (t : TreeId) (T : Tree) :
    (b.withTree t T).distance = b.distance := by cases t <;> rfl
@[simp] theorem BlockState.withTree_copyrem (b : BlockState) (t : TreeId) (T : Tree) :
    (b.withTree t T).copyrem = b.copyrem := by cases t <;> rfl
@[simp] theorem BlockState.withTree_clPoint (b : BlockState) (t : TreeId) (T : Tree) :
    (b.withTree t T).clPoint = b.clPoint := by cases t <;> rfl
@[simp] theorem BlockState.withTree_clIdx (b : BlockState) (t : TreeId) (T : Tree) :
    (b.withTree t T).clIdx = b.clIdx := by cases t <;> rfl
@[simp] theorem BlockState.withTree_symPoint (b : BlockState) (t : TreeId) (T : Tree) :
    (b.withTree t T).symPoint = b.symPoint := by cases t <;> rfl

@[simp] theorem BlockState.withTree_tree (b : BlockState) (t : TreeId) (T : Tree) :
    (b.withTree t T).tree t = some T := by cases t <;> rfl

theorem BlockState.withTree_tree_ne (b : BlockState) {t u : TreeId} (T : Tree) (h : u ≠ t) :
    (b.withTree t T).tree u = b.tree u := by
  cases t <;> cases u <;> first | rfl | exact absurd rfl h

@[simp] theorem BlockState.withTree_withTree (b : BlockState) (t : TreeId) (T U : Tree) :
    (b.withTree t T).withTree t U = b.withTree t U := by cases t <;> rfl

/-! ### A block with a tree's cursor replaced -/

@[simp] theorem BlockState.withTreeCursor_bfinal (b : BlockState) (t : TreeId) (c : TreeCursor) :
    (b.withTreeCursor t c).bfinal = b.bfinal := by cases t <;> rfl
@[simp] theorem BlockState.withTreeCursor_btype (b : BlockState) (t : TreeId) (c : TreeCursor) :
    (b.withTreeCursor t c).btype = b.btype := by cases t <;> rfl
@[simp] theorem BlockState.withTreeCursor_hlit (b : BlockState) (t : TreeId) (c : TreeCursor) :
    (b.withTreeCursor t c).hlit = b.hlit := by cases t <;> rfl
@[simp] theorem BlockState.withTreeCursor_hdist (b : BlockState) (t : TreeId) (c : TreeCursor) :
    (b.withTreeCursor t c).hdist = b.hdist := by cases t <;> rfl
@[simp] theorem BlockState.withTreeCursor_hclen (b : BlockState) (t : TreeId) (c : TreeCursor) :
    (b.withTreeCursor t c).hclen = b.hclen := by cases t <;> rfl
@[simp] theorem BlockState.withTreeCursor_nlit (b : BlockState) (t : TreeId) (c : TreeCursor) :
    (b.withTreeCursor t c).nlit = b.nlit := by cases t <;> rfl
@[simp] theorem BlockState.withTreeCursor_ndist (b : BlockState) (t : TreeId) (c : TreeCursor) :
    (b.withTreeCursor t c).ndist = b.ndist := by cases t <;> rfl
@[simp] theorem BlockState.withTreeCursor_cllen (b : BlockState) (t : TreeId) (c : TreeCursor) :
    (b.withTreeCursor t c).cllen = b.cllen := by cases t <;> rfl
@[simp] theorem BlockState.withTreeCursor_lenseq (b : BlockState) (t : TreeId) (c : TreeCursor) :
    (b.withTreeCursor t c).lenseq = b.lenseq := by cases t <;> rfl
@[simp] theorem BlockState.withTreeCursor_seqcnt (b : BlockState) (t : TreeId) (c : TreeCursor) :
    (b.withTreeCursor t c).seqcnt = b.seqcnt := by cases t <;> rfl
@[simp] theorem BlockState.withTreeCursor_lllen (b : BlockState) (t : TreeId) (c : TreeCursor) :
    (b.withTreeCursor t c).lllen = b.lllen := by cases t <;> rfl
@[simp] theorem BlockState.withTreeCursor_dlen (b : BlockState) (t : TreeId) (c : TreeCursor) :
    (b.withTreeCursor t c).dlen = b.dlen := by cases t <;> rfl
@[simp] theorem BlockState.withTreeCursor_sym (b : BlockState) (t : TreeId) (c : TreeCursor) :
    (b.withTreeCursor t c).sym = b.sym := by cases t <;> rfl
@[simp] theorem BlockState.withTreeCursor_clsym (b : BlockState) (t : TreeId) (c : TreeCursor) :
    (b.withTreeCursor t c).clsym = b.clsym := by cases t <;> rfl
@[simp] theorem BlockState.withTreeCursor_rep (b : BlockState) (t : TreeId) (c : TreeCursor) :
    (b.withTreeCursor t c).rep = b.rep := by cases t <;> rfl
@[simp] theorem BlockState.withTreeCursor_length (b : BlockState) (t : TreeId) (c : TreeCursor) :
    (b.withTreeCursor t c).length = b.length := by cases t <;> rfl
@[simp] theorem BlockState.withTreeCursor_dsym (b : BlockState) (t : TreeId) (c : TreeCursor) :
    (b.withTreeCursor t c).dsym = b.dsym := by cases t <;> rfl
@[simp] theorem BlockState.withTreeCursor_distance (b : BlockState) (t : TreeId) (c : TreeCursor) :
    (b.withTreeCursor t c).distance = b.distance := by cases t <;> rfl
@[simp] theorem BlockState.withTreeCursor_copyrem (b : BlockState) (t : TreeId) (c : TreeCursor) :
    (b.withTreeCursor t c).copyrem = b.copyrem := by cases t <;> rfl
@[simp] theorem BlockState.withTreeCursor_clPoint (b : BlockState) (t : TreeId) (c : TreeCursor) :
    (b.withTreeCursor t c).clPoint = b.clPoint := by cases t <;> rfl
@[simp] theorem BlockState.withTreeCursor_clIdx (b : BlockState) (t : TreeId) (c : TreeCursor) :
    (b.withTreeCursor t c).clIdx = b.clIdx := by cases t <;> rfl
@[simp] theorem BlockState.withTreeCursor_symPoint (b : BlockState) (t : TreeId) (c : TreeCursor) :
    (b.withTreeCursor t c).symPoint = b.symPoint := by cases t <;> rfl

@[simp] theorem BlockState.withTreeCursor_tree (b : BlockState) (t u : TreeId) (c : TreeCursor) :
    (b.withTreeCursor t c).tree u = b.tree u := by cases t <;> cases u <;> rfl

@[simp] theorem BlockState.withTree_cursor (b : BlockState) (t u : TreeId) (T : Tree) :
    (b.withTree t T).cursor u = b.cursor u := by cases t <;> cases u <;> rfl

@[simp] theorem BlockState.withTreeCursor_cursor (b : BlockState) (t : TreeId) (c : TreeCursor) :
    (b.withTreeCursor t c).cursor t = c := by cases t <;> rfl

theorem BlockState.withTreeCursor_cursor_ne (b : BlockState) {t u : TreeId} (c : TreeCursor) (h : u ≠ t) :
    (b.withTreeCursor t c).cursor u = b.cursor u := by
  cases t <;> cases u <;> first | rfl | exact absurd rfl h

@[simp] theorem BlockState.withTreeCursor_withTreeCursor (b : BlockState) (t : TreeId) (c d : TreeCursor) :
    (b.withTreeCursor t c).withTreeCursor t d = b.withTreeCursor t d := by cases t <;> rfl

@[simp] theorem BlockState.withTreeCursor_self (b : BlockState) (t : TreeId) :
    b.withTreeCursor t (b.cursor t) = b := by cases t <;> rfl

/-! ### Updates in a row -/

@[simp] theorem State.withBlk_withBlk (s : State) (b c : BlockState) : (s.withBlk b).withBlk c = s.withBlk c := rfl

@[simp] theorem State.withBlk_self (s : State) : s.withBlk s.blk = s := rfl

@[simp] theorem State.withCursor_withCursor (s : State) (p q : Nat) (a b : BitVec 24) (c d : Nat) :
    (s.withCursor p a c).withCursor q b d = s.withCursor q b d := rfl

@[simp] theorem State.withCursor_self (s : State) : s.withCursor s.bytepos s.acc s.bitcnt = s := rfl

@[simp] theorem State.withBlk_withCursor (s : State) (b : BlockState) (p : Nat) (a : BitVec 24) (c : Nat) :
    (s.withBlk b).withCursor p a c = (s.withCursor p a c).withBlk b := rfl

@[simp] theorem State.withTree_withTree (s : State) (t : TreeId) (T U : Tree) :
    (s.withTree t T).withTree t U = s.withTree t U := by
  cases t <;> rfl

@[simp] theorem State.withTreeCursor_withTreeCursor (s : State) (t : TreeId) (c d : TreeCursor) :
    (s.withTreeCursor t c).withTreeCursor t d = s.withTreeCursor t d := by
  cases t <;> rfl

@[simp] theorem State.withTreeCursor_self (s : State) (t : TreeId) : s.withTreeCursor t (s.blk.cursor t) = s := by
  simp [State.withTreeCursor]

theorem State.withTreeCursor_withCursor (s : State) (t : TreeId) (d : TreeCursor) (p : Nat) (a : BitVec 24) (c : Nat) :
    (s.withTreeCursor t d).withCursor p a c = (s.withCursor p a c).withTreeCursor t d := rfl

theorem State.withTree_withCursor (s : State) (t : TreeId) (T : Tree) (p : Nat) (a : BitVec 24) (c : Nat) :
    (s.withTree t T).withCursor p a c = (s.withCursor p a c).withTree t T := rfl

@[simp] theorem State.bitpos_withBlk (s : State) (b : BlockState) : (s.withBlk b).bitpos = s.bitpos := rfl

@[simp] theorem State.bitpos_withTree (s : State) (t : TreeId) (T : Tree) : (s.withTree t T).bitpos = s.bitpos := rfl

@[simp] theorem State.bitpos_withTreeCursor (s : State) (t : TreeId) (c : TreeCursor) :
    (s.withTreeCursor t c).bitpos = s.bitpos := rfl

@[simp] theorem State.bitpos_withPhase (s : State) (p : Phase) : (s.withPhase p).bitpos = s.bitpos := rfl

@[simp] theorem State.bitpos_raise (s : State) (e : ErrCode) : (s.raise e).bitpos = s.bitpos := rfl

@[simp] theorem State.bitpos_append (s : State) (b : Byte) : (s.append b).bitpos = s.bitpos := rfl

@[simp] theorem State.bitpos_withResult (s : State) (r : OpResult) : (s.withResult r).bitpos = s.bitpos := rfl

end Sys2Proof.Machine
end

