-- ==== Sys2Proof/Laws/Res.lean ====
section
/-! SUPPORT. Operations in sequence: what a bind, a register read and an outcome can be. -/

namespace Sys2Proof.Machine

variable {α β : Type}

@[simp] theorem Res.bind_ok (a : α) (s : State) (k : α → State → Res β) : (Res.ok a s).bind k = k a s := rfl

@[simp] theorem Res.bind_raised (e : ErrCode) (s : State) (k : α → State → Res β) :
    (Res.raised e s).bind k = .raised e s := rfl

@[simp] theorem Res.bind_unwritten (r : Reg) (s : State) (k : α → State → Res β) :
    (Res.unwritten r s).bind k = .unwritten r s := rfl

@[simp] theorem Res.bind_stop (f : Fault) (k : α → State → Res β) : (Res.stop f).bind k = .stop f := rfl

@[simp] theorem Res.bind_refused (r : Refusal) (k : α → State → Res β) : (Res.refused r).bind k = .refused r := rfl

theorem Res.bind_eq_ok {r : Res α} {k : α → State → Res β} {b : β} {t : State} :
    r.bind k = .ok b t ↔ ∃ a s, r = .ok a s ∧ k a s = .ok b t := by
  cases r <;> simp

theorem Res.bind_eq_raised {r : Res α} {k : α → State → Res β} {e : ErrCode} {t : State} :
    r.bind k = .raised e t ↔ r = .raised e t ∨ ∃ a s, r = .ok a s ∧ k a s = .raised e t := by
  cases r <;> simp

theorem Res.bind_eq_unwritten {r : Res α} {k : α → State → Res β} {x : Reg} {t : State} :
    r.bind k = .unwritten x t ↔ r = .unwritten x t ∨ ∃ a s, r = .ok a s ∧ k a s = .unwritten x t := by
  cases r <;> simp

theorem Res.bind_eq_stop {r : Res α} {k : α → State → Res β} {f : Fault} :
    r.bind k = .stop f ↔ r = .stop f ∨ ∃ a s, r = .ok a s ∧ k a s = .stop f := by
  cases r <;> simp

theorem Res.bind_eq_refused {r : Res α} {k : α → State → Res β} {x : Refusal} :
    r.bind k = .refused x ↔ r = .refused x ∨ ∃ a s, r = .ok a s ∧ k a s = .refused x := by
  cases r <;> simp

@[simp] theorem Res.outcome_ok (a : α) (s : State) : (Res.ok a s).outcome = .next s := rfl

@[simp] theorem Res.outcome_raised (e : ErrCode) (s : State) :
    (Res.raised e s : Res α).outcome = .next (s.raise e) := rfl

@[simp] theorem Res.outcome_unwritten (r : Reg) (s : State) :
    (Res.unwritten r s : Res α).outcome = .next s.raiseUnwritten := rfl

@[simp] theorem Res.outcome_stop (f : Fault) : (Res.stop f : Res α).outcome = .fault f := rfl

@[simp] theorem Res.outcome_refused (r : Refusal) : (Res.refused r : Res α).outcome = .refused r := rfl

/-- A step's next state is what the operation left, or the fault entry of the error it raised, or that of the read of a
register that holds no value. -/
theorem Res.outcome_eq_next {r : Res α} {t : State} :
    r.outcome = .next t ↔ (∃ a, r = .ok a t) ∨ (∃ e s, r = .raised e s ∧ t = s.raise e) ∨
      ∃ x s, r = .unwritten x s ∧ t = s.raiseUnwritten := by
  cases r <;> simp [eq_comm]

theorem Res.outcome_eq_fault {r : Res α} {f : Fault} : r.outcome = .fault f ↔ r = .stop f := by
  cases r <;> simp

theorem Res.outcome_eq_refused {r : Res α} {x : Refusal} : r.outcome = .refused x ↔ r = .refused x := by
  cases r <;> simp

@[simp] theorem need_some (r : Reg) (v : α) (s : State) : need r (some v) s = .ok v s := rfl

@[simp] theorem need_none (r : Reg) (s : State) : need r (none : Option α) s = .unwritten r s := rfl

theorem need_eq_ok {r : Reg} {o : Option α} {s t : State} {v : α} :
    need r o s = .ok v t ↔ o = some v ∧ t = s := by
  cases o <;> simp [eq_comm]

theorem need_eq_unwritten {r x : Reg} {o : Option α} {s t : State} :
    need r o s = .unwritten x t ↔ o = none ∧ x = r ∧ t = s := by
  cases o <;> simp [eq_comm]

@[simp] theorem need_ne_stop {r : Reg} {o : Option α} {s : State} {f : Fault} : need r o s ≠ .stop f := by
  cases o <;> simp

@[simp] theorem need_ne_raised {r : Reg} {o : Option α} {s t : State} {e : ErrCode} : need r o s ≠ .raised e t := by
  cases o <;> simp

@[simp] theorem need_ne_refused {r : Reg} {o : Option α} {s : State} {x : Refusal} : need r o s ≠ .refused x := by
  cases o <;> simp

end Sys2Proof.Machine
end

