-- ==== Sys2Proof/Laws/BitReader.lean ====
section
/-! SUPPORT. What the BitReader's operations can do (40_bitreader.md). -/

namespace Sys2Proof.Machine

/-- A refill that completes fetches the byte at `BYTEPOS`. -/
theorem refill_eq_ok {s t : State} {u : Unit} :
    refill s = .ok u t ↔ s.bytepos < s.srclen ∧ ∃ b, Cells.read s.src s.bytepos = some b ∧
      t = s.withCursor (s.bytepos + 1) (s.acc ||| (b.setWidth 24 <<< s.bitcnt)) (s.bitcnt + 8) := by
  simp only [refill]
  by_cases h : s.srclen ≤ s.bytepos
  · simp [h]
  · cases hb : Cells.read s.src s.bytepos <;> (simp [h, eq_comm]; try omega)

/-- A refill raises only `StreamExhausted`, at the end of the source, and changes nothing. -/
theorem refill_eq_raised {s t : State} {e : ErrCode} :
    refill s = .raised e t ↔ s.srclen ≤ s.bytepos ∧ e = .streamExhausted ∧ t = s := by
  simp only [refill]
  by_cases h : s.srclen ≤ s.bytepos
  · simp [h, eq_comm]
  · cases hb : Cells.read s.src s.bytepos <;> simp [h]

/-- A refill stops only where `SRC` lacks a byte below `SRCLEN`. -/
theorem refill_eq_stop {s : State} {f : Fault} :
    refill s = .stop f ↔ s.bytepos < s.srclen ∧ Cells.read s.src s.bytepos = none ∧ f = .badAddress .src s.bytepos := by
  simp only [refill]
  by_cases h : s.srclen ≤ s.bytepos
  · simp [h]
  · cases hb : Cells.read s.src s.bytepos <;> (simp [h, eq_comm]; try omega)

@[simp] theorem refill_ne_refused {s : State} {x : Refusal} : refill s ≠ .refused x := by
  simp only [refill]
  split
  · simp
  · split <;> simp

@[simp] theorem refill_ne_unwritten {s t : State} {x : Reg} : refill s ≠ .unwritten x t := by
  simp only [refill]
  split
  · simp
  · split <;> simp

/-- The refill loop that completes has fetched `k` bytes, no more than the request needs when it has turns enough. -/
theorem fillLoop_ok {n turns : Nat} {s t : State} {u : Unit} (h : fillLoop n turns s = .ok u t) :
    ∃ k acc, t = s.withCursor (s.bytepos + k) acc (s.bitcnt + 8 * k) ∧
      (k ≠ 0 → s.bitcnt + 8 * k < n + 8 ∧ s.bytepos + k ≤ s.srclen) ∧
      (n ≤ s.bitcnt + 8 * turns → n ≤ s.bitcnt + 8 * k) := by
  induction turns generalizing s with
  | zero =>
    obtain ⟨-, rfl⟩ : () = u ∧ s = t := by simpa [fillLoop] using h
    exact ⟨0, s.acc, by simp, by simp, by simp⟩
  | succ turns ih =>
    simp only [fillLoop] at h
    split at h
    · rename_i hlt
      obtain ⟨_, s1, h1, h2⟩ := Res.bind_eq_ok.1 h
      obtain ⟨hb, b, -, rfl⟩ := refill_eq_ok.1 h1
      obtain ⟨k, acc, rfl, hk, hn⟩ := ih h2
      simp only [State.withCursor_bytepos, State.withCursor_bitcnt, State.withCursor_srclen,
        State.withCursor_withCursor] at hk hn ⊢
      refine ⟨k + 1, acc, by congr 1 <;> omega, fun _ => ?_, fun h3 => ?_⟩
      · by_cases h0 : k = 0
        · omega
        · have := hk h0; omega
      · have := hn (by omega); omega
    · obtain ⟨-, rfl⟩ : () = u ∧ s = t := by simpa using h
      exact ⟨0, s.acc, by simp, by simp, by omega⟩

/-- The refill loop raises only `StreamExhausted`, with every remaining byte fetched and too few bits for the request. -/
theorem fillLoop_raised {n turns : Nat} {s t : State} {e : ErrCode} (h : fillLoop n turns s = .raised e t) :
    e = .streamExhausted ∧ ∃ k acc, t = s.withCursor (s.bytepos + k) acc (s.bitcnt + 8 * k) ∧
      s.bitcnt + 8 * k < n ∧ s.srclen ≤ s.bytepos + k ∧ (k ≠ 0 → s.bytepos + k = s.srclen) := by
  induction turns generalizing s with
  | zero => simp [fillLoop] at h
  | succ turns ih =>
    simp only [fillLoop] at h
    split at h
    · rename_i hlt
      rcases Res.bind_eq_raised.1 h with h1 | ⟨_, s1, h1, h2⟩
      · obtain ⟨hend, rfl, rfl⟩ := refill_eq_raised.1 h1
        exact ⟨rfl, 0, t.acc, by simp, by omega, by omega, by simp⟩
      · obtain ⟨hb, b, -, rfl⟩ := refill_eq_ok.1 h1
        obtain ⟨he, k, acc, rfl, h3, h4, h5⟩ := ih h2
        simp only [State.withCursor_bytepos, State.withCursor_bitcnt, State.withCursor_srclen,
          State.withCursor_withCursor] at h3 h4 h5 ⊢
        refine ⟨he, k + 1, acc, by congr 1 <;> omega, by omega, by omega, fun _ => ?_⟩
        by_cases h0 : k = 0
        · omega
        · have := h5 h0; omega
    · simp at h

/-- The refill loop stops only where `SRC` lacks a byte. -/
theorem fillLoop_stop {n turns : Nat} {s : State} {f : Fault} (h : fillLoop n turns s = .stop f) :
    ∃ a, s.bytepos ≤ a ∧ a < s.srclen ∧ Cells.read s.src a = none ∧ f = .badAddress .src a := by
  induction turns generalizing s with
  | zero => simp [fillLoop] at h
  | succ turns ih =>
    simp only [fillLoop] at h
    split at h
    · rcases Res.bind_eq_stop.1 h with h1 | ⟨_, s1, h1, h2⟩
      · obtain ⟨hb, hr, rfl⟩ := refill_eq_stop.1 h1
        exact ⟨_, le_rfl, hb, hr, rfl⟩
      · obtain ⟨hb, b, -, rfl⟩ := refill_eq_ok.1 h1
        obtain ⟨a, h3, h4, h5, rfl⟩ := ih h2
        exact ⟨a, Nat.le_of_succ_le h3, h4, h5, rfl⟩
    · simp at h

@[simp] theorem fillLoop_ne_refused {n turns : Nat} {s : State} {x : Refusal} : fillLoop n turns s ≠ .refused x := by
  induction turns generalizing s with
  | zero => simp [fillLoop]
  | succ turns ih =>
    simp only [fillLoop]
    split
    · simp [Res.bind_eq_refused, ih]
    · simp

@[simp] theorem fillLoop_ne_unwritten {n turns : Nat} {s t : State} {x : Reg} : fillLoop n turns s ≠ .unwritten x t := by
  induction turns generalizing s with
  | zero => simp [fillLoop]
  | succ turns ih =>
    simp only [fillLoop]
    split
    · simp [Res.bind_eq_unwritten, ih]
    · simp

/-- A fill that completes: enough bits, and the fewest bytes that give them (rule R71). -/
theorem fill_ok {n : Nat} {s t : State} {u : Unit} (h : fill n s = .ok u t) :
    ∃ k acc, t = s.withCursor (s.bytepos + k) acc (s.bitcnt + 8 * k) ∧ n ≤ s.bitcnt + 8 * k ∧
      (k ≠ 0 → s.bitcnt + 8 * k < n + 8 ∧ s.bytepos + k ≤ s.srclen) := by
  obtain ⟨k, acc, ht, h1, h2⟩ := fillLoop_ok h
  exact ⟨k, acc, ht, h2 (by omega), h1⟩

/-- `READBITS(n)` that completes: an n-bit value, and `BITPOS` advanced by exactly `n` over the bytes fetched. -/
theorem readBits_ok {n v : Nat} {s t : State} (h : readBits n s = .ok v t) :
    v < 2 ^ n ∧ ∃ k acc, t = s.withCursor (s.bytepos + k) acc (s.bitcnt + 8 * k - n) ∧ n ≤ s.bitcnt + 8 * k ∧
      (k ≠ 0 → s.bitcnt + 8 * k < n + 8 ∧ s.bytepos + k ≤ s.srclen) := by
  obtain ⟨_, s1, h1, h2⟩ := Res.bind_eq_ok.1 h
  obtain ⟨k, acc, rfl, h3, h4⟩ := fill_ok h1
  simp only [State.withCursor_bytepos, State.withCursor_acc, State.withCursor_bitcnt,
    State.withCursor_withCursor, Res.ok.injEq] at h2
  obtain ⟨rfl, rfl⟩ := h2
  exact ⟨Nat.mod_lt _ (by positivity), k, _, rfl, h3, h4⟩

/-- `READBITS(n)` raises only `StreamExhausted`: every remaining byte is fetched, no bit is consumed (rule R157). -/
theorem readBits_raised {n : Nat} {s t : State} {e : ErrCode} (h : readBits n s = .raised e t) :
    e = .streamExhausted ∧ ∃ k acc, t = s.withCursor (s.bytepos + k) acc (s.bitcnt + 8 * k) ∧
      s.bitcnt + 8 * k < n ∧ s.srclen ≤ s.bytepos + k ∧ (k ≠ 0 → s.bytepos + k = s.srclen) := by
  rcases Res.bind_eq_raised.1 h with h1 | ⟨_, _, _, h2⟩
  · exact fillLoop_raised h1
  · simp at h2

/-- `READBITS(n)` stops only where `SRC` lacks a byte below `SRCLEN`. -/
theorem readBits_stop {n : Nat} {s : State} {f : Fault} (h : readBits n s = .stop f) :
    ∃ a, s.bytepos ≤ a ∧ a < s.srclen ∧ Cells.read s.src a = none ∧ f = .badAddress .src a := by
  rcases Res.bind_eq_stop.1 h with h1 | ⟨_, _, _, h2⟩
  · exact fillLoop_stop h1
  · simp at h2

@[simp] theorem readBits_ne_refused {n : Nat} {s : State} {x : Refusal} : readBits n s ≠ .refused x := by
  simp [readBits, fill, Res.bind_eq_refused]

@[simp] theorem readBits_ne_unwritten {n : Nat} {s t : State} {x : Reg} : readBits n s ≠ .unwritten x t := by
  simp [readBits, fill, Res.bind_eq_unwritten]

/-- `READBITS(0)` returns 0 and changes nothing (rule R73). -/
@[simp] theorem readBits_zero (s : State) : readBits 0 s = .ok 0 s := by
  simp [readBits, fill, fillLoop, State.accLow, Nat.mod_one]

/-- `PEEKBITS(n)` that completes: an n-bit value, `BITPOS` as before (rule R72). -/
theorem peekBits_ok {n v : Nat} {s t : State} (h : peekBits n s = .ok v t) :
    v < 2 ^ n ∧ ∃ k acc, t = s.withCursor (s.bytepos + k) acc (s.bitcnt + 8 * k) ∧ n ≤ s.bitcnt + 8 * k ∧
      (k ≠ 0 → s.bitcnt + 8 * k < n + 8 ∧ s.bytepos + k ≤ s.srclen) := by
  obtain ⟨_, s1, h1, h2⟩ := Res.bind_eq_ok.1 h
  obtain ⟨rfl, rfl⟩ := Res.ok.inj h2
  exact ⟨Nat.mod_lt _ (by positivity), fill_ok h1⟩

/-- An appended byte: room, `OUT[OUTLEN] <- b`, `OUTLEN <- OUTLEN + 1` (20_memory.md rule R45). -/
theorem outAppend_eq_ok {b : Byte} {s t : State} {u : Unit} :
    outAppend b s = .ok u t ↔ s.outIsFull = false ∧ t = s.append b := by
  simp only [outAppend]
  cases s.outIsFull <;> simp [eq_comm]

theorem outAppend_eq_stop {b : Byte} {s : State} {f : Fault} :
    outAppend b s = .stop f ↔ s.outIsFull = true ∧ f = .outFull := by
  simp only [outAppend]
  cases s.outIsFull <;> simp [eq_comm]

@[simp] theorem outAppend_ne_raised {b : Byte} {s t : State} {e : ErrCode} : outAppend b s ≠ .raised e t := by
  simp only [outAppend]
  cases s.outIsFull <;> simp

@[simp] theorem outAppend_ne_refused {b : Byte} {s : State} {x : Refusal} : outAppend b s ≠ .refused x := by
  simp only [outAppend]
  cases s.outIsFull <;> simp

@[simp] theorem outAppend_ne_unwritten {b : Byte} {s t : State} {x : Reg} : outAppend b s ≠ .unwritten x t := by
  simp only [outAppend]
  cases s.outIsFull <;> simp

/-- A read of `OUT` gives the byte there and changes nothing. -/
theorem outRead_eq_ok {a : Nat} {s t : State} {b : Byte} :
    outRead a s = .ok b t ↔ Cells.read s.out a = some b ∧ t = s := by
  simp only [outRead]
  cases Cells.read s.out a <;> simp [eq_comm]

theorem outRead_eq_stop {a : Nat} {s : State} {f : Fault} :
    outRead a s = .stop f ↔ Cells.read s.out a = none ∧ f = .badAddress .out a := by
  simp only [outRead]
  cases Cells.read s.out a <;> simp [eq_comm]

@[simp] theorem outRead_ne_raised {a : Nat} {s t : State} {e : ErrCode} : outRead a s ≠ .raised e t := by
  simp only [outRead]
  cases Cells.read s.out a <;> simp

@[simp] theorem outRead_ne_unwritten {a : Nat} {s t : State} {x : Reg} : outRead a s ≠ .unwritten x t := by
  simp only [outRead]
  cases Cells.read s.out a <;> simp

@[simp] theorem outRead_ne_refused {a : Nat} {s : State} {x : Refusal} : outRead a s ≠ .refused x := by
  simp only [outRead]
  cases Cells.read s.out a <;> simp

end Sys2Proof.Machine
end

