-- ==== Sys2Proof/Laws/Cells.lean ====
section
/-! SUPPORT. Cells: read after write, the canonical form, and cells that cover a range of addresses. -/

namespace Sys2Proof.Machine

variable {α : Type}

@[simp] theorem Cells.read_nil (a : Nat) : Cells.read ([] : List (Nat × α)) a = none := rfl

/-- A read after a write: the value written at its address, every other address as before. -/
theorem Cells.read_write (m : List (Nat × α)) (a b : Nat) (v : α) :
    Cells.read (Cells.write m a v) b = if b = a then some v else Cells.read m b := by
  induction m with
  | nil => simp [Cells.write, Cells.read]
  | cons c rest ih =>
    obtain ⟨k, w⟩ := c
    simp only [Cells.write]
    split
    · simp [Cells.read]
    · split
      · subst_vars
        by_cases hb : b = k <;> simp [Cells.read, hb]
      · simp only [Cells.read, ih]
        by_cases hb : b = k
        · subst hb
          have : b ≠ a := fun h => by subst h; contradiction
          simp [this]
        · simp [hb]

@[simp] theorem Cells.read_write_same (m : List (Nat × α)) (a : Nat) (v : α) :
    Cells.read (Cells.write m a v) a = some v := by simp [Cells.read_write]

theorem Cells.read_write_ne (m : List (Nat × α)) {a b : Nat} (v : α) (h : b ≠ a) :
    Cells.read (Cells.write m a v) b = Cells.read m b := by simp [Cells.read_write, h]

/-- A read after a run of writes. -/
theorem Cells.read_writeRun (m : List (Nat × α)) (a n b : Nat) (v : α) :
    Cells.read (Cells.writeRun m a v n) b = if a ≤ b ∧ b < a + n then some v else Cells.read m b := by
  induction n generalizing m a with
  | zero => simp [Cells.writeRun]
  | succ n ih =>
    simp only [Cells.writeRun, ih, Cells.read_write]
    split_ifs <;> first | rfl | (exfalso; omega)

/-- The addresses after a write: the old ones and `a`. -/
theorem Cells.mem_keys_write (m : List (Nat × α)) (a b : Nat) (v : α) :
    b ∈ (Cells.write m a v).map Prod.fst ↔ b = a ∨ b ∈ m.map Prod.fst := by
  induction m with
  | nil => simp [Cells.write]
  | cons c rest ih =>
    obtain ⟨k, w⟩ := c
    simp only [Cells.write]
    split
    · simp
    · split
      · subst_vars; simp
      · simp only [List.map_cons, List.mem_cons, ih]
        tauto

/-- A write keeps the canonical form. -/
theorem Cells.wf_write {m : List (Nat × α)} (h : Cells.wf m) (a : Nat) (v : α) : Cells.wf (Cells.write m a v) := by
  induction m with
  | nil => simp [Cells.write, Cells.wf]
  | cons c rest ih =>
    obtain ⟨k, w⟩ := c
    simp only [Cells.wf, List.map_cons, List.pairwise_cons] at h
    simp only [Cells.write]
    split
    · rename_i hak
      simp only [Cells.wf, List.map_cons, List.pairwise_cons, List.mem_cons]
      refine ⟨?_, h.1, h.2⟩
      rintro b (rfl | hb)
      · exact hak
      · exact lt_trans hak (h.1 b hb)
    · split
      · subst_vars
        simpa only [Cells.wf, List.map_cons, List.pairwise_cons] using h
      · simp only [Cells.wf, List.map_cons, List.pairwise_cons]
        refine ⟨fun b hb => ?_, ih h.2⟩
        rcases (Cells.mem_keys_write rest a b v).1 hb with rfl | hb
        · omega
        · exact h.1 b hb

/-- A run of writes keeps the canonical form. -/
theorem Cells.wf_writeRun {m : List (Nat × α)} (h : Cells.wf m) (a n : Nat) (v : α) :
    Cells.wf (Cells.writeRun m a v n) := by
  induction n generalizing m a with
  | zero => exact h
  | succ n ih => exact ih (Cells.wf_write h a v) (a + 1)

/-- The addresses of placed cells. -/
theorem Cells.keys_ofList (a : Nat) (l : List α) :
    (Cells.ofList a l).map Prod.fst = List.range' a l.length := by
  induction l generalizing a with
  | nil => rfl
  | cons v rest ih => simp [Cells.ofList, ih, List.range'_succ]

/-- The cells of a list placed from 0 cover the addresses below its length. -/
theorem Cells.keys_ofList_zero (l : List α) : (Cells.ofList 0 l).map Prod.fst = List.range l.length := by
  rw [Cells.keys_ofList, List.range_eq_range']

/-- A read of placed cells is the list's entry. -/
theorem Cells.read_ofList (a b : Nat) (l : List α) :
    Cells.read (Cells.ofList a l) b = if a ≤ b then l[b - a]? else none := by
  induction l generalizing a with
  | nil => simp [Cells.ofList]
  | cons v rest ih =>
    simp only [Cells.ofList, Cells.read, ih]
    by_cases h : b = a
    · subst h; simp
    · by_cases hab : a ≤ b
      · have h1 : a + 1 ≤ b := by omega
        have h2 : b - a = (b - (a + 1)) + 1 := by omega
        simp only [h, h1, hab, if_true, if_false]
        rw [h2, List.getElem?_cons_succ]
      · have h1 : ¬ a + 1 ≤ b := by omega
        simp [h, h1, hab]

/-- A value is read exactly at the listed addresses. -/
theorem Cells.isSome_read (m : List (Nat × α)) (a : Nat) :
    (Cells.read m a).isSome ↔ a ∈ m.map Prod.fst := by
  induction m with
  | nil => simp
  | cons c rest ih =>
    obtain ⟨k, w⟩ := c
    by_cases h : a = k <;> simp [Cells.read, h, ih]

/-- Cells that cover exactly the addresses below `n`: a read answers exactly there. -/
theorem Cells.isSome_read_of_range {m : List (Nat × α)} {n : Nat} (h : m.map Prod.fst = List.range n) (a : Nat) :
    (Cells.read m a).isSome ↔ a < n := by
  rw [Cells.isSome_read, h, List.mem_range]

/-- Cells that cover a range of addresses are in canonical form. -/
theorem Cells.wf_of_range {m : List (Nat × α)} {n : Nat} (h : m.map Prod.fst = List.range n) : Cells.wf m := by
  simpa only [Cells.wf, h] using List.pairwise_lt_range

/-- A write above every address goes to the end. -/
theorem Cells.write_above (m : List (Nat × α)) (a : Nat) (v : α) (h : ∀ b ∈ m.map Prod.fst, b < a) :
    Cells.write m a v = m ++ [(a, v)] := by
  induction m with
  | nil => rfl
  | cons c rest ih =>
    obtain ⟨k, w⟩ := c
    have hk : k < a := h k (by simp)
    have h1 : ¬ a < k := by omega
    have h2 : ¬ a = k := by omega
    simp only [Cells.write, h1, h2, if_false, List.cons_append]
    rw [ih fun b hb => h b (by simp only [List.map_cons, List.mem_cons]; exact .inr hb)]

/-- A write at the next address extends the covered range by one. -/
theorem Cells.keys_write_next {m : List (Nat × α)} {n : Nat} (h : m.map Prod.fst = List.range n) (v : α) :
    (Cells.write m n v).map Prod.fst = List.range (n + 1) := by
  rw [Cells.write_above m n v (by simp [h]), List.map_append, h, List.range_succ]
  rfl

/-- A run of writes from the next address extends the covered range. -/
theorem Cells.keys_writeRun_next {m : List (Nat × α)} {n : Nat} (h : m.map Prod.fst = List.range n) (v : α) (k : Nat) :
    (Cells.writeRun m n v k).map Prod.fst = List.range (n + k) := by
  induction k generalizing m n with
  | zero => simpa [Cells.writeRun] using h
  | succ k ih =>
    simp only [Cells.writeRun]
    rw [ih (Cells.keys_write_next h v)]
    congr 1; omega

/-- A list read from address `a` up is the values held there, all of them. -/
theorem Cells.readList_eq_some {m : List (Nat × α)} {a n : Nat} {l : List α} :
    Cells.readList m a n = some l ↔ l.length = n ∧ ∀ i, i < n → Cells.read m (a + i) = l[i]? := by
  induction n generalizing a l with
  | zero => cases l <;> simp [Cells.readList]
  | succ n ih =>
    constructor
    · intro h
      simp only [Cells.readList] at h
      split at h
      · rename_i v vs h1 h2
        obtain rfl := Option.some.inj h
        obtain ⟨hl, hi⟩ := ih.1 h2
        refine ⟨by simp [hl], fun i hlt => ?_⟩
        cases i with
        | zero => simpa using h1
        | succ i =>
          rw [List.getElem?_cons_succ, ← hi i (by omega)]
          congr 1
          omega
      · simp at h
    · rintro ⟨hl, hi⟩
      cases l with
      | nil => simp at hl
      | cons v vs =>
        have h1 : Cells.read m a = some v := by simpa using hi 0 (by omega)
        have h2 : Cells.readList m (a + 1) n = some vs := ih.2 ⟨by simpa using hl, fun i hlt => by
          have h := hi (i + 1) (by omega)
          rw [List.getElem?_cons_succ] at h
          rw [← h]
          congr 1
          omega⟩
        simp only [Cells.readList, h1, h2]

end Sys2Proof.Machine
end

