-- ==== Sys2Proof/Laws/Huffman.lean ====
section
/-! SUPPORT. What the tree operations of the machine can do (42_huffman_tree.md). -/

namespace Sys2Proof.Machine

@[simp] theorem Tree.addChild_maxlen (T : Tree) (i : Nat) (b : Bool) (n : Node) : (T.addChild i b n).maxlen = T.maxlen := rfl

/-- `s1` is `s` with the BitCursor and one tree's cursor moved: all a descent can do. -/
def Moved (t : TreeId) (s s1 : State) : Prop :=
  ∃ p a c d, s1 = (s.withCursor p a c).withTreeCursor t d

/-- Two moves in a row are one. -/
theorem Moved.trans {t : TreeId} {s s1 s2 : State} (h : Moved t s s1) (h2 : Moved t s1 s2) : Moved t s s2 := by
  obtain ⟨p, a, c, d, rfl⟩ := h
  obtain ⟨q, b, e, f, rfl⟩ := h2
  exact ⟨q, b, e, f, by simp [State.withTreeCursor_withCursor]⟩

/-- A move of the BitCursor alone. -/
theorem Moved.cursor (t : TreeId) (s : State) (p : Nat) (a : BitVec 24) (c : Nat) : Moved t s (s.withCursor p a c) :=
  ⟨p, a, c, s.blk.cursor t, (State.withTreeCursor_self (s.withCursor p a c) t).symm⟩

/-- A move of the tree's cursor alone. -/
theorem Moved.cursorOfTree (t : TreeId) (s : State) (d : TreeCursor) : Moved t s (s.withTreeCursor t d) :=
  ⟨s.bytepos, s.acc, s.bitcnt, d, rfl⟩

/-- `RESETCURSOR` always completes (R93). -/
theorem resetCursor_eq (t : TreeId) (s : State) : resetCursor t s = .ok () (s.withTreeCursor t .root) := rfl

/-- `DECODESTEP` where the tree and its cursor hold values (R92). -/
theorem decodeStep_of {t : TreeId} {b : Bool} {s : State} {T : Tree} {n d : Nat} (hT : s.blk.tree t = some T)
    (hn : (s.blk.cursor t).node = some n) (hd : (s.blk.cursor t).depth = some d) :
    decodeStep t b s =
      match T.decodeStep n d b with
      | .symbol v => .ok (some v) (s.withTreeCursor t ⟨some n, some (d + 1)⟩)
      | .cont j => .ok none (s.withTreeCursor t ⟨some j, some (d + 1)⟩)
      | .malformed => .raised .malformedHuffmanCode s
      | .noNode => .unwritten (.treeNode t) s := by
  cases h : T.decodeStep n d b <;> simp only [decodeStep, hT, hn, hd, need_some, Res.bind_ok, h]

/-- `DECODESTEP` that completes: a symbol or CONTINUE, as the tree says (R92). -/
theorem decodeStep_ok {t : TreeId} {b : Bool} {s s1 : State} {r : Option Nat} (h : decodeStep t b s = .ok r s1) :
    ∃ T n d, s.blk.tree t = some T ∧ (s.blk.cursor t).node = some n ∧ (s.blk.cursor t).depth = some d ∧
      ((∃ v, T.decodeStep n d b = .symbol v ∧ r = some v ∧ s1 = s.withTreeCursor t ⟨some n, some (d + 1)⟩) ∨
        ∃ j, T.decodeStep n d b = .cont j ∧ r = none ∧ s1 = s.withTreeCursor t ⟨some j, some (d + 1)⟩) := by
  simp only [decodeStep, Res.bind_eq_ok, need_eq_ok] at h
  obtain ⟨T, _, ⟨hT, rfl⟩, n, _, ⟨hn, rfl⟩, d, _, ⟨hd, rfl⟩, h⟩ := h
  refine ⟨T, n, d, hT, hn, hd, ?_⟩
  split at h
  · rename_i v hv
    obtain ⟨rfl, rfl⟩ := Res.ok.inj h
    exact .inl ⟨v, hv, rfl, rfl⟩
  · rename_i j hj
    obtain ⟨rfl, rfl⟩ := Res.ok.inj h
    exact .inr ⟨j, hj, rfl, rfl⟩
  · simp at h
  · simp at h

theorem decodeStep_ok_moved {t : TreeId} {b : Bool} {s s1 : State} {r : Option Nat} (h : decodeStep t b s = .ok r s1) :
    Moved t s s1 := by
  obtain ⟨T, n, d, -, -, -, ⟨v, -, -, rfl⟩ | ⟨j, -, -, rfl⟩⟩ := decodeStep_ok h
  · exact .cursorOfTree t s _
  · exact .cursorOfTree t s _

/-- `DECODESTEP` that raises: `MalformedHuffmanCode`, nothing changed (R92, R159). -/
theorem decodeStep_raised {t : TreeId} {b : Bool} {s s1 : State} {e : ErrCode} (h : decodeStep t b s = .raised e s1) :
    e = .malformedHuffmanCode ∧ s1 = s ∧
      ∃ T n d, s.blk.tree t = some T ∧ (s.blk.cursor t).node = some n ∧ (s.blk.cursor t).depth = some d ∧
        T.decodeStep n d b = .malformed := by
  simp only [decodeStep, Res.bind_eq_raised, need_ne_raised, need_eq_ok, false_or] at h
  obtain ⟨T, _, ⟨hT, rfl⟩, n, _, ⟨hn, rfl⟩, d, _, ⟨hd, rfl⟩, h⟩ := h
  split at h
  · simp at h
  · simp at h
  · rename_i hm
    obtain ⟨rfl, rfl⟩ := Res.raised.inj h
    exact ⟨rfl, rfl, T, n, d, hT, hn, hd, hm⟩
  · simp at h

/-- `DECODESTEP` reads what holds no value only where the tree, its cursor, or a field of one of its nodes holds none, and has
then changed nothing (R18). -/
theorem decodeStep_unwritten {t : TreeId} {b : Bool} {s s1 : State} {x : Reg} (h : decodeStep t b s = .unwritten x s1) :
    s1 = s ∧ ((s.blk.tree t = none ∧ x = .tree t) ∨ ((s.blk.cursor t).node = none ∧ x = .node t) ∨
      ((s.blk.cursor t).depth = none ∧ x = .depth t) ∨
      ∃ T n d, s.blk.tree t = some T ∧ (s.blk.cursor t).node = some n ∧ (s.blk.cursor t).depth = some d ∧
        T.decodeStep n d b = .noNode ∧ x = .treeNode t) := by
  simp only [decodeStep, Res.bind_eq_unwritten, need_eq_unwritten, need_eq_ok] at h
  obtain ⟨hT, rfl, rfl⟩ | ⟨T, _, ⟨hT, rfl⟩, ⟨hn, rfl, rfl⟩ | ⟨n, _, ⟨hn, rfl⟩, ⟨hd, rfl, rfl⟩ | ⟨d, _, ⟨hd, rfl⟩, h⟩⟩⟩ := h
  · exact ⟨rfl, .inl ⟨hT, rfl⟩⟩
  · exact ⟨rfl, .inr (.inl ⟨hn, rfl⟩)⟩
  · exact ⟨rfl, .inr (.inr (.inl ⟨hd, rfl⟩))⟩
  · split at h
    · simp at h
    · simp at h
    · simp at h
    · rename_i hm
      obtain ⟨rfl, rfl⟩ := Res.unwritten.inj h
      exact ⟨rfl, .inr (.inr (.inr ⟨T, n, d, hT, hn, hd, hm, rfl⟩))⟩

@[simp] theorem decodeStep_ne_stop {t : TreeId} {b : Bool} {s : State} {f : Fault} : decodeStep t b s ≠ .stop f := by
  simp only [decodeStep, ne_eq, Res.bind_eq_stop, need_ne_stop, false_or]
  rintro ⟨T, _, -, n, _, -, d, _, -, h⟩
  split at h <;> simp at h

@[simp] theorem decodeStep_ne_refused {t : TreeId} {b : Bool} {s : State} {x : Refusal} :
    decodeStep t b s ≠ .refused x := by
  simp only [decodeStep, ne_eq, Res.bind_eq_refused, need_ne_refused, false_or]
  rintro ⟨T, _, -, n, _, -, d, _, -, h⟩
  split at h <;> simp at h

/-- The loop of `DECODESYM` that completes only moves cursors. -/
theorem decodeLoop_ok {t : TreeId} {turns v : Nat} {s s1 : State} (h : decodeLoop t turns s = .ok v s1) :
    Moved t s s1 := by
  induction turns generalizing s with
  | zero => simp [decodeLoop] at h
  | succ turns ih =>
    simp only [decodeLoop] at h
    obtain ⟨b, s2, h1, h2⟩ := Res.bind_eq_ok.1 h
    obtain ⟨r, s3, h3, h4⟩ := Res.bind_eq_ok.1 h2
    obtain ⟨-, k, acc, rfl, -⟩ := readBits_ok h1
    have hm := (Moved.cursor t s _ _ _).trans (decodeStep_ok_moved h3)
    cases r with
    | some w =>
      obtain ⟨rfl, rfl⟩ := Res.ok.inj h4
      exact hm.trans (.cursorOfTree t s3 _)
    | none => exact hm.trans (ih h4)

/-- The loop of `DECODESYM` that raises has moved cursors only: `StreamExhausted` in a read, or `MalformedHuffmanCode`. -/
theorem decodeLoop_raised {t : TreeId} {turns : Nat} {s s1 : State} {e : ErrCode}
    (h : decodeLoop t turns s = .raised e s1) :
    (e = .streamExhausted ∨ e = .malformedHuffmanCode) ∧ Moved t s s1 := by
  induction turns generalizing s with
  | zero =>
    obtain ⟨rfl, rfl⟩ : ErrCode.malformedHuffmanCode = e ∧ s = s1 := by simpa [decodeLoop] using h
    exact ⟨.inr rfl, Moved.cursor t s s.bytepos s.acc s.bitcnt⟩
  | succ turns ih =>
    simp only [decodeLoop] at h
    rcases Res.bind_eq_raised.1 h with h1 | ⟨b, s2, h1, h2⟩
    · obtain ⟨rfl, k, acc, rfl, -⟩ := readBits_raised h1
      exact ⟨.inl rfl, .cursor t s _ _ _⟩
    · obtain ⟨-, k, acc, rfl, -⟩ := readBits_ok h1
      have hc := Moved.cursor t s (s.bytepos + k) acc (s.bitcnt + 8 * k - 1)
      rcases Res.bind_eq_raised.1 h2 with h3 | ⟨r, s3, h3, h4⟩
      · obtain ⟨rfl, rfl, -⟩ := decodeStep_raised h3
        exact ⟨.inr rfl, hc⟩
      · have hm := hc.trans (decodeStep_ok_moved h3)
        cases r with
        | some w => simp [resetCursor_eq] at h4
        | none =>
          obtain ⟨he, hm2⟩ := ih h4
          exact ⟨he, hm.trans hm2⟩

/-- The loop of `DECODESYM` that reads what holds no value has moved cursors only. -/
theorem decodeLoop_unwritten {t : TreeId} {turns : Nat} {s s1 : State} {x : Reg}
    (h : decodeLoop t turns s = .unwritten x s1) : Moved t s s1 := by
  induction turns generalizing s with
  | zero => simp [decodeLoop] at h
  | succ turns ih =>
    simp only [decodeLoop, Res.bind_eq_unwritten, readBits_ne_unwritten, false_or] at h
    obtain ⟨b, s2, h1, h2⟩ := h
    obtain ⟨-, k, acc, rfl, -⟩ := readBits_ok h1
    have hc := Moved.cursor t s (s.bytepos + k) acc (s.bitcnt + 8 * k - 1)
    rcases h2 with h3 | ⟨r, s3, h3, h4⟩
    · obtain ⟨rfl, -⟩ := decodeStep_unwritten h3
      exact hc
    · have hm := hc.trans (decodeStep_ok_moved h3)
      cases r with
      | some w => simp [resetCursor_eq] at h4
      | none => exact hm.trans (ih h4)

@[simp] theorem decodeLoop_ne_refused {t : TreeId} {turns : Nat} {s : State} {x : Refusal} :
    decodeLoop t turns s ≠ .refused x := by
  induction turns generalizing s with
  | zero => simp [decodeLoop]
  | succ turns ih =>
    simp only [decodeLoop, ne_eq, Res.bind_eq_refused, readBits_ne_refused, decodeStep_ne_refused, false_or]
    rintro ⟨b, s1, -, r, s2, -, h⟩
    cases r with
    | some v => simp [resetCursor_eq] at h
    | none => exact ih h

/-- `DECODESYM` that completes only moves the BitCursor and the tree's cursor (R94). -/
theorem decodeSym_ok {t : TreeId} {v : Nat} {s s1 : State} (h : decodeSym t s = .ok v s1) : Moved t s s1 :=
  (Moved.cursorOfTree t s _).trans (decodeLoop_ok h)

/-- `DECODESYM` that raises only moves the BitCursor and the tree's cursor (R94). -/
theorem decodeSym_raised {t : TreeId} {s s1 : State} {e : ErrCode} (h : decodeSym t s = .raised e s1) :
    (e = .streamExhausted ∨ e = .malformedHuffmanCode) ∧ Moved t s s1 :=
  (decodeLoop_raised h).imp_right (Moved.cursorOfTree t s _).trans

/-- `DECODESYM` that reads what holds no value only moves the BitCursor and the tree's cursor (R94). -/
theorem decodeSym_unwritten {t : TreeId} {s s1 : State} {x : Reg} (h : decodeSym t s = .unwritten x s1) : Moved t s s1 :=
  (Moved.cursorOfTree t s _).trans (decodeLoop_unwritten h)

@[simp] theorem decodeSym_ne_refused {t : TreeId} {s : State} {x : Refusal} : decodeSym t s ≠ .refused x :=
  decodeLoop_ne_refused

/-- `BUILD` that completes puts the built tree into the block (R96). -/
theorem buildTree_eq_ok {t : TreeId} {ls : List Nat} {m : Nat} {s s1 : State} {u : Unit} :
    buildTree t ls m s = .ok u s1 ↔ ∃ T, Tree.build ls m = .ok T ∧ s1 = s.withNewTree t T := by
  cases h : Tree.build ls m with
  | ok T => simp [buildTree, treeRes, h, eq_comm]
  | error e => cases e <;> simp [buildTree, treeRes, h]

/-- `BUILD` that raises changes nothing. -/
theorem buildTree_eq_raised {t : TreeId} {ls : List Nat} {m : Nat} {s s1 : State} {e : ErrCode} :
    buildTree t ls m s = .raised e s1 ↔
      Tree.build ls m = .error .malformed ∧ e = .malformedHuffmanCode ∧ s1 = s := by
  cases h : Tree.build ls m with
  | ok T => simp [buildTree, treeRes, h]
  | error e => cases e <;> simp [buildTree, treeRes, h, eq_comm]

theorem buildTree_eq_unwritten {t : TreeId} {ls : List Nat} {m : Nat} {s s1 : State} {x : Reg} :
    buildTree t ls m s = .unwritten x s1 ↔ Tree.build ls m = .error .noNode ∧ x = .treeNode t ∧ s1 = s := by
  cases h : Tree.build ls m with
  | ok T => simp [buildTree, treeRes, h]
  | error e => cases e <;> simp [buildTree, treeRes, h, eq_comm]

@[simp] theorem buildTree_ne_stop {t : TreeId} {ls : List Nat} {m : Nat} {s : State} {f : Fault} :
    buildTree t ls m s ≠ .stop f := by
  cases h : Tree.build ls m with
  | ok T => simp [buildTree, treeRes, h]
  | error e => cases e <;> simp [buildTree, treeRes, h]

@[simp] theorem buildTree_ne_refused {t : TreeId} {ls : List Nat} {m : Nat} {s : State} {x : Refusal} :
    buildTree t ls m s ≠ .refused x := by
  cases h : Tree.build ls m with
  | ok T => simp [buildTree, treeRes, h]
  | error e => cases e <;> simp [buildTree, treeRes, h]

end Sys2Proof.Machine
end

