-- ==== Sys2Proof/Laws/Block.lean ====
section
/-! SUPPORT. What the operations of the code-length decoder and of the BlockDecoder can do (43_code_length_expander.md,
44_block_decoder.md). -/

namespace Sys2Proof.Machine

/-- A base plus extra bits that completes. -/
theorem basePlusExtra_eq_ok {base extra v : Nat} {s t : State} :
    basePlusExtra base extra s = .ok v t ↔ ∃ x, readBits extra s = .ok x t ∧ v = base + x := by
  simp only [basePlusExtra, Res.bind_eq_ok]
  constructor
  · rintro ⟨x, s1, h1, h2⟩
    obtain ⟨rfl, rfl⟩ := Res.ok.inj h2
    exact ⟨x, h1, rfl⟩
  · rintro ⟨x, h1, rfl⟩
    exact ⟨x, t, h1, rfl⟩

theorem basePlusExtra_eq_raised {base extra : Nat} {s t : State} {e : ErrCode} :
    basePlusExtra base extra s = .raised e t ↔ readBits extra s = .raised e t := by
  simp [basePlusExtra, Res.bind_eq_raised]

theorem basePlusExtra_eq_stop {base extra : Nat} {s : State} {f : Fault} :
    basePlusExtra base extra s = .stop f ↔ readBits extra s = .stop f := by
  simp [basePlusExtra, Res.bind_eq_stop]

@[simp] theorem basePlusExtra_ne_refused {base extra : Nat} {s : State} {x : Refusal} :
    basePlusExtra base extra s ≠ .refused x := by
  simp [basePlusExtra, Res.bind_eq_refused]

/-- Lengths written: `SEQCNT` held a value and the run fits `LENSEQ`. -/
theorem writeLens_eq_ok {v : BitVec 4} {n : Nat} {s t : State} {u : Unit} :
    writeLens v n s = .ok u t ↔ ∃ k, s.blk.seqcnt = some k ∧ k + n ≤ 316 ∧
      t = s.withBlk { s.blk with lenseq := Cells.writeRun s.blk.lenseq k v n, seqcnt := some (k + n) } := by
  cases h : s.blk.seqcnt with
  | none => simp [writeLens, h]
  | some k =>
    by_cases hk : 316 < k + n
    · simp [writeLens, h, hk]
    · have hk' : k + n ≤ 316 := by omega
      simp [writeLens, h, hk, hk', eq_comm]

@[simp] theorem writeLens_ne_raised {v : BitVec 4} {n : Nat} {s t : State} {e : ErrCode} :
    writeLens v n s ≠ .raised e t := by
  cases h : s.blk.seqcnt with
  | none => simp [writeLens, h]
  | some k => by_cases hk : 316 < k + n <;> simp [writeLens, h, hk]

theorem writeLens_eq_unwritten {v : BitVec 4} {n : Nat} {s t : State} {x : Reg} :
    writeLens v n s = .unwritten x t ↔ s.blk.seqcnt = none ∧ x = .seqcnt ∧ t = s := by
  cases h : s.blk.seqcnt with
  | none => simp [writeLens, h, eq_comm]
  | some k => by_cases hk : 316 < k + n <;> simp [writeLens, h, hk]

theorem writeLens_eq_stop {v : BitVec 4} {n : Nat} {s : State} {f : Fault} :
    writeLens v n s = .stop f ↔ ∃ k, s.blk.seqcnt = some k ∧ 316 < k + n ∧ f = .lenseqFull := by
  cases h : s.blk.seqcnt with
  | none => simp [writeLens, h]
  | some k =>
    by_cases hk : 316 < k + n
    · simp [writeLens, h, hk, eq_comm]
    · simp [writeLens, h, hk]

@[simp] theorem writeLens_ne_refused {v : BitVec 4} {n : Nat} {s : State} {x : Refusal} :
    writeLens v n s ≠ .refused x := by
  cases h : s.blk.seqcnt with
  | none => simp [writeLens, h]
  | some k => by_cases hk : 316 < k + n <;> simp [writeLens, h, hk]

/-- `TOTAL` where `NLIT` and `NDIST` hold values (R102). -/
theorem seqTotal_eq_ok {s t : State} {v : Nat} :
    seqTotal s = .ok v t ↔ ∃ a b, s.blk.nlit = some a ∧ s.blk.ndist = some b ∧ v = a + b ∧ t = s := by
  cases h : s.blk.nlit <;> cases h' : s.blk.ndist <;> simp [seqTotal, h, h', eq_comm]

@[simp] theorem seqTotal_ne_raised {s t : State} {e : ErrCode} : seqTotal s ≠ .raised e t := by
  cases h : s.blk.nlit <;> cases h' : s.blk.ndist <;> simp [seqTotal, h, h']

/-- `TOTAL` reads what holds no value where `NLIT` or `NDIST` holds none. -/
theorem seqTotal_unwritten {s t : State} {x : Reg} (h : seqTotal s = .unwritten x t) :
    t = s ∧ ((s.blk.nlit = none ∧ x = .nlit) ∨ (s.blk.ndist = none ∧ x = .ndist)) := by
  cases h1 : s.blk.nlit <;> cases h2 : s.blk.ndist <;> simp_all [seqTotal]

@[simp] theorem seqTotal_ne_stop {s : State} {f : Fault} : seqTotal s ≠ .stop f := by
  cases h : s.blk.nlit <;> cases h' : s.blk.ndist <;> simp [seqTotal, h, h']

@[simp] theorem seqTotal_ne_refused {s : State} {x : Refusal} : seqTotal s ≠ .refused x := by
  cases h : s.blk.nlit <;> cases h' : s.blk.ndist <;> simp [seqTotal, h, h']

/-- `OVERRUN_CHECK()` where its four registers hold values: it raises exactly when the repeat passes `NLIT + NDIST`, and
changes nothing (R107). -/
theorem overrunCheck_of {s : State} {k r a b : Nat} (hk : s.blk.seqcnt = some k) (hr : s.blk.rep = some r)
    (ha : s.blk.nlit = some a) (hb : s.blk.ndist = some b) :
    overrunCheck s = if a + b < k + r then .raised .invalidRunLengthContext s else .ok () s := by
  simp [overrunCheck, seqTotal, hk, hr, ha, hb]

theorem overrunCheck_ok {s t : State} {u : Unit} (h : overrunCheck s = .ok u t) :
    t = s ∧ ∃ k r a b, s.blk.seqcnt = some k ∧ s.blk.rep = some r ∧ s.blk.nlit = some a ∧ s.blk.ndist = some b ∧
      k + r ≤ a + b := by
  obtain ⟨k, s1, h1, h2⟩ := Res.bind_eq_ok.1 h
  obtain ⟨hk, rfl⟩ := need_eq_ok.1 h1
  obtain ⟨r, s2, h3, h4⟩ := Res.bind_eq_ok.1 h2
  obtain ⟨hr, rfl⟩ := need_eq_ok.1 h3
  obtain ⟨v, s3, h5, h6⟩ := Res.bind_eq_ok.1 h4
  obtain ⟨a, b, ha, hb, rfl, rfl⟩ := seqTotal_eq_ok.1 h5
  split at h6
  · simp at h6
  · obtain ⟨-, rfl⟩ := Res.ok.inj h6
    exact ⟨rfl, k, r, a, b, hk, hr, ha, hb, by omega⟩

theorem overrunCheck_raised {s t : State} {e : ErrCode} (h : overrunCheck s = .raised e t) :
    e = .invalidRunLengthContext ∧ t = s := by
  rcases Res.bind_eq_raised.1 h with h1 | ⟨k, s1, h1, h2⟩
  · exact absurd h1 need_ne_raised
  obtain ⟨hk, rfl⟩ := need_eq_ok.1 h1
  rcases Res.bind_eq_raised.1 h2 with h3 | ⟨r, s2, h3, h4⟩
  · exact absurd h3 need_ne_raised
  obtain ⟨hr, rfl⟩ := need_eq_ok.1 h3
  rcases Res.bind_eq_raised.1 h4 with h5 | ⟨v, s3, h5, h6⟩
  · exact absurd h5 seqTotal_ne_raised
  obtain ⟨a, b, ha, hb, rfl, rfl⟩ := seqTotal_eq_ok.1 h5
  split at h6
  · obtain ⟨rfl, rfl⟩ := Res.raised.inj h6
    exact ⟨rfl, rfl⟩
  · simp at h6

/-- `OVERRUN_CHECK()` that reads what holds no value changes nothing. -/
theorem overrunCheck_unwritten {s t : State} {x : Reg} (h : overrunCheck s = .unwritten x t) : t = s := by
  simp only [overrunCheck, Res.bind_eq_unwritten, need_eq_unwritten, need_eq_ok] at h
  obtain ⟨-, -, rfl⟩ | ⟨k, _, ⟨-, rfl⟩, ⟨-, -, rfl⟩ | ⟨r, _, ⟨-, rfl⟩, h | ⟨v, s3, h5, h6⟩⟩⟩ := h
  · rfl
  · rfl
  · exact (seqTotal_unwritten h).1
  · split at h6 <;> simp at h6

@[simp] theorem overrunCheck_ne_stop {s : State} {f : Fault} : overrunCheck s ≠ .stop f := by
  simp only [overrunCheck, ne_eq, Res.bind_eq_stop, need_ne_stop, seqTotal_ne_stop, false_or]
  rintro ⟨k, s1, -, r, s2, -, v, s3, -, h⟩
  split at h <;> simp at h

@[simp] theorem overrunCheck_ne_refused {s : State} {x : Refusal} : overrunCheck s ≠ .refused x := by
  simp only [overrunCheck, ne_eq, Res.bind_eq_refused, need_ne_refused, seqTotal_ne_refused, false_or]
  rintro ⟨k, s1, -, r, s2, -, v, s3, -, h⟩
  split at h <;> simp at h

/-- `RANGE_CHECK()` where its registers hold values (R123). -/
theorem rangeCheck_of {s : State} {a b : Nat} (ha : s.blk.nlit = some a) (hb : s.blk.ndist = some b) :
    rangeCheck s = if 286 < a ∨ 30 < b then .raised .malformedHuffmanCode s else .ok () s := by
  simp [rangeCheck, ha, hb]

/-- `CHECK()` where `DISTANCE` holds a value (R130). -/
theorem check_of {s : State} {d : Nat} (h : s.blk.distance = some d) :
    check s = if s.outlen < d then .raised .invalidBackReference s else .ok () s := by
  simp [check, h]

/-- The block header's two outcomes (R120, R121). -/
theorem blockHeader_of_dynamic (f : BitVec 1) (s : State) :
    blockHeader f 2 s = .ok () (((s.withBFinal f).withBType 2).withPhase .readDynamicTables) := by
  simp [blockHeader]

theorem blockHeader_of_other (f : BitVec 1) {t : BitVec 2} (h : t ≠ 2) (s : State) :
    blockHeader f t s = .raised .unsupportedBlockType ((s.withBFinal f).withBType t) :=
  if_neg h

/-! ### The split (43_code_length_expander.md rule R108) -/

/-- An entry that is in the sequence, or 0. -/
theorem splitEntry_eq_ok {base count i : Nat} {s t : State} {v : BitVec 4} :
    splitEntry base count i s = .ok v t ↔
      (if i < count then Cells.read s.blk.lenseq (base + i) = some v else v = 0) ∧ t = s := by
  simp only [splitEntry]
  split
  · exact need_eq_ok
  · rw [Res.ok.injEq]
    exact and_congr eq_comm eq_comm

@[simp] theorem splitEntry_ne_raised {base count i : Nat} {s t : State} {e : ErrCode} :
    splitEntry base count i s ≠ .raised e t := by
  simp only [splitEntry]
  split <;> simp

theorem splitEntry_unwritten {base count i : Nat} {s t : State} {x : Reg} (h : splitEntry base count i s = .unwritten x t) :
    i < count ∧ Cells.read s.blk.lenseq (base + i) = none ∧ t = s := by
  simp only [splitEntry] at h
  split at h
  · rename_i hi
    obtain ⟨h1, -, rfl⟩ := need_eq_unwritten.1 h
    exact ⟨hi, h1, rfl⟩
  · simp at h

/-- One loop of the split that writes the table that `get` reads and leaves `LENSEQ` alone: entry by entry the sequence's
values from `base` on, 0 from entry `count` on, every other entry as it was. -/
theorem splitLoop_ok {w : BlockState → Nat → BitVec 4 → BlockState} {get : BlockState → List (Nat × BitVec 4)}
    (hg : ∀ b i v, get (w b i v) = Cells.write (get b) i v) (hq : ∀ b i v, (w b i v).lenseq = b.lenseq)
    {base count n i : Nat} {s t : State} {u : Unit} (h : splitLoop w base count n i s = .ok u t) :
    (∃ b, t = s.withBlk b) ∧ ∀ j, Cells.read (get t.blk) j =
      if i ≤ j ∧ j < i + n then (if j < count then Cells.read s.blk.lenseq (base + j) else some 0)
      else Cells.read (get s.blk) j := by
  induction n generalizing i s with
  | zero =>
    obtain ⟨-, rfl⟩ := Res.ok.inj h
    refine ⟨⟨s.blk, rfl⟩, fun j => ?_⟩
    rw [if_neg (by omega)]
  | succ n ih =>
    simp only [splitLoop] at h
    obtain ⟨v, s1, h1, h2⟩ := Res.bind_eq_ok.1 h
    obtain ⟨hv, rfl⟩ := splitEntry_eq_ok.1 h1
    obtain ⟨⟨b, rfl⟩, hj⟩ := ih h2
    refine ⟨⟨b, rfl⟩, fun j => ?_⟩
    rw [hj]
    simp only [State.withBlk_blk, hg, hq]
    by_cases hji : j = i
    · subst hji
      rw [if_neg (by omega), if_pos (by omega), Cells.read_write_same]
      split at hv
      · rename_i hc
        rw [if_pos hc, hv]
      · rename_i hc
        rw [if_neg hc, hv]
    · have he : (i + 1 ≤ j ∧ j < i + 1 + n) ↔ (i ≤ j ∧ j < i + (n + 1)) := by omega
      rw [Cells.read_write_ne _ _ hji]
      simp only [he]

/-- One loop of the split changes the BlockState only, also where it finds an entry that holds no value. -/
theorem splitLoop_unwritten {w : BlockState → Nat → BitVec 4 → BlockState} {base count n i : Nat} {s t : State} {x : Reg}
    (h : splitLoop w base count n i s = .unwritten x t) : ∃ b, t = s.withBlk b := by
  induction n generalizing i s with
  | zero => simp [splitLoop] at h
  | succ n ih =>
    simp only [splitLoop, Res.bind_eq_unwritten] at h
    rcases h with h1 | ⟨v, s1, h1, h2⟩
    · exact ⟨s.blk, (splitEntry_unwritten h1).2.2⟩
    · obtain ⟨-, rfl⟩ := splitEntry_eq_ok.1 h1
      obtain ⟨b, rfl⟩ := ih h2
      exact ⟨b, rfl⟩

@[simp] theorem splitLoop_ne_raised {w : BlockState → Nat → BitVec 4 → BlockState} {base count n i : Nat} {s t : State}
    {e : ErrCode} : splitLoop w base count n i s ≠ .raised e t := by
  induction n generalizing i s with
  | zero => simp [splitLoop]
  | succ n ih => simp [splitLoop, Res.bind_eq_raised, ih]

/-- A loop of the split whose entries all hold values completes. -/
theorem splitLoop_isOk {w : BlockState → Nat → BitVec 4 → BlockState} (hq : ∀ b i v, (w b i v).lenseq = b.lenseq)
    {base count n i : Nat} {s : State}
    (h : ∀ j, i ≤ j → j < i + n → j < count → (Cells.read s.blk.lenseq (base + j)).isSome) :
    ∃ t, splitLoop w base count n i s = .ok () t := by
  induction n generalizing i s with
  | zero => exact ⟨s, rfl⟩
  | succ n ih =>
    obtain ⟨v, hv⟩ : ∃ v, splitEntry base count i s = .ok v s := by
      simp only [splitEntry]
      split
      · rename_i hi
        obtain ⟨v, hv⟩ := Option.isSome_iff_exists.1 (h i (by omega) (by omega) hi)
        exact ⟨v, by simp [hv]⟩
      · exact ⟨0, rfl⟩
    simp only [splitLoop, hv, Res.bind_ok]
    exact ih fun j h1 h2 h3 => by
      rw [State.withBlk_blk, hq]
      exact h j (by omega) (by omega) h3

@[simp] theorem BlockState.writeLllen_lllen (b : BlockState) (i : Nat) (v : BitVec 4) :
    (b.writeLllen i v).lllen = Cells.write b.lllen i v := rfl
@[simp] theorem BlockState.writeLllen_lenseq (b : BlockState) (i : Nat) (v : BitVec 4) :
    (b.writeLllen i v).lenseq = b.lenseq := rfl
@[simp] theorem BlockState.writeDlen_dlen (b : BlockState) (i : Nat) (v : BitVec 4) :
    (b.writeDlen i v).dlen = Cells.write b.dlen i v := rfl
@[simp] theorem BlockState.writeDlen_lenseq (b : BlockState) (i : Nat) (v : BitVec 4) :
    (b.writeDlen i v).lenseq = b.lenseq := rfl

end Sys2Proof.Machine
end

