-- ==== Sys2Proof/Laws/Memory.lean ====
section
/-! SUPPORT. Every operation on `SRC` and `OUT` keeps the canonical form, and keeps them at exactly their addresses. -/

namespace Sys2Proof.Machine

theorem reset_src_wf : Memory.wf State.reset.src := by decide

theorem reset_out_wf : Memory.wf State.reset.out := by decide

theorem SrcOk.wf {s : State} (h : SrcOk s) : Memory.wf s.src :=
  Cells.wf_of_range h

theorem OutOk.wf {s : State} (h : OutOk s) : Memory.wf s.out :=
  Cells.wf_of_range h

theorem start_src_wf (src : List Byte) (s : State) : Memory.wf (s.start src).src :=
  Cells.wf_of_range (Cells.keys_ofList_zero src)

theorem append_out_wf {s : State} (h : Memory.wf s.out) (b : Byte) : Memory.wf (s.append b).out :=
  Cells.wf_write h s.outlen b

theorem writeLens_lenseq_wf {q : List (Nat × BitVec 4)} (h : Cells.wf q) (a : Nat) (v : BitVec 4) (n : Nat) :
    Cells.wf (Cells.writeRun q a v n) :=
  Cells.wf_writeRun h a n v

theorem start_srcOk (src : List Byte) (s : State) : SrcOk (s.start src) :=
  Cells.keys_ofList_zero src

theorem start_outOk (src : List Byte) (s : State) : OutOk (s.start src) := rfl

theorem append_outOk {s : State} (h : OutOk s) (b : Byte) : OutOk (s.append b) :=
  Cells.keys_write_next h b

theorem append_srcOk {s : State} (h : SrcOk s) (b : Byte) : SrcOk (s.append b) := h

end Sys2Proof.Machine
end

