-- ==== Sys2Proof/Laws/PerInstr.lean ====
section
/-! SUPPORT. The per-instruction family EncodeFits: an instruction's word fits its format (30_encoding.md rule R67). -/

/-- The word of an instruction is below two to the format's width. -/
def Sys2Proof.Laws.EncodeFits.Statement (i : Sys2Proof.Instr) : Prop :=
  ∀ f w, Sys2Proof.encode i = some (f, w) → w < 2 ^ f.width

theorem Sys2Proof.Laws.EncodeFits.bhWord_lt (f : BitVec 1) {t : Nat} (h : t ≤ 3) : Sys2Proof.bhWord f t < 2 ^ 3 := by
  have := f.isLt
  unfold Sys2Proof.bhWord
  omega

theorem Sys2Proof.Laws.EncodeFits.dhWord_lt (a b : BitVec 5) (c : BitVec 4) : Sys2Proof.dhWord a b c < 2 ^ 14 := by
  have := a.isLt
  have := b.isLt
  have := c.isLt
  unfold Sys2Proof.dhWord
  omega

theorem Sys2Proof.Laws.EncodeFits.blkDynamic (bfinal : BitVec 1) : Statement (.blkDynamic bfinal) := by
  intro f w h
  cases h
  exact bhWord_lt bfinal (by decide)

theorem Sys2Proof.Laws.EncodeFits.blkStored (bfinal : BitVec 1) : Statement (.blkStored bfinal) := by
  intro f w h
  cases h
  exact bhWord_lt bfinal (by decide)

theorem Sys2Proof.Laws.EncodeFits.blkFixed (bfinal : BitVec 1) : Statement (.blkFixed bfinal) := by
  intro f w h
  cases h
  exact bhWord_lt bfinal (by decide)

theorem Sys2Proof.Laws.EncodeFits.blkReserved (bfinal : BitVec 1) : Statement (.blkReserved bfinal) := by
  intro f w h
  cases h
  exact bhWord_lt bfinal (by decide)

theorem Sys2Proof.Laws.EncodeFits.dynHeader (hlit hdist : BitVec 5) (hclen : BitVec 4) : Statement (.dynHeader hlit hdist hclen) := by
  intro f w h
  cases h
  exact dhWord_lt hlit hdist hclen

theorem Sys2Proof.Laws.EncodeFits.dynHlitReserved (hlit hdist : BitVec 5) (hclen : BitVec 4) : Statement (.dynHlitReserved hlit hdist hclen) := by
  intro f w h
  cases h
  exact dhWord_lt hlit hdist hclen

theorem Sys2Proof.Laws.EncodeFits.dynHdistReserved (hlit hdist : BitVec 5) (hclen : BitVec 4) : Statement (.dynHdistReserved hlit hdist hclen) := by
  intro f w h
  cases h
  exact dhWord_lt hlit hdist hclen

theorem Sys2Proof.Laws.EncodeFits.clLen (n : BitVec 3) : Statement (.clLen n) := by
  intro f w h
  cases h
  exact n.isLt

theorem Sys2Proof.Laws.EncodeFits.clLit0 : Statement .clLit0 := by
  intro f w h
  cases h
  decide

theorem Sys2Proof.Laws.EncodeFits.clLit1 : Statement .clLit1 := by
  intro f w h
  cases h
  decide

theorem Sys2Proof.Laws.EncodeFits.clLit2 : Statement .clLit2 := by
  intro f w h
  cases h
  decide

theorem Sys2Proof.Laws.EncodeFits.clLit3 : Statement .clLit3 := by
  intro f w h
  cases h
  decide

theorem Sys2Proof.Laws.EncodeFits.clLit4 : Statement .clLit4 := by
  intro f w h
  cases h
  decide

theorem Sys2Proof.Laws.EncodeFits.clLit5 : Statement .clLit5 := by
  intro f w h
  cases h
  decide

theorem Sys2Proof.Laws.EncodeFits.clLit6 : Statement .clLit6 := by
  intro f w h
  cases h
  decide

theorem Sys2Proof.Laws.EncodeFits.clLit7 : Statement .clLit7 := by
  intro f w h
  cases h
  decide

theorem Sys2Proof.Laws.EncodeFits.clLit8 : Statement .clLit8 := by
  intro f w h
  cases h
  decide

theorem Sys2Proof.Laws.EncodeFits.clLit9 : Statement .clLit9 := by
  intro f w h
  cases h
  decide

theorem Sys2Proof.Laws.EncodeFits.clLit10 : Statement .clLit10 := by
  intro f w h
  cases h
  decide

theorem Sys2Proof.Laws.EncodeFits.clLit11 : Statement .clLit11 := by
  intro f w h
  cases h
  decide

theorem Sys2Proof.Laws.EncodeFits.clLit12 : Statement .clLit12 := by
  intro f w h
  cases h
  decide

theorem Sys2Proof.Laws.EncodeFits.clLit13 : Statement .clLit13 := by
  intro f w h
  cases h
  decide

theorem Sys2Proof.Laws.EncodeFits.clLit14 : Statement .clLit14 := by
  intro f w h
  cases h
  decide

theorem Sys2Proof.Laws.EncodeFits.clLit15 : Statement .clLit15 := by
  intro f w h
  cases h
  decide

theorem Sys2Proof.Laws.EncodeFits.clRep16 : Statement .clRep16 := by
  intro f w h
  cases h
  decide

theorem Sys2Proof.Laws.EncodeFits.clZero17 : Statement .clZero17 := by
  intro f w h
  cases h
  decide

theorem Sys2Proof.Laws.EncodeFits.clZero18 : Statement .clZero18 := by
  intro f w h
  cases h
  decide

theorem Sys2Proof.Laws.EncodeFits.lit (b : Sys2Proof.Byte) : Statement (.lit b) := by
  intro f w h
  cases h
  exact Nat.lt_trans b.isLt (by decide)

theorem Sys2Proof.Laws.EncodeFits.eob : Statement .eob := by
  intro f w h
  cases h
  decide

theorem Sys2Proof.Laws.EncodeFits.len257 : Statement .len257 := by
  intro f w h
  cases h
  decide

theorem Sys2Proof.Laws.EncodeFits.len258 : Statement .len258 := by
  intro f w h
  cases h
  decide

theorem Sys2Proof.Laws.EncodeFits.len259 : Statement .len259 := by
  intro f w h
  cases h
  decide

theorem Sys2Proof.Laws.EncodeFits.len260 : Statement .len260 := by
  intro f w h
  cases h
  decide

theorem Sys2Proof.Laws.EncodeFits.len261 : Statement .len261 := by
  intro f w h
  cases h
  decide

theorem Sys2Proof.Laws.EncodeFits.len262 : Statement .len262 := by
  intro f w h
  cases h
  decide

theorem Sys2Proof.Laws.EncodeFits.len263 : Statement .len263 := by
  intro f w h
  cases h
  decide

theorem Sys2Proof.Laws.EncodeFits.len264 : Statement .len264 := by
  intro f w h
  cases h
  decide

theorem Sys2Proof.Laws.EncodeFits.len265 : Statement .len265 := by
  intro f w h
  cases h
  decide

theorem Sys2Proof.Laws.EncodeFits.len266 : Statement .len266 := by
  intro f w h
  cases h
  decide

theorem Sys2Proof.Laws.EncodeFits.len267 : Statement .len267 := by
  intro f w h
  cases h
  decide

theorem Sys2Proof.Laws.EncodeFits.len268 : Statement .len268 := by
  intro f w h
  cases h
  decide

theorem Sys2Proof.Laws.EncodeFits.len269 : Statement .len269 := by
  intro f w h
  cases h
  decide

theorem Sys2Proof.Laws.EncodeFits.len270 : Statement .len270 := by
  intro f w h
  cases h
  decide

theorem Sys2Proof.Laws.EncodeFits.len271 : Statement .len271 := by
  intro f w h
  cases h
  decide

theorem Sys2Proof.Laws.EncodeFits.len272 : Statement .len272 := by
  intro f w h
  cases h
  decide

theorem Sys2Proof.Laws.EncodeFits.len273 : Statement .len273 := by
  intro f w h
  cases h
  decide

theorem Sys2Proof.Laws.EncodeFits.len274 : Statement .len274 := by
  intro f w h
  cases h
  decide

theorem Sys2Proof.Laws.EncodeFits.len275 : Statement .len275 := by
  intro f w h
  cases h
  decide

theorem Sys2Proof.Laws.EncodeFits.len276 : Statement .len276 := by
  intro f w h
  cases h
  decide

theorem Sys2Proof.Laws.EncodeFits.len277 : Statement .len277 := by
  intro f w h
  cases h
  decide

theorem Sys2Proof.Laws.EncodeFits.len278 : Statement .len278 := by
  intro f w h
  cases h
  decide

theorem Sys2Proof.Laws.EncodeFits.len279 : Statement .len279 := by
  intro f w h
  cases h
  decide

theorem Sys2Proof.Laws.EncodeFits.len280 : Statement .len280 := by
  intro f w h
  cases h
  decide

theorem Sys2Proof.Laws.EncodeFits.len281 : Statement .len281 := by
  intro f w h
  cases h
  decide

theorem Sys2Proof.Laws.EncodeFits.len282 : Statement .len282 := by
  intro f w h
  cases h
  decide

theorem Sys2Proof.Laws.EncodeFits.len283 : Statement .len283 := by
  intro f w h
  cases h
  decide

theorem Sys2Proof.Laws.EncodeFits.len284 : Statement .len284 := by
  intro f w h
  cases h
  decide

theorem Sys2Proof.Laws.EncodeFits.len285 : Statement .len285 := by
  intro f w h
  cases h
  decide

theorem Sys2Proof.Laws.EncodeFits.litLen286 : Statement .litLen286 := by
  intro f w h
  cases h
  decide

theorem Sys2Proof.Laws.EncodeFits.litLen287 : Statement .litLen287 := by
  intro f w h
  cases h
  decide

theorem Sys2Proof.Laws.EncodeFits.dist0 : Statement .dist0 := by
  intro f w h
  cases h
  decide

theorem Sys2Proof.Laws.EncodeFits.dist1 : Statement .dist1 := by
  intro f w h
  cases h
  decide

theorem Sys2Proof.Laws.EncodeFits.dist2 : Statement .dist2 := by
  intro f w h
  cases h
  decide

theorem Sys2Proof.Laws.EncodeFits.dist3 : Statement .dist3 := by
  intro f w h
  cases h
  decide

theorem Sys2Proof.Laws.EncodeFits.dist4 : Statement .dist4 := by
  intro f w h
  cases h
  decide

theorem Sys2Proof.Laws.EncodeFits.dist5 : Statement .dist5 := by
  intro f w h
  cases h
  decide

theorem Sys2Proof.Laws.EncodeFits.dist6 : Statement .dist6 := by
  intro f w h
  cases h
  decide

theorem Sys2Proof.Laws.EncodeFits.dist7 : Statement .dist7 := by
  intro f w h
  cases h
  decide

theorem Sys2Proof.Laws.EncodeFits.dist8 : Statement .dist8 := by
  intro f w h
  cases h
  decide

theorem Sys2Proof.Laws.EncodeFits.dist9 : Statement .dist9 := by
  intro f w h
  cases h
  decide

theorem Sys2Proof.Laws.EncodeFits.dist10 : Statement .dist10 := by
  intro f w h
  cases h
  decide

theorem Sys2Proof.Laws.EncodeFits.dist11 : Statement .dist11 := by
  intro f w h
  cases h
  decide

theorem Sys2Proof.Laws.EncodeFits.dist12 : Statement .dist12 := by
  intro f w h
  cases h
  decide

theorem Sys2Proof.Laws.EncodeFits.dist13 : Statement .dist13 := by
  intro f w h
  cases h
  decide

theorem Sys2Proof.Laws.EncodeFits.dist14 : Statement .dist14 := by
  intro f w h
  cases h
  decide

theorem Sys2Proof.Laws.EncodeFits.dist15 : Statement .dist15 := by
  intro f w h
  cases h
  decide

theorem Sys2Proof.Laws.EncodeFits.dist16 : Statement .dist16 := by
  intro f w h
  cases h
  decide

theorem Sys2Proof.Laws.EncodeFits.dist17 : Statement .dist17 := by
  intro f w h
  cases h
  decide

theorem Sys2Proof.Laws.EncodeFits.dist18 : Statement .dist18 := by
  intro f w h
  cases h
  decide

theorem Sys2Proof.Laws.EncodeFits.dist19 : Statement .dist19 := by
  intro f w h
  cases h
  decide

theorem Sys2Proof.Laws.EncodeFits.dist20 : Statement .dist20 := by
  intro f w h
  cases h
  decide

theorem Sys2Proof.Laws.EncodeFits.dist21 : Statement .dist21 := by
  intro f w h
  cases h
  decide

theorem Sys2Proof.Laws.EncodeFits.dist22 : Statement .dist22 := by
  intro f w h
  cases h
  decide

theorem Sys2Proof.Laws.EncodeFits.dist23 : Statement .dist23 := by
  intro f w h
  cases h
  decide

theorem Sys2Proof.Laws.EncodeFits.dist24 : Statement .dist24 := by
  intro f w h
  cases h
  decide

theorem Sys2Proof.Laws.EncodeFits.dist25 : Statement .dist25 := by
  intro f w h
  cases h
  decide

theorem Sys2Proof.Laws.EncodeFits.dist26 : Statement .dist26 := by
  intro f w h
  cases h
  decide

theorem Sys2Proof.Laws.EncodeFits.dist27 : Statement .dist27 := by
  intro f w h
  cases h
  decide

theorem Sys2Proof.Laws.EncodeFits.dist28 : Statement .dist28 := by
  intro f w h
  cases h
  decide

theorem Sys2Proof.Laws.EncodeFits.dist29 : Statement .dist29 := by
  intro f w h
  cases h
  decide

theorem Sys2Proof.Laws.EncodeFits.dist30 : Statement .dist30 := by
  intro f w h
  cases h
  decide

theorem Sys2Proof.Laws.EncodeFits.dist31 : Statement .dist31 := by
  intro f w h
  cases h
  decide

theorem Sys2Proof.Laws.EncodeFits.readBits (n : Nat) : Statement (.readBits n) := by
  intro f w h
  cases h

theorem Sys2Proof.Laws.EncodeFits.refill : Statement .refill := by
  intro f w h
  cases h

theorem Sys2Proof.Laws.EncodeFits.peekBits (n : Nat) : Statement (.peekBits n) := by
  intro f w h
  cases h

theorem Sys2Proof.Laws.EncodeFits.canon (lengths : List Nat) (maxLen : Nat) : Statement (.canon lengths maxLen) := by
  intro f w h
  cases h

theorem Sys2Proof.Laws.EncodeFits.addLeaf (t : Sys2Proof.TreeId) (c len sym : Nat) : Statement (.addLeaf t c len sym) := by
  intro f w h
  cases h

theorem Sys2Proof.Laws.EncodeFits.decodeStep (t : Sys2Proof.TreeId) (b : Bool) : Statement (.decodeStep t b) := by
  intro f w h
  cases h

theorem Sys2Proof.Laws.EncodeFits.resetCursor (t : Sys2Proof.TreeId) : Statement (.resetCursor t) := by
  intro f w h
  cases h

theorem Sys2Proof.Laws.EncodeFits.decodeSym (t : Sys2Proof.TreeId) : Statement (.decodeSym t) := by
  intro f w h
  cases h

theorem Sys2Proof.Laws.EncodeFits.build (t : Sys2Proof.TreeId) (lengths : List Nat) (maxLen : Nat) : Statement (.build t lengths maxLen) := by
  intro f w h
  cases h

theorem Sys2Proof.Laws.EncodeFits.overrunCheck : Statement .overrunCheck := by
  intro f w h
  cases h

theorem Sys2Proof.Laws.EncodeFits.rangeCheck : Statement .rangeCheck := by
  intro f w h
  cases h

theorem Sys2Proof.Laws.EncodeFits.tables : Statement .tables := by
  intro f w h
  cases h

theorem Sys2Proof.Laws.EncodeFits.check : Statement .check := by
  intro f w h
  cases h

theorem Sys2Proof.Laws.EncodeFits.copyByte : Statement .copyByte := by
  intro f w h
  cases h

theorem Sys2Proof.Laws.EncodeFits.start (src : List Sys2Proof.Byte) : Statement (.start src) := by
  intro f w h
  cases h
end

