-- ==== Sys2Proof/Laws/Step.lean ====
section
/-! SUPPORT. What a fetch and a step can do. -/

namespace Sys2Proof.Machine

/-- `s1` is `s` with the BitCursor and the BlockState changed: all a fetch can do. -/
def Fetched (s s1 : State) : Prop :=
  ∃ p a c b, s1 = (s.withCursor p a c).withBlk b

theorem Fetched.refl (s : State) : Fetched s s :=
  ⟨s.bytepos, s.acc, s.bitcnt, s.blk, rfl⟩

theorem Fetched.trans {s s1 s2 : State} (h : Fetched s s1) (h2 : Fetched s1 s2) : Fetched s s2 := by
  obtain ⟨p, a, c, b, rfl⟩ := h
  obtain ⟨q, d, e, f, rfl⟩ := h2
  exact ⟨q, d, e, f, rfl⟩

theorem Fetched.withBlk (s : State) (b : BlockState) : Fetched s (s.withBlk b) :=
  ⟨s.bytepos, s.acc, s.bitcnt, b, rfl⟩

theorem Fetched.withCursor (s : State) (p : Nat) (a : BitVec 24) (c : Nat) : Fetched s (s.withCursor p a c) :=
  ⟨p, a, c, s.blk, rfl⟩

theorem Moved.fetched {t : TreeId} {s s1 : State} (h : Moved t s s1) : Fetched s s1 := by
  obtain ⟨p, a, c, d, rfl⟩ := h
  exact ⟨p, a, c, _, rfl⟩

theorem readBits_ok_fetched {n v : Nat} {s t : State} (h : readBits n s = .ok v t) : Fetched s t := by
  obtain ⟨-, k, acc, rfl, -⟩ := readBits_ok h
  exact .withCursor s _ _ _

theorem readBits_raised_fetched {n : Nat} {s t : State} {e : ErrCode} (h : readBits n s = .raised e t) : Fetched s t := by
  obtain ⟨-, k, acc, rfl, -⟩ := readBits_raised h
  exact .withCursor s _ _ _

/-- An operation that, whether it completes or takes an error, changes the BitCursor and the BlockState only. -/
structure Fetches {α : Type} (s : State) (r : Res α) : Prop where
  ok : ∀ a t, r = .ok a t → Fetched s t
  raised : ∀ e t, r = .raised e t → Fetched s t
  unwritten : ∀ x t, r = .unwritten x t → Fetched s t

theorem Fetches.ofOk {α : Type} {s s1 : State} (a : α) (h : Fetched s s1) : Fetches s (.ok a s1) :=
  ⟨fun _ _ he => (Res.ok.inj he).2 ▸ h, fun _ _ he => by simp at he, fun _ _ he => by simp at he⟩

theorem Fetches.ofRaised {α : Type} {s s1 : State} (e : ErrCode) (h : Fetched s s1) : Fetches s (.raised e s1 : Res α) :=
  ⟨fun _ _ he => by simp at he, fun _ _ he => (Res.raised.inj he).2 ▸ h, fun _ _ he => by simp at he⟩

theorem Fetches.ofUnwritten {α : Type} {s s1 : State} (x : Reg) (h : Fetched s s1) :
    Fetches s (.unwritten x s1 : Res α) :=
  ⟨fun _ _ he => by simp at he, fun _ _ he => by simp at he, fun _ _ he => (Res.unwritten.inj he).2 ▸ h⟩

theorem Fetches.stop {α : Type} (s : State) (f : Fault) : Fetches s (.stop f : Res α) :=
  ⟨fun _ _ he => by simp at he, fun _ _ he => by simp at he, fun _ _ he => by simp at he⟩

theorem Fetches.refused {α : Type} (s : State) (x : Refusal) : Fetches s (.refused x : Res α) :=
  ⟨fun _ _ he => by simp at he, fun _ _ he => by simp at he, fun _ _ he => by simp at he⟩

theorem Fetches.after {α : Type} {s s1 : State} {r : Res α} (h : Fetched s s1) (hr : Fetches s1 r) : Fetches s r :=
  ⟨fun a t he => h.trans (hr.ok a t he), fun e t he => h.trans (hr.raised e t he),
    fun x t he => h.trans (hr.unwritten x t he)⟩

theorem Fetches.bind {α β : Type} {s : State} {r : Res α} {k : α → State → Res β} (hr : Fetches s r)
    (hk : ∀ a s1, Fetches s1 (k a s1)) : Fetches s (r.bind k) := by
  cases r with
  | ok a s1 => exact (hk a s1).after (hr.ok a s1 rfl)
  | raised e s1 => exact .ofRaised e (hr.raised e s1 rfl)
  | unwritten x s1 => exact .ofUnwritten x (hr.unwritten x s1 rfl)
  | stop f => exact .stop s f
  | refused x => exact .refused s x

theorem fetches_readBits (n : Nat) (s : State) : Fetches s (readBits n s) :=
  ⟨fun _ _ h => readBits_ok_fetched h, fun _ _ h => readBits_raised_fetched h, fun _ _ h => absurd h readBits_ne_unwritten⟩

theorem fetches_decodeSym (t : TreeId) (s : State) : Fetches s (decodeSym t s) :=
  ⟨fun _ _ h => (decodeSym_ok h).fetched, fun _ _ h => (decodeSym_raised h).2.fetched,
    fun _ _ h => (decodeSym_unwritten h).fetched⟩

theorem fetches_need {α : Type} (r : Reg) (o : Option α) (s : State) : Fetches s (need r o s) := by
  cases o with
  | none => exact .ofUnwritten r (.refl s)
  | some v => exact .ofOk v (.refl s)

theorem fetches_decodeRes (f : Format) (w : Nat) {s s1 : State} (h : Fetched s s1) : Fetches s (decodeRes f w s1) := by
  simp only [decodeRes]
  split
  · exact .ofOk _ h
  · exact .refused s _

theorem fetches_blockHeader (s : State) : Fetches s (fetchBlockHeader s) :=
  .bind (.after (.withBlk s _) (fetches_readBits 1 _)) fun _ s1 =>
    .bind (.after (.withBlk s1 _) (fetches_readBits 2 _)) fun _ s2 => fetches_decodeRes _ _ (.withBlk s2 _)

theorem fetches_dynHeader (s : State) : Fetches s (fetchDynHeader s) :=
  .bind (fetches_readBits 5 s) fun _ s1 =>
    .bind (.after (.withBlk s1 _) (fetches_readBits 5 _)) fun _ s2 =>
      .bind (.after (.withBlk s2 _) (fetches_readBits 4 _)) fun _ s3 => fetches_decodeRes _ _ (.withBlk s3 _)

theorem fetches_clLen (s : State) : Fetches s (fetchClLen s) :=
  .bind (fetches_need _ _ s) fun _ s1 => by
    split
    · exact .bind (fetches_readBits 3 s1) fun _ s2 => fetches_decodeRes _ _ (.refl s2)
    · exact .ofOk _ (.refl s1)

theorem fetches_splitLoop (w : BlockState → Nat → BitVec 4 → BlockState) (base count n i : Nat) (s : State) :
    Fetches s (splitLoop w base count n i s) := by
  induction n generalizing i s with
  | zero => exact .ofOk _ (.refl s)
  | succ n ih =>
    refine .bind ?_ fun v s1 => .after (.withBlk s1 _) (ih _ _)
    simp only [splitEntry]
    split
    · exact fetches_need _ _ s
    · exact .ofOk _ (.refl s)

theorem fetches_splitLengths (s : State) : Fetches s (splitLengths s) :=
  .bind (fetches_need _ _ s) fun _ s1 => .bind (fetches_splitLoop _ _ _ _ _ s1) fun _ s2 =>
    .bind (fetches_need _ _ s2) fun _ s3 => fetches_splitLoop _ _ _ _ _ s3

theorem fetches_clSym (s : State) : Fetches s (fetchClSym s) :=
  .bind (fetches_need _ _ s) fun _ s1 =>
    .bind (.bind (fetches_need _ _ s1) fun _ s2 => .bind (fetches_need _ _ s2) fun _ s3 => .ofOk _ (.refl s3)) fun _ s2 => by
      split
      · exact .bind (fetches_decodeSym .cl s2) fun _ s3 => fetches_decodeRes _ _ (.withBlk s3 _)
      · exact .bind (fetches_splitLengths s2) fun _ s3 => .ofOk _ (.refl s3)

theorem fetches_symbol (s : State) : Fetches s (fetchSymbol s) :=
  .bind (.after (.withBlk s _) (fetches_decodeSym .ll _)) fun _ s1 => fetches_decodeRes _ _ (.withBlk s1 _)

theorem fetches_distance (s : State) : Fetches s (fetchDistance s) :=
  .bind (fetches_decodeSym .d s) fun _ s1 => fetches_decodeRes _ _ (.withBlk s1 _)

theorem fetches_append (s : State) : Fetches s (fetchAppend s) :=
  .bind (fetches_need _ _ s) fun _ s1 => fetches_decodeRes _ _ (.withBlk s1 _)

theorem fetches_copy (s : State) : Fetches s (fetchCopy s) :=
  .bind (fetches_need _ _ s) fun _ s1 => by
    split
    · exact fetches_symbol s1
    · exact .ofOk _ (.refl s1)

/-- A fetch, whether it completes or takes an error, changes the BitCursor and the BlockState only: no byte of `OUT`, no session
register (44_block_decoder.md). -/
theorem fetches_fetch (s : State) : Fetches s (fetch s) := by
  simp only [fetch]
  split
  · exact fetches_blockHeader s
  · split
    · exact fetches_dynHeader s
    · exact fetches_clLen s
    · exact fetches_clSym s
  · split
    · exact fetches_symbol s
    · exact fetches_distance s
    · exact fetches_copy s
    · exact fetches_append s
  · exact fetches_blockHeader s

/-- A follow-up that completes writes the BlockState only. -/
theorem Follow.apply_ok {fl : Follow} {s t : State} {u : Unit} (h : fl.apply s = .ok u t) : ∃ b, t = s.withBlk b := by
  cases fl with
  | stay => exact ⟨s.blk, (Res.ok.inj h).2.symm⟩
  | toClLens => exact ⟨_, (Res.ok.inj h).2.symm⟩
  | toClSyms => exact ⟨_, (Res.ok.inj h).2.symm⟩
  | toDist => exact ⟨_, (Res.ok.inj h).2.symm⟩
  | toCopy =>
    obtain ⟨n, s1, h1, h2⟩ := Res.bind_eq_ok.1 h
    obtain ⟨-, rfl⟩ := need_eq_ok.1 h1
    exact ⟨_, (Res.ok.inj h2).2.symm⟩

@[simp] theorem Follow.apply_ne_raised {fl : Follow} {s t : State} {e : ErrCode} : fl.apply s ≠ .raised e t := by
  cases fl <;> simp [Follow.apply, Res.bind_eq_raised]

/-- A follow-up reads what holds no value only where a distance follows no length, and has then changed nothing. -/
theorem Follow.apply_eq_unwritten {fl : Follow} {s t : State} {x : Reg} :
    fl.apply s = .unwritten x t ↔ fl = .toCopy ∧ s.blk.length = none ∧ x = .length ∧ t = s := by
  cases fl <;> simp [Follow.apply, Res.bind_eq_unwritten, need_eq_unwritten]

@[simp] theorem Follow.apply_ne_refused {fl : Follow} {s : State} {x : Refusal} : fl.apply s ≠ .refused x := by
  cases fl <;> simp [Follow.apply, Res.bind_eq_refused]

@[simp] theorem Follow.apply_ne_stop {fl : Follow} {s : State} {f : Fault} : fl.apply s ≠ .stop f := by
  cases fl <;> simp [Follow.apply, Res.bind_eq_stop]

/-- An instruction waits for room only if it is a literal, fetched by a descent, and `OUT` is full. -/
theorem waitsForRoom_eq_true {s s1 : State} {i : Instr} :
    waitsForRoom s i s1 = true ↔ (∃ b, i = .lit b) ∧ s.blk.symPoint ≠ .append ∧ s1.outIsFull = true := by
  cases i <;> simp [waitsForRoom]

/-- Everything a step that answers a next state can have done. -/
theorem step_next {s t : State} (h : step s = .next t) :
    (∃ src, s.hostStart = some src ∧ t = State.start src { s with hostStart := none }) ∨
    (s.hostStart = none ∧ s.status = .running ∧
      ((s.phase = .done ∧
          ((∃ f, s.blk.bfinal = some f ∧ t = State.endBlock { s with blocks := s.blocks + 1 } f) ∨
            (s.blk.bfinal = none ∧ t = State.raiseUnwritten { s with blocks := s.blocks + 1 }))) ∨
       (s.phase ≠ .done ∧
         ((∃ i s1, fetch s = .ok i s1 ∧ waitsForRoom s i s1 = true ∧
             t = s1.withBlk { s1.blk with symPoint := .append }) ∨
          (∃ i s1 t1, fetch s = .ok i s1 ∧ waitsForRoom s i s1 = false ∧ exec i s1 = .next t1 ∧
             ((t1.status = .running ∧ (follow i).apply t1 = .ok () t) ∨
               (t1.status = .running ∧ follow i = .toCopy ∧ t1.blk.length = none ∧ t = t1.raiseUnwritten) ∨
               (t1.status ≠ .running ∧ t = t1))) ∨
          (∃ e s1, fetch s = .raised e s1 ∧ t = s1.raise e) ∨
          ∃ x s1, fetch s = .unwritten x s1 ∧ t = s1.raiseUnwritten)))) := by
  unfold step at h
  split at h
  · rename_i src hsrc
    obtain rfl := Host.Outcome.next.inj h
    exact .inl ⟨src, hsrc, rfl⟩
  · rename_i hnone
    split at h
    · rename_i hrun
      refine .inr ⟨hnone, hrun, ?_⟩
      unfold stepRunning at h
      split at h
      · rename_i hdone
        refine .inl ⟨hdone, ?_⟩
        cases hf : s.blk.bfinal with
        | none =>
          refine .inr ⟨rfl, ?_⟩
          simpa [blockDone, hf, eq_comm] using h
        | some f =>
          refine .inl ⟨f, rfl, ?_⟩
          simpa [blockDone, hf, eq_comm] using h
      · rename_i hdone
        refine .inr ⟨hdone, ?_⟩
        split at h
        · rename_i i s1 hf
          split at h
          · rename_i hw
            exact .inl ⟨i, s1, hf, hw, (Host.Outcome.next.inj h).symm⟩
          · rename_i hw
            right
            left
            unfold afterExec at h
            split at h
            · rename_i t1 he
              refine ⟨i, s1, t1, hf, by simpa using hw, he, ?_⟩
              split at h
              · rename_i hr
                rcases Res.outcome_eq_next.1 h with ⟨u, h2⟩ | ⟨e, s2, h2, -⟩ | ⟨x, s2, h2, rfl⟩
                · exact .inl ⟨hr, h2⟩
                · exact absurd h2 Follow.apply_ne_raised
                · obtain ⟨hf, hl, -, rfl⟩ := Follow.apply_eq_unwritten.1 h2
                  exact .inr (.inl ⟨hr, hf, hl, rfl⟩)
              · rename_i hr
                exact .inr (.inr ⟨hr, (Host.Outcome.next.inj h).symm⟩)
            · simp at h
            · simp at h
        · rename_i e s1 hf
          exact .inr (.inr (.inl ⟨e, s1, hf, (Host.Outcome.next.inj h).symm⟩))
        · rename_i x s1 hf
          exact .inr (.inr (.inr ⟨x, s1, hf, (Host.Outcome.next.inj h).symm⟩))
        · simp at h
        · simp at h
    · simp at h

end Sys2Proof.Machine
end

