-- ==== Sys2Proof/Laws/Primitives.lean ====
section
/-! SUPPORT. The states of a step's primitives: those of a fetch lead to the state the fetch leaves, those of a step to its
next state. -/

namespace Sys2Proof.Machine

/-- The last of `l`, which follows `a`. -/
theorem getLastD_append {α : Type} (a : α) (l m : List α) : (l ++ m).getLastD a = m.getLastD (l.getLastD a) := by
  induction l generalizing a with
  | nil => rfl
  | cons b l ih => simp only [List.cons_append, List.getLastD_cons, ih]

/-- The states `l` after `s` end where `r` leaves the state, whether it completes or takes an error. -/
structure Ends {α : Type} (s : State) (l : List State) (r : Res α) : Prop where
  ok : ∀ a t, r = .ok a t → l.getLastD s = t
  raised : ∀ e t, r = .raised e t → l.getLastD s = t
  unwritten : ∀ x t, r = .unwritten x t → l.getLastD s = t

theorem Ends.quiet {α : Type} (a : α) (s : State) : Ends s [] (.ok a s) :=
  ⟨fun _ _ h => (Res.ok.inj h).2, fun _ _ h => by simp at h, fun _ _ h => by simp at h⟩

theorem Ends.write {α : Type} (a : α) (s t : State) : Ends s [t] (.ok a t) :=
  ⟨fun _ _ h => (Res.ok.inj h).2, fun _ _ h => by simp at h, fun _ _ h => by simp at h⟩

theorem Ends.ofRaised {α : Type} (e : ErrCode) (s : State) : Ends s [] (.raised e s : Res α) :=
  ⟨fun _ _ h => by simp at h, fun _ _ h => (Res.raised.inj h).2, fun _ _ h => by simp at h⟩

theorem Ends.ofUnwritten {α : Type} (x : Reg) (s : State) : Ends s [] (.unwritten x s : Res α) :=
  ⟨fun _ _ h => by simp at h, fun _ _ h => by simp at h, fun _ _ h => (Res.unwritten.inj h).2⟩

theorem Ends.stop {α : Type} (s : State) (l : List State) (f : Fault) : Ends s l (.stop f : Res α) :=
  ⟨fun _ _ h => by simp at h, fun _ _ h => by simp at h, fun _ _ h => by simp at h⟩

theorem Ends.refused {α : Type} (s : State) (l : List State) (x : Refusal) : Ends s l (.refused x : Res α) :=
  ⟨fun _ _ h => by simp at h, fun _ _ h => by simp at h, fun _ _ h => by simp at h⟩

/-- One more state in front. -/
theorem Ends.cons {α : Type} {s s1 : State} {l : List State} {r : Res α} (h : Ends s1 l r) : Ends s (s1 :: l) r := by
  exact ⟨fun a t e => by rw [List.getLastD_cons]; exact h.ok a t e, fun a t e => by rw [List.getLastD_cons]; exact h.raised a t e,
    fun a t e => by rw [List.getLastD_cons]; exact h.unwritten a t e⟩

/-- One operation after another. -/
theorem Ends.bind {α β : Type} {s : State} {l : List State} {r : Res α} {k : α → State → Res β}
    {m : α → State → List State} (hr : Ends s l r) (hk : ∀ a s1, r = .ok a s1 → Ends s1 (m a s1) (k a s1)) :
    Ends s (l ++ r.andThen m) (r.bind k) := by
  cases r with
  | ok a s1 =>
    have h1 := hr.ok a s1 rfl
    have h2 := hk a s1 rfl
    simp only [Res.andThen, Res.bind_ok]
    exact ⟨fun b t h => by rw [getLastD_append, h1]; exact h2.ok b t h,
      fun e t h => by rw [getLastD_append, h1]; exact h2.raised e t h,
      fun x t h => by rw [getLastD_append, h1]; exact h2.unwritten x t h⟩
  | raised e s1 =>
    exact ⟨fun _ _ h => by simp at h, fun f t h => by simpa [Res.andThen] using hr.raised f t (by simpa using h),
      fun _ _ h => by simp at h⟩
  | unwritten x s1 =>
    exact ⟨fun _ _ h => by simp at h, fun _ _ h => by simp at h,
      fun y t h => by simpa [Res.andThen] using hr.unwritten y t (by simpa using h)⟩
  | stop f => exact .stop s _ f
  | refused x => exact .refused s _ x

/-- One operation after another, the second with no primitive of its own. -/
theorem Ends.bindQuiet {α β : Type} {s : State} {l : List State} {r : Res α} {k : α → State → Res β} (hr : Ends s l r)
    (hk : ∀ a s1, Ends s1 [] (k a s1)) : Ends s l (r.bind k) := by
  have h := hr.bind (m := fun _ _ => []) fun a s1 _ => hk a s1
  have e : (r.andThen fun _ _ => []) = [] := by cases r <;> rfl
  rwa [e, List.append_nil] at h

/-- A register read before anything else. -/
theorem Ends.need {α β : Type} {s : State} {x : Reg} {o : Option α} {k : α → State → Res β} {m : α → State → List State}
    (hk : ∀ v, o = some v → Ends s (m v s) (k v s)) : Ends s ((need x o s).andThen m) ((need x o s).bind k) := by
  cases o with
  | none => exact .ofUnwritten x s
  | some v => exact hk v rfl

theorem ends_fillLoop (n turns : Nat) (s : State) : Ends s (fillStates n turns s) (fillLoop n turns s) := by
  induction turns generalizing s with
  | zero => exact .quiet () s
  | succ turns ih =>
    simp only [fillStates, fillLoop]
    split
    · cases h : refill s with
      | ok a s1 => exact (ih s1).cons
      | raised e s1 =>
        obtain ⟨-, rfl, rfl⟩ := refill_eq_raised.1 h
        exact .ofRaised _ s1
      | unwritten x s1 => exact absurd h refill_ne_unwritten
      | stop f => exact .stop s _ f
      | refused x => exact .refused s _ x
    · exact .quiet () s

theorem ends_readBits (n : Nat) (s : State) : Ends s (readStates n s) (readBits n s) := by
  have h := (ends_fillLoop n n s).bind (k := fun _ s1 =>
      .ok (s1.accLow n) (s1.withCursor s1.bytepos (s1.acc >>> n) (s1.bitcnt - n)))
    (m := fun _ s1 => [s1.withCursor s1.bytepos (s1.acc >>> n) (s1.bitcnt - n)]) fun _ s1 _ => .write _ s1 _
  have e : readStates n s = fillStates n n s ++ (fillLoop n n s).andThen fun _ s1 =>
      [s1.withCursor s1.bytepos (s1.acc >>> n) (s1.bitcnt - n)] := by
    simp only [readStates, readBits, fill]
    cases fillLoop n n s <;> rfl
  rw [e]
  exact h

/-- A read and what follows it. -/
theorem Ends.afterRead {β : Type} {n : Nat} {s : State} {k : Nat → State → Res β} {m : Nat → State → List State}
    (hk : ∀ v s1, Ends s1 (m v s1) (k v s1)) : Ends s (afterRead n s m) ((readBits n s).bind k) :=
  (ends_readBits n s).bind fun v s1 _ => hk v s1

theorem ends_decodeRes (f : Format) (w : Nat) (s : State) : Ends s [] (decodeRes f w s) := by
  simp only [decodeRes]
  split
  · exact .quiet _ s
  · exact .refused s _ _

theorem ends_decodeLoop (t : TreeId) (turns : Nat) (s : State) :
    Ends s (decodeLoopStates t turns s) (decodeLoop t turns s) := by
  induction turns generalizing s with
  | zero => exact .ofRaised _ s
  | succ turns ih =>
    refine .afterRead fun b s1 => ?_
    cases h : decodeStep t (b == 1) s1 with
    | ok r s2 =>
      cases r with
      | some v => exact (Ends.write v _ (s2.withTreeCursor t .root)).cons.cons
      | none => exact (ih s2).cons
    | raised e s2 =>
      obtain ⟨rfl, rfl, -⟩ := decodeStep_raised h
      exact .ofRaised _ s2
    | unwritten x s2 =>
      obtain ⟨rfl, -⟩ := decodeStep_unwritten h
      exact .ofUnwritten x s2
    | stop f => exact .stop s1 _ f
    | refused x => exact .refused s1 _ x

/-- `DECODESYM` writes the cursor first, so its states follow any. -/
theorem ends_decodeSym (t : TreeId) (s0 s : State) : Ends s0 (decodeSymStates t s) (decodeSym t s) :=
  Ends.cons (s1 := s.withTreeCursor t ⟨some 0, (s.blk.cursor t).depth⟩)
    (ends_decodeLoop t _ (s.withTreeCursor t .root)).cons

theorem ends_blockHeader (s : State) : Ends s (blockHeaderStates s) (fetchBlockHeader s) :=
  .cons (.afterRead fun _ _ => .cons (.afterRead fun _ _ => .cons (ends_decodeRes _ _ _)))

theorem ends_dynHeader (s : State) : Ends s (dynHeaderStates s) (fetchDynHeader s) :=
  .afterRead fun _ _ => .cons (.cons (.afterRead fun _ _ => .cons (.cons (.afterRead fun _ _ =>
    .cons (ends_decodeRes _ _ _)))))

theorem ends_symbol (t : TreeId) (f : Format) (w : BlockState → Nat → BlockState) (s0 s : State) :
    Ends s0 (symbolStates t w s) ((decodeSym t s).bind fun v s1 => decodeRes f v (s1.withBlk (w s1.blk v))) :=
  (ends_decodeSym t s0 s).bind fun _ _ _ => .cons (ends_decodeRes _ _ _)

theorem ends_splitLoop (w : BlockState → Nat → BitVec 4 → BlockState) (base count n i : Nat) (s : State) :
    Ends s (splitStates w base count n i s) (splitLoop w base count n i s) := by
  induction n generalizing i s with
  | zero => exact .quiet () s
  | succ n ih =>
    have he : Ends s [] (splitEntry base count i s) := by
      simp only [splitEntry]
      split
      · cases Cells.read s.blk.lenseq (base + i) with
        | none => exact .ofUnwritten _ s
        | some v => exact .quiet v s
      · exact .quiet _ s
    exact he.bind fun v s1 _ => (ih (i + 1) (s1.withBlk (w s1.blk i v))).cons

theorem ends_splitLengths (s : State) : Ends s (splitLengthsStates s) (splitLengths s) :=
  .need fun _ _ => (ends_splitLoop _ _ _ _ _ s).bind fun _ _ _ => .need fun _ _ => ends_splitLoop _ _ _ _ _ _

theorem ends_seqTotal (s : State) : Ends s [] (seqTotal s) where
  ok _ _ h := by
    obtain ⟨-, -, -, -, -, rfl⟩ := seqTotal_eq_ok.1 h
    rfl
  raised _ _ h := absurd h seqTotal_ne_raised
  unwritten _ _ h := (seqTotal_unwritten h).1.symm

theorem ends_clLen (s : State) :
    Ends s ((need .hclen s.blk.hclen s).andThen fun hclen s1 =>
      if s1.blk.clIdx < hclen.toNat + 4 then readStates 3 s1 else []) (fetchClLen s) :=
  .need fun _ _ => by
    split
    · exact (ends_readBits 3 s).bindQuiet fun w s2 => ends_decodeRes .cll w s2
    · exact .quiet _ s

theorem ends_clSym (s : State) :
    Ends s ((need .seqcnt s.blk.seqcnt s).andThen fun k s1 =>
      (seqTotal s1).andThen fun total s2 =>
        if k < total then symbolStates .cl (fun b v => { b with clsym := some v }) s2 else splitLengthsStates s2)
      (fetchClSym s) :=
  .need fun _ _ => (ends_seqTotal s).bind fun _ s2 _ => by
    split
    · exact ends_symbol .cl .cls _ s2 s2
    · exact (ends_splitLengths s2).bindQuiet fun _ s3 => .quiet _ s3

theorem ends_fetchSymbol (s0 s : State) : Ends s0 (fetchSymbolStates s) (fetchSymbol s) :=
  ends_symbol .ll .ll (fun b v => { b with sym := some v }) s0 (s.withBlk { s.blk with symPoint := .symbols })

theorem ends_fetchAppend (s : State) : Ends s (fetchAppend s).seen (fetchAppend s) := by
  simp only [fetchAppend]
  cases s.blk.sym with
  | none => exact .ofUnwritten _ s
  | some v =>
    simp only [need_some, Res.bind_ok, decodeRes]
    split
    · exact .write _ s _
    · exact .refused s _ _

/-- The states of a fetch end in the state the fetch leaves, whether it completes or takes an error. -/
theorem ends_fetch (s : State) (h : s.phase ≠ .done) : Ends s (fetchStates s) (fetch s) := by
  cases hp : s.phase with
  | readHeader =>
    simp only [fetchStates, fetch, hp]
    exact ends_blockHeader s
  | readDynamicTables =>
    cases hc : s.blk.clPoint with
    | dynHeader =>
      simp only [fetchStates, fetch, hp, hc]
      exact ends_dynHeader s
    | clLens =>
      simp only [fetchStates, fetch, hp, hc]
      exact ends_clLen s
    | clSyms =>
      simp only [fetchStates, fetch, hp, hc]
      exact ends_clSym s
  | decodeSymbols =>
    cases hc : s.blk.symPoint with
    | symbols =>
      simp only [fetchStates, fetch, hp, hc]
      exact ends_fetchSymbol s s
    | dist =>
      simp only [fetchStates, fetch, hp, hc]
      exact ends_symbol .d .d _ s s
    | copy =>
      simp only [fetchStates, fetch, hp, hc]
      refine .need fun r _ => ?_
      split
      · exact ends_fetchSymbol s s
      · exact .quiet _ s
    | append =>
      simp only [fetchStates, fetch, hp, hc]
      exact ends_fetchAppend s
  | done => exact absurd hp h

/-- Leaving out repeats keeps the last value. -/
theorem changes_getLastD {α : Type} [DecidableEq α] (a : α) (l : List α) : (changes a l).getLastD a = l.getLastD a := by
  induction l generalizing a with
  | nil => rfl
  | cons b l ih =>
    simp only [changes]
    split
    · rename_i h
      subst h
      rw [ih, List.getLastD_cons]
    · rw [List.getLastD_cons, List.getLastD_cons, ih]

/-- No two neighbours in a list of changes are equal. -/
theorem changes_isChain {α : Type} [DecidableEq α] (a : α) (l : List α) : (a :: changes a l).IsChain (· ≠ ·) := by
  induction l generalizing a with
  | nil => simp [changes]
  | cons b l ih =>
    simp only [changes]
    split
    · exact ih a
    · rename_i h
      exact List.isChain_cons_cons.2 ⟨Ne.symm h, ih b⟩

/-- The primitives of a step lead from its state to its next state (70_reset_and_hazards.md rule R196). -/
theorem primStates_last {s t : State} (h : step s = .next t) : (primStates s).getLastD s = t := by
  rw [primStates, changes_getLastD, getLastD_append, h]
  rfl

/-- What the host reads last in a step is the view of the next state. -/
theorem hostViews_last {s t : State} (h : step s = .next t) : (hostViews s).getLastD s.hostView = t.hostView := by
  have hm : ∀ (a : State) (l : List State), (l.map State.hostView).getLastD a.hostView = (l.getLastD a).hostView := by
    intro a l
    induction l generalizing a with
    | nil => rfl
    | cons b l ih => simp only [List.map_cons, List.getLastD_cons, ih]
  rw [hostViews, changes_getLastD, hm, primStates_last h]

/-- `START` gives the same session from any two states with the same host channels and count of unwritten reads, so from
every state between two primitives (70_reset_and_hazards.md rule R181). -/
theorem State.start_eq {s t : State} (src : List Byte) (h : s.hostStart = t.hostStart)
    (hc : s.outCapacity = t.outCapacity) (hu : s.unwrittenReads = t.unwrittenReads) : s.start src = t.start src := by
  simp [State.start, h, hc, hu]

end Sys2Proof.Machine
end

