-- ==== Sys2Proof/Laws/Views.lean ====
section
/-! SUPPORT. What the host reads, field by field. -/

namespace Sys2Proof.Machine

@[simp] theorem State.hostView_bytepos (s : State) : s.hostView.bytepos = s.bytepos := rfl
@[simp] theorem State.hostView_outlen (s : State) : s.hostView.outlen = s.outlen := rfl
@[simp] theorem State.hostView_out (s : State) : s.hostView.out = s.out := rfl
@[simp] theorem State.hostView_status (s : State) : s.hostView.status = s.status := rfl
@[simp] theorem State.hostView_err (s : State) : s.hostView.err = s.err := rfl
@[simp] theorem State.hostView_blocks (s : State) : s.hostView.blocks = s.blocks := rfl

end Sys2Proof.Machine
end

