-- ==== Sys2Proof/Tests/Slice0.lean ====
section
/-! SUPPORT. Tests on single steps, from the vectors of 95_test_vectors.md and the encodings of 30_encoding.md, and for every
obligation that has hypotheses a witness that meets them. -/

open Sys2Proof
open Sys2Proof.Machine
open Sys2Proof.Certificates

namespace Sys2Proof.Tests

/-! ## Helpers -/

/-- The answer is a next state that `p` holds of. -/
def nextIs (r : Host.Outcome State Fault Refusal) (p : State → Bool) : Bool :=
  match r with
  | .next s => p s
  | _ => false

/-- The answer is the fault `f`. -/
def faultIs (r : Host.Outcome State Fault Refusal) (f : Fault) : Bool :=
  match r with
  | .fault g => decide (g = f)
  | _ => false

/-- The answer is the refusal `x`. -/
def refusalIs (r : Host.Outcome State Fault Refusal) (x : Refusal) : Bool :=
  match r with
  | .refused y => decide (y = x)
  | _ => false

/-- A running session at the first bit of `bs`, in phase `p`, with block registers `b`. -/
def session (bs : List Byte) (p : Phase) (b : BlockState) : State :=
  { State.reset with
    status := .running, phase := p, src := Cells.ofList 0 bs, srclen := bs.length, blk := b }

/-- `s` with the output `bs`. -/
def withOutput (s : State) (bs : List Byte) : State :=
  { s with out := Cells.ofList 0 bs, outlen := bs.length }

/-- The BitCursor as (BYTEPOS, BITCNT, ACC). -/
def cursorIs (s : State) (p c a : Nat) : Bool :=
  decide (s.bytepos = p) && decide (s.bitcnt = c) && decide (s.acc.toNat = a)

/-- FAULTED with the error `e`. -/
def errIs (s : State) (e : ErrCode) : Bool :=
  decide (s.status = .faulted) && decide (s.err = e)

/-- FAULTED by the read of a register that holds no value, the first of `s`: the error is one of the core's, whichever. -/
def unwrittenIs (r : Host.Outcome State Fault Refusal) (s : State) : Prop :=
  r = .next s.raiseUnwritten

/-- The tree of a table, or the new tree where it does not build. -/
def treeOf (ls : List Nat) (m : Nat) : Tree :=
  match Tree.build ls m with
  | .ok T => T
  | .error _ => Tree.new

/-! ## WellFormed: for each check an ill-formed term that it refuses -/

theorem test_wf_dynHeader_hlit : WellFormed (.dynHeader 30 0 0) = false := by decide
theorem test_wf_dynHeader_hdist : WellFormed (.dynHeader 0 30 0) = false := by decide
theorem test_wf_dynHlitReserved : WellFormed (.dynHlitReserved 29 31 0) = false := by decide
theorem test_wf_dynHdistReserved_hlit : WellFormed (.dynHdistReserved 30 30 0) = false := by decide
theorem test_wf_dynHdistReserved_hdist : WellFormed (.dynHdistReserved 0 29 0) = false := by decide
theorem test_wf_readBits : WellFormed (.readBits 17) = false := by decide
theorem test_wf_peekBits : WellFormed (.peekBits 17) = false := by decide
theorem test_wf_canon_maxLen : WellFormed (.canon [1, 1] 8) = false := by decide
theorem test_wf_canon_entry : WellFormed (.canon [8] 7) = false := by decide
theorem test_wf_build_maxLen : WellFormed (.build .cl [1, 1] 15) = false := by decide
theorem test_wf_build_symbols : WellFormed (.build .d (List.replicate 31 5) 15) = false := by decide
theorem test_wf_addLeaf_len0 : WellFormed (.addLeaf .cl 0 0 0) = false := by decide
theorem test_wf_addLeaf_len8 : WellFormed (.addLeaf .cl 0 8 0) = false := by decide
theorem test_wf_addLeaf_code : WellFormed (.addLeaf .d 2 1 0) = false := by decide
theorem test_wf_addLeaf_symbol : WellFormed (.addLeaf .d 0 1 30) = false := by decide

/-! ## Decoding: words written out from rules R58, R59, R64, R65 -/

/-- R58: `BTYPE` in bits 2:1 and `BFINAL` in bit 0. -/
theorem test_decode_bh :
    decode .bh 0b000 = .ok (.blkStored 0) ∧ decode .bh 0b011 = .ok (.blkFixed 1)
      ∧ decode .bh 0b100 = .ok (.blkDynamic 0) ∧ decode .bh 0b101 = .ok (.blkDynamic 1)
      ∧ decode .bh 0b111 = .ok (.blkReserved 1) := ⟨rfl, rfl, rfl, rfl, rfl⟩

/-- R59: `HLIT` in bits 4:0, `HDIST` in bits 9:5, `HCLEN` in bits 13:10. -/
theorem test_decode_dh :
    decode .dh 0b01010000101101 = .ok (.dynHeader 13 1 5) ∧ decode .dh 0b00001111011101 = .ok (.dynHdistReserved 29 30 0)
      ∧ decode .dh 0b11111111111111 = .ok (.dynHlitReserved 31 31 15)
      ∧ decode .dh 0b11111110111101 = .ok (.dynHeader 29 29 15) := ⟨rfl, rfl, rfl, rfl⟩

theorem test_decode_cll : decode .cll 0b000 = .ok (.clLen 0) ∧ decode .cll 0b101 = .ok (.clLen 5) := ⟨rfl, rfl⟩

/-- R64: the CL symbols by value. -/
theorem test_decode_cls :
    decode .cls 0 = .ok .clLit0 ∧ decode .cls 1 = .ok .clLit1 ∧ decode .cls 2 = .ok .clLit2 ∧ decode .cls 3 = .ok .clLit3
      ∧ decode .cls 4 = .ok .clLit4 ∧ decode .cls 5 = .ok .clLit5 ∧ decode .cls 6 = .ok .clLit6
      ∧ decode .cls 7 = .ok .clLit7 ∧ decode .cls 8 = .ok .clLit8 ∧ decode .cls 9 = .ok .clLit9
      ∧ decode .cls 10 = .ok .clLit10 ∧ decode .cls 11 = .ok .clLit11 ∧ decode .cls 12 = .ok .clLit12
      ∧ decode .cls 13 = .ok .clLit13 ∧ decode .cls 14 = .ok .clLit14 ∧ decode .cls 15 = .ok .clLit15
      ∧ decode .cls 16 = .ok .clRep16 ∧ decode .cls 17 = .ok .clZero17 ∧ decode .cls 18 = .ok .clZero18 :=
  ⟨rfl, rfl, rfl, rfl, rfl, rfl, rfl, rfl, rfl, rfl, rfl, rfl, rfl, rfl, rfl, rfl, rfl, rfl, rfl⟩

/-- R65, R66: the literal/length symbols by value. -/
theorem test_decode_ll :
    decode .ll 0 = .ok (.lit 0) ∧ decode .ll 0xFF = .ok (.lit 0xFF) ∧ decode .ll 256 = .ok .eob := ⟨rfl, rfl, rfl⟩

/-- The symbols 257 to 270. -/
theorem test_decode_ll_low :
    decode .ll 257 = .ok .len257 ∧ decode .ll 258 = .ok .len258 ∧ decode .ll 259 = .ok .len259
      ∧ decode .ll 260 = .ok .len260 ∧ decode .ll 261 = .ok .len261 ∧ decode .ll 262 = .ok .len262
      ∧ decode .ll 263 = .ok .len263 ∧ decode .ll 264 = .ok .len264 ∧ decode .ll 265 = .ok .len265
      ∧ decode .ll 266 = .ok .len266 ∧ decode .ll 267 = .ok .len267 ∧ decode .ll 268 = .ok .len268
      ∧ decode .ll 269 = .ok .len269 ∧ decode .ll 270 = .ok .len270 :=
  ⟨rfl, rfl, rfl, rfl, rfl, rfl, rfl, rfl, rfl, rfl, rfl, rfl, rfl, rfl⟩

/-- The symbols 271 to 287. -/
theorem test_decode_ll_high :
    decode .ll 271 = .ok .len271 ∧ decode .ll 272 = .ok .len272 ∧ decode .ll 273 = .ok .len273
      ∧ decode .ll 274 = .ok .len274 ∧ decode .ll 275 = .ok .len275 ∧ decode .ll 276 = .ok .len276
      ∧ decode .ll 277 = .ok .len277 ∧ decode .ll 278 = .ok .len278 ∧ decode .ll 279 = .ok .len279
      ∧ decode .ll 280 = .ok .len280 ∧ decode .ll 281 = .ok .len281 ∧ decode .ll 282 = .ok .len282
      ∧ decode .ll 283 = .ok .len283 ∧ decode .ll 284 = .ok .len284 ∧ decode .ll 285 = .ok .len285
      ∧ decode .ll 286 = .ok .litLen286 ∧ decode .ll 287 = .ok .litLen287 :=
  ⟨rfl, rfl, rfl, rfl, rfl, rfl, rfl, rfl, rfl, rfl, rfl, rfl, rfl, rfl, rfl, rfl, rfl⟩

/-- R65, R66: the distance symbols 0 to 15. -/
theorem test_decode_d_low :
    decode .d 0 = .ok .dist0 ∧ decode .d 1 = .ok .dist1 ∧ decode .d 2 = .ok .dist2 ∧ decode .d 3 = .ok .dist3
      ∧ decode .d 4 = .ok .dist4 ∧ decode .d 5 = .ok .dist5 ∧ decode .d 6 = .ok .dist6 ∧ decode .d 7 = .ok .dist7
      ∧ decode .d 8 = .ok .dist8 ∧ decode .d 9 = .ok .dist9 ∧ decode .d 10 = .ok .dist10 ∧ decode .d 11 = .ok .dist11
      ∧ decode .d 12 = .ok .dist12 ∧ decode .d 13 = .ok .dist13 ∧ decode .d 14 = .ok .dist14
      ∧ decode .d 15 = .ok .dist15 :=
  ⟨rfl, rfl, rfl, rfl, rfl, rfl, rfl, rfl, rfl, rfl, rfl, rfl, rfl, rfl, rfl, rfl⟩

/-- The distance symbols 16 to 31. -/
theorem test_decode_d_high :
    decode .d 16 = .ok .dist16 ∧ decode .d 17 = .ok .dist17 ∧ decode .d 18 = .ok .dist18 ∧ decode .d 19 = .ok .dist19
      ∧ decode .d 20 = .ok .dist20 ∧ decode .d 21 = .ok .dist21 ∧ decode .d 22 = .ok .dist22
      ∧ decode .d 23 = .ok .dist23 ∧ decode .d 24 = .ok .dist24 ∧ decode .d 25 = .ok .dist25
      ∧ decode .d 26 = .ok .dist26 ∧ decode .d 27 = .ok .dist27 ∧ decode .d 28 = .ok .dist28
      ∧ decode .d 29 = .ok .dist29 ∧ decode .d 30 = .ok .dist30 ∧ decode .d 31 = .ok .dist31 :=
  ⟨rfl, rfl, rfl, rfl, rfl, rfl, rfl, rfl, rfl, rfl, rfl, rfl, rfl, rfl, rfl, rfl⟩

theorem test_decode_rejects :
    decode .bh 8 = .error (.wordTooWide .bh 8) ∧ decode .cls 19 = .error (.noSuchSymbol .cls 19)
      ∧ decode .ll 288 = .error (.noSuchSymbol .ll 288) ∧ decode .d 32 = .error (.wordTooWide .d 32) :=
  ⟨rfl, rfl, rfl, rfl⟩

/-! ## BitReader: V1 to V6 -/

/-- The source of V1 and V2. -/
def b2 : State := session [0xB2, 0x01] .readHeader BlockState.fresh

/-- The state after V2a. -/
def afterV2a : State := { b2 with bytepos := 1, bitcnt := 5, acc := 0x16 }

/-- V2a. -/
theorem test_readBits : nextIs (exec (.readBits 3) b2)
    (fun s => cursorIs s 1 5 0x16 && decide (s.result = some (.value 2))) = true := by decide

/-- V5. -/
theorem test_readBits_exhausted : nextIs (exec (.readBits 13) (session [0x01] .readHeader BlockState.fresh))
    (fun s => errIs s .streamExhausted && cursorIs s 1 8 0x01) = true := by decide

/-- The refill of V2b. -/
theorem test_refill : nextIs (exec .refill afterV2a) (fun s => cursorIs s 2 13 0x36) = true := by decide

/-- R11: no refill starts with more than 15 bits buffered. -/
theorem test_refill_noRoom :
    refusalIs (exec .refill { session [0, 0, 0] .readHeader BlockState.fresh with bytepos := 2, bitcnt := 16 }) .refillNoRoom
      = true := by decide

/-- V6: a width above READ_MAX. -/
theorem test_peekBits_wide : refusalIs (exec (.peekBits 17) b2) (.readTooWide 17) = true := by decide

/-- V3c. -/
theorem test_peekBits :
    nextIs (exec (.peekBits 4)
        { session [0xFF, 0x00, 0xA5] .readHeader BlockState.fresh with bytepos := 2 })
      (fun s => cursorIs s 3 8 0xA5 && decide (s.result = some (.value 5)) && decide (s.bitpos = 16)) = true := by decide

/-! ## Codes and trees: V10, V20e, V21b, V25 -/

/-- V10, the second row. -/
theorem test_canon : canon [3, 3, 3, 3, 3, 2, 4, 4] 15 =
    .ok [some ⟨0b010, 3⟩, some ⟨0b011, 3⟩, some ⟨0b100, 3⟩, some ⟨0b101, 3⟩, some ⟨0b110, 3⟩, some ⟨0b00, 2⟩,
      some ⟨0b1110, 4⟩, some ⟨0b1111, 4⟩] := by rfl

/-- V10, the row that over-subscribes at symbol 2. -/
theorem test_canon_over : canon [2, 2, 2, 0, 1] 15 = .error 2
    ∧ nextIs (exec (.canon [2, 2, 2, 0, 1] 15) b2) (fun s => errIs s .malformedHuffmanCode) = true := by
  exact ⟨by rfl, by decide⟩

/-- V20e: the arena after `BUILD`. -/
theorem test_build : Tree.build [2, 1, 3, 3] 15 = .ok
    { nodes := [.internal (some 3) (some 1), .internal (some 2) (some 4), .leaf 0, .leaf 1,
        .internal (some 5) (some 6), .leaf 2, .leaf 3],
      maxlen := 3 } := by rfl

/-- V25: `0` is a prefix of `01`. -/
theorem test_addLeaf_collides : nextIs (exec (.addLeaf .ll 0 1 5)
    (b2.withTree .ll
      { nodes := [.internal (some 1) none, .internal none (some 2), .leaf 0], maxlen := 2 }))
    (fun s => errIs s .malformedHuffmanCode) = true := by decide

/-- R91: the code `10` added below the root's missing child makes an INTERNAL node, then the leaf. -/
theorem test_addLeaf : nextIs (exec (.addLeaf .d 0b10 2 7) (b2.withTree .d (oneLeafTree 3)))
    (fun s => decide (s.blk.dtree = some
      { nodes := [.internal (some 1) (some 2), .leaf 3, .internal (some 3) none, .leaf 7], maxlen := 2 })) = true := by decide

/-- `s` with the tree `T` in the place `t`, its cursor at the root. -/
def descending (s : State) (t : TreeId) (T : Tree) : State := (s.withTree t T).withTreeCursor t .root

/-- V21b: the path `1` of a tree that only has `0`. -/
theorem test_decodeStep : nextIs (exec (.decodeStep .cl true) (descending b2 .cl (oneLeafTree 1)))
    (fun s => errIs s .malformedHuffmanCode && decide (s.blk.clcursor = ⟨some 0, some 0⟩)) = true := by
  decide

/-- R18: no rule has written the cursor of a tree that `BUILD` has just made. -/
theorem test_decodeStep_noCursor :
    nextIs (exec (.build .ll [2, 1, 3, 3] 15) (descending b2 .ll (oneLeafTree 1)))
        (fun s => decide (s.blk.llcursor = ⟨none, none⟩)) = true
      ∧ unwrittenIs (exec (.decodeStep .ll true) (b2.withTree .ll (oneLeafTree 1))) (b2.withTree .ll (oneLeafTree 1)) :=
  ⟨by decide, rfl⟩

/-- V24: the cursor goes back to the root. -/
theorem test_resetCursor :
    nextIs (exec (.resetCursor .d) ((b2.withTree .d (treeOf [2, 1, 3, 3] 15)).withTreeCursor .d ⟨some 4, some 2⟩))
      (fun s => decide (s.blk.dtree = some (treeOf [2, 1, 3, 3] 15)) && decide (s.blk.dcursor = ⟨some 0, some 0⟩)) = true := by
  decide

/-- R93: two writes, no read, so no tree is needed. -/
theorem test_resetCursor_noTree :
    nextIs (exec (.resetCursor .d) b2) (fun s => decide (s.blk.dcursor = ⟨some 0, some 0⟩) && decide (s.blk.dtree = none)) = true := by
  decide

/-- R94: the cursor is reset and the bit is read before the tree is, so an exhausted source is found first. -/
theorem test_decodeSym_noTree :
    nextIs (exec (.decodeSym .d) (session [] .decodeSymbols BlockState.fresh)) (fun s => errIs s .streamExhausted) = true
      ∧ unwrittenIs (exec (.decodeSym .d) b2)
        ({ b2 with bytepos := 1, bitcnt := 7, acc := 0x59 }.withTreeCursor .d ⟨some 0, some 0⟩) := by
  exact ⟨by decide, rfl⟩

/-- V20b: the stream `0 1 0 0 1 1 0 1` of S1, one bit on, is `10`: symbol 0. -/
theorem test_decodeSym :
    nextIs (exec (.decodeSym .ll) ({ b2 with bytepos := 1, bitcnt := 7, acc := 0x59 }.withTree .ll (treeOf [2, 1, 3, 3] 15)))
      (fun s => cursorIs s 1 5 0x16 && decide (s.result = some (.symbol 0))) = true := by decide

/-! ## Headers: V50, V51 -/

/-- V50a: a whole step in ReadHeader. -/
theorem test_blkDynamic : nextIs (step (session [0x05] .readHeader BlockState.fresh))
    (fun s => decide (s.phase = .readDynamicTables) && decide (s.blk.bfinal = some 1) && decide (s.blk.btype = some 2)
      && cursorIs s 1 5 0) = true := by decide

/-- E2. -/
theorem test_blkStored : nextIs (step (session [0x01] .readHeader BlockState.fresh))
    (fun s => errIs s .unsupportedBlockType && cursorIs s 1 5 0 && decide (s.phase = .readHeader)) = true := by decide

/-- E1. -/
theorem test_blkFixed : nextIs (step (session [0x03] .readHeader BlockState.fresh))
    (fun s => errIs s .unsupportedBlockType && cursorIs s 1 5 0) = true := by decide

/-- E3. -/
theorem test_blkReserved : nextIs (step (session [0x07] .readHeader BlockState.fresh))
    (fun s => errIs s .unsupportedBlockType && decide (s.blk.btype = some 3)) = true := by decide

/-- V51a. -/
theorem test_dynHeader : nextIs (exec (.dynHeader 29 29 0) b2)
    (fun s => decide (s.status = .running) && decide (s.blk.nlit = some 286) && decide (s.blk.ndist = some 30)) = true := by
  decide

/-- E8, in one step: `HLIT` 30. -/
theorem test_dynHlitReserved :
    nextIs (step { session [0xF5, 0x00, 0x00] .readDynamicTables { BlockState.fresh with bfinal := some 1 } with
        bytepos := 1, bitcnt := 5, acc := 0x1E })
      (fun s => errIs s .malformedHuffmanCode && cursorIs s 3 7 0 && decide (s.bitpos = 17)) = true := by decide

/-- V51c. -/
theorem test_dynHdistReserved : nextIs (exec (.dynHdistReserved 0 30 0) b2)
    (fun s => errIs s .malformedHuffmanCode && decide (s.blk.ndist = some 31)) = true := by decide

/-- R123 with `NLIT` 287. -/
theorem test_rangeCheck :
    nextIs (exec .rangeCheck (b2.withBlk { BlockState.fresh with nlit := some 287, ndist := some 1 }))
      (fun s => errIs s .malformedHuffmanCode) = true := by decide

/-- `l` with zeros up to `n` entries. -/
def padded (n : Nat) (l : List (BitVec 4)) : List (BitVec 4) := l ++ List.replicate (n - l.length) 0

/-- `b2` with both length tables, zeros from the entries given on. -/
def tablesOf (l d : List (BitVec 4)) : State :=
  b2.withBlk { BlockState.fresh with lllen := Cells.ofList 0 (padded 286 l), dlen := Cells.ofList 0 (padded 30 d) }

set_option maxRecDepth 4000 in
/-- R124: an over-subscribed literal/length table. -/
theorem test_tables :
    nextIs (exec .tables (tablesOf [1, 1, 1] [0]))
      (fun s => errIs s .malformedHuffmanCode && decide (s.blk.lltree = none) && decide (s.phase = .readHeader)) = true := by
  rfl

/-- R18: a `LLLEN` of which no rule has written every entry. -/
theorem test_tables_unwritten : unwrittenIs (exec .tables b2) b2 := rfl

/-! ## Code lengths: V30 to V43 -/

/-- The registers of V32 to V42: the last entry of `LENSEQ` is `prev` where `SEQCNT` is not 0. -/
def seqAt (bs : List Byte) (k : Nat) (prev : BitVec 4) : State :=
  session bs .readDynamicTables
    { BlockState.fresh with
      bfinal := some 1, nlit := some 257, ndist := some 1, seqcnt := some k,
      lenseq := if k = 0 then [] else [(k - 1, prev)], clPoint := .clSyms }

/-- V30: the fourth length is that of CL symbol 0. -/
theorem test_clLen :
    nextIs (exec (.clLen 5)
        (b2.withBlk { BlockState.fresh with cllen := some (List.replicate 19 0), clIdx := 3 }))
      (fun s => decide (s.blk.cllen = some (5 :: List.replicate 18 0)) && decide (s.blk.clIdx = 4)) = true := by decide

/-- R19: before the zeroing of R100 the entries not written are 0. -/
theorem test_clLen_first : nextIs (exec (.clLen 5) b2)
    (fun s => decide (s.blk.cllen = some (List.replicate 16 0 ++ [5, 0, 0]))) = true := by decide

/-- V32, for CL symbols 5 and 15. -/
theorem test_clLit :
    nextIs (exec .clLit5 (seqAt [] 0 0))
      (fun s => decide (s.blk.lenseq = [(0, 5)]) && decide (s.blk.seqcnt = some 1)) = true
    ∧ nextIs (exec .clLit15 (seqAt [] 0 0)) (fun s => decide (s.blk.lenseq = [(0, 15)])) = true := by decide

/-- V33: no bit is read. -/
theorem test_clRep16_first : nextIs (exec .clRep16 (seqAt [0xFF] 0 0))
    (fun s => errIs s .invalidRunLengthContext && cursorIs s 0 0 0) = true := by decide

/-- V34. -/
theorem test_clRep16 : nextIs (exec .clRep16 (seqAt [0x03] 10 7))
    (fun s => decide (s.blk.lenseq = [(9, 7), (10, 7), (11, 7), (12, 7), (13, 7), (14, 7), (15, 7)])
      && decide (s.blk.seqcnt = some 16) && cursorIs s 1 6 0) = true := by decide

/-- V38: `SEQCNT` 255 of 258. -/
theorem test_clZero17 : nextIs (exec .clZero17 (seqAt [0x00] 255 1))
    (fun s => decide (s.blk.lenseq = [(254, 1), (255, 0), (256, 0), (257, 0)]) && decide (s.blk.seqcnt = some 258)) = true := by
  decide

/-- V39: the seven extra bits are consumed and nothing is written. -/
theorem test_clZero18_overrun : nextIs (exec .clZero18 (seqAt [0x00] 250 1))
    (fun s => errIs s .invalidRunLengthContext && cursorIs s 1 1 0 && decide (s.blk.rep = some 11)
      && decide (s.blk.seqcnt = some 250)) = true := by decide

/-- V37. -/
theorem test_clZero18 : nextIs (exec .clZero18 (seqAt [0x7F] 0 0))
    (fun s => decide (s.blk.seqcnt = some 138) && decide (Cells.read s.blk.lenseq 137 = some 0)
      && decide (Cells.read s.blk.lenseq 138 = none)) = true := by decide

/-- V42. -/
theorem test_overrunCheck :
    nextIs (exec .overrunCheck
        (b2.withBlk { BlockState.fresh with nlit := some 257, ndist := some 1, seqcnt := some 257, rep := some 3 }))
      (fun s => errIs s .invalidRunLengthContext) = true := by decide

/-- The BlockState that `r` completes with. -/
def blockOf (r : Res Unit) : Option BlockState :=
  match r with
  | .ok _ s => some s.blk
  | _ => none

/-- V43: `LLLEN[258]` and `LLLEN[259]` where `NLIT` is 259, then `DLEN[0]` to `DLEN[3]` where `NDIST` is 3. -/
theorem test_split :
    let s := b2.withBlk { BlockState.fresh with lenseq := [(258, 4), (259, 9), (260, 8), (261, 7)] }
    (blockOf (splitLoop BlockState.writeLllen 0 259 2 258 s)).map BlockState.lllen = some [(258, 4), (259, 0)]
      ∧ (blockOf (splitLoop BlockState.writeDlen 259 3 4 0 s)).map BlockState.dlen
        = some [(0, 9), (1, 8), (2, 7), (3, 0)] := by decide

/-! ## Symbols: V52 to V64 -/

/-- R126. -/
theorem test_lit : nextIs (exec (.lit 0x62) (withOutput b2 [0x61]))
    (fun s => decide (s.out = [(0, 0x61), (1, 0x62)]) && decide (s.outlen = 2)) = true := by decide

/-- R45: a full `OUT`. -/
theorem test_lit_full : faultIs (exec (.lit 0x62) { b2 with outCapacity := some 0 }) .outFull = true := by decide

/-- R45, R159: on a full `OUT` the step of a literal is its fetch, after which the code is consumed and `SYM` written. -/
theorem test_lit_waits :
    nextIs (step { session [0] .decodeSymbols { BlockState.fresh with lltree := some (oneLeafTree 7) } with
        outCapacity := some 0 })
      (fun s => cursorIs s 1 7 0 && decide (s.blk.sym = some 7) && decide (s.blk.symPoint = .append)
        && decide (s.outlen = 0) && decide (s.status = .running)) = true := by decide

/-- The literal that waits: stuck on a full `OUT`, appended from `SYM` once there is room, no bit read. -/
theorem test_lit_waiting :
    let s := session [] .decodeSymbols { BlockState.fresh with sym := some 7, symPoint := .append }
    faultIs (step { s with outCapacity := some 0 }) .outFull = true
      ∧ nextIs (step { s with outCapacity := some 1 })
        (fun t => decide (t.out = [(0, 7)]) && decide (t.blk.symPoint = .symbols)) = true := by decide

/-- R23, R132: the host can read `BYTEPOS` after each refill of a step, and the new `BLOCKS` before COMPLETE. -/
theorem test_hostViews :
    (hostViews (session [0xFF, 0] .readDynamicTables BlockState.fresh)).map HostView.bytepos = [1, 2, 2]
      ∧ (hostViews (session [] .done { BlockState.fresh with bfinal := some 1 })).map
          (fun v => (v.blocks, v.status)) = [(1, .running), (1, .complete)] := by decide

/-- R196: the primitives of the step of E2 that change a register: the new block is `BlockState.fresh` already; REFILL,
READBITS, BFINAL, READBITS, BTYPE, the error. -/
theorem test_primStates :
    (primStates (session [0x01] .readHeader BlockState.fresh)).map
        (fun s => (s.bytepos, s.bitcnt, s.blk.bfinal, s.blk.btype, s.err)) =
      [(1, 8, none, none, .none), (1, 7, none, none, .none), (1, 7, some 1, none, .none), (1, 5, some 1, none, .none),
        (1, 5, some 1, some 0, .none), (1, 5, some 1, some 0, .unsupportedBlockType)] := by decide

/-- R196: the primitives of the step of a copied byte: `OutAppend`, then `COPYREM`. -/
theorem test_primStates_copy :
    (primStates (withOutput (session [] .decodeSymbols
        { BlockState.fresh with distance := some 1, copyrem := some 4, symPoint := .copy }) [0x61])).map
      (fun s => (s.outlen, s.blk.copyrem)) = [(2, some 4), (2, some 3)] := by decide

/-- R93, R94, R196: the primitives of a `DECODESYM` that move the tree's cursor, each of its registers by itself. -/
theorem test_decodeSymStates :
    changes ⟨none, none⟩ ((decodeSymStates .ll
        (session [0] .decodeSymbols { BlockState.fresh with lltree := some (oneLeafTree 256) })).map fun s => s.blk.llcursor) =
      [⟨some 0, none⟩, ⟨some 0, some 0⟩, ⟨some 0, some 1⟩, ⟨some 0, some 0⟩] := by decide

/-- R100, R196: the CL code lengths are zeroed one by one. -/
theorem test_zeroStates :
    (zeroStates 3 0 (b2.withBlk { BlockState.fresh with cllen := some [1, 2, 3] })).map (fun s => s.blk.cllen) =
      [some [0, 2, 3], some [0, 0, 3], some [0, 0, 0]] := by decide

theorem test_eob : nextIs (exec .eob b2) (fun s => decide (s.phase = .done)) = true := by decide

/-- V63. -/
theorem test_done_more :
    nextIs (step (session [] .done { BlockState.fresh with bfinal := some 0, hlit := some 3 }))
      (fun s => decide (s.blocks = 1) && decide (s.phase = .readHeader) && decide (s.status = .running)
        && decide (s.blk = BlockState.fresh)) = true := by decide

/-- V64. -/
theorem test_done_last :
    nextIs (step { session [] .done { BlockState.fresh with bfinal := some 1 } with blocks := 1 })
      (fun s => decide (s.blocks = 2) && decide (s.phase = .done) && decide (s.status = .complete)) = true := by decide

/-- The length of `i` with the extra bits `x` next in the stream. -/
def lengthGives (i : Instr) (x : Byte) (v : Nat) : Bool :=
  nextIs (exec i (session [x] .decodeSymbols BlockState.fresh)) fun s => decide (s.blk.length = some v)

/-- V52. -/
theorem test_lengths :
    lengthGives .len257 0 3 = true ∧ lengthGives .len264 0 10 = true ∧ lengthGives .len265 0 11 = true
      ∧ lengthGives .len265 1 12 = true ∧ lengthGives .len268 1 18 = true ∧ lengthGives .len269 3 22 = true
      ∧ lengthGives .len280 15 130 = true ∧ lengthGives .len284 0 227 = true ∧ lengthGives .len284 30 257 = true
      ∧ lengthGives .len284 31 258 = true ∧ lengthGives .len285 0xFF 258 = true := by decide

theorem test_litLen286 : nextIs (exec .litLen286 b2) (fun s => errIs s .malformedHuffmanCode) = true := by decide

theorem test_litLen287 : nextIs (exec .litLen287 b2) (fun s => errIs s .malformedHuffmanCode) = true := by decide

/-- The distance of `i` with the extra bits `x y` next in the stream and nothing in `OUT`. -/
def distanceGives (i : Instr) (x y : Byte) (v : Nat) : Bool :=
  nextIs (exec i (session [x, y] .decodeSymbols BlockState.fresh)) fun s => decide (s.blk.distance = some v)

/-- V53. -/
theorem test_distances :
    distanceGives .dist0 0 0 1 = true ∧ distanceGives .dist3 0 0 4 = true ∧ distanceGives .dist4 0 0 5 = true
      ∧ distanceGives .dist4 1 0 6 = true ∧ distanceGives .dist13 31 0 128 = true
      ∧ distanceGives .dist28 0 0 16385 = true ∧ distanceGives .dist29 0 0 24577 = true
      ∧ distanceGives .dist29 0xFF 0x1F 32768 = true := by decide

/-- V54: distance 5 (symbol 4, extra 0) with four bytes in `OUT`. -/
theorem test_dist_check :
    nextIs (exec .dist4 (withOutput (session [0x00] .decodeSymbols BlockState.fresh) [1, 2, 3, 4]))
      (fun s => errIs s .invalidBackReference && decide (s.outlen = 4) && cursorIs s 1 7 0) = true := by decide

theorem test_dist30 : nextIs (exec .dist30 b2) (fun s => errIs s .malformedHuffmanCode) = true := by decide

theorem test_dist31 : nextIs (exec .dist31 b2) (fun s => errIs s .malformedHuffmanCode) = true := by decide

/-- V55. -/
theorem test_check : nextIs (exec .check (b2.withBlk { BlockState.fresh with distance := some 1 }))
    (fun s => errIs s .invalidBackReference) = true := by decide

/-- V60: `DISTANCE = OUTLEN` is legal, and copies `OUT[0]`. -/
theorem test_copyByte :
    nextIs (exec .copyByte
        ((withOutput b2 [0x61, 0x62]).withBlk { BlockState.fresh with distance := some 2, copyrem := some 4 }))
      (fun s => decide (s.out = [(0, 0x61), (1, 0x62), (2, 0x61)]) && decide (s.blk.copyrem = some 3)) = true := by decide

/-- V70, from a faulted session. -/
theorem test_start :
    nextIs (step { withOutput b2 [1] with hostStart := some [0xAA], status := .faulted, err := .headerError, bitcnt := 3 })
      (fun s => decide (s.status = .running) && decide (s.err = .none) && cursorIs s 0 0 0 && decide (s.outlen = 0)
        && decide (s.src = [(0, 0xAA)]) && decide (s.hostStart = none)) = true := by decide

/-- R182. -/
theorem test_idle : faultIs (step State.reset) .idle = true := by decide

/-- R15: COMPLETE and FAULTED are final. -/
theorem test_final :
    faultIs (step { b2 with status := .complete }) .sessionComplete = true
      ∧ faultIs (step { b2 with status := .faulted }) .sessionFaulted = true := by decide

/-- R18, D29, I10: the read of a register that holds no value is a fatal error. -/
theorem test_unwritten :
    unwrittenIs (exec .check b2) b2 ∧ b2.raiseUnwritten.status = .faulted ∧ b2.raiseUnwritten.err ≠ .none :=
  ⟨rfl, rfl, ErrCode.fatal_ne_none _⟩

/-- R133, R132: `BLOCKS` is counted before `BFINAL` is read. -/
theorem test_done_unwritten :
    unwrittenIs (step (session [] .done BlockState.fresh)) { session [] .done BlockState.fresh with blocks := 1 } := rfl

/-- R150: the codes of `ERR`. -/
theorem test_err_codes :
    [ErrCode.none, .headerError, .unsupportedBlockType, .malformedHuffmanCode, .invalidRunLengthContext,
      .invalidBackReference, .streamExhausted].map ErrCode.code = [0, 1, 2, 3, 4, 5, 6] := by decide

/-- Entry 9: the table's words as the host writes them. -/
theorem test_tableWord :
    decodeTableWord 3 0b100 = some (.blkDynamic 0) ∧ decodeTableWord 16 256 = some .eob
      ∧ decodeTableWord 16 285 = some .len285 ∧ decodeTableWord 8 16 = some .clRep16
      ∧ decodeTableWord 8 31 = some .dist31 := ⟨rfl, rfl, rfl, rfl, rfl⟩

/-! ## Witnesses: a state and operands that meet the hypotheses of each obligation, for every clause -/

theorem afterV2a_src : SrcOk afterV2a := rfl

theorem afterV2a_cursor : CursorOk afterV2a := ⟨by decide, by decide, by decide, by decide, by decide⟩

theorem cursorOk_of_empty {s : State} (hp : s.bytepos ≤ s.srclen) (hc : s.bitcnt = 0) (ha : s.acc = 0) : CursorOk s where
  bytepos_le := hp
  bitcnt_le := by omega
  bitcnt_le_fetched := by omega
  acc_lt := by simp [hc, ha]
  acc_bits := by intro j hj; omega

theorem session_src (bs : List Byte) (p : Phase) (b : BlockState) : SrcOk (session bs p b) :=
  Cells.keys_ofList_zero bs

theorem session_cursor (bs : List Byte) (p : Phase) (b : BlockState) : CursorOk (session bs p b) :=
  cursorOk_of_empty (Nat.zero_le _) rfl rfl

theorem session_running (bs : List Byte) (p : Phase) (b : BlockState) : RunningIn (session bs p b) p := ⟨rfl, rfl, rfl⟩

theorem session_room (bs : List Byte) (p : Phase) (b : BlockState) (n : Nat) : Room (session bs p b) n := by
  intro c h
  cases h

theorem witness_EncodedInstructionDecodesBack :
    WellFormed (.dynHdistReserved 29 31 15) = true
      ∧ encode (.dynHdistReserved 29 31 15) = some (.dh, 0b11111111111101) := by decide

theorem witness_DecodedWordEncodesBack : decode .dh 0b11111111111101 = .ok (.dynHdistReserved 29 31 15) := rfl

theorem witness_ReservedSymbolsRaiseMalformed : Instr.dist31 ∈ [Instr.litLen286, .litLen287, .dist30, .dist31] := by decide

theorem witness_EveryDistanceHasOneEncoding : 1 ≤ 32768 ∧ 32768 ≤ 32768 := by decide

/-- The widest read that the source of V2 allows, one bit more, and a read that is too wide. -/
theorem witness_ReadBitsReturnsNextStreamBits :
    SrcOk afterV2a ∧ CursorOk afterV2a ∧ (13 ≤ 16 ∧ afterV2a.bitpos + 13 ≤ 8 * afterV2a.srclen)
      ∧ (14 ≤ 16 ∧ 8 * afterV2a.srclen < afterV2a.bitpos + 14) ∧ 16 < 17 :=
  ⟨afterV2a_src, afterV2a_cursor, by decide, by decide, by decide⟩

theorem witness_PeekBitsConsumesNothing :
    SrcOk b2 ∧ CursorOk b2 ∧ (16 ≤ 16 ∧ b2.bitpos + 16 ≤ 8 * b2.srclen) ∧ SrcOk afterV2a ∧ CursorOk afterV2a
      ∧ (16 ≤ 16 ∧ 8 * afterV2a.srclen < afterV2a.bitpos + 16) ∧ 0 ≤ 16 ∧ (∃ t, exec (.peekBits 16) b2 = .next t) ∧ 16 < 17 :=
  ⟨rfl, session_cursor _ _ _, by decide, afterV2a_src, afterV2a_cursor, by decide, by decide, ⟨_, rfl⟩, by decide⟩

/-- Three zero bytes fetched of four, `c` bits of them still buffered. -/
def buffered (c : Nat) : State := { session [0, 0, 0, 0] .readHeader BlockState.fresh with bytepos := 3, bitcnt := c }

theorem buffered_15 : CursorOk (buffered 15) := ⟨by decide, by decide, by decide, by decide, by decide⟩

theorem buffered_16 : CursorOk (buffered 16) := ⟨by decide, by decide, by decide, by decide, by decide⟩

theorem witness_RefillFetchesOneByte :
    (SrcOk (buffered 15) ∧ CursorOk (buffered 15) ∧ (buffered 15).bytepos < (buffered 15).srclen ∧ (buffered 15).bitcnt ≤ 15)
      ∧ (SrcOk (session [] .readHeader BlockState.fresh) ∧ CursorOk (session [] .readHeader BlockState.fresh)
        ∧ (session [] .readHeader BlockState.fresh).bytepos = (session [] .readHeader BlockState.fresh).srclen)
      ∧ (SrcOk (buffered 16) ∧ CursorOk (buffered 16) ∧ (buffered 16).bytepos < (buffered 16).srclen
        ∧ 15 < (buffered 16).bitcnt) :=
  ⟨⟨rfl, buffered_15, by decide, by decide⟩, ⟨rfl, session_cursor _ _ _, rfl⟩, ⟨rfl, buffered_16, by decide, by decide⟩⟩

theorem witness_ReadsConcatenate : SrcOk afterV2a ∧ CursorOk afterV2a ∧ 3 + 13 ≤ 16 :=
  ⟨afterV2a_src, afterV2a_cursor, by decide⟩

theorem kraftOk_2133 : kraftOk [2, 1, 3, 3] 15 := by unfold kraftOk; decide

theorem not_kraftOk_111 : ¬ kraftOk [1, 1, 1] 15 := by unfold kraftOk; decide

theorem witness_CanonAcceptsExactlyKraftTables :
    (lengthTableOk [2, 1, 3, 3] 15 = true ∧ kraftOk [2, 1, 3, 3] 15)
      ∧ (lengthTableOk [1, 1, 1] 15 = true ∧ ¬ kraftOk [1, 1, 1] 15) :=
  ⟨⟨by decide, kraftOk_2133⟩, ⟨by decide, not_kraftOk_111⟩⟩

/-- The codes of V10's first row. -/
def codes2133 : List (Option Code) := [some ⟨0b10, 2⟩, some ⟨0b0, 1⟩, some ⟨0b110, 3⟩, some ⟨0b111, 3⟩]

theorem witness_CanonCodesAscendBySymbol :
    lengthTableOk [2, 1, 3, 3] 15 = true ∧ canon [2, 1, 3, 3] 15 = .ok codes2133 ∧ [2, 1, 3, 3][3]? = some 3 :=
  ⟨by decide, by rfl, by decide⟩

theorem witness_CanonCodesArePrefixFree :
    lengthTableOk [2, 1, 3, 3] 15 = true ∧ canon [2, 1, 3, 3] 15 = .ok codes2133 ∧ 0 ≠ 3
      ∧ codes2133[0]? = some (some ⟨0b10, 2⟩) ∧ codes2133[3]? = some (some ⟨0b111, 3⟩) :=
  ⟨by decide, by rfl, by decide, rfl, rfl⟩

/-- A table for `CANON` and `BUILD`; one for neither; one for `CANON` and for no CL tree. -/
theorem witness_CanonAndBuildComplete :
    (lengthTableOk [2, 1, 3, 3] 15 = true ∧ canon [2, 1, 3, 3] 15 = .ok codes2133 ∧ buildOk .d [2, 1, 3, 3] 15 = true
        ∧ Tree.build [2, 1, 3, 3] 15 = .ok (treeOf [2, 1, 3, 3] 15))
      ∧ lengthTableOk [8] 7 = false ∧ buildOk .cl [2, 1, 3, 3] 15 = false :=
  ⟨⟨by decide, by rfl, by decide, by rfl⟩, by decide, by decide⟩

theorem witness_BuildCompletesOnLegalTables :
    (buildOk .ll [2, 1, 3, 3] 15 = true ∧ kraftOk [2, 1, 3, 3] 15)
      ∧ (buildOk .ll [1, 1, 1] 15 = true ∧ ¬ kraftOk [1, 1, 1] 15) :=
  ⟨⟨by decide, kraftOk_2133⟩, ⟨by decide, not_kraftOk_111⟩⟩

theorem oneLeaf_ok {n m v : Nat} (h : v < n) (hm : 1 ≤ m) : TreeOk n m (oneLeafTree v) where
  root := ⟨_, _, rfl⟩
  child0 := by
    intro i j c1 hi
    rcases i with _ | _ | i <;> simp [oneLeafTree] at hi ⊢
    omega
  child1 := by
    intro i c0 j hi
    rcases i with _ | _ | i <;> simp [oneLeafTree] at hi
  symbols := by
    intro i u hi
    rcases i with _ | _ | i <;> simp [oneLeafTree] at hi
    omega
  maxlen := hm

theorem oneLeaf_shaped (v : Nat) : TreeShaped (oneLeafTree v) := by
  have key : ∀ i b j, (oneLeafTree v).child i b = some (some j) → i = 0 ∧ b = false ∧ j = 1 := by
    intro i b j h
    rcases i with _ | _ | i <;> cases b <;> simp_all [oneLeafTree, Tree.child]
  constructor
  · intro i b h
    simpa using (key i b 0 h).2.2
  · intro i b k d j h1 h2
    obtain ⟨rfl, rfl, -⟩ := key i b j h1
    obtain ⟨rfl, rfl, -⟩ := key k d j h2
    exact ⟨rfl, rfl⟩

/-- Beside the code `0`, the code `1` is free and the code `0` is taken. -/
theorem witness_AddLeafAddsOnePath :
    (addLeafOk .d 1 1 29 = true ∧ (b2.withTree .d (oneLeafTree 3)).blk.tree .d = some (oneLeafTree 3)
        ∧ TreeOk TreeId.d.symbols TreeId.d.maxLen (oneLeafTree 3)
        ∧ (∀ p u, p <+: Code.bits (Code.mk 1 1) → (oneLeafTree 3).walk 0 p ≠ some (Node.leaf u))
        ∧ (oneLeafTree 3).walk 0 (Code.bits (Code.mk 1 1)) = none ∧ (oneLeafTree 3).count + 1 ≤ TreeId.d.capacity
        ∧ TreeShaped (oneLeafTree 3))
      ∧ (addLeafOk .d 0 1 29 = true ∧ (oneLeafTree 3).walk 0 (Code.bits (Code.mk 0 1)) ≠ none)
      ∧ ∃ p u, p <+: Code.bits (Code.mk 1 2) ∧ (oneLeafTree 3).walk 0 p = some (Node.leaf u) := by
  refine ⟨⟨by decide, rfl, oneLeaf_ok (by decide) (by decide), ?_, by decide, by decide, oneLeaf_shaped 3⟩,
    ⟨by decide, by decide⟩, [false], 3, by decide, by decide⟩
  intro p u hp
  have h1 : Code.bits (Code.mk 1 1) = [true] := by decide
  rw [h1] at hp
  rcases p with _ | ⟨b, _ | ⟨c, p⟩⟩
  · simp [Tree.walk, oneLeafTree]
  · have hb : b = true := by simpa using hp
    subst hb
    simp [Tree.walk, Tree.child, oneLeafTree]
  · have := hp.length_le
    simp at this

/-- A root whose child 0 is a LEAF, and whose child 1 is INTERNAL. -/
def tree2 (maxlen : Nat) : Tree where
  nodes := [.internal (some 1) (some 2), .leaf 3, .internal none none]
  maxlen := maxlen

theorem tree2_ok {m : Nat} (h : m ≤ 15) : TreeOk TreeId.d.symbols TreeId.d.maxLen (tree2 m) where
  root := ⟨_, _, rfl⟩
  child0 := by
    intro i j c1 hi
    rcases i with _ | _ | _ | i <;> simp [tree2] at hi ⊢
    omega
  child1 := by
    intro i c0 j hi
    rcases i with _ | _ | _ | i <;> simp [tree2] at hi ⊢
    omega
  symbols := by
    intro i u hi
    rcases i with _ | _ | _ | i <;> simp [tree2] at hi
    subst hi
    decide
  maxlen := h

theorem tree2_root (m : Nat) : CursorIn (tree2 m) ⟨some 0, some 0⟩ where
  node n h := by
    obtain rfl := Option.some.inj h
    exact ⟨_, _, rfl⟩
  depth d h := by
    obtain rfl := Option.some.inj h
    exact Nat.zero_le m

theorem tree2_below : CursorIn (tree2 2) ⟨some 2, some 1⟩ where
  node n h := by
    obtain rfl := Option.some.inj h
    exact ⟨_, _, rfl⟩
  depth d h := by
    obtain rfl := Option.some.inj h
    decide

theorem witness_DecodeStepFollowsTheTree :
    ((descending b2 .d (tree2 2)).blk.tree .d = some (tree2 2) ∧ TreeOk TreeId.d.symbols TreeId.d.maxLen (tree2 2)
        ∧ (descending b2 .d (tree2 2)).blk.cursor .d = ⟨some 0, some 0⟩
        ∧ CursorIn (tree2 2) ⟨some 0, some 0⟩)
      ∧ ((tree2 2).child 0 false = some (some 1) ∧ (tree2 2).nodes[1]? = some (Node.leaf 3))
      ∧ ((tree2 2).child 0 true = some (some 2) ∧ (tree2 2).nodes[2]? = some (Node.internal none none)
        ∧ 0 + 1 < (tree2 2).maxlen)
      ∧ (TreeOk TreeId.d.symbols TreeId.d.maxLen (tree2 1) ∧ CursorIn (tree2 1) ⟨some 0, some 0⟩ ∧ (tree2 1).maxlen ≤ 0 + 1)
      ∧ (CursorIn (tree2 2) ⟨some 2, some 1⟩ ∧ (tree2 2).child 2 true = some none)
      ∧ b2.blk.tree .d = none
      ∧ ((b2.withTree .d (tree2 2)).blk.cursor .d).node = none
      ∧ ((b2.withTreeCursor .d ⟨some 0, none⟩).blk.cursor .d).depth = none :=
  ⟨⟨rfl, tree2_ok (by decide), rfl, tree2_root 2⟩, ⟨rfl, rfl⟩, ⟨rfl, rfl, by decide⟩,
    ⟨tree2_ok (by decide), tree2_root 1, by decide⟩, ⟨tree2_below, rfl⟩, rfl, rfl, rfl⟩

/-- A session whose literal/length tree is that of `ls`. -/
def coded (ls : List Nat) (bs : List Byte) : State :=
  session bs .decodeSymbols { BlockState.fresh with bfinal := some 1, lltree := some (treeOf ls 15) }

theorem witness_DecodeSymFollowsTheStreamBits :
    (coded [2, 1, 3, 3] [0x03]).blk.tree .ll = some (treeOf [2, 1, 3, 3] 15) ∧ SrcOk (coded [2, 1, 3, 3] [0x03])
      ∧ CursorOk (coded [2, 1, 3, 3] [0x03]) ∧ 1 ≤ 3 ∧ 3 ≤ (treeOf [2, 1, 3, 3] 15).maxlen
      ∧ (coded [2, 1, 3, 3] [0x03]).bitpos + 3 ≤ 8 * (coded [2, 1, 3, 3] [0x03]).srclen
      ∧ (treeOf [2, 1, 3, 3] 15).walk 0 (streamBits (coded [2, 1, 3, 3] [0x03]) (coded [2, 1, 3, 3] [0x03]).bitpos 3) =
        some (Node.leaf 2) :=
  ⟨rfl, session_src _ _ _, session_cursor _ _ _, by decide, by decide, by decide, by decide⟩

theorem witness_DecodeSymReturnsTheCodedSymbol :
    buildOk .ll [2, 1, 3, 3] 15 = true ∧ Tree.build [2, 1, 3, 3] 15 = .ok (treeOf [2, 1, 3, 3] 15)
      ∧ canon [2, 1, 3, 3] 15 = .ok codes2133 ∧ codes2133[2]? = some (some ⟨0b110, 3⟩)
      ∧ (coded [2, 1, 3, 3] [0x03]).blk.tree .ll = some (treeOf [2, 1, 3, 3] 15)
      ∧ SrcOk (coded [2, 1, 3, 3] [0x03])
      ∧ CursorOk (coded [2, 1, 3, 3] [0x03])
      ∧ (coded [2, 1, 3, 3] [0x03]).bitpos + 3 ≤ 8 * (coded [2, 1, 3, 3] [0x03]).srclen
      ∧ streamBits (coded [2, 1, 3, 3] [0x03]) (coded [2, 1, 3, 3] [0x03]).bitpos 3 = Code.bits (Code.mk 0b110 3) :=
  ⟨by decide, by rfl, by rfl, rfl, rfl, session_src _ _ _, session_cursor _ _ _, by decide, by decide⟩

/-- The codes of V23. -/
def codes222 : List (Option Code) := [some ⟨0b00, 2⟩, some ⟨0b01, 2⟩, some ⟨0b10, 2⟩]

/-- V23b: the path `11` of the table `[2, 2, 2]` diverges at its second bit. -/
theorem witness_DecodeSymFailsAtTheDivergingBit :
    buildOk .ll [2, 2, 2] 15 = true ∧ Tree.build [2, 2, 2] 15 = .ok (treeOf [2, 2, 2] 15)
      ∧ canon [2, 2, 2] 15 = .ok codes222 ∧ (coded [2, 2, 2] [0x03]).blk.tree .ll = some (treeOf [2, 2, 2] 15)
      ∧ SrcOk (coded [2, 2, 2] [0x03])
      ∧ CursorOk (coded [2, 2, 2] [0x03]) ∧ 1 ≤ 2
      ∧ (coded [2, 2, 2] [0x03]).bitpos + 2 ≤ 8 * (coded [2, 2, 2] [0x03]).srclen
      ∧ (∀ c, some c ∈ codes222 → ¬ c.bits <+: streamBits (coded [2, 2, 2] [0x03]) (coded [2, 2, 2] [0x03]).bitpos 2
        ∧ ¬ streamBits (coded [2, 2, 2] [0x03]) (coded [2, 2, 2] [0x03]).bitpos 2 <+: c.bits)
      ∧ ∃ c, some c ∈ codes222
        ∧ streamBits (coded [2, 2, 2] [0x03]) (coded [2, 2, 2] [0x03]).bitpos (2 - 1) <+: c.bits := by
  refine ⟨by decide, by rfl, by rfl, rfl, session_src _ _ _, session_cursor _ _ _, by decide, by decide, ?_,
    ⟨0b10, 2⟩, by decide, by decide⟩
  intro c hc
  simp only [codes222, List.mem_cons, Option.some.injEq, List.not_mem_nil, or_false] at hc
  rcases hc with rfl | rfl | rfl <;> decide

/-- One bit, a 1, is left of the source: a proper prefix of the code `10`. -/
def oneBitLeft : State := { coded [2, 2, 2] [0x80] with bytepos := 1, bitcnt := 1, acc := 1 }

theorem witness_DecodeSymStopsAtTheSourceEnd :
    buildOk .ll [2, 2, 2] 15 = true ∧ Tree.build [2, 2, 2] 15 = .ok (treeOf [2, 2, 2] 15)
      ∧ canon [2, 2, 2] 15 = .ok codes222 ∧ oneBitLeft.blk.tree .ll = some (treeOf [2, 2, 2] 15)
      ∧ SrcOk oneBitLeft ∧ CursorOk oneBitLeft
      ∧ oneBitLeft.bitpos + 1 = 8 * oneBitLeft.srclen
      ∧ (∀ c, some c ∈ codes222 → ¬ c.bits <+: streamBits oneBitLeft oneBitLeft.bitpos 1)
      ∧ ∃ c, some c ∈ codes222 ∧ streamBits oneBitLeft oneBitLeft.bitpos 1 <+: c.bits := by
  refine ⟨by decide, by rfl, by rfl, rfl, rfl, ⟨by decide, by decide, by decide, by decide, by decide⟩, by decide,
    ?_, ⟨0b10, 2⟩, by decide, by decide⟩
  intro c hc
  simp only [codes222, List.mem_cons, Option.some.injEq, List.not_mem_nil, or_false] at hc
  rcases hc with rfl | rfl | rfl <;> decide

theorem witness_BlockHeaderStepReadsThreeBits :
    (RunningIn (session [0x05] .readHeader BlockState.fresh) .readHeader ∧ SrcOk (session [0x05] .readHeader BlockState.fresh)
        ∧ CursorOk (session [0x05] .readHeader BlockState.fresh)
        ∧ (session [0x05] .readHeader BlockState.fresh).bitpos + 3 ≤ 8 * (session [0x05] .readHeader BlockState.fresh).srclen
        ∧ streamValue (session [0x05] .readHeader BlockState.fresh) (0 + 1) 2 = 2)
      ∧ streamValue (session [0x03] .readHeader BlockState.fresh) (0 + 1) 2 ≠ 2
      ∧ 8 * (session [] .readHeader BlockState.fresh).srclen < (session [] .readHeader BlockState.fresh).bitpos + 3 :=
  ⟨⟨session_running _ _ _, session_src _ _ _, session_cursor _ _ _, by decide, by decide⟩, by decide, by decide⟩

theorem witness_DynamicHeaderForms :
    ((29 : BitVec 5).toNat + 257 ≤ 286 ∧ (29 : BitVec 5).toNat + 1 ≤ 30) ∧ 286 < (30 : BitVec 5).toNat + 257
      ∧ 30 < (30 : BitVec 5).toNat + 1 := by decide

/-- A session at its dynamic header, the header's 14 bits next. -/
def atDynHeader (bs : List Byte) : State := session bs .readDynamicTables { BlockState.fresh with bfinal := some 1 }

theorem witness_DynamicHeaderStepReadsFourteenBits :
    (RunningIn (atDynHeader [0xBD, 0x03]) .readDynamicTables ∧ (atDynHeader [0xBD, 0x03]).blk.clPoint = .dynHeader
        ∧ SrcOk (atDynHeader [0xBD, 0x03]) ∧ CursorOk (atDynHeader [0xBD, 0x03])
        ∧ (atDynHeader [0xBD, 0x03]).bitpos + 14 ≤ 8 * (atDynHeader [0xBD, 0x03]).srclen)
      ∧ (streamValue (atDynHeader [0xBD, 0x03]) 0 5 + 257 ≤ 286 ∧ streamValue (atDynHeader [0xBD, 0x03]) (0 + 5) 5 + 1 ≤ 30)
      ∧ 286 < streamValue (atDynHeader [0x1E, 0]) 0 5 + 257 ∧ 30 < streamValue (atDynHeader [0xC0, 0x03]) (0 + 5) 5 + 1
      ∧ 8 * (atDynHeader [0x1E]).srclen < (atDynHeader [0x1E]).bitpos + 14 :=
  ⟨⟨session_running _ _ _, rfl, session_src _ _ _, session_cursor _ _ _, by decide⟩, by decide, by decide, by decide,
    by decide⟩

/-- `b2` with both counts. -/
def counts (a b : Nat) : State := b2.withBlk { BlockState.fresh with nlit := some a, ndist := some b }

theorem witness_RangeCheckRejectsLongTables :
    ((counts 286 30).blk.nlit = some 286 ∧ (counts 286 30).blk.ndist = some 30 ∧ 286 ≤ 286 ∧ 30 ≤ 30)
      ∧ ((counts 287 1).blk.nlit = some 287 ∧ (counts 287 1).blk.ndist = some 1 ∧ 286 < 287)
      ∧ ((counts 257 31).blk.nlit = some 257 ∧ (counts 257 31).blk.ndist = some 31 ∧ 30 < 31) := by decide

theorem holds_padded (n : Nat) (l : List (BitVec 4)) (h : l.length ≤ n) :
    HoldsTable (Cells.ofList 0 (padded n l)) n (padded n l) := by
  have hl : (padded n l).length = n := by simp [padded, h]
  exact ⟨hl, fun i _ => by rw [Cells.read_ofList]; simp⟩

set_option maxRecDepth 8000 in
/-- Two tables that build, then a literal/length table and a distance table that do not. -/
theorem witness_TablesBuildsBothTrees :
    (HoldsTable (tablesOf [1, 1] [1]).blk.lllen 286 (padded 286 [1, 1])
        ∧ HoldsTable (tablesOf [1, 1] [1]).blk.dlen 30 (padded 30 [1])
        ∧ (∃ T, Tree.build ((padded 286 [1, 1]).map BitVec.toNat) 15 = .ok T)
        ∧ ∃ U, Tree.build ((padded 30 [1]).map BitVec.toNat) 15 = .ok U)
      ∧ (HoldsTable (tablesOf [1, 1, 1] [1]).blk.lllen 286 (padded 286 [1, 1, 1])
        ∧ Tree.build ((padded 286 [1, 1, 1]).map BitVec.toNat) 15 = .error .malformed)
      ∧ (HoldsTable (tablesOf [1, 1] [1, 1, 1]).blk.dlen 30 (padded 30 [1, 1, 1])
        ∧ Tree.build ((padded 30 [1, 1, 1]).map BitVec.toNat) 15 = .error .malformed) :=
  ⟨⟨holds_padded 286 [1, 1] (by decide), holds_padded 30 [1] (by decide), ⟨_, rfl⟩, ⟨_, rfl⟩⟩,
    ⟨holds_padded 286 [1, 1, 1] (by decide), rfl⟩, holds_padded 30 [1, 1, 1] (by decide), rfl⟩

/-- The last of the 19 CL code lengths is due. -/
def lastClLen : State := b2.withBlk { BlockState.fresh with cllen := some (List.replicate 19 0), clIdx := 18 }

theorem witness_ClLenWritesInPermutationOrder :
    lastClLen.blk.cllen = some (List.replicate 19 0) ∧ b2.blk.cllen = none ∧ (List.replicate 19 (0 : BitVec 3)).length = 19
      ∧ lastClLen.blk.clIdx = 18 ∧ clOrderRow[18]? = some 15 :=
  ⟨rfl, rfl, rfl, rfl, rfl⟩

theorem witness_ClLitAppendsItsLength :
    (seqAt [] 315 7).blk.seqcnt = some 315 ∧ 315 < 316 ∧ (Instr.clLit15, 15) ∈ clLitRows := by decide

/-- No entry yet; a run that ends at 258; one that passes it; no bits left. -/
theorem witness_ClRep16RepeatsThePreviousLength :
    ((seqAt [0x03] 252 7).blk.seqcnt = some 252 ∧ (seqAt [0x03] 252 7).blk.nlit = some 257
        ∧ (seqAt [0x03] 252 7).blk.ndist = some 1 ∧ 257 + 1 ≤ 316 ∧ SrcOk (seqAt [0x03] 252 7)
        ∧ CursorOk (seqAt [0x03] 252 7))
      ∧ (seqAt [0x03] 0 0).blk.seqcnt = some 0
      ∧ (252 ≠ 0 ∧ Cells.read (seqAt [0x03] 252 7).blk.lenseq (252 - 1) = some 7
        ∧ (seqAt [0x03] 252 7).bitpos + 2 ≤ 8 * (seqAt [0x03] 252 7).srclen
        ∧ 252 + (3 + streamValue (seqAt [0x03] 252 7) 0 2) ≤ 257 + 1)
      ∧ 257 + 1 < 253 + (3 + streamValue (seqAt [0x03] 253 7) 0 2)
      ∧ 8 * (seqAt [] 252 7).srclen < (seqAt [] 252 7).bitpos + 2 :=
  ⟨⟨rfl, rfl, rfl, by decide, session_src _ _ _, session_cursor _ _ _⟩, rfl, by decide, by decide, by decide⟩

theorem witness_ClZeroRunsWriteZeros :
    ((seqAt [0x7F] 120 7).blk.seqcnt = some 120 ∧ (seqAt [0x7F] 120 7).blk.nlit = some 257
        ∧ (seqAt [0x7F] 120 7).blk.ndist = some 1 ∧ 257 + 1 ≤ 316 ∧ SrcOk (seqAt [0x7F] 120 7)
        ∧ CursorOk (seqAt [0x7F] 120 7))
      ∧ (Instr.clZero18, 7, 11) ∈ [(Instr.clZero17, 3, 3), (Instr.clZero18, 7, 11)]
      ∧ ((seqAt [0x7F] 120 7).bitpos + 7 ≤ 8 * (seqAt [0x7F] 120 7).srclen
        ∧ 120 + (11 + streamValue (seqAt [0x7F] 120 7) 0 7) ≤ 257 + 1)
      ∧ 257 + 1 < 121 + (11 + streamValue (seqAt [0x7F] 121 7) 0 7)
      ∧ 8 * (seqAt [] 120 7).srclen < (seqAt [] 120 7).bitpos + 7 :=
  ⟨⟨rfl, rfl, rfl, by decide, session_src _ _ _, session_cursor _ _ _⟩, by decide, by decide, by decide, by decide⟩

/-- The registers of `OVERRUN_CHECK`. -/
def overrunAt (k r : Nat) : State :=
  b2.withBlk { BlockState.fresh with nlit := some 257, ndist := some 1, seqcnt := some k, rep := some r }

theorem witness_OverrunCheckComparesWithTotal :
    ((overrunAt 255 3).blk.seqcnt = some 255 ∧ (overrunAt 255 3).blk.rep = some 3 ∧ (overrunAt 255 3).blk.nlit = some 257
        ∧ (overrunAt 255 3).blk.ndist = some 1 ∧ 255 + 3 ≤ 257 + 1)
      ∧ 257 + 1 < 256 + 3 := by decide

theorem completeLens_read (n j : Nat) (h : j < n) :
    Cells.read (Cells.writeRun ([] : List (Nat × BitVec 4)) 0 4 n) j = some 4 := by
  rw [Cells.read_writeRun, if_pos (by omega)]

/-- A complete sequence of `n` lengths, each 4, the last one of the distance table. -/
def completeSeq (n : Nat) : State :=
  session [] .readDynamicTables
    { BlockState.fresh with
      nlit := some 257, ndist := some 1, seqcnt := some n, lenseq := Cells.writeRun [] 0 4 n, clPoint := .clSyms }

theorem completeSeq_read (n j : Nat) (h : j < n) : Cells.read (completeSeq n).blk.lenseq j = some 4 :=
  completeLens_read n j h

theorem witness_CompleteSequenceIsSplit :
    (completeSeq 258).phase = .readDynamicTables ∧ (completeSeq 258).blk.clPoint = .clSyms
      ∧ (completeSeq 258).blk.nlit = some 257 ∧ 257 ≤ 286 ∧ (completeSeq 258).blk.ndist = some 1 ∧ 1 ≤ 30
      ∧ (completeSeq 258).blk.seqcnt = some (257 + 1)
      ∧ ∀ j, j < 257 + 1 → Cells.read (completeSeq 258).blk.lenseq j = some ((fun _ => 4 : Nat → BitVec 4) j) :=
  ⟨rfl, rfl, rfl, by decide, rfl, by decide, rfl, completeSeq_read 258⟩

theorem witness_LitAppendsItsByte :
    Room { b2 with outCapacity := some 1 } 1
      ∧ (({ b2 with outCapacity := some 0 } : State).outCapacity = some 0
        ∧ 0 ≤ ({ b2 with outCapacity := some 0 } : State).outlen) := by
  refine ⟨?_, rfl, by decide⟩
  intro c h
  cases h
  decide

theorem witness_EobEndsTheBlock :
    RunningIn (session [] .done { BlockState.fresh with bfinal := some 1 }) .done
      ∧ (session [] .done { BlockState.fresh with bfinal := some 1 }).blk.bfinal = some 1
      ∧ (session [] .done { BlockState.fresh with bfinal := some 0 }).blk.bfinal = some 0 :=
  ⟨session_running _ _ _, rfl, rfl⟩

theorem witness_LengthSymbolsGiveTheirLengths :
    SrcOk (coded [1] [0x1F]) ∧ CursorOk (coded [1] [0x1F]) ∧ (Instr.len284, 5, 227) ∈ lengthRows
      ∧ (coded [1] [0x1F]).bitpos + 5 ≤ 8 * (coded [1] [0x1F]).srclen
      ∧ 8 * (coded [1] []).srclen < (coded [1] []).bitpos + 5 :=
  ⟨session_src _ _ _, session_cursor _ _ _, by decide, by decide, by decide⟩

/-- Distance symbol 4 with extra 0 is distance 5: legal with five bytes out, not with four. -/
theorem witness_DistanceSymbolsGiveTheirDistances :
    SrcOk (withOutput (coded [1] [0]) [1, 2, 3, 4, 5]) ∧ CursorOk (withOutput (coded [1] [0]) [1, 2, 3, 4, 5])
      ∧ (Instr.dist4, 1, 5) ∈ distanceRows
      ∧ (withOutput (coded [1] [0]) [1, 2, 3, 4, 5]).bitpos + 1 ≤ 8 * (withOutput (coded [1] [0]) [1, 2, 3, 4, 5]).srclen
      ∧ 5 + streamValue (withOutput (coded [1] [0]) [1, 2, 3, 4, 5]) 0 1 ≤ (withOutput (coded [1] [0]) [1, 2, 3, 4, 5]).outlen
      ∧ (withOutput (coded [1] [0]) [1, 2, 3, 4]).outlen < 5 + streamValue (withOutput (coded [1] [0]) [1, 2, 3, 4]) 0 1
      ∧ 8 * (coded [1] []).srclen < (coded [1] []).bitpos + 1 :=
  ⟨rfl, cursorOk_of_empty (by decide) rfl rfl, by decide, by decide, by decide, by decide, by decide⟩

/-- A copy of `r` more bytes from two bytes back, in phase DecodeSymbols. -/
def copying (r : Nat) : State :=
  withOutput (session [] .decodeSymbols
    { BlockState.fresh with distance := some 2, copyrem := some r, symPoint := .copy }) [0x61, 0x62]

theorem copying_out (r : Nat) : OutOk (copying r) := rfl

theorem copying_room (r n : Nat) : Room (copying r) n := by
  intro c h
  cases h

theorem witness_CheckComparesDistanceWithOutlen :
    ((copying 4).blk.distance = some 2 ∧ 2 ≤ (copying 4).outlen)
      ∧ ((withOutput (copying 4) [0x61]).blk.distance = some 2 ∧ (withOutput (copying 4) [0x61]).outlen < 2) := by decide

theorem witness_CopyByteAppendsTheByteBehind :
    ((copying 1).blk.distance = some 2 ∧ 1 ≤ 2 ∧ 2 ≤ (copying 1).outlen ∧ OutOk (copying 1)
        ∧ (copying 1).blk.copyrem = some (0 + 1) ∧ Room (copying 1) 1)
      ∧ (copying 0).blk.copyrem = some 0
      ∧ (({ copying 1 with outCapacity := some 2 } : State).blk.copyrem = some (0 + 1)
        ∧ ({ copying 1 with outCapacity := some 2 } : State).outCapacity = some 2
        ∧ 2 ≤ ({ copying 1 with outCapacity := some 2 } : State).outlen) :=
  ⟨⟨rfl, by decide, by decide, rfl, rfl, copying_room _ _⟩, rfl, rfl, rfl, by decide⟩

theorem witness_CopyRepeatsWithPeriodDistance :
    RunningIn (copying 5) .decodeSymbols ∧ (copying 5).blk.symPoint = .copy ∧ (copying 5).blk.copyrem = some 5
      ∧ (copying 5).blk.distance = some 2 ∧ 1 ≤ 2 ∧ 2 ≤ (copying 5).outlen ∧ OutOk (copying 5) ∧ Room (copying 5) 5 :=
  ⟨⟨rfl, rfl, rfl⟩, rfl, rfl, rfl, by decide, by decide, rfl, copying_room _ _⟩

/-- The end of a copy, the codes of `[2, 1, 3, 3]` next. -/
def copied (bs : List Byte) : State :=
  session bs .decodeSymbols
    { BlockState.fresh with lltree := some (treeOf [2, 1, 3, 3] 15), copyrem := some 0, symPoint := .copy }

theorem witness_CodedLiteralIsAppended :
    RunningIn (coded [2, 1, 3, 3] [0x03]) .decodeSymbols ∧ (coded [2, 1, 3, 3] [0x03]).blk.symPoint = .symbols
      ∧ (RunningIn (copied [0x03]) .decodeSymbols ∧ (copied [0x03]).blk.symPoint = .copy
        ∧ (copied [0x03]).blk.copyrem = some 0)
      ∧ buildOk .ll [2, 1, 3, 3] 15 = true ∧ Tree.build [2, 1, 3, 3] 15 = .ok (treeOf [2, 1, 3, 3] 15)
      ∧ canon [2, 1, 3, 3] 15 = .ok codes2133 ∧ codes2133[2]? = some (some ⟨0b110, 3⟩) ∧ 2 < 256
      ∧ (coded [2, 1, 3, 3] [0x03]).blk.lltree = some (treeOf [2, 1, 3, 3] 15)
      ∧ SrcOk (coded [2, 1, 3, 3] [0x03])
      ∧ CursorOk (coded [2, 1, 3, 3] [0x03])
      ∧ (coded [2, 1, 3, 3] [0x03]).bitpos + 3 ≤ 8 * (coded [2, 1, 3, 3] [0x03]).srclen
      ∧ streamBits (coded [2, 1, 3, 3] [0x03]) (coded [2, 1, 3, 3] [0x03]).bitpos 3 = Code.bits (Code.mk 0b110 3)
      ∧ Room (coded [2, 1, 3, 3] [0x03]) 1 :=
  ⟨session_running _ _ _, rfl, ⟨session_running _ _ _, rfl, rfl⟩, by decide, by rfl, by rfl, rfl, by decide, rfl,
    session_src _ _ _, session_cursor _ _ _, by decide, by decide, session_room _ _ _ _⟩

theorem witness_StartBeginsAFreshSession :
    ({ copying 1 with hostStart := some [0xAA] } : State).hostStart = some [0xAA] := rfl

theorem witness_NoStepOutsideARunningSession :
    State.reset.hostStart = none ∧ State.reset.status = .idle ∧ ({ b2 with status := .complete } : State).status = .complete
      ∧ ({ b2 with status := .faulted } : State).status = .faulted := ⟨rfl, rfl, rfl, rfl⟩

/-- A `BTYPE` of 3: the step of E3 faults the session. -/
theorem witness_FaultEntryFreezesTheOutput :
    ((session [0x07] .readHeader BlockState.fresh).phase = .done →
        (session [0x07] .readHeader BlockState.fresh).blk.bfinal.isSome)
      ∧ ∃ t, step (session [0x07] .readHeader BlockState.fresh) = .next t ∧ t.status = .faulted := ⟨nofun, _, rfl, rfl⟩

/-- A copying step, which appends. -/
theorem witness_OutputIsAppendOnly : (copying 1).hostStart = none ∧ ∃ t, step (copying 1) = .next t := ⟨rfl, _, rfl⟩

theorem witness_PhaseAndStatusFollowTheDiagram :
    (session [] .done { BlockState.fresh with bfinal := some 0 }).hostStart = none
      ∧ ∃ t, step (session [] .done { BlockState.fresh with bfinal := some 0 }) = .next t := ⟨rfl, _, rfl⟩

/-- Another source that agrees on the one byte that the step fetches. -/
theorem witness_UnfetchedSourceBytesHaveNoEffect :
    (session [0x05, 0x01] .readHeader BlockState.fresh).hostStart = none
      ∧ ∃ t, step (session [0x05, 0x01] .readHeader BlockState.fresh) = .next t
        ∧ ∀ a, (session [0x05, 0x01] .readHeader BlockState.fresh).bytepos ≤ a → a < t.bytepos →
          Cells.read [(0, (0x05 : Byte)), (1, 0xFF)] a
            = Cells.read (session [0x05, 0x01] .readHeader BlockState.fresh).src a := by
  refine ⟨rfl, _, rfl, ?_⟩
  intro a _ ha
  have ha1 : a < 1 := ha
  obtain rfl : a = 0 := by omega
  rfl

theorem session_cursorInv (bs : List Byte) (p : Phase) (b : BlockState) : CursorInv (session bs p b) where
  src := session_src bs p b
  cursor := session_cursor bs p b
  few := by
    intro _
    exact Nat.zero_le 7

theorem witness_StreamPositionNeverGoesBack :
    (session [0x05] .readHeader BlockState.fresh).hostStart = none ∧ CursorInv (session [0x05] .readHeader BlockState.fresh)
      ∧ ∃ t, step (session [0x05] .readHeader BlockState.fresh) = .next t := ⟨rfl, session_cursorInv _ _ _, _, rfl⟩

/-- RANGE_CHECK, which every clause of the frame covers. -/
theorem witness_InstructionsWriteOnlyTheirRegisters :
    (∃ t, exec .rangeCheck (counts 286 30) = .next t) ∧ (∀ src, Instr.rangeCheck ≠ .start src)
      ∧ ((∀ b, Instr.rangeCheck ≠ .lit b) ∧ Instr.rangeCheck ≠ .copyByte ∧ (∀ f, Instr.rangeCheck ≠ .blkDynamic f)
        ∧ Instr.rangeCheck ≠ .eob ∧ Instr.rangeCheck ≠ .tables ∧ (∀ n, Instr.rangeCheck ≠ .clLen n))
      ∧ ¬ ReadsStream .rangeCheck ∧ ¬ ReturnsValue .rangeCheck
      ∧ (¬ HasFormat .rangeCheck .bh ∧ ¬ HasFormat .rangeCheck .dh ∧ ¬ HasFormat .rangeCheck .cls)
      ∧ Instr.rangeCheck ∉ [Instr.clRep16, .clZero17, .clZero18]
      ∧ ((∀ p ∈ lengthRows, Instr.rangeCheck ≠ p.1) ∧ ∀ p ∈ distanceRows, Instr.rangeCheck ≠ p.1)
      ∧ ∀ T, ¬ WritesTree .rangeCheck T ∧ ¬ WritesCursor .rangeCheck T := by
  have hl : ∀ p ∈ lengthRows, Instr.rangeCheck ≠ p.1 := by decide
  have hd : ∀ p ∈ distanceRows, Instr.rangeCheck ≠ p.1 := by decide
  refine ⟨⟨_, rfl⟩, nofun, ⟨nofun, nofun, nofun, nofun, nofun, nofun⟩, ?_, by simp [ReturnsValue], ⟨nofun, nofun, nofun⟩,
    by decide, ⟨hl, hd⟩, by simp [WritesTree, WritesCursor, MakesTree]⟩
  rintro (⟨n, h | h⟩ | h | ⟨t, h⟩ | h | ⟨p, hp, h⟩ | ⟨p, hp, h⟩)
  · cases h
  · cases h
  · cases h
  · cases h
  · simp at h
  · exact hl p hp h
  · exact hd p hp h

/-- A literal, its `OutAppend` waiting on the full `OUT`. -/
def waiting : State :=
  { session [] .decodeSymbols { BlockState.fresh with sym := some 0, symPoint := .append } with outCapacity := some 0 }

/-- A block that goes on, a block that faults, an append that waits on a full `OUT` and is stuck there, and a fetch that finds
no byte. -/
theorem witness_StepRunsTheFetchedInstruction :
    (RunningIn (session [0x05] .readHeader BlockState.fresh) .readHeader ∧ Phase.readHeader ≠ .done
        ∧ (∀ b, Instr.blkDynamic 1 ≠ .lit b)
        ∧ ∃ s1 t, fetch (session [0x05] .readHeader BlockState.fresh) = .ok (.blkDynamic 1) s1
          ∧ exec (.blkDynamic 1) s1 = .next t ∧ t.status = .running ∧ (follow (.blkDynamic 1)).apply t = .ok () t)
      ∧ (∃ s1 t, fetch (session [0x03] .readHeader BlockState.fresh) = .ok (.blkFixed 1) s1
          ∧ exec (.blkFixed 1) s1 = .next t ∧ t.status ≠ .running)
      ∧ (RunningIn waiting .decodeSymbols ∧ waiting.blk.symPoint = .append
        ∧ ∃ s1, fetch waiting = .ok (.lit 0) s1 ∧ exec (.lit 0) s1 = .fault .outFull)
      ∧ (∃ s1, fetch { coded [1] [0] with outCapacity := some 1 } = .ok (.lit 0) s1 ∧ s1.outIsFull = false)
      ∧ (∃ s1, fetch { coded [1] [0] with outCapacity := some 0 } = .ok (.lit 0) s1
          ∧ (coded [1] [0]).blk.symPoint ≠ .append ∧ s1.outIsFull = true)
      ∧ (∃ s1 t r u, fetch ((State.reset.placeWord .d 0).withBlk { (State.reset.placeWord .d 0).blk with length := none })
            = .ok .dist0 s1 ∧ exec .dist0 { s1 with outlen := 1 } = .next t ∧ t.status = .running
          ∧ (follow .dist0).apply t = .unwritten r u)
      ∧ (∃ s1, fetch (session [] .readHeader BlockState.fresh) = .raised .streamExhausted s1)
      ∧ ∃ r s1, fetch (session [] .readDynamicTables { BlockState.fresh with clPoint := .clLens }) = .unwritten r s1 :=
  ⟨⟨session_running _ _ _, nofun, nofun, _, _, rfl, rfl, rfl, rfl⟩, ⟨_, _, rfl, rfl, nofun⟩,
    ⟨⟨rfl, rfl, rfl⟩, rfl, _, rfl, rfl⟩, ⟨_, rfl, rfl⟩, ⟨_, rfl, nofun, rfl⟩,
    ⟨_, _, _, _, rfl, rfl, rfl, rfl⟩, ⟨_, rfl⟩, _, _, rfl⟩

theorem witness_FollowUpOfEachInstruction :
    encode (.dynHeader 0 0 0) = some (.dh, 0) ∧ (Instr.len285, 0, 258) ∈ lengthRows ∧ (Instr.dist0, 0, 1) ∈ distanceRows
      ∧ encode .clZero18 = some (.cls, 18) ∧ (coded [1] []).blk.length = none
      ∧ (State.reset.placeWord .d 0).blk.length = some 3 := by decide

/-- The code-length loop at its field `i` of `HCLEN + 4` = 4. -/
def clLensAt (i : Nat) : State :=
  session [0x05] .readDynamicTables
    { BlockState.fresh with hclen := some 0, cllen := some (List.replicate 19 0), clIdx := i, clPoint := .clLens }

theorem witness_FetchDecodesTheNextSymbol :
    ((coded [1] [0]).phase = .decodeSymbols ∧ (coded [1] [0]).blk.symPoint = .symbols
        ∧ (∃ s1, decodeSym .ll (coded [1] [0]) = .ok 0 s1) ∧ decode .ll 0 = .ok (.lit 0))
      ∧ ((copied [0]).phase = .decodeSymbols ∧ (copied [0]).blk.symPoint = .copy ∧ (copied [0]).blk.copyrem = some 0
        ∧ (∃ s1, decodeSym .ll ((copied [0]).withBlk { (copied [0]).blk with symPoint := .symbols }) = .ok 1 s1)
        ∧ decode .ll 1 = .ok (.lit 1))
      ∧ ((copying 1).phase = .decodeSymbols ∧ (copying 1).blk.symPoint = .copy ∧ (copying 1).blk.copyrem = some (0 + 1))
      ∧ (waiting.phase = .decodeSymbols ∧ waiting.blk.symPoint = .append ∧ waiting.blk.sym = some 0
        ∧ decode .ll 0 = .ok (.lit 0))
      ∧ ((State.reset.placeWord .d 29).phase = .decodeSymbols ∧ (State.reset.placeWord .d 29).blk.symPoint = .dist
        ∧ (∃ s1, decodeSym .d (State.reset.placeWord .d 29) = .ok 29 s1) ∧ decode .d 29 = .ok .dist29)
      ∧ ((State.reset.placeWord .cls 18).phase = .readDynamicTables ∧ (State.reset.placeWord .cls 18).blk.clPoint = .clSyms
        ∧ (State.reset.placeWord .cls 18).blk.seqcnt = some 1 ∧ (State.reset.placeWord .cls 18).blk.nlit = some 257
        ∧ (State.reset.placeWord .cls 18).blk.ndist = some 1 ∧ 1 < 257 + 1
        ∧ (∃ s1, decodeSym .cl (State.reset.placeWord .cls 18) = .ok 18 s1) ∧ decode .cls 18 = .ok .clZero18)
      ∧ ((clLensAt 3).phase = .readDynamicTables ∧ (clLensAt 3).blk.clPoint = .clLens ∧ (clLensAt 3).blk.hclen = some 0
        ∧ (clLensAt 3).blk.clIdx < (0 : BitVec 4).toNat + 4 ∧ SrcOk (clLensAt 3) ∧ CursorOk (clLensAt 3)
        ∧ (clLensAt 3).bitpos + 3 ≤ 8 * (clLensAt 3).srclen)
      ∧ ((0 : BitVec 4).toNat + 4 ≤ (clLensAt 4).blk.clIdx ∧ (clLensAt 4).blk.cllen = some (List.replicate 19 0)) :=
  ⟨⟨rfl, rfl, ⟨_, rfl⟩, rfl⟩, ⟨rfl, rfl, rfl, ⟨_, rfl⟩, rfl⟩, ⟨rfl, rfl, rfl⟩, ⟨rfl, rfl, rfl, rfl⟩,
    ⟨rfl, rfl, ⟨_, rfl⟩, rfl⟩, ⟨rfl, rfl, rfl, rfl, rfl, by decide, ⟨_, rfl⟩, rfl⟩,
    ⟨rfl, rfl, rfl, by decide, rfl, session_cursor _ _ _, by decide⟩, by decide, rfl⟩

theorem ranges_fresh : RangesOk BlockState.fresh where
  nlit := nofun
  ndist := nofun
  cllen := nofun
  seqcnt := nofun
  lllen := .inl rfl
  dlen := .inl rfl
  cltree := nofun
  lltree := nofun
  dtree := nofun
  cursor := by intro t T h; cases t <;> cases h
  sym := nofun
  clsym := nofun
  rep := nofun
  length := nofun
  dsym := nofun
  distance := nofun
  copyrem := nofun

theorem sessionInv_atHeader (bs : List Byte) : SessionInv (session bs .readHeader BlockState.fresh) where
  mem := ⟨session_src _ _ _, rfl, List.Pairwise.nil⟩
  cursor := session_cursorInv _ _ _
  status := ⟨⟨nofun, fun h => absurd rfl h⟩, nofun⟩
  block := ⟨ranges_fresh, by intro _; trivial⟩

theorem witness_StepKeepsTheInvariants :
    MemInv (session [0x05] .readHeader BlockState.fresh) ∧ CursorInv (session [0x05] .readHeader BlockState.fresh)
      ∧ StatusInv (session [0x05] .readHeader BlockState.fresh) ∧ BlockInv (session [0x05] .readHeader BlockState.fresh)
      ∧ ∃ t, step (session [0x05] .readHeader BlockState.fresh) = .next t :=
  ⟨(sessionInv_atHeader _).mem, (sessionInv_atHeader _).cursor, (sessionInv_atHeader _).status,
    (sessionInv_atHeader _).block, _, rfl⟩

/-- A running session, and one whose step stops: `OUT` is full. -/
theorem witness_NoSessionReadsAnUnwrittenRegister :
    SessionInv (session [0x05] .readHeader BlockState.fresh) ∧ (∃ t, step (session [0x05] .readHeader BlockState.fresh) = .next t)
      ∧ step waiting = .fault .outFull :=
  ⟨sessionInv_atHeader _, ⟨_, rfl⟩, rfl⟩

theorem witness_EverySessionEnds :
    SessionInv (session [0x05] .readHeader BlockState.fresh) ∧ (session [0x05] .readHeader BlockState.fresh).hostStart = none
      ∧ (session [0x05] .readHeader BlockState.fresh).status = .running :=
  ⟨sessionInv_atHeader _, rfl, rfl⟩

end Sys2Proof.Tests
end

section
/-! SUPPORT. What a fetch can issue, and what the operations, the instructions and a step do to `OUT`. -/

namespace Sys2Proof

/-- The instruction of a symbol is one of the format's instructions. -/
theorem symbolInstr_mem {f : Format} {w k : Nat} {l : List Instr} {i : Instr} (h : symbolInstr f w l[k]? = .ok i) :
    i ∈ l := by
  cases hk : l[k]? with
  | none => simp [hk, symbolInstr] at h
  | some j =>
    obtain rfl : j = i := by simpa [hk, symbolInstr] using h
    exact List.mem_of_getElem? hk

theorem clsInstrs_format : ∀ i ∈ clsInstrs, (encode i).map Prod.fst = some .cls := by decide
theorem llInstrs_format : ∀ i ∈ llInstrs, (encode i).map Prod.fst = some .ll := by decide
theorem dInstrs_format : ∀ i ∈ dInstrs, (encode i).map Prod.fst = some .d := by decide

/-- A decoded instruction has a word of the format it was decoded in (30_encoding.md rule R67). -/
theorem encode_format_of_decode {f : Format} {w : Nat} {i : Instr} (h : decode f w = .ok i) :
    (encode i).map Prod.fst = some f := by
  unfold decode at h
  split at h
  · cases h
  · split at h
    · obtain rfl := Except.ok.inj h
      simp only [decodeBh]
      split <;> rfl
    · obtain rfl := Except.ok.inj h
      simp only [decodeDh]
      split_ifs <;> rfl
    · obtain rfl := Except.ok.inj h
      rfl
    · exact clsInstrs_format i (symbolInstr_mem h)
    · split at h
      · obtain rfl := Except.ok.inj h
        rfl
      · exact llInstrs_format i (symbolInstr_mem h)
    · exact dInstrs_format i (symbolInstr_mem h)

end Sys2Proof

namespace Sys2Proof.Machine

/-! ### The instructions that a fetch can issue -/

/-- What the sequencer issues: the instruction of a word, or one of the three component operations that the block's
pseudocode calls (rules R101, R124, R131). -/
inductive Issued : Instr → Prop where
  | word {i : Instr} (f : Format) (h : (encode i).map Prod.fst = some f) : Issued i
  | build (lengths : List Nat) : Issued (.build .cl lengths Config.clMaxLen)
  | tables : Issued .tables
  | copyByte : Issued .copyByte

/-- The host's command is never fetched from the stream. -/
theorem Issued.ne_start {i : Instr} (h : Issued i) (src : List Byte) : i ≠ .start src := by
  rintro rfl
  cases h with
  | word f h => cases h

/-- Every instruction that `r` completes with is one that the sequencer issues. -/
def Issues (r : Res Instr) : Prop :=
  ∀ i s, r = .ok i s → Issued i

theorem Issues.ofOk {i : Instr} (s : State) (h : Issued i) : Issues (.ok i s) := by
  rintro j t he
  obtain ⟨rfl, -⟩ := Res.ok.inj he
  exact h

theorem Issues.bind {α : Type} (r : Res α) {k : α → State → Res Instr} (hk : ∀ a s, Issues (k a s)) :
    Issues (r.bind k) := by
  intro i t h
  obtain ⟨a, s, -, h2⟩ := Res.bind_eq_ok.1 h
  exact hk a s i t h2

theorem issues_decodeRes (f : Format) (w : Nat) (s : State) : Issues (decodeRes f w s) := by
  simp only [decodeRes]
  split
  · rename_i i hi
    exact .ofOk s (.word f (encode_format_of_decode hi))
  · intro i t h
    cases h

theorem issues_fetchBlockHeader (s : State) : Issues (fetchBlockHeader s) :=
  .bind _ fun _ _ => .bind _ fun _ _ => issues_decodeRes _ _ _

theorem issues_fetchDynHeader (s : State) : Issues (fetchDynHeader s) :=
  .bind _ fun _ _ => .bind _ fun _ _ => .bind _ fun _ _ => issues_decodeRes _ _ _

theorem issues_fetchClLen (s : State) : Issues (fetchClLen s) :=
  .bind _ fun _ s1 => by
    split
    · exact .bind _ fun _ _ => issues_decodeRes _ _ _
    · exact .ofOk s1 (.build _)

theorem issues_fetchClSym (s : State) : Issues (fetchClSym s) :=
  .bind _ fun _ _ => .bind _ fun _ _ => by
    split
    · exact .bind _ fun _ _ => issues_decodeRes _ _ _
    · exact .bind _ fun _ s3 => .ofOk s3 .tables

theorem issues_fetchSymbol (s : State) : Issues (fetchSymbol s) :=
  .bind _ fun _ _ => issues_decodeRes _ _ _

theorem issues_fetchCopy (s : State) : Issues (fetchCopy s) :=
  .bind _ fun _ s1 => by
    split
    · exact issues_fetchSymbol s1
    · exact .ofOk s1 .copyByte

/-- A fetch issues the instruction of a word, `BUILD` of the CL tree, `TABLES` or `COPYBYTE`. -/
theorem issues_fetch (s : State) : Issues (fetch s) := by
  simp only [fetch]
  split
  · exact issues_fetchBlockHeader s
  · split
    · exact issues_fetchDynHeader s
    · exact issues_fetchClLen s
    · exact issues_fetchClSym s
  · split
    · exact issues_fetchSymbol s
    · exact .bind _ fun _ _ => issues_decodeRes _ _ _
    · exact issues_fetchCopy s
    · exact .bind _ fun _ _ => issues_decodeRes _ _ _
  · exact issues_fetchBlockHeader s

/-! ### What a state transition does to `OUT` -/

/-- `OUT` and `OUTLEN` of `t` are those of `s`. -/
structure SameOut (s t : State) : Prop where
  out : t.out = s.out
  outlen : t.outlen = s.outlen

theorem SameOut.refl (s : State) : SameOut s s := ⟨rfl, rfl⟩

theorem SameOut.trans {s s1 t : State} (h : SameOut s s1) (h2 : SameOut s1 t) : SameOut s t :=
  ⟨h2.out.trans h.out, h2.outlen.trans h.outlen⟩

theorem SameOut.append {s s1 : State} (h : SameOut s s1) (b : Byte) : SameOut (s.append b) (s1.append b) :=
  ⟨by simp [h.out, h.outlen], by simp [h.outlen]⟩

theorem Fetched.sameOut {s s1 : State} (h : Fetched s s1) : SameOut s s1 := by
  obtain ⟨p, a, c, b, rfl⟩ := h
  exact ⟨rfl, rfl⟩

theorem sameOut_withBlk (s : State) (b : BlockState) : SameOut s (s.withBlk b) := ⟨rfl, rfl⟩
theorem sameOut_withResult (s : State) (r : OpResult) : SameOut s (s.withResult r) := ⟨rfl, rfl⟩
theorem sameOut_raise (s : State) (e : ErrCode) : SameOut s (s.raise e) := ⟨rfl, rfl⟩
theorem sameOut_raiseUnwritten (s : State) : SameOut s s.raiseUnwritten := ⟨rfl, rfl⟩

theorem sameOut_endBlock (s : State) (f : BitVec 1) : SameOut s (s.endBlock f) := by
  simp only [State.endBlock]
  split <;> exact ⟨rfl, rfl⟩

/-- `OUT` is as it was, or one byte has been appended to it (20_memory.md rule R45). -/
def OutStep (s t : State) : Prop :=
  SameOut s t ∨ ∃ b, SameOut (s.append b) t

theorem OutStep.before {s s1 t : State} (h : SameOut s s1) (h2 : OutStep s1 t) : OutStep s t :=
  h2.imp h.trans fun ⟨b, hb⟩ => ⟨b, (h.append b).trans hb⟩

theorem OutStep.after {s s1 t : State} (h : OutStep s s1) (h2 : SameOut s1 t) : OutStep s t :=
  h.imp (·.trans h2) fun ⟨b, hb⟩ => ⟨b, hb.trans h2⟩

/-- What `OutStep` says byte by byte. -/
theorem OutStep.read {s t : State} (h : OutStep s t) :
    (t.outlen = s.outlen ∧ ∀ a, Cells.read t.out a = Cells.read s.out a)
    ∨ (t.outlen = s.outlen + 1 ∧ (Cells.read t.out s.outlen).isSome
      ∧ ∀ a, a ≠ s.outlen → Cells.read t.out a = Cells.read s.out a) := by
  rcases h with h | ⟨b, h⟩
  · exact .inl ⟨h.outlen, fun a => by rw [h.out]⟩
  · refine .inr ⟨h.outlen, ?_, fun a ha => ?_⟩
    · rw [h.out, State.append_out, Cells.read_write_same]
      rfl
    · rw [h.out, State.append_out, Cells.read_write_ne _ _ ha]

/-! ### What an operation does to `OUT` -/

/-- Every state that `r` leaves, completed or at an error, meets `P`. -/
def Res.Leaves {α : Type} (P : State → Prop) : Res α → Prop
  | .ok _ s => P s
  | .raised _ s => P s
  | .unwritten _ s => P s
  | .stop _ => True
  | .refused _ => True

theorem Res.Leaves.imp {α : Type} {P Q : State → Prop} {r : Res α} (h : r.Leaves P) (hpq : ∀ s, P s → Q s) :
    r.Leaves Q := by
  cases r with
  | ok a s => exact hpq s h
  | raised e s => exact hpq s h
  | unwritten x s => exact hpq s h
  | stop f => trivial
  | refused x => trivial

/-- One operation after another: `P` after the first, `Q` after both or where the first took an error. -/
theorem Res.Leaves.bind {α β : Type} {P Q : State → Prop} {r : Res α} {k : α → State → Res β} (hr : r.Leaves P)
    (hpq : ∀ s, P s → Q s) (hk : ∀ a s, P s → (k a s).Leaves Q) : (r.bind k).Leaves Q := by
  cases r with
  | ok a s => exact hk a s hr
  | raised e s => exact hpq s hr
  | unwritten x s => exact hpq s hr
  | stop f => trivial
  | refused x => trivial

/-- An error taken leaves `OUT` as it was at that moment (60_exceptions.md rule R151), so what is said of `OUT` alone holds of
the step's next state too. -/
theorem Res.Leaves.of_outcome {α : Type} {P : State → Prop} {t : State} {r : Res α} (hr : r.Leaves P)
    (hP : ∀ {u v}, P u → SameOut u v → P v) (h : r.outcome = .next t) : P t := by
  rcases Res.outcome_eq_next.1 h with ⟨a, rfl⟩ | ⟨e, s1, rfl, rfl⟩ | ⟨x, s1, rfl, rfl⟩
  · exact hr
  · exact hP hr (sameOut_raise s1 e)
  · exact hP hr (sameOut_raiseUnwritten s1)

/-- The operation `r`, started in `s`, leaves `OUT` alone. -/
def KeepsOut {α : Type} (s : State) (r : Res α) : Prop :=
  r.Leaves (SameOut s)

theorem KeepsOut.sameOut_of_outcome {α : Type} {s t : State} {r : Res α} (hr : KeepsOut s r)
    (h : r.outcome = .next t) : SameOut s t :=
  Res.Leaves.of_outcome hr .trans h

theorem KeepsOut.after {α : Type} {s s1 : State} {r : Res α} (h : SameOut s s1) (hr : KeepsOut s1 r) : KeepsOut s r :=
  Res.Leaves.imp hr fun _ => h.trans

theorem KeepsOut.bind {α β : Type} {s : State} {r : Res α} {k : α → State → Res β} (hr : KeepsOut s r)
    (hk : ∀ a s1, KeepsOut s1 (k a s1)) : KeepsOut s (r.bind k) :=
  Res.Leaves.bind hr (fun _ => id) fun a s1 h => KeepsOut.after h (hk a s1)

/-- An operation whose value goes to `result` (entry 8). -/
theorem KeepsOut.withResult {α : Type} {s : State} {r : Res α} (hr : KeepsOut s r) (f : α → OpResult) :
    KeepsOut s (r.bind fun v s1 => .ok () (s1.withResult (f v))) :=
  hr.bind fun _ s1 => sameOut_withResult s1 _

/-- Nothing written to `OUT`, then an operation that appends at most one byte. -/
theorem KeepsOut.bind_outStep {α β : Type} {s : State} {r : Res α} {k : α → State → Res β} (hr : KeepsOut s r)
    (hk : ∀ a s1, (k a s1).Leaves (OutStep s1)) : (r.bind k).Leaves (OutStep s) :=
  Res.Leaves.bind hr (fun _ => .inl) fun a s1 h => (hk a s1).imp fun _ => OutStep.before h

/-- What changes only the BitCursor and the BlockState leaves `OUT` alone. -/
theorem Fetches.keepsOut {α : Type} {s : State} {r : Res α} (h : Fetches s r) : KeepsOut s r := by
  cases r with
  | ok a t => exact (h.ok a t rfl).sameOut
  | raised e t => exact (h.raised e t rfl).sameOut
  | unwritten x t => exact (h.unwritten x t rfl).sameOut
  | stop f => trivial
  | refused x => trivial

theorem keepsOut_need {α : Type} (x : Reg) (o : Option α) (s : State) : KeepsOut s (need x o s) :=
  (fetches_need x o s).keepsOut

theorem keepsOut_refill (s : State) : KeepsOut s (refill s) := by
  simp only [refill]
  split
  · exact .refl s
  · split
    · trivial
    · exact ⟨rfl, rfl⟩

theorem keepsOut_fillLoop (n turns : Nat) (s : State) : KeepsOut s (fillLoop n turns s) := by
  induction turns generalizing s with
  | zero => exact .refl s
  | succ turns ih =>
    simp only [fillLoop]
    split
    · exact (keepsOut_refill s).bind fun _ s1 => ih s1
    · exact .refl s

theorem keepsOut_readBits (n : Nat) (s : State) : KeepsOut s (readBits n s) :=
  (fetches_readBits n s).keepsOut

theorem keepsOut_peekBits (n : Nat) (s : State) : KeepsOut s (peekBits n s) :=
  (keepsOut_fillLoop n n s).bind fun _ s1 => .refl s1

theorem keepsOut_basePlusExtra (base extra : Nat) (s : State) : KeepsOut s (basePlusExtra base extra s) :=
  (keepsOut_readBits extra s).bind fun _ s1 => .refl s1

theorem keepsOut_blockHeader (f : BitVec 1) (t : BitVec 2) (s : State) : KeepsOut s (blockHeader f t s) := by
  simp only [blockHeader]
  split <;> exact ⟨rfl, rfl⟩

theorem keepsOut_rangeCheck (s : State) : KeepsOut s (rangeCheck s) :=
  (keepsOut_need _ _ s).bind fun _ s1 => (keepsOut_need _ _ s1).bind fun _ s2 => by
    split <;> exact .refl s2

theorem keepsOut_treeRes {α : Type} (t : TreeId) (r : Except TreeErr α) (s : State) : KeepsOut s (treeRes t r s) := by
  simp only [treeRes]
  split <;> exact .refl s

theorem keepsOut_buildTree (t : TreeId) (lengths : List Nat) (maxLen : Nat) (s : State) :
    KeepsOut s (buildTree t lengths maxLen s) :=
  (keepsOut_treeRes t _ s).bind fun _ _ => ⟨rfl, rfl⟩

theorem keepsOut_tables (s : State) : KeepsOut s (tables s) :=
  (keepsOut_need _ _ s).bind fun _ s1 => (keepsOut_buildTree _ _ _ s1).bind fun _ s2 =>
    (keepsOut_need _ _ s2).bind fun _ s3 => (keepsOut_buildTree _ _ _ s3).bind fun _ _ => ⟨rfl, rfl⟩

theorem keepsOut_clLen (n : BitVec 3) (s : State) : KeepsOut s (clLen n s) := by
  simp only [clLen]
  split
  · trivial
  · exact ⟨rfl, rfl⟩

theorem keepsOut_writeLens (v : BitVec 4) (n : Nat) (s : State) : KeepsOut s (writeLens v n s) :=
  (keepsOut_need _ _ s).bind fun _ _ => by
    split
    · trivial
    · exact ⟨rfl, rfl⟩

theorem keepsOut_seqTotal (s : State) : KeepsOut s (seqTotal s) :=
  (keepsOut_need _ _ s).bind fun _ s1 => (keepsOut_need _ _ s1).bind fun _ s2 => .refl s2

theorem keepsOut_overrunCheck (s : State) : KeepsOut s (overrunCheck s) :=
  (keepsOut_need _ _ s).bind fun _ s1 => (keepsOut_need _ _ s1).bind fun _ s2 =>
    (keepsOut_seqTotal s2).bind fun _ s3 => by
      split <;> exact .refl s3

theorem keepsOut_repeatLen (v : BitVec 4) (base extra : Nat) (s : State) : KeepsOut s (repeatLen v base extra s) :=
  (keepsOut_basePlusExtra base extra s).bind fun _ _ =>
    .bind (.after (sameOut_withBlk _ _) (keepsOut_overrunCheck _)) fun _ s2 => keepsOut_writeLens v _ s2

theorem keepsOut_clRep16 (s : State) : KeepsOut s (clRep16 s) :=
  (keepsOut_need _ _ s).bind fun _ s1 => by
    split
    · exact .refl s1
    · exact (keepsOut_need _ _ s1).bind fun _ s2 => keepsOut_repeatLen _ 3 2 s2

theorem keepsOut_lengthSym (i : Nat) (s : State) : KeepsOut s (lengthSym i s) :=
  (keepsOut_basePlusExtra _ _ s).bind fun _ _ => ⟨rfl, rfl⟩

theorem keepsOut_check (s : State) : KeepsOut s (check s) :=
  (keepsOut_need _ _ s).bind fun _ s1 => by
    split <;> exact .refl s1

theorem keepsOut_distanceSym (d : Nat) (s : State) : KeepsOut s (distanceSym d s) :=
  (keepsOut_basePlusExtra _ _ s).bind fun _ _ => .after (sameOut_withBlk _ _) (keepsOut_check _)

theorem keepsOut_decodeStep (t : TreeId) (b : Bool) (s : State) : KeepsOut s (decodeStep t b s) :=
  (keepsOut_need _ _ s).bind fun _ s1 => (keepsOut_need _ _ s1).bind fun _ s2 =>
    (keepsOut_need _ _ s2).bind fun _ _ => by
      split <;> exact ⟨rfl, rfl⟩

theorem keepsOut_decodeSym (t : TreeId) (s : State) : KeepsOut s (decodeSym t s) :=
  (fetches_decodeSym t s).keepsOut

theorem keepsOut_addLeafOp (t : TreeId) (c len sym : Nat) (s : State) : KeepsOut s (addLeafOp t c len sym s) :=
  (keepsOut_need _ _ s).bind fun _ s1 => (keepsOut_treeRes t _ s1).bind fun _ _ => by
    split
    · trivial
    · exact ⟨rfl, rfl⟩

theorem keepsOut_outRead (a : Nat) (s : State) : KeepsOut s (outRead a s) := by
  simp only [outRead]
  split
  · exact .refl s
  · trivial

/-- `OutAppend` appends its byte, or stops (20_memory.md rule R45). -/
theorem outAppend_leaves (b : Byte) (s : State) : (outAppend b s).Leaves (OutStep s) := by
  simp only [outAppend]
  split
  · trivial
  · exact .inr ⟨b, .refl _⟩

/-- A turn of the copy loop appends at most one byte (44_block_decoder.md rule R131). -/
theorem copyByte_leaves (s : State) : (copyByte s).Leaves (OutStep s) :=
  (keepsOut_need _ _ s).bind_outStep fun _ s1 => by
    split
    · exact .inl (.refl s1)
    · refine (keepsOut_need _ _ s1).bind_outStep fun _ s2 => ?_
      split
      · trivial
      · exact (keepsOut_outRead _ s2).bind_outStep fun b s3 =>
          (outAppend_leaves b s3).bind (fun _ => id) fun _ _ h => OutStep.after h ⟨rfl, rfl⟩

/-! ### What an instruction does to `OUT` -/

theorem sameOut_of_next {s u t : State} (h : (.next u : Host.Outcome State Fault Refusal) = .next t)
    (hu : SameOut s u) : SameOut s t :=
  Host.Outcome.next.inj h ▸ hu

theorem execReadBits_sameOut {n : Nat} {s t : State} (h : execReadBits n s = .next t) : SameOut s t := by
  simp only [execReadBits] at h
  split at h
  · cases h
  · exact ((keepsOut_readBits n s).withResult .value).sameOut_of_outcome h

theorem execRefill_sameOut {s t : State} (h : execRefill s = .next t) : SameOut s t := by
  simp only [execRefill] at h
  split at h
  · cases h
  · exact (keepsOut_refill s).sameOut_of_outcome h

theorem execPeekBits_sameOut {n : Nat} {s t : State} (h : execPeekBits n s = .next t) : SameOut s t := by
  simp only [execPeekBits] at h
  split at h
  · cases h
  · split at h
    · cases h
    · exact ((keepsOut_peekBits n s).withResult .value).sameOut_of_outcome h

theorem execCanon_sameOut {lengths : List Nat} {maxLen : Nat} {s t : State} (h : execCanon lengths maxLen s = .next t) :
    SameOut s t := by
  simp only [execCanon] at h
  split at h
  · split at h
    · exact sameOut_of_next h (sameOut_withResult s _)
    · exact sameOut_of_next h (sameOut_raise s _)
  · cases h

theorem execAddLeaf_sameOut {T : TreeId} {c len sym : Nat} {s t : State} (h : execAddLeaf T c len sym s = .next t) :
    SameOut s t := by
  simp only [execAddLeaf] at h
  split at h
  · exact (keepsOut_addLeafOp T c len sym s).sameOut_of_outcome h
  · cases h

theorem execDecodeStep_sameOut {T : TreeId} {b : Bool} {s t : State} (h : execDecodeStep T b s = .next t) :
    SameOut s t := by
  refine KeepsOut.sameOut_of_outcome (.bind (keepsOut_decodeStep T b s) fun r s1 => ?_) h
  cases r with
  | none => exact sameOut_withResult s1 _
  | some v => exact sameOut_withResult s1 _

theorem execDecodeSym_sameOut {T : TreeId} {s t : State} (h : execDecodeSym T s = .next t) : SameOut s t :=
  ((keepsOut_decodeSym T s).withResult .symbol).sameOut_of_outcome h

theorem execBuild_sameOut {T : TreeId} {lengths : List Nat} {maxLen : Nat} {s t : State}
    (h : execBuild T lengths maxLen s = .next t) : SameOut s t := by
  simp only [execBuild] at h
  split at h
  · exact (keepsOut_buildTree T lengths maxLen s).sameOut_of_outcome h
  · cases h

/-- Only `LIT` and `COPYBYTE`, and the host's `START`, write `OUT` or `OUTLEN` (10_state.md rule R13). -/
theorem exec_sameOut {i : Instr} {s t : State} (hnolit : ∀ b, i ≠ .lit b) (hnocopy : i ≠ .copyByte)
    (hstart : ∀ src, i ≠ .start src) (h : exec i s = .next t) : SameOut s t := by
  unfold exec at h
  cases i with
  | lit b => exact absurd rfl (hnolit b)
  | copyByte => exact absurd rfl hnocopy
  | start src => exact absurd rfl (hstart src)
  | blkDynamic | blkStored | blkFixed | blkReserved => exact (keepsOut_blockHeader _ _ s).sameOut_of_outcome h
  | dynHeader hlit hdist hclen =>
    have hframe : SameOut s (s.withDynHeader hlit hdist hclen) := ⟨rfl, rfl⟩
    exact (KeepsOut.after hframe (keepsOut_rangeCheck _)).sameOut_of_outcome h
  | dynHlitReserved | dynHdistReserved | litLen286 | litLen287 | dist30 | dist31 | eob =>
    exact sameOut_of_next h ⟨rfl, rfl⟩
  | clLen n => exact (keepsOut_clLen n s).sameOut_of_outcome h
  | clLit0 | clLit1 | clLit2 | clLit3 | clLit4 | clLit5 | clLit6 | clLit7 | clLit8 | clLit9 | clLit10 | clLit11
  | clLit12 | clLit13 | clLit14 | clLit15 => exact (keepsOut_writeLens _ 1 s).sameOut_of_outcome h
  | clRep16 => exact (keepsOut_clRep16 s).sameOut_of_outcome h
  | clZero17 | clZero18 => exact (keepsOut_repeatLen 0 _ _ s).sameOut_of_outcome h
  | len257 | len258 | len259 | len260 | len261 | len262 | len263 | len264 | len265 | len266 | len267 | len268 | len269
  | len270 | len271 | len272 | len273 | len274 | len275 | len276 | len277 | len278 | len279 | len280 | len281 | len282
  | len283 | len284 | len285 => exact (keepsOut_lengthSym _ s).sameOut_of_outcome h
  | dist0 | dist1 | dist2 | dist3 | dist4 | dist5 | dist6 | dist7 | dist8 | dist9 | dist10 | dist11 | dist12 | dist13
  | dist14 | dist15 | dist16 | dist17 | dist18 | dist19 | dist20 | dist21 | dist22 | dist23 | dist24 | dist25 | dist26
  | dist27 | dist28 | dist29 => exact (keepsOut_distanceSym _ s).sameOut_of_outcome h
  | readBits n => exact execReadBits_sameOut h
  | refill => exact execRefill_sameOut h
  | peekBits n => exact execPeekBits_sameOut h
  | canon lengths maxLen => exact execCanon_sameOut h
  | addLeaf T c len sym => exact execAddLeaf_sameOut h
  | decodeStep T b => exact execDecodeStep_sameOut h
  | resetCursor T => exact KeepsOut.sameOut_of_outcome (r := resetCursor T s) ⟨rfl, rfl⟩ h
  | decodeSym T => exact execDecodeSym_sameOut h
  | build T lengths maxLen => exact execBuild_sameOut h
  | overrunCheck => exact (keepsOut_overrunCheck s).sameOut_of_outcome h
  | rangeCheck => exact (keepsOut_rangeCheck s).sameOut_of_outcome h
  | tables => exact (keepsOut_tables s).sameOut_of_outcome h
  | check => exact (keepsOut_check s).sameOut_of_outcome h

/-- Every instruction but `START` appends at most one byte to `OUT`. -/
theorem exec_outStep {i : Instr} {s t : State} (hstart : ∀ src, i ≠ .start src) (h : exec i s = .next t) :
    OutStep s t := by
  by_cases hlit : ∃ b, i = .lit b
  · obtain ⟨b, rfl⟩ := hlit
    exact (outAppend_leaves b s).of_outcome .after h
  · by_cases hcopy : i = .copyByte
    · subst i
      exact (copyByte_leaves s).of_outcome .after h
    · exact .inl (exec_sameOut (fun b hb => hlit ⟨b, hb⟩) hcopy hstart h)

/-- A step of a session appends at most one byte to `OUT`: an instruction it fetched may, its fetch, its follow-up and Done
do not. -/
theorem step_outStep {s t : State} (hs : s.hostStart = none) (h : step s = .next t) : OutStep s t := by
  have hfetch := (fetches_fetch s).keepsOut
  rcases step_next h with ⟨src, hsrc, -⟩ | ⟨-, -, ⟨-, hdone⟩ | ⟨-, hrun⟩⟩
  · simp [hs] at hsrc
  · rcases hdone with ⟨f, -, rfl⟩ | ⟨-, rfl⟩
    · exact .inl (.trans (s1 := { s with blocks := s.blocks + 1 }) ⟨rfl, rfl⟩ (sameOut_endBlock _ f))
    · exact .inl (.trans (s1 := { s with blocks := s.blocks + 1 }) ⟨rfl, rfl⟩ (sameOut_raiseUnwritten _))
  · rcases hrun with ⟨i, s1, hf, -, rfl⟩ | ⟨i, s1, t1, hf, -, hexec, hfollow⟩ | ⟨e, s1, hf, rfl⟩ | ⟨x, s1, hf, rfl⟩
    · rw [hf] at hfetch
      exact .inl (hfetch.trans (sameOut_withBlk s1 _))
    · have hinstr : OutStep s1 t1 := exec_outStep (issues_fetch s i s1 hf).ne_start hexec
      rw [hf] at hfetch
      refine (hinstr.before hfetch).after ?_
      rcases hfollow with ⟨-, ha⟩ | ⟨-, -, -, rfl⟩ | ⟨-, rfl⟩
      · obtain ⟨b, rfl⟩ := Follow.apply_ok ha
        exact sameOut_withBlk t1 b
      · exact sameOut_raiseUnwritten t1
      · exact .refl t
    · rw [hf] at hfetch
      exact .inl (hfetch.trans (sameOut_raise s1 e))
    · rw [hf] at hfetch
      exact .inl (hfetch.trans (sameOut_raiseUnwritten s1))

/-- Settles O46: only `OutAppend` writes `OUT`, a step calls it at most once, and `START` is never fetched. -/
theorem outputIsAppendOnly : Obligations.OutputIsAppendOnly :=
  fun _ _ hs h => (step_outStep hs h).read

end Sys2Proof.Machine
end

section
/-! SUPPORT. What the BitReader reads: the buffered bits are the stream bits from `BITPOS` on, so a read returns the stream's
next bits and leaves the cursor behind them (40_bitreader.md rules R70, R71). -/

namespace Sys2Proof.Machine

/-! ### The stream's bits -/

/-- The first stream bit is the least significant (20_memory.md rule R42). -/
theorem testBit_streamValue (s : State) (p n j : Nat) :
    (streamValue s p n).testBit j = (decide (j < n) && srcBit s (p + j)) := by
  induction n generalizing p j with
  | zero => simp [streamValue]
  | succ n ih =>
    rw [streamValue, Nat.add_comm, ← Nat.bit_val]
    cases j with
    | zero => simp
    | succ j => simp [Nat.testBit_bit_succ, ih, Nat.add_assoc, Nat.add_comm 1 j]

/-- The low bits of a longer read are the shorter read (40_bitreader.md rule R72). -/
theorem streamValue_mod (s : State) (p : Nat) {n m : Nat} (h : m ≤ n) :
    streamValue s p n % 2 ^ m = streamValue s p m := by
  refine Nat.eq_of_testBit_eq fun j => ?_
  simp only [Nat.testBit_mod_two_pow, testBit_streamValue]
  by_cases hj : j < m
  · simp [hj, Nat.lt_of_lt_of_le hj h]
  · simp [hj]

theorem getLsbD_ofNat_streamValue (s : State) (p n w j : Nat) :
    (BitVec.ofNat w (streamValue s p n)).getLsbD j = (decide (j < w) && (decide (j < n) && srcBit s (p + j))) := by
  rw [BitVec.getLsbD_ofNat, testBit_streamValue]

/-- The eight stream bits of a source byte. -/
theorem srcBit_of_read {s : State} {k i : Nat} {b : Byte} (hb : Cells.read s.src k = some b) (hi : i < 8) :
    srcBit s (8 * k + i) = b.getLsbD i := by
  have hbyte : (8 * k + i) / 8 = k := by omega
  have hbit : (8 * k + i) % 8 = i := by omega
  simp only [srcBit, hbyte, hbit, hb]

/-! ### The cursor at a stream position -/

@[simp] theorem State.cursorAt_src (s : State) (p k : Nat) : (s.cursorAt p k).src = s.src := rfl
@[simp] theorem State.cursorAt_srclen (s : State) (p k : Nat) : (s.cursorAt p k).srclen = s.srclen := rfl
@[simp] theorem State.cursorAt_bytepos (s : State) (p k : Nat) : (s.cursorAt p k).bytepos = k := rfl
@[simp] theorem State.cursorAt_bitcnt (s : State) (p k : Nat) : (s.cursorAt p k).bitcnt = 8 * k - p := rfl
@[simp] theorem State.cursorAt_blk (s : State) (p k : Nat) : (s.cursorAt p k).blk = s.blk := rfl
@[simp] theorem State.seek_blk (s : State) (p : Nat) : (s.seek p).blk = s.blk := rfl

/-- A sound cursor is the cursor at its own stream position (10_state.md rules R10, R12). -/
theorem CursorOk.cursorAt_bitpos {s : State} (h : CursorOk s) : s.cursorAt s.bitpos s.bytepos = s := by
  have hcnt : 8 * s.bytepos - s.bitpos = s.bitcnt := by
    have := h.bitcnt_le_fetched
    simp only [State.bitpos]
    omega
  have hacc : BitVec.ofNat 24 (streamValue s s.bitpos s.bitcnt) = s.acc := by
    refine BitVec.eq_of_getLsbD_eq fun j hj => ?_
    rw [getLsbD_ofNat_streamValue]
    by_cases hlt : j < s.bitcnt
    · rw [h.acc_bits j hlt]
      simp [hj, hlt]
    · have habove : s.acc.getLsbD j = false :=
        Nat.testBit_lt_two_pow (h.acc_lt.trans_le (Nat.pow_le_pow_right (by omega) (by omega)))
      simp [hlt, habove]
  simp only [State.cursorAt, hcnt, hacc]
  rfl

/-- A fetched byte goes above the valid bits (40_bitreader.md rule R71). -/
theorem ofNat_streamValue_or_byte {s : State} {p k : Nat} {b : Byte} (hb : Cells.read s.src k = some b) (hp : p ≤ 8 * k) :
    BitVec.ofNat 24 (streamValue s p (8 * k - p)) ||| (b.setWidth 24 <<< (8 * k - p)) =
      BitVec.ofNat 24 (streamValue s p (8 * (k + 1) - p)) := by
  refine BitVec.eq_of_getLsbD_eq fun j hj => ?_
  simp only [BitVec.getLsbD_or, BitVec.getLsbD_shiftLeft, BitVec.getLsbD_setWidth, getLsbD_ofNat_streamValue, hj,
    decide_true, Bool.true_and]
  by_cases hlow : j < 8 * k - p
  · have hnext : j < 8 * (k + 1) - p := by omega
    simp [hlow, hnext]
  · have hshift : j - (8 * k - p) < 24 := by omega
    by_cases hnew : j - (8 * k - p) < 8
    · have hnext : j < 8 * (k + 1) - p := by omega
      have hpos : p + j = 8 * k + (j - (8 * k - p)) := by omega
      simp [hlow, hnext, hshift, hpos, srcBit_of_read hb hnew]
    · have hnext : ¬ j < 8 * (k + 1) - p := by omega
      simp [hlow, hnext, hshift, BitVec.getLsbD_of_ge b _ (Nat.le_of_not_lt hnew)]

/-- What is left in the buffer after `n` bits (40_bitreader.md rule R70); the buffer has 24 bits. -/
theorem ofNat_streamValue_shift (s : State) (p : Nat) {c : Nat} (n : Nat) (hc : c ≤ 24) :
    BitVec.ofNat 24 (streamValue s p c) >>> n = BitVec.ofNat 24 (streamValue s (p + n) (c - n)) := by
  refine BitVec.eq_of_getLsbD_eq fun j hj => ?_
  simp only [BitVec.getLsbD_ushiftRight, getLsbD_ofNat_streamValue]
  by_cases hlt : n + j < c
  · have hw : n + j < 24 := by omega
    have hrest : j < c - n := by omega
    simp [hlt, hw, hj, hrest, Nat.add_assoc]
  · have hrest : ¬ j < c - n := by omega
    simp [hlt, hrest]

/-! ### Refills and reads at a stream position -/

section
variable {s : State} {p k n : Nat}

/-- A refill below the end of the source (40_bitreader.md rule R71). -/
theorem refill_cursorAt (hs : SrcOk s) (hp : p ≤ 8 * k) (hk : k < s.srclen) :
    refill (s.cursorAt p k) = .ok () (s.cursorAt p (k + 1)) := by
  obtain ⟨b, hb⟩ := Option.isSome_iff_exists.1 ((Cells.isSome_read_of_range hs k).2 hk)
  refine refill_eq_ok.2 ⟨hk, b, hb, ?_⟩
  have hcnt : 8 * k - p + 8 = 8 * (k + 1) - p := by omega
  simp only [State.cursorAt, State.withCursor_bytepos, State.withCursor_acc, State.withCursor_bitcnt,
    State.withCursor_withCursor, ofNat_streamValue_or_byte hb hp, hcnt]

/-- A refill at the end of the source (40_bitreader.md rule R71). -/
theorem refill_cursorAt_end (hk : s.srclen ≤ k) :
    refill (s.cursorAt p k) = .raised .streamExhausted (s.cursorAt p k) :=
  refill_eq_raised.2 ⟨hk, rfl, rfl⟩

/-- The refill loop fetches the fewest bytes that cover the request. -/
theorem fillLoop_cursorAt (hs : SrcOk s) {turns : Nat} (hp : p ≤ 8 * k) (hturns : n ≤ 8 * k - p + 8 * turns)
    (hend : p + n ≤ 8 * s.srclen) :
    fillLoop n turns (s.cursorAt p k) = .ok () (s.cursorAt p (max k ((p + n + 7) / 8))) := by
  induction turns generalizing k with
  | zero =>
    have hmax : max k ((p + n + 7) / 8) = k := by omega
    rw [hmax]
    rfl
  | succ turns ih =>
    by_cases hlt : 8 * k - p < n
    · have hmax : max (k + 1) ((p + n + 7) / 8) = max k ((p + n + 7) / 8) := by omega
      simp only [fillLoop, State.cursorAt_bitcnt, hlt, if_true, refill_cursorAt hs hp (by omega : k < s.srclen),
        Res.bind_ok]
      rw [ih (by omega) (by omega), hmax]
    · have hmax : max k ((p + n + 7) / 8) = k := by omega
      simp only [fillLoop, State.cursorAt_bitcnt, hlt, if_false, hmax]

/-- The refill loop that the source does not satisfy has fetched all of it (60_exceptions.md rule R157). -/
theorem fillLoop_cursorAt_exhausted (hs : SrcOk s) {turns : Nat} (hp : p ≤ 8 * k) (hk : k ≤ s.srclen)
    (hturns : n ≤ 8 * k - p + 8 * turns) (hend : 8 * s.srclen < p + n) :
    fillLoop n turns (s.cursorAt p k) = .raised .streamExhausted (s.cursorAt p s.srclen) := by
  induction turns generalizing k with
  | zero => omega
  | succ turns ih =>
    have hlt : 8 * k - p < n := by omega
    simp only [fillLoop, State.cursorAt_bitcnt, hlt, if_true]
    rcases Nat.lt_or_eq_of_le hk with hmore | rfl
    · rw [refill_cursorAt hs hp hmore, Res.bind_ok, ih (by omega) (by omega) (by omega)]
    · rw [refill_cursorAt_end le_rfl, Res.bind_raised]

end

section
variable {s : State} {n : Nat}

theorem State.bitpos_le_fetched (s : State) : s.bitpos ≤ 8 * s.bytepos := Nat.sub_le _ _

/-- A fill with `n` bits left in the stream: the bytes it needs are fetched and no bit is consumed. -/
theorem fill_of_available (hs : SrcOk s) (hc : CursorOk s) (hend : s.bitpos + n ≤ 8 * s.srclen) :
    fill n s = .ok () (s.cursorAt s.bitpos (s.bytesFor (s.bitpos + n))) := by
  have h := fillLoop_cursorAt hs (turns := n) s.bitpos_le_fetched (by omega) hend
  rwa [hc.cursorAt_bitpos] at h

/-- A fill with fewer than `n` bits left: every byte is fetched and no bit is consumed (60_exceptions.md rule R157). -/
theorem fill_of_exhausted (hs : SrcOk s) (hc : CursorOk s) (hend : 8 * s.srclen < s.bitpos + n) :
    fill n s = .raised .streamExhausted (s.cursorAt s.bitpos s.srclen) := by
  have h := fillLoop_cursorAt_exhausted hs (turns := n) s.bitpos_le_fetched hc.bytepos_le (by omega) hend
  rwa [hc.cursorAt_bitpos] at h

/-- After the refills of a read of `n` bits those bits are buffered, and `ACC` has room for all that is (10_state.md rule
R11). -/
theorem CursorOk.buffered_bounds (hc : CursorOk s) (hn : n ≤ 16) :
    s.bitpos + n ≤ 8 * s.bytesFor (s.bitpos + n) ∧ 8 * s.bytesFor (s.bitpos + n) - s.bitpos ≤ 24 := by
  have hcnt := hc.bitcnt_le
  simp only [State.bytesFor, State.bitpos]
  omega

/-- `READBITS(n)` with `n` bits left: it returns the next `n` stream bits and leaves the cursor behind them
(40_bitreader.md rule R70). -/
theorem readBits_of_available (hs : SrcOk s) (hc : CursorOk s) (hn : n ≤ 16) (hend : s.bitpos + n ≤ 8 * s.srclen) :
    readBits n s = .ok (streamValue s s.bitpos n) (s.seek (s.bitpos + n)) := by
  obtain ⟨hcover, hwidth⟩ := hc.buffered_bounds hn
  have hlow : (s.cursorAt s.bitpos (s.bytesFor (s.bitpos + n))).accLow n = streamValue s s.bitpos n := by
    have hpow : 2 ^ n ∣ 2 ^ 24 := Nat.pow_dvd_pow 2 (by omega)
    simp only [State.accLow, State.cursorAt, State.withCursor_acc, BitVec.toNat_ofNat]
    rw [Nat.mod_mod_of_dvd _ hpow, streamValue_mod s _ (by omega)]
  simp only [readBits, fill_of_available hs hc hend, Res.bind_ok, hlow]
  simp only [State.cursorAt, State.seek, State.withCursor_bytepos, State.withCursor_acc, State.withCursor_bitcnt,
    State.withCursor_withCursor, ofNat_streamValue_shift s _ n hwidth, Nat.sub_sub]

/-- `READBITS(n)` with fewer than `n` bits left (60_exceptions.md rule R157). -/
theorem readBits_of_exhausted (hs : SrcOk s) (hc : CursorOk s) (hend : 8 * s.srclen < s.bitpos + n) :
    readBits n s = .raised .streamExhausted (s.cursorAt s.bitpos s.srclen) := by
  rw [readBits, fill_of_exhausted hs hc hend, Res.bind_raised]

/-- A base plus `n` extra bits that are there (30_encoding.md rules R61, R63, R64). -/
theorem basePlusExtra_of_available (base : Nat) (hs : SrcOk s) (hc : CursorOk s) (hn : n ≤ 16)
    (hend : s.bitpos + n ≤ 8 * s.srclen) :
    basePlusExtra base n s = .ok (base + streamValue s s.bitpos n) (s.seek (s.bitpos + n)) :=
  basePlusExtra_eq_ok.2 ⟨_, readBits_of_available hs hc hn hend, rfl⟩

theorem basePlusExtra_of_exhausted (base : Nat) (hs : SrcOk s) (hc : CursorOk s)
    (hend : 8 * s.srclen < s.bitpos + n) :
    basePlusExtra base n s = .raised .streamExhausted (s.cursorAt s.bitpos s.srclen) :=
  basePlusExtra_eq_raised.2 (readBits_of_exhausted hs hc hend)

end

end Sys2Proof.Machine
end

section
/-! SUPPORT. The code-length expander's symbols (43_code_length_expander.md rules R103 to R107). -/

open Sys2Proof.Certificates

namespace Sys2Proof.Machine

/-! ### One length -/

/-- Each row of R103 appends its own length. -/
theorem exec_of_mem_clLitRows (s : State) :
    ∀ p ∈ clLitRows, exec p.1 s = (writeLens (BitVec.ofNat 4 p.2) 1 s).outcome := by
  simp only [clLitRows, List.forall_mem_cons]
  exact ⟨rfl, rfl, rfl, rfl, rfl, rfl, rfl, rfl, rfl, rfl, rfl, rfl, rfl, rfl, rfl, rfl, List.forall_mem_nil _⟩

/-- Lengths that fit `LENSEQ` are written from `SEQCNT` on. -/
theorem writeLens_of_fits {v : BitVec 4} {n k : Nat} {s : State} (hk : s.blk.seqcnt = some k) (hfits : k + n ≤ 316) :
    writeLens v n s =
      .ok () (s.withBlk { s.blk with lenseq := Cells.writeRun s.blk.lenseq k v n, seqcnt := some (k + n) }) :=
  writeLens_eq_ok.2 ⟨k, hk, hfits, rfl⟩

/-- Settles O29: a CL literal is a run of one length, written at `SEQCNT`. -/
theorem clLitAppendsItsLength : Obligations.ClLitAppendsItsLength := by
  intro s k hk hlt p hp
  refine ⟨Cells.writeRun s.blk.lenseq k (BitVec.ofNat 4 p.2) 1, ?_, Cells.read_write_same _ _ _,
    fun j hj => Cells.read_write_ne _ _ hj⟩
  rw [exec_of_mem_clLitRows s p hp, writeLens_of_fits hk hlt, Res.outcome_ok]

/-! ### A run of lengths -/

section
variable {s : State} {k a b : Nat} (v : BitVec 4) (base : Nat) {extra : Nat}

/-- A run behind `OVERRUN_CHECK`: it is written whole or not at all (R107), for `NLIT + NDIST` is at most the size of
`LENSEQ` (10_state.md rule R20). -/
theorem overrunCheck_bind_writeLens {r : Nat} (hk : s.blk.seqcnt = some k) (hr : s.blk.rep = some r)
    (ha : s.blk.nlit = some a) (hb : s.blk.ndist = some b) (hab : a + b ≤ 316) :
    ((overrunCheck s).bind fun _ s1 => writeLens v r s1) =
      if a + b < k + r then .raised .invalidRunLengthContext s
      else .ok () (s.withBlk { s.blk with lenseq := Cells.writeRun s.blk.lenseq k v r, seqcnt := some (k + r) }) := by
  rw [overrunCheck_of hk hr ha hb]
  split
  · rfl
  · exact writeLens_of_fits hk (by omega)

/-- A CL repeat whose extra bits are there: `REP` is written, and the run where it does not pass `NLIT + NDIST` (R104 to
R107). -/
theorem repeatLen_of_available (hk : s.blk.seqcnt = some k) (ha : s.blk.nlit = some a) (hb : s.blk.ndist = some b)
    (hab : a + b ≤ 316) (hs : SrcOk s) (hc : CursorOk s) (hn : extra ≤ 16) (hend : s.bitpos + extra ≤ 8 * s.srclen) :
    repeatLen v base extra s =
      let r := base + streamValue s s.bitpos extra
      if a + b < k + r then
        .raised .invalidRunLengthContext ((s.seek (s.bitpos + extra)).withBlk { s.blk with rep := some r })
      else
        .ok () ((s.seek (s.bitpos + extra)).withBlk
          { s.blk with rep := some r, lenseq := Cells.writeRun s.blk.lenseq k v r, seqcnt := some (k + r) }) := by
  rw [repeatLen, basePlusExtra_of_available base hs hc hn hend, Res.bind_ok]
  exact overrunCheck_bind_writeLens v hk rfl ha hb hab

/-- A CL repeat whose extra bits are not there writes nothing (60_exceptions.md rule R157). -/
theorem repeatLen_of_exhausted (hs : SrcOk s) (hc : CursorOk s) (hend : 8 * s.srclen < s.bitpos + extra) :
    repeatLen v base extra s = .raised .streamExhausted (s.cursorAt s.bitpos s.srclen) := by
  rw [repeatLen, basePlusExtra_of_exhausted base hs hc hend, Res.bind_raised]

/-- The step of a CL repeat whose extra bits are there, entry by entry. -/
theorem repeatLen_outcome (hk : s.blk.seqcnt = some k) (ha : s.blk.nlit = some a) (hb : s.blk.ndist = some b)
    (hab : a + b ≤ 316) (hs : SrcOk s) (hc : CursorOk s) (hn : extra ≤ 16) (hend : s.bitpos + extra ≤ 8 * s.srclen) :
    let r := base + streamValue s s.bitpos extra
    (k + r ≤ a + b →
      ∃ q, (repeatLen v base extra s).outcome = .next ((s.seek (s.bitpos + extra)).withBlk
          { s.blk with rep := some r, lenseq := q, seqcnt := some (k + r) })
        ∧ ∀ j, Cells.read q j = if k ≤ j ∧ j < k + r then some v else Cells.read s.blk.lenseq j)
    ∧ (a + b < k + r →
      (repeatLen v base extra s).outcome = .next (((s.seek (s.bitpos + extra)).withBlk { s.blk with rep := some r }).raise
        .invalidRunLengthContext)) := by
  intro r
  rw [repeatLen_of_available v base hk ha hb hab hs hc hn hend]
  constructor
  · intro hfits
    rw [if_neg (by omega)]
    exact ⟨_, rfl, fun j => Cells.read_writeRun _ _ _ _ _⟩
  · intro hover
    rw [if_pos hover]
    rfl

end

/-- CL symbol 16 with no length before it: no extra bit is read (R104, decision D9). -/
theorem clRep16_of_first {s : State} (hk : s.blk.seqcnt = some 0) :
    clRep16 s = .raised .invalidRunLengthContext s := by
  simp [clRep16, hk]

/-- CL symbol 16 after a length repeats that length (R104). -/
theorem clRep16_of_prev {s : State} {k : Nat} {prev : BitVec 4} (hk : s.blk.seqcnt = some k) (hne : k ≠ 0)
    (hprev : Cells.read s.blk.lenseq (k - 1) = some prev) : clRep16 s = repeatLen prev 3 2 s := by
  simp [clRep16, hk, hne, hprev]

theorem exec_clRep16 (s : State) : exec .clRep16 s = (clRep16 s).outcome := rfl

/-- Settles O30: the first symbol of a block has nothing to repeat; later the symbol is a run of the last entry. -/
theorem clRep16RepeatsThePreviousLength : Obligations.ClRep16RepeatsThePreviousLength := by
  intro s k a b hk ha hb hab hs hc
  rw [exec_clRep16]
  refine ⟨?_, fun prev hne hprev hend => ?_, fun prev hne hprev hend => ?_⟩
  · rintro rfl
    rw [clRep16_of_first hk]
    rfl
  · rw [clRep16_of_prev hk hne hprev]
    exact repeatLen_outcome prev 3 hk ha hb hab hs hc (by decide) hend
  · rw [clRep16_of_prev hk hne hprev, repeatLen_of_exhausted prev 3 hs hc hend, Res.outcome_raised]

/-- Both zero runs are repeats of 0 with their own base and extra bits (R105, R106), fewer than a read allows. -/
theorem exec_of_mem_zeroRuns (s : State) :
    ∀ p ∈ [(Instr.clZero17, 3, 3), (Instr.clZero18, 7, 11)],
      exec p.1 s = (repeatLen 0 p.2.2 p.2.1 s).outcome ∧ p.2.1 ≤ 16 := by
  simp only [List.forall_mem_cons]
  exact ⟨⟨rfl, by decide⟩, ⟨rfl, by decide⟩, List.forall_mem_nil _⟩

/-- Settles O31: CL symbols 17 and 18 are runs of 0. -/
theorem clZeroRunsWriteZeros : Obligations.ClZeroRunsWriteZeros := by
  intro s k a b hk ha hb hab hs hc p hp
  obtain ⟨hexec, hwidth⟩ := exec_of_mem_zeroRuns s p hp
  rw [hexec]
  refine ⟨repeatLen_outcome 0 p.2.2 hk ha hb hab hs hc hwidth, fun hend => ?_⟩
  rw [repeatLen_of_exhausted 0 p.2.2 hs hc hend, Res.outcome_raised]

end Sys2Proof.Machine
end

section
/-! SUPPORT. The block decoder's copy check (44_block_decoder.md rule R130). -/

namespace Sys2Proof.Machine

theorem exec_check (s : State) : exec .check s = (check s).outcome := rfl

/-- Settles O38: where `DISTANCE` holds a value, `CHECK` either passes or raises, and no register but `ERR` and `STATUS`
changes. -/
theorem checkComparesDistanceWithOutlen : Obligations.CheckComparesDistanceWithOutlen := by
  intro s d hd
  rw [exec_check, check_of hd]
  constructor
  · intro hle
    rw [if_neg (Nat.not_lt.2 hle), Res.outcome_ok]
  · intro hlt
    rw [if_pos hlt, Res.outcome_raised, State.raise]

end Sys2Proof.Machine
end

section
/-! SUPPORT. Words and instructions: decoding a word and encoding its instruction are inverse (30_encoding.md rules R58, R59,
R64, R65, R67). -/

namespace Sys2Proof

/-! ### Header words -/

/-- The four block headers come back from their words (R58). -/
theorem decode_bhWord (f : BitVec 1) :
    decode .bh (bhWord f 2) = .ok (.blkDynamic f) ∧ decode .bh (bhWord f 0) = .ok (.blkStored f)
      ∧ decode .bh (bhWord f 1) = .ok (.blkFixed f) ∧ decode .bh (bhWord f 3) = .ok (.blkReserved f) := by
  revert f
  decide

/-- Every block header word is the word of what it decodes to (R58). -/
theorem encode_decodeBh : ∀ w < 8, WellFormed (decodeBh w) = true ∧ encode (decodeBh w) = some (.bh, w) := by
  decide

/-- A bit field of `w` as a bit vector of its own width. -/
theorem ofNat_bitField (w lo n : Nat) : (BitVec.ofNat (n + 1) (bitField w (lo + n) lo)).toNat = w / 2 ^ lo % 2 ^ (n + 1) := by
  have hwidth : lo + n - lo + 1 = n + 1 := by omega
  rw [bitField, hwidth, BitVec.toNat_ofNat, Nat.mod_mod, Nat.shiftRight_eq_div_pow]

/-- The three fields of a dynamic header's word (R59). -/
theorem bitFields_dhWord (a b : BitVec 5) (c : BitVec 4) :
    BitVec.ofNat 5 (bitField (dhWord a b c) 4 0) = a ∧ BitVec.ofNat 5 (bitField (dhWord a b c) 9 5) = b
      ∧ BitVec.ofNat 4 (bitField (dhWord a b c) 13 10) = c := by
  have ha := a.isLt
  have hb := b.isLt
  have hc := c.isLt
  refine ⟨BitVec.eq_of_toNat_eq ?_, BitVec.eq_of_toNat_eq ?_, BitVec.eq_of_toNat_eq ?_⟩
  · rw [ofNat_bitField _ 0 4, dhWord]
    omega
  · rw [ofNat_bitField _ 5 4, dhWord]
    omega
  · rw [ofNat_bitField _ 10 3, dhWord]
    omega

/-- What a dynamic header's word decodes to, by its counts (R59, R67; entry 11). -/
theorem decode_dhWord (a b : BitVec 5) (c : BitVec 4) :
    decode .dh (dhWord a b c) = .ok (if 30 ≤ a.toNat then .dynHlitReserved a b c
      else if 30 ≤ b.toNat then .dynHdistReserved a b c else .dynHeader a b c) := by
  obtain ⟨ha, hb, hc⟩ := bitFields_dhWord a b c
  have hfits : ¬ 2 ^ Format.dh.width ≤ dhWord a b c := Nat.not_le.2 (Laws.EncodeFits.dhWord_lt a b c)
  simp only [decode, if_neg hfits, decodeDh, ha, hb, hc]

/-- The fields of a 14-bit word make that word. -/
theorem dhWord_bitFields {w : Nat} (h : w < 2 ^ 14) :
    dhWord (BitVec.ofNat 5 (bitField w 4 0)) (BitVec.ofNat 5 (bitField w 9 5)) (BitVec.ofNat 4 (bitField w 13 10)) = w := by
  rw [dhWord, ofNat_bitField w 0 4, ofNat_bitField w 5 4, ofNat_bitField w 10 3]
  omega

/-- Every dynamic header word is the word of the one form it decodes to (R59, R67). -/
theorem encode_decodeDh {w : Nat} (h : w < 2 ^ 14) :
    WellFormed (decodeDh w) = true ∧ encode (decodeDh w) = some (.dh, w) := by
  have hw := dhWord_bitFields h
  simp only [decodeDh]
  split_ifs with hlit hdist
  · exact ⟨decide_eq_true hlit, congrArg (fun v => some (Format.dh, v)) hw⟩
  · exact ⟨Bool.and_eq_true_iff.2 ⟨decide_eq_true (Nat.not_le.1 hlit), decide_eq_true hdist⟩, congrArg (fun v => some (Format.dh, v)) hw⟩
  · exact ⟨Bool.and_eq_true_iff.2 ⟨decide_eq_true (Nat.not_le.1 hlit), decide_eq_true (Nat.not_le.1 hdist)⟩, congrArg (fun v => some (Format.dh, v)) hw⟩

/-! ### Fields and symbols -/

theorem decode_clLen (n : BitVec 3) : decode .cll n.toNat = .ok (.clLen n) := by
  revert n
  decide

theorem encode_clLen_bitField : ∀ w < 8, encode (.clLen (BitVec.ofNat 3 (bitField w 2 0))) = some (.cll, w) := by
  decide

/-- The low eight bits of a literal's word are its byte (R65). -/
theorem ofNat_bitField_byte (w : Nat) : BitVec.ofNat 8 (bitField w 7 0) = BitVec.ofNat 8 w := by
  refine BitVec.eq_of_toNat_eq ?_
  rw [ofNat_bitField w 0 7, BitVec.toNat_ofNat, Nat.pow_zero, Nat.div_one]

/-- A literal/length symbol below 256 is the literal of that byte (R65). -/
theorem decode_ll_of_lt {w : Nat} (h : w < 256) : decode .ll w = .ok (.lit (BitVec.ofNat 8 w)) := by
  have hfits : ¬ 2 ^ Format.ll.width ≤ w := by
    simp only [Format.width]
    omega
  simp only [decode, if_neg hfits, if_pos h, ofNat_bitField_byte]

/-- The rows of the three symbol tables stand at their symbols' places (R63 to R66). -/
theorem encode_of_mem_zipIdx :
    (∀ p ∈ clsInstrs.zipIdx, WellFormed p.1 = true ∧ encode p.1 = some (.cls, p.2))
    ∧ (∀ p ∈ llInstrs.zipIdx 256, WellFormed p.1 = true ∧ encode p.1 = some (.ll, p.2))
    ∧ ∀ p ∈ dInstrs.zipIdx, WellFormed p.1 = true ∧ encode p.1 = some (.d, p.2) := by
  decide

/-- A symbol's instruction is the table's entry. -/
theorem symbolInstr_eq_ok {f : Format} {w : Nat} {o : Option Instr} {i : Instr} :
    symbolInstr f w o = .ok i ↔ o = some i := by
  cases o <;> simp [symbolInstr]

/-- Settles O1: format by format, a header by its fields, a symbol by its place in the table. -/
theorem encodedInstructionDecodesBack : Obligations.EncodedInstructionDecodesBack := by
  intro i f w hwf henc
  cases i with
  | blkDynamic b => cases henc; exact (decode_bhWord b).1
  | blkStored b => cases henc; exact (decode_bhWord b).2.1
  | blkFixed b => cases henc; exact (decode_bhWord b).2.2.1
  | blkReserved b => cases henc; exact (decode_bhWord b).2.2.2
  | dynHeader hlit hdist hclen =>
    cases henc
    obtain ⟨hl, hd⟩ : hlit.toNat < 30 ∧ hdist.toNat < 30 := by simpa [WellFormed] using hwf
    rw [decode_dhWord, if_neg (Nat.not_le.2 hl), if_neg (Nat.not_le.2 hd)]
  | dynHlitReserved hlit hdist hclen =>
    cases henc
    rw [decode_dhWord, if_pos (of_decide_eq_true hwf)]
  | dynHdistReserved hlit hdist hclen =>
    cases henc
    obtain ⟨hl, hd⟩ : hlit.toNat < 30 ∧ 30 ≤ hdist.toNat := by simpa [WellFormed] using hwf
    rw [decode_dhWord, if_neg (Nat.not_le.2 hl), if_pos hd]
  | clLen n => cases henc; exact decode_clLen n
  | lit b =>
    cases henc
    rw [decode_ll_of_lt b.isLt, BitVec.ofNat_toNat, BitVec.setWidth_eq]
  | readBits | refill | peekBits | canon | addLeaf | decodeStep | resetCursor | decodeSym | build | overrunCheck
  | rangeCheck | tables | check | copyByte | start => cases henc
  | _ => cases henc; rfl

/-- Settles O2: a table's row stands at its symbol's place, and a header's fields fill its word. -/
theorem decodedWordEncodesBack : Obligations.DecodedWordEncodesBack := by
  intro f w i h
  obtain ⟨hcls, hll, hd⟩ := encode_of_mem_zipIdx
  unfold decode at h
  split at h
  · cases h
  · rename_i hfits
    have hw : w < 2 ^ f.width := Nat.not_le.1 hfits
    split at h
    · obtain rfl := Except.ok.inj h
      exact encode_decodeBh w hw
    · obtain rfl := Except.ok.inj h
      exact encode_decodeDh hw
    · obtain rfl := Except.ok.inj h
      exact ⟨rfl, encode_clLen_bitField w hw⟩
    · exact hcls (i, w) (List.mem_zipIdx_iff_getElem?.2 (symbolInstr_eq_ok.1 h))
    · split at h
      · rename_i hlit
        obtain rfl := Except.ok.inj h
        refine ⟨rfl, ?_⟩
        rw [ofNat_bitField_byte, encode, BitVec.toNat_ofNat, Nat.mod_eq_of_lt hlit]
      · rename_i hlit
        exact hll (i, w) (List.mk_mem_zipIdx_iff_le_and_getElem?_sub.2 ⟨Nat.not_lt.1 hlit, symbolInstr_eq_ok.1 h⟩)
    · exact hd (i, w) (List.mem_zipIdx_iff_getElem?.2 (symbolInstr_eq_ok.1 h))

/-- Settles O3: each word evaluated. -/
theorem writtenWordsDecode : Obligations.WrittenWordsDecode := by
  unfold Obligations.WrittenWordsDecode
  decide

end Sys2Proof

namespace Sys2Proof.Machine

/-! ### Distances -/

/-- The ranges of the distance symbols stand one after another from 1 to 32768 (R62, R63). -/
theorem distBase_tiles :
    distBase.getD 0 0 = 1 ∧ distBase.getD 29 0 + 2 ^ distExtra.getD 29 0 = 32769
      ∧ (∀ d < 29, distBase.getD d 0 + 2 ^ distExtra.getD d 0 = distBase.getD (d + 1) 0)
      ∧ ∀ e < 30, ∀ d < e, distBase.getD d 0 + 2 ^ distExtra.getD d 0 ≤ distBase.getD e 0 := by
  decide

/-- Every distance lies in the range of the greatest symbol whose base does not pass it. -/
theorem exists_distBase_range {D : Nat} (hpos : 1 ≤ D) (hmax : D ≤ 32768) :
    ∃ e < 30, distBase.getD e 0 ≤ D ∧ D < distBase.getD e 0 + 2 ^ distExtra.getD e 0 := by
  obtain ⟨hfirst, hlast, hnext, -⟩ := distBase_tiles
  obtain ⟨e, he⟩ : ∃ e, Nat.findGreatest (fun d => distBase.getD d 0 ≤ D) 29 = e := ⟨_, rfl⟩
  obtain ⟨hle, hbase, hgreatest⟩ := Nat.findGreatest_eq_iff.1 he
  refine ⟨e, Nat.lt_succ_of_le hle, ?_, ?_⟩
  · rcases Nat.eq_zero_or_pos e with rfl | hpos_e
    · exact hfirst.trans_le hpos
    · exact hbase hpos_e.ne'
  · rcases Nat.lt_or_eq_of_le hle with hlt | rfl
    · rw [hnext e hlt]
      exact Nat.not_le.1 (hgreatest (Nat.lt_succ_self e) hlt)
    · omega

/-- Settles O5: the ranges cover every distance, and no two of them meet. -/
theorem everyDistanceHasOneEncoding : Obligations.EveryDistanceHasOneEncoding := by
  obtain ⟨-, -, -, hapart⟩ := distBase_tiles
  intro D hpos hmax
  obtain ⟨e, he, hbase, hend⟩ := exists_distBase_range hpos hmax
  refine ⟨(e, D - distBase.getD e 0), ⟨he, (by omega : D - distBase.getD e 0 < 2 ^ distExtra.getD e 0),
    Nat.add_sub_cancel' hbase⟩, ?_⟩
  rintro ⟨d, x⟩ ⟨hd, hx, hsum⟩
  simp only at hd hx hsum
  obtain hlt | rfl | hgt := Nat.lt_trichotomy d e
  · have := hapart e he d hlt
    omega
  · exact Prod.ext rfl (by simp only; omega)
  · have := hapart d hd e hgt
    omega

end Sys2Proof.Machine
end

section
/-! SUPPORT. The BitReader's instructions at a stream position (40_bitreader.md rules R70 to R75). -/

namespace Sys2Proof.Machine

/-! ### The stream's bits in one number -/

/-- A number of stream bits is the bits before a point and those after it (40_bitreader.md rule R74). -/
theorem streamValue_add (s : State) (p a b : Nat) :
    streamValue s p (a + b) = streamValue s p a + streamValue s (p + a) b <<< a := by
  induction a generalizing p with
  | zero => simp [streamValue]
  | succ a ih =>
    rw [Nat.succ_add, streamValue, streamValue, ih, Nat.shiftLeft_eq, Nat.shiftLeft_eq, Nat.pow_succ, Nat.add_right_comm p 1 a,
      ← Nat.add_assoc p a 1]
    ring

theorem streamValue_lt (s : State) (p n : Nat) : streamValue s p n < 2 ^ n := by
  rw [← streamValue_mod s p le_rfl]
  exact Nat.mod_lt _ (Nat.two_pow_pos n)

/-- Stream bits are bits of the source alone. -/
theorem srcBit_of_src {s t : State} (h : t.src = s.src) (k : Nat) : srcBit t k = srcBit s k := by
  simp only [srcBit, h]

theorem streamValue_of_src {s t : State} (h : t.src = s.src) (p n : Nat) : streamValue t p n = streamValue s p n := by
  induction n generalizing p with
  | zero => rfl
  | succ n ih => rw [streamValue, streamValue, ih, srcBit_of_src h]

/-! ### Cursors at stream positions -/

@[simp] theorem State.cursorAt_status (s : State) (p k : Nat) : (s.cursorAt p k).status = s.status := rfl
@[simp] theorem State.seek_bytepos (s : State) (p : Nat) : (s.seek p).bytepos = s.bytesFor p := rfl
@[simp] theorem State.seek_srclen (s : State) (p : Nat) : (s.seek p).srclen = s.srclen := rfl
@[simp] theorem State.seek_src (s : State) (p : Nat) : (s.seek p).src = s.src := rfl

/-- The cursor stands where it was placed last. -/
@[simp] theorem State.cursorAt_cursorAt (s : State) (p k q l : Nat) : (s.cursorAt p k).cursorAt q l = s.cursorAt q l := by
  have hbits := streamValue_of_src (s.cursorAt_src p k) q (8 * l - q)
  simp only [State.cursorAt] at hbits ⊢
  rw [hbits]
  rfl

theorem State.bitpos_cursorAt {s : State} {p k : Nat} (h : p ≤ 8 * k) : (s.cursorAt p k).bitpos = p := by
  simp only [State.bitpos, State.cursorAt_bytepos, State.cursorAt_bitcnt]
  omega

theorem State.le_bytesFor (s : State) (p : Nat) : p ≤ 8 * s.bytesFor p := by
  simp only [State.bytesFor]
  omega

@[simp] theorem State.bitpos_seek (s : State) (p : Nat) : (s.seek p).bitpos = p :=
  State.bitpos_cursorAt (s.le_bytesFor p)

/-- A later position needs the bytes it needs, however far the cursor has gone before. -/
theorem State.seek_seek (s : State) {p q : Nat} (h : p ≤ q) : (s.seek p).seek q = s.seek q := by
  have hbytes : (s.seek p).bytesFor q = s.bytesFor q := by
    simp only [State.bytesFor, State.seek_bytepos]
    omega
  simp only [State.seek, State.cursorAt_cursorAt] at hbytes ⊢
  rw [hbytes]

/-- A sound cursor has fetched the bytes of its own position. -/
theorem CursorOk.seek_bitpos {s : State} (h : CursorOk s) : s.seek s.bitpos = s := by
  have hbytes : s.bytesFor s.bitpos = s.bytepos := by
    simp only [State.bytesFor, State.bitpos]
    omega
  rw [State.seek, hbytes, h.cursorAt_bitpos]

/-- A cursor placed at a stream position is sound when the bytes are there and the buffer holds the rest (10_state.md rules
R10, R11). -/
theorem CursorOk.cursorAt (s : State) {p k : Nat} (hp : p ≤ 8 * k) (hk : k ≤ s.srclen) (hcnt : 8 * k - p ≤ 23) :
    CursorOk (s.cursorAt p k) where
  bytepos_le := hk
  bitcnt_le := hcnt
  bitcnt_le_fetched := Nat.sub_le _ _
  acc_lt := by
    rw [State.cursorAt, State.withCursor_acc, BitVec.toNat_ofNat]
    exact (Nat.mod_le _ _).trans_lt (streamValue_lt s p _)
  acc_bits := by
    intro j hj
    rw [State.bitpos_cursorAt hp]
    rw [State.cursorAt_bitcnt] at hj
    have hwidth : j < 24 := by omega
    rw [State.cursorAt, State.withCursor_acc, getLsbD_ofNat_streamValue]
    simp only [hwidth, hj, decide_true, Bool.true_and]
    rfl

theorem State.withResult_cursorAt (s : State) (r : OpResult) (p k : Nat) :
    (s.withResult r).cursorAt p k = (s.cursorAt p k).withResult r := by
  rw [State.cursorAt, streamValue_of_src (s.withResult_src r)]
  rfl

/-- What is said of a cursor is said of the source and the cursor's registers. -/
theorem CursorOk.of_same {s t : State} (h : CursorOk s) (hsrc : t.src = s.src) (hlen : t.srclen = s.srclen)
    (hpos : t.bytepos = s.bytepos) (hacc : t.acc = s.acc) (hcnt : t.bitcnt = s.bitcnt) : CursorOk t where
  bytepos_le := by rw [hpos, hlen]; exact h.bytepos_le
  bitcnt_le := by rw [hcnt]; exact h.bitcnt_le
  bitcnt_le_fetched := by rw [hcnt, hpos]; exact h.bitcnt_le_fetched
  acc_lt := by rw [hacc, hcnt]; exact h.acc_lt
  acc_bits := by
    intro j hj
    rw [hcnt] at hj
    rw [hacc, State.bitpos, hpos, hcnt, srcBit_of_src hsrc]
    exact h.acc_bits j hj

/-- The cursor behind a read that the source satisfies is sound. -/
theorem CursorOk.seek {s : State} (h : CursorOk s) {p : Nat} (hle : s.bitpos ≤ p) (hend : p ≤ 8 * s.srclen) :
    CursorOk (s.seek p) := by
  have hbytepos := h.bytepos_le
  have hbitcnt := h.bitcnt_le
  have hmax : s.bytesFor p ≤ s.srclen ∧ 8 * s.bytesFor p - p ≤ 23 := by
    simp only [State.bytesFor, State.bitpos] at *
    omega
  exact .cursorAt s (s.le_bytesFor p) hmax.1 hmax.2

/-- The cursor at the end of a source that a read has exhausted is sound. -/
theorem CursorOk.exhausted {s : State} (h : CursorOk s) {n : Nat} (hn : n ≤ 16) (hend : 8 * s.srclen < s.bitpos + n) :
    CursorOk (s.cursorAt s.bitpos s.srclen) := by
  have hbytepos := h.bytepos_le
  have hpos := s.bitpos_le_fetched
  exact .cursorAt s (by omega) le_rfl (by omega)

/-! ### The instructions -/

theorem exec_readBits (n : Nat) (s : State) : exec (.readBits n) s = execReadBits n s := rfl
theorem exec_peekBits (n : Nat) (s : State) : exec (.peekBits n) s = execPeekBits n s := rfl
theorem exec_refill (s : State) : exec .refill s = execRefill s := rfl

theorem execReadBits_of_le {n : Nat} (hn : n ≤ 16) (s : State) :
    execReadBits n s = ((readBits n s).bind fun v s1 => .ok () (s1.withResult (.value v))).outcome :=
  if_neg (Nat.not_lt.2 hn)

theorem execPeekBits_of_le {n : Nat} (hn : n ≤ 16) (s : State) :
    execPeekBits n s = ((peekBits n s).bind fun v s1 => .ok () (s1.withResult (.value v))).outcome := by
  exact (if_neg (by decide)).trans (if_neg (Nat.not_lt.2 hn))

/-- Settles O6: the three outcomes of a read. -/
theorem readBitsReturnsNextStreamBits : Obligations.ReadBitsReturnsNextStreamBits := by
  intro s n hs hc
  rw [exec_readBits]
  refine ⟨fun hn hend => ⟨?_, s.bitpos_seek _⟩, fun hn hend => ?_, fun hn => if_pos hn⟩
  · rw [execReadBits_of_le hn, readBits_of_available hs hc hn hend]
    rfl
  · rw [execReadBits_of_le hn, readBits_of_exhausted hs hc hend]
    rfl

section
variable {s : State} {n : Nat}

/-- `PEEKBITS(n)` with `n` bits left returns them and consumes none (40_bitreader.md rule R72). -/
theorem peekBits_of_available (hs : SrcOk s) (hc : CursorOk s) (hn : n ≤ 16) (hend : s.bitpos + n ≤ 8 * s.srclen) :
    peekBits n s = .ok (streamValue s s.bitpos n) (s.cursorAt s.bitpos (s.bytesFor (s.bitpos + n))) := by
  obtain ⟨hcover, hwidth⟩ := hc.buffered_bounds hn
  have hpow : 2 ^ n ∣ 2 ^ 24 := Nat.pow_dvd_pow 2 (by omega)
  rw [peekBits, fill_of_available hs hc hend, Res.bind_ok]
  simp only [State.accLow, State.cursorAt, State.withCursor_acc, BitVec.toNat_ofNat]
  rw [Nat.mod_mod_of_dvd _ hpow, streamValue_mod s _ (by omega)]

theorem peekBits_of_exhausted (hs : SrcOk s) (hc : CursorOk s) (hend : 8 * s.srclen < s.bitpos + n) :
    peekBits n s = .raised .streamExhausted (s.cursorAt s.bitpos s.srclen) := by
  rw [peekBits, fill_of_exhausted hs hc hend, Res.bind_raised]

/-- The cursor that a peek leaves is sound. -/
theorem CursorOk.peeked (hc : CursorOk s) (hn : n ≤ 16) (hend : s.bitpos + n ≤ 8 * s.srclen) :
    CursorOk (s.cursorAt s.bitpos (s.bytesFor (s.bitpos + n))) := by
  have hpos := s.bitpos_le_fetched
  have hbytepos := hc.bytepos_le
  have hbitcnt := hc.bitcnt_le
  have hmax : s.bitpos ≤ 8 * s.bytesFor (s.bitpos + n) ∧ s.bytesFor (s.bitpos + n) ≤ s.srclen
      ∧ 8 * s.bytesFor (s.bitpos + n) - s.bitpos ≤ 23 := by
    simp only [State.bytesFor, State.bitpos] at *
    omega
  exact .cursorAt s hmax.1 hmax.2.1 hmax.2.2

/-- A read of bits that a peek has buffered fetches nothing and returns the low bits of the peeked value (R72). -/
theorem readBits_of_peeked {m : Nat} (hs : SrcOk s) (hc : CursorOk s) (hn : n ≤ 16) (hmn : m ≤ n)
    (hend : s.bitpos + n ≤ 8 * s.srclen) :
    readBits m (s.cursorAt s.bitpos (s.bytesFor (s.bitpos + n))) =
      .ok (streamValue s s.bitpos n % 2 ^ m) (s.cursorAt (s.bitpos + m) (s.bytesFor (s.bitpos + n))) := by
  have hcover : s.bitpos ≤ 8 * s.bytesFor (s.bitpos + n) := by
    have := s.le_bytesFor (s.bitpos + n)
    omega
  have hbytes : (s.cursorAt s.bitpos (s.bytesFor (s.bitpos + n))).bytesFor (s.bitpos + m) = s.bytesFor (s.bitpos + n) := by
    simp only [State.bytesFor, State.cursorAt_bytepos]
    omega
  have hread := readBits_of_available (s := s.cursorAt s.bitpos (s.bytesFor (s.bitpos + n))) (n := m) hs
    (hc.peeked hn hend) (by omega) (by rw [State.bitpos_cursorAt hcover, State.cursorAt_srclen]; omega)
  rw [State.bitpos_cursorAt hcover, State.seek, hbytes, State.cursorAt_cursorAt] at hread
  rw [hread, streamValue_mod s _ hmn, streamValue_of_src (s.cursorAt_src _ _)]

end

/-- Settles O7: a peek, and a read of what it has buffered. -/
theorem peekBitsConsumesNothing : Obligations.PeekBitsConsumesNothing := by
  intro s n hs hc
  rw [exec_peekBits]
  refine ⟨fun hn hend => ?_, fun hn hend => ?_, fun hn => ?_⟩
  · have hpeek : execPeekBits n s = .next ((s.cursorAt s.bitpos (s.bytesFor (s.bitpos + n))).withResult
        (.value (streamValue s s.bitpos n))) := by
      rw [execPeekBits_of_le hn, peekBits_of_available hs hc hn hend]
      rfl
    refine ⟨hpeek, State.bitpos_cursorAt ?_, fun m t hmn ht => ?_⟩
    · have := s.le_bytesFor (s.bitpos + n)
      omega
    · obtain rfl := Host.Outcome.next.inj (hpeek.symm.trans ht)
      have hread := readBits_of_peeked (s := s.withResult (.value (streamValue s s.bitpos n))) hs
        (hc.of_same rfl rfl rfl rfl rfl) hn hmn hend
      rw [State.withResult_cursorAt, State.withResult_cursorAt, streamValue_of_src (s.withResult_src _)] at hread
      rw [exec_readBits, execReadBits_of_le (hmn.trans hn)]
      exact congrArg (fun r => (r.bind fun v s1 => Res.ok () (s1.withResult (.value v))).outcome) hread
  · rw [execPeekBits_of_le hn, peekBits_of_exhausted hs hc hend]
    rfl
  · exact (if_neg (by decide)).trans (if_pos hn)

/-- Settles O8: a refill is a move of the cursor's byte position. -/
theorem refillFetchesOneByte : Obligations.RefillFetchesOneByte := by
  intro s hs hc
  rw [exec_refill, execRefill]
  refine ⟨fun hlt hcnt => ?_, fun hend => ?_, fun hlt hcnt => if_pos ⟨hlt, hcnt⟩⟩
  · have hrefill := refill_cursorAt hs s.bitpos_le_fetched hlt
    rw [hc.cursorAt_bitpos] at hrefill
    rw [if_neg (fun h => Nat.not_lt.2 hcnt h.2), hrefill, Res.outcome_ok]
  · have hrefill := refill_cursorAt_end (s := s) (p := s.bitpos) hend.ge
    rw [hc.cursorAt_bitpos] at hrefill
    rw [if_neg (fun h => Nat.ne_of_lt h.1 hend), hrefill, Res.outcome_raised, State.raise]

/-- Two reads of bits that are there (40_bitreader.md rule R74). -/
theorem readBits_twice_of_available {s : State} {a b : Nat} (hs : SrcOk s) (hc : CursorOk s) (hab : a + b ≤ 16)
    (hend : s.bitpos + (a + b) ≤ 8 * s.srclen) :
    readBits a s = .ok (streamValue s s.bitpos a) (s.seek (s.bitpos + a))
      ∧ readBits b (s.seek (s.bitpos + a)) = .ok (streamValue s (s.bitpos + a) b) (s.seek (s.bitpos + (a + b))) := by
  have hsecond := readBits_of_available (s := s.seek (s.bitpos + a)) (n := b) hs (hc.seek (by omega) (by omega))
    (by omega) (by rw [State.bitpos_seek, State.seek_srclen]; omega)
  rw [State.bitpos_seek, State.seek_seek s (by omega), Nat.add_assoc, streamValue_of_src (s.seek_src _)] at hsecond
  exact ⟨readBits_of_available hs hc (by omega) (by omega), hsecond⟩

/-- Two reads of bits that are not all there: the first or the second exhausts the source (60_exceptions.md rule R157). -/
theorem readBits_twice_of_exhausted {s : State} {a b : Nat} (hs : SrcOk s) (hc : CursorOk s) (hab : a + b ≤ 16)
    (hend : 8 * s.srclen < s.bitpos + (a + b)) :
    ∃ t : State, t.bytepos = s.srclen ∧ (readBits a s = .raised .streamExhausted t
      ∨ ∃ x s1, readBits a s = .ok x s1 ∧ readBits b s1 = .raised .streamExhausted t) := by
  rcases Nat.lt_or_ge (8 * s.srclen) (s.bitpos + a) with hfirst | hfirst
  · exact ⟨s.cursorAt s.bitpos s.srclen, rfl, .inl (readBits_of_exhausted hs hc hfirst)⟩
  · have hsecond := readBits_of_exhausted (s := s.seek (s.bitpos + a)) (n := b) hs (hc.seek (by omega) hfirst)
      (by rw [State.bitpos_seek, State.seek_srclen]; omega)
    exact ⟨_, State.cursorAt_bytepos _ _ _, .inr ⟨_, _, readBits_of_available hs hc (by omega) hfirst, hsecond⟩⟩

/-- Settles O9: by whether the bits of both reads are there. -/
theorem readsConcatenate : Obligations.ReadsConcatenate := by
  intro s a b hs hc hab
  rcases Nat.lt_or_ge (8 * s.srclen) (s.bitpos + (a + b)) with hend | hend
  · obtain ⟨t1, ht1, htwice⟩ := readBits_twice_of_exhausted hs hc hab hend
    rw [readBits_of_exhausted hs hc hend]
    refine ⟨fun z t => ⟨fun h => by simp at h, ?_⟩, fun e t h => ?_⟩
    · rintro ⟨x, s1, y, h1, h2, -⟩
      rcases htwice with h | ⟨x', s1', h, h'⟩
      · cases h.symm.trans h1
      · obtain ⟨rfl, rfl⟩ := Res.ok.inj (h.symm.trans h1)
        cases h'.symm.trans h2
    · obtain ⟨rfl, rfl⟩ := Res.raised.inj h
      exact ⟨rfl, t1, ht1, htwice⟩
  · obtain ⟨h1, h2⟩ := readBits_twice_of_available hs hc hab hend
    rw [readBits_of_available hs hc hab hend]
    refine ⟨fun z t => ⟨fun h => ?_, ?_⟩, fun e t h => by simp at h⟩
    · obtain ⟨rfl, rfl⟩ := Res.ok.inj h
      exact ⟨_, _, _, h1, h2, streamValue_add s _ a b⟩
    · rintro ⟨x, s1, y, hx, hy, rfl⟩
      obtain ⟨rfl, rfl⟩ := Res.ok.inj (h1.symm.trans hx)
      obtain ⟨rfl, rfl⟩ := Res.ok.inj (h2.symm.trans hy)
      rw [streamValue_add s _ a b]

end Sys2Proof.Machine
end

section
/-! SUPPORT. Canonical codes in closed form, the Kraft inequality, and why no code begins another (41_huffman_builder.md). -/

namespace Sys2Proof

/-- A CodeLengthTable for `BUILD` of a tree has that tree's greatest length and no longer entry. -/
theorem buildOk_iff {t : TreeId} {ls : List Nat} {m : Nat} :
    buildOk t ls m = true ↔ m = t.maxLen ∧ (∀ l ∈ ls, l ≤ m) ∧ ls.length ≤ t.symbols := by
  simp [buildOk, and_assoc]

theorem TreeId.maxLen_pos (t : TreeId) : 1 ≤ t.maxLen := by cases t <;> decide

/-- What `CANON` needs of a CodeLengthTable, whichever alphabet it is for. -/
theorem bounds_of_lengthTableOk {ls : List Nat} {m : Nat} (h : lengthTableOk ls m = true) : 1 ≤ m ∧ ∀ l ∈ ls, l ≤ m := by
  have of_buildOk : ∀ t, buildOk t ls m = true → 1 ≤ m ∧ ∀ l ∈ ls, l ≤ m := fun t ht => by
    obtain ⟨rfl, hle, -⟩ := buildOk_iff.1 ht
    exact ⟨t.maxLen_pos, hle⟩
  rcases Bool.or_eq_true_iff.1 h with h | h
  · exact of_buildOk .cl h
  · exact of_buildOk .ll h

end Sys2Proof

namespace Sys2Proof.Machine

/-! ### Counting symbols by length -/

/-- A symbol of length `L` comes before the end of the count of its length. -/
theorem count_take_lt_count {ls : List Nat} {k L : Nat} (h : ls[k]? = some L) : (ls.take k).count L < ls.count L := by
  induction ls generalizing k with
  | nil => simp at h
  | cons a rest ih =>
    cases k with
    | zero =>
      obtain rfl : a = L := by simpa using h
      simp
    | succ k =>
      have hrest := ih (by simpa using h)
      rw [List.take_succ_cons, List.count_cons, List.count_cons]
      omega

/-- Of two symbols of one length the later has the greater count before it. -/
theorem count_take_lt_count_take {ls : List Nat} {i j L : Nat} (h : ls[i]? = some L) (hij : i < j) :
    (ls.take i).count L < (ls.take j).count L := by
  have hi : (ls.take j)[i]? = some L := by rw [List.getElem?_take_of_lt hij, h]
  have hlt := count_take_lt_count hi
  rwa [List.take_take, Nat.min_eq_left hij.le] at hlt

/-- The last symbol of a length that comes up. -/
theorem exists_last_of_count_pos {ls : List Nat} {L : Nat} (h : 0 < ls.count L) :
    ∃ k, ls[k]? = some L ∧ (ls.take k).count L + 1 = ls.count L := by
  induction ls with
  | nil => simp at h
  | cons a rest ih =>
    rcases Nat.eq_zero_or_pos (rest.count L) with hrest | hrest
    · obtain rfl : a = L := by
        by_contra hne
        rw [List.count_cons, hrest] at h
        simp [hne] at h
      exact ⟨0, rfl, by simp [hrest]⟩
    · obtain ⟨k, hk, hcount⟩ := ih hrest
      refine ⟨k + 1, by simpa using hk, ?_⟩
      rw [List.take_succ_cons, List.count_cons, List.count_cons]
      omega

/-! ### The assignment loop -/

/-- `cs` gives each symbol of `ls` the code that counts up from `f L` among the symbols of its length, and every such code fits
its length (41_huffman_builder.md rules R80, R81). -/
structure Assigned (f : Nat → Nat) (ls : List Nat) (cs : List (Option Code)) : Prop where
  length : cs.length = ls.length
  code : ∀ k L, ls[k]? = some L → cs[k]? = some (if L = 0 then none else some (Code.mk (f L + (ls.take k).count L) L))
  fits : ∀ k L, ls[k]? = some L → L ≠ 0 → f L + (ls.take k).count L < 2 ^ L

theorem Assigned.nil (f : Nat → Nat) : Assigned f [] [] := ⟨rfl, by simp, by simp⟩

/-- A symbol of length 0 in front gets no code and moves no count of another length. -/
theorem Assigned.cons_zero {f : Nat → Nat} {ls : List Nat} {cs : List (Option Code)} (h : Assigned f ls cs) :
    Assigned f (0 :: ls) (none :: cs) where
  length := by simp [h.length]
  code := by
    rintro (_ | k) L hk
    · obtain rfl : 0 = L := by simpa using hk
      rfl
    · rw [List.getElem?_cons_succ] at hk ⊢
      rw [h.code k L hk, List.take_succ_cons, List.count_cons]
      by_cases hL : L = 0
      · simp [hL]
      · simp [hL, Ne.symm hL]
  fits := by
    rintro (_ | k) L hk hL
    · exact absurd (by simpa using hk) (Ne.symm hL)
    · rw [List.getElem?_cons_succ] at hk
      rw [List.take_succ_cons, List.count_cons_of_ne (Ne.symm hL)]
      exact h.fits k L hk hL

/-- A symbol of length `a` in front takes the first code of its length; the others of that length count on from it. -/
theorem Assigned.cons_code {f : Nat → Nat} {a : Nat} {ls : List Nat} {cs : List (Option Code)} (ha : a ≠ 0)
    (hfits : f a < 2 ^ a) (h : Assigned (Function.update f a (f a + 1)) ls cs) :
    Assigned f (a :: ls) (some ⟨f a, a⟩ :: cs) where
  length := by simp [h.length]
  code := by
    rintro (_ | k) L hk
    · obtain rfl : a = L := by simpa using hk
      simp [ha]
    · rw [List.getElem?_cons_succ] at hk ⊢
      rw [h.code k L hk, List.take_succ_cons, List.count_cons]
      by_cases hL : L = a
      · subst hL
        simp [Nat.add_comm, Nat.add_left_comm]
      · simp [hL, Ne.symm hL]
  fits := by
    rintro (_ | k) L hk hL
    · obtain rfl : a = L := by simpa using hk
      simpa using hfits
    · rw [List.getElem?_cons_succ] at hk
      have hrest := h.fits k L hk hL
      rw [List.take_succ_cons, List.count_cons]
      by_cases hLa : L = a
      · subst hLa
        simp only [Function.update_self, beq_self_eq_true, if_true] at hrest ⊢
        omega
      · simpa [hLa, Ne.symm hLa] using hrest

/-- The table of next codes after one more code of length `a`. -/
theorem getD_set_eq_update {nc : List Nat} {a : Nat} (ha : a < nc.length) :
    (fun L => (nc.set a (nc.getD a 0 + 1)).getD L 0) = Function.update (fun L => nc.getD L 0) a (nc.getD a 0 + 1) := by
  funext L
  by_cases hL : L = a
  · subst hL
    simp [List.getD_eq_getElem?_getD, ha]
  · simp [List.getD_eq_getElem?_getD, hL, List.getElem?_set_ne (Ne.symm hL)]

/-- The loop that completes has assigned in ascending symbol order (R80). -/
theorem assigned_of_assignCodes {nc : List Nat} {s : Nat} {ls : List Nat} {cs : List (Option Code)}
    (hls : ∀ l ∈ ls, l < nc.length) (h : assignCodes nc s ls = .ok cs) : Assigned (fun L => nc.getD L 0) ls cs := by
  induction ls generalizing nc s cs with
  | nil =>
    obtain rfl := Except.ok.inj h
    exact .nil _
  | cons a rest ih =>
    obtain ⟨ha, hrest⟩ := List.forall_mem_cons.1 hls
    simp only [assignCodes] at h
    split at h
    · rename_i h0
      subst h0
      split at h
      · rename_i cs' hcs
        obtain rfl := Except.ok.inj h
        exact .cons_zero (ih hrest hcs)
      · cases h
    · rename_i h0
      split at h
      · cases h
      · rename_i hfits
        split at h
        · rename_i cs' hcs
          obtain rfl := Except.ok.inj h
          have hassigned := ih (by simpa using hrest) hcs
          rw [getD_set_eq_update ha] at hassigned
          exact .cons_code h0 (Nat.not_le.1 hfits) hassigned
        · cases h

/-- The loop completes where every code fits its length (R81). -/
theorem exists_assignCodes {nc : List Nat} {s : Nat} {ls : List Nat} (hls : ∀ l ∈ ls, l < nc.length)
    (hfits : ∀ k L, ls[k]? = some L → L ≠ 0 → nc.getD L 0 + (ls.take k).count L < 2 ^ L) :
    ∃ cs, assignCodes nc s ls = .ok cs := by
  induction ls generalizing nc s with
  | nil => exact ⟨[], rfl⟩
  | cons a rest ih =>
    obtain ⟨ha, hrest⟩ := List.forall_mem_cons.1 hls
    by_cases h0 : a = 0
    · subst h0
      obtain ⟨cs, hcs⟩ := ih (nc := nc) (s := s + 1) hrest fun k L hk hL => by
        have hcount := hfits (k + 1) L (by simpa using hk) hL
        rwa [List.take_succ_cons, List.count_cons_of_ne (Ne.symm hL)] at hcount
      exact ⟨none :: cs, by simp [assignCodes, hcs]⟩
    · have hfirst : ¬ 2 ^ a ≤ nc.getD a 0 := by
        have hcount := hfits 0 a rfl h0
        simpa using hcount
      obtain ⟨cs, hcs⟩ := ih (nc := nc.set a (nc.getD a 0 + 1)) (s := s + 1) (by simpa using hrest) fun k L hk hL => by
        have hcount := hfits (k + 1) L (by simpa using hk) hL
        rw [List.take_succ_cons, List.count_cons] at hcount
        rw [show (nc.set a (nc.getD a 0 + 1)).getD L 0 = _ from congrFun (getD_set_eq_update ha) L]
        by_cases hLa : L = a
        · subst hLa
          simp only [beq_self_eq_true, if_true, Function.update_self] at hcount ⊢
          omega
        · simpa [hLa, Ne.symm hLa] using hcount
      exact ⟨some ⟨nc.getD a 0, a⟩ :: cs, by simp only [assignCodes, if_neg h0, if_neg hfirst, hcs]⟩

/-! ### CANON -/

theorem firstCodes_getD {ls : List Nat} {m L : Nat} (h : L ≤ m) : (firstCodes ls m).getD L 0 = firstCode ls L := by
  simp [firstCodes, List.getD_eq_getElem?_getD, Nat.lt_succ_of_le h]

/-- Every code of `ls` fits its length when codes of length `L` count up from the first code of `L` (R81). -/
def CodesFit (ls : List Nat) : Prop :=
  ∀ k L, ls[k]? = some L → L ≠ 0 → firstCode ls L + (ls.take k).count L < 2 ^ L

/-- The codes of a table by its own first codes (R80). -/
theorem assigned_of_canon {ls : List Nat} {m : Nat} {cs : List (Option Code)} (hls : ∀ l ∈ ls, l ≤ m)
    (h : canon ls m = .ok cs) : Assigned (firstCode ls) ls cs := by
  have hassigned := assigned_of_assignCodes (fun l hl => by simpa [firstCodes] using Nat.lt_succ_of_le (hls l hl)) h
  have hfirst : ∀ k L, ls[k]? = some L → (firstCodes ls m).getD L 0 = firstCode ls L := fun k L hk =>
    firstCodes_getD (hls L (List.mem_of_getElem? hk))
  exact ⟨hassigned.length, fun k L hk => by rw [hassigned.code k L hk, hfirst k L hk],
    fun k L hk hL => by rw [← hfirst k L hk]; exact hassigned.fits k L hk hL⟩

/-- `CANON` completes exactly where every code fits (R81). -/
theorem canon_isOk_iff {ls : List Nat} {m : Nat} (hls : ∀ l ∈ ls, l ≤ m) : (∃ cs, canon ls m = .ok cs) ↔ CodesFit ls := by
  constructor
  · rintro ⟨cs, hcs⟩
    exact (assigned_of_canon hls hcs).fits
  · refine fun hfit => exists_assignCodes (fun l hl => by simpa [firstCodes] using Nat.lt_succ_of_le (hls l hl))
      fun k L hk hL => ?_
    rw [firstCodes_getD (hls L (List.mem_of_getElem? hk))]
    exact hfit k L hk hL

/-! ### The first code of each length -/

theorem firstCode_succ (ls : List Nat) {L : Nat} (h : 1 ≤ L) : firstCode ls (L + 1) = 2 * (firstCode ls L + ls.count L) := by
  obtain ⟨L, rfl⟩ := Nat.exists_eq_add_of_le' h
  rw [firstCode, blCount, Nat.shiftLeft_eq]
  omega

/-- A first code written as the sum of rule R81. -/
theorem firstCode_eq_sum (ls : List Nat) (L : Nat) :
    firstCode ls L = ((List.range' 1 (L - 1)).map fun l => ls.count l * 2 ^ (L - l)).sum := by
  induction L with
  | zero => rfl
  | succ L ih =>
    rcases Nat.eq_zero_or_pos L with rfl | hL
    · rfl
    · have hdouble : (List.range' 1 (L - 1)).map (fun l => ls.count l * 2 ^ (L + 1 - l))
          = (List.range' 1 (L - 1)).map (fun l => 2 * (ls.count l * 2 ^ (L - l))) := by
        refine List.map_congr_left fun l hl => ?_
        have hle : L + 1 - l = L - l + 1 := by
          have := (List.mem_range'_1.1 hl).2
          omega
        rw [hle, Nat.pow_succ]
        ring
      have hrange : List.range' 1 (L + 1 - 1) = List.range' 1 (L - 1) ++ [L] := by
        rw [show L + 1 - 1 = L - 1 + 1 by omega, List.range'_1_concat, Nat.add_sub_cancel' hL]
      rw [firstCode_succ ls hL, ih, hrange, List.map_append, List.sum_append, hdouble, List.sum_map_mul_left]
      simp
      ring

/-- All codes up to length `L`, counted in units of that length, double with each further bit. -/
theorem mul_pow_le_firstCode_add_count (ls : List Nat) {L : Nat} (h : 1 ≤ L) (d : Nat) :
    (firstCode ls L + ls.count L) * 2 ^ d ≤ firstCode ls (L + d) + ls.count (L + d) := by
  induction d with
  | zero => simp
  | succ d ih =>
    rw [← Nat.add_assoc, firstCode_succ ls (by omega), Nat.pow_succ]
    calc (firstCode ls L + ls.count L) * (2 ^ d * 2) = 2 * ((firstCode ls L + ls.count L) * 2 ^ d) := by ring
      _ ≤ 2 * (firstCode ls (L + d) + ls.count (L + d)) := Nat.mul_le_mul_left 2 ih
      _ ≤ _ := Nat.le_add_right _ _

/-- The codes of length `L` end where the codes of every greater length begin. -/
theorem mul_pow_le_firstCode (ls : List Nat) {L : Nat} (h : 1 ≤ L) {M : Nat} (hLM : L < M) :
    (firstCode ls L + ls.count L) * 2 ^ (M - L) ≤ firstCode ls M := by
  obtain ⟨d, rfl⟩ := Nat.exists_eq_add_of_lt hLM
  rw [firstCode_succ ls (by omega), show L + d + 1 - L = d + 1 by omega, Nat.pow_succ]
  have := mul_pow_le_firstCode_add_count ls h d
  calc (firstCode ls L + ls.count L) * (2 ^ d * 2) = 2 * ((firstCode ls L + ls.count L) * 2 ^ d) := by ring
    _ ≤ _ := Nat.mul_le_mul_left 2 this

/-! ### The Kraft inequality -/

/-- One more symbol of length `a` adds `2^(L-a)` to the codes up to length `L`. -/
theorem firstCode_add_count_cons (a : Nat) (ls : List Nat) {L : Nat} (h : 1 ≤ L) :
    firstCode (a :: ls) L + (a :: ls).count L =
      firstCode ls L + ls.count L + if 1 ≤ a ∧ a ≤ L then 2 ^ (L - a) else 0 := by
  induction L, h using Nat.le_induction with
  | base =>
    by_cases ha : a = 1
    · simp [ha, firstCode]
    · have hne : ¬ (1 ≤ a ∧ a ≤ 1) := by omega
      rw [if_neg hne, List.count_cons_of_ne ha]
      rfl
  | succ L hL ih =>
    rw [firstCode_succ _ hL, firstCode_succ _ hL, ih, List.count_cons]
    by_cases ha : a = L + 1
    · subst ha
      simp
      omega
    · by_cases hle : 1 ≤ a ∧ a ≤ L
      · have hstep : L + 1 - a = L - a + 1 := by omega
        have hnext : 1 ≤ a ∧ a ≤ L + 1 := by omega
        rw [if_pos hle, if_pos hnext, hstep, Nat.pow_succ]
        simp [ha]
        ring
      · have hnext : ¬ (1 ≤ a ∧ a ≤ L + 1) := by omega
        rw [if_neg hle, if_neg hnext]
        simp [ha]

/-- The Kraft sum is the number of codes used, in units of the greatest length. -/
theorem kraftSum_eq {ls : List Nat} {m : Nat} (hm : 1 ≤ m) (hls : ∀ l ∈ ls, l ≤ m) :
    kraftSum ls m = firstCode ls m + ls.count m := by
  induction ls with
  | nil =>
    have hzero : ∀ L, firstCode [] L = 0 := fun L => by rw [firstCode_eq_sum]; simp
    simp [kraftSum, hzero]
  | cons a rest ih =>
    obtain ⟨ha, hrest⟩ := List.forall_mem_cons.1 hls
    rw [firstCode_add_count_cons a rest hm, ← ih hrest]
    by_cases h0 : a = 0
    · simp [kraftSum, h0]
    · have hpos : 1 ≤ a ∧ a ≤ m := by omega
      simp [kraftSum, h0, hpos, Nat.add_comm]

/-- Where every code fits, the codes up to each length do. -/
theorem CodesFit.firstCode_add_count_le {ls : List Nat} (h : CodesFit ls) {L : Nat} (hL : 1 ≤ L) :
    firstCode ls L + ls.count L ≤ 2 ^ L := by
  induction L, hL using Nat.le_induction with
  | base =>
    rcases Nat.eq_zero_or_pos (ls.count 1) with hc | hc
    · simp [hc, firstCode]
    · obtain ⟨k, hk, hlast⟩ := exists_last_of_count_pos hc
      have := h k 1 hk (by omega)
      omega
  | succ L hL ih =>
    rcases Nat.eq_zero_or_pos (ls.count (L + 1)) with hc | hc
    · rw [hc, firstCode_succ ls hL, Nat.pow_succ]
      omega
    · obtain ⟨k, hk, hlast⟩ := exists_last_of_count_pos hc
      have := h k (L + 1) hk (by omega)
      omega

/-- The over-subscription check rejects exactly the tables that break the Kraft inequality (R82). -/
theorem codesFit_iff_kraftOk {ls : List Nat} {m : Nat} (hm : 1 ≤ m) (hls : ∀ l ∈ ls, l ≤ m) : CodesFit ls ↔ kraftOk ls m := by
  rw [kraftOk, kraftSum_eq hm hls]
  refine ⟨fun h => h.firstCode_add_count_le hm, fun h k L hk hL => ?_⟩
  have hLm : L ≤ m := hls L (List.mem_of_getElem? hk)
  have hscaled := mul_pow_le_firstCode_add_count ls (Nat.one_le_iff_ne_zero.2 hL) (m - L)
  rw [Nat.add_sub_cancel' hLm] at hscaled
  have hsplit : 2 ^ m = 2 ^ L * 2 ^ (m - L) := by rw [← Nat.pow_add, Nat.add_sub_cancel' hLm]
  have hall : firstCode ls L + ls.count L ≤ 2 ^ L :=
    Nat.le_of_mul_le_mul_right (hsplit ▸ hscaled.trans h) (Nat.two_pow_pos _)
  have := count_take_lt_count hk
  omega

theorem canon_isOk_iff_kraftOk {ls : List Nat} {m : Nat} (hm : 1 ≤ m) (hls : ∀ l ∈ ls, l ≤ m) :
    (∃ cs, canon ls m = .ok cs) ↔ kraftOk ls m :=
  (canon_isOk_iff hls).trans (codesFit_iff_kraftOk hm hls)

theorem exists_canon_error {ls : List Nat} {m : Nat} (h : ¬ ∃ cs, canon ls m = .ok cs) : ∃ e, canon ls m = .error e := by
  cases hc : canon ls m with
  | ok cs => exact absurd ⟨cs, hc⟩ h
  | error e => exact ⟨e, rfl⟩

theorem exec_canon (ls : List Nat) (m : Nat) (s : State) : exec (.canon ls m) s = execCanon ls m s := rfl

/-- Settles O10: every code fits its length exactly where the Kraft sum is at most 1. -/
theorem canonAcceptsExactlyKraftTables : Obligations.CanonAcceptsExactlyKraftTables := by
  intro s ls m hok
  obtain ⟨hm, hls⟩ := bounds_of_lengthTableOk hok
  rw [exec_canon, execCanon, if_pos hok]
  constructor
  · intro hkraft
    obtain ⟨cs, hcs⟩ := (canon_isOk_iff_kraftOk hm hls).2 hkraft
    rw [hcs]
    exact ⟨cs, rfl, rfl⟩
  · intro hkraft
    obtain ⟨e, he⟩ := exists_canon_error (mt (canon_isOk_iff_kraftOk hm hls).1 hkraft)
    rw [he]
    rfl

/-- Settles O11: the assignment loop starts each length at its first code, a sum over the shorter lengths. -/
theorem canonCodesAscendBySymbol : Obligations.CanonCodesAscendBySymbol := by
  intro ls m cs hok hcanon
  have hassigned := assigned_of_canon (bounds_of_lengthTableOk hok).2 hcanon
  refine ⟨hassigned.length, fun k L hk => ?_⟩
  rw [hassigned.code k L hk, firstCode_eq_sum]

/-! ### No code begins another -/

@[simp] theorem Code.length_bits (c : Code) : c.bits.length = c.len := by simp [Code.bits]

theorem Code.getElem?_bits (c : Code) {j : Nat} (h : j < c.len) : c.bits[j]? = some (c.code.testBit (c.len - 1 - j)) := by
  simp [Code.bits, h]

/-- Code bits that begin those of another code are its upper bits. -/
theorem Code.code_eq_shiftRight_of_bits {c d : Code} (hc : c.code < 2 ^ c.len) (hd : d.code < 2 ^ d.len)
    (h : c.bits <+: d.bits) : c.len ≤ d.len ∧ c.code = d.code >>> (d.len - c.len) := by
  have hlen : c.len ≤ d.len := by simpa using h.length_le
  refine ⟨hlen, Nat.eq_of_testBit_eq fun i => ?_⟩
  rw [Nat.testBit_shiftRight]
  rcases Nat.lt_or_ge i c.len with hi | hi
  · have hbit : c.bits[c.len - 1 - i]? = d.bits[c.len - 1 - i]? := by
      obtain ⟨rest, hrest⟩ := h
      rw [← hrest, List.getElem?_append_left (by rw [Code.length_bits]; omega)]
    rw [Code.getElem?_bits c (by omega), Code.getElem?_bits d (by omega)] at hbit
    have hi1 : c.len - 1 - (c.len - 1 - i) = i := by omega
    have hi2 : d.len - 1 - (c.len - 1 - i) = d.len - c.len + i := by omega
    rw [hi1, hi2] at hbit
    exact Option.some.inj hbit
  · rw [Nat.testBit_lt_two_pow (hc.trans_le (Nat.pow_le_pow_right (by omega) hi)),
      Nat.testBit_lt_two_pow (hd.trans_le (Nat.pow_le_pow_right (by omega) (by omega)))]

/-- What is known of a symbol's code: its length is the table's, and it counts up from the length's first code. -/
theorem Assigned.of_code {ls : List Nat} {cs : List (Option Code)} (h : Assigned (firstCode ls) ls cs) {k : Nat} {c : Code}
    (hk : cs[k]? = some (some c)) :
    ls[k]? = some c.len ∧ 1 ≤ c.len ∧ c.code = firstCode ls c.len + (ls.take k).count c.len ∧ c.code < 2 ^ c.len := by
  obtain ⟨L, hL⟩ : ∃ L, ls[k]? = some L := by
    have hlt : k < cs.length := (List.getElem?_eq_some_iff.1 hk).1
    exact ⟨ls[k]'(h.length ▸ hlt), List.getElem?_eq_getElem _⟩
  have hcode := h.code k L hL
  have hfits := h.fits k L hL
  rw [hk] at hcode
  split at hcode
  · simp at hcode
  · rename_i h0
    obtain rfl : c = ⟨firstCode ls L + (ls.take k).count L, L⟩ := by simpa using hcode
    exact ⟨hL, Nat.one_le_iff_ne_zero.2 h0, rfl, hfits h0⟩

/-- No code begins the code of another symbol: codes of one length differ in their count, and longer codes start behind every
shorter one (R83). -/
theorem Assigned.bits_not_begin {ls : List Nat} {cs : List (Option Code)} (h : Assigned (firstCode ls) ls cs) {i j : Nat}
    {ci cj : Code} (hij : i ≠ j) (hi : cs[i]? = some (some ci)) (hj : cs[j]? = some (some cj)) : ¬ ci.bits <+: cj.bits := by
  intro hbits
  obtain ⟨hli, hposi, hcodei, hfiti⟩ := h.of_code hi
  obtain ⟨hlj, hposj, hcodej, hfitj⟩ := h.of_code hj
  obtain ⟨hlen, hcode⟩ := Code.code_eq_shiftRight_of_bits hfiti hfitj hbits
  rcases Nat.lt_or_eq_of_le hlen with hlt | heq
  · have hbehind := mul_pow_le_firstCode ls hposi hlt
    have hcount := count_take_lt_count hli
    have hle : firstCode ls ci.len + ls.count ci.len ≤ cj.code >>> (cj.len - ci.len) := by
      rw [Nat.shiftRight_eq_div_pow, Nat.le_div_iff_mul_le (Nat.two_pow_pos _)]
      omega
    omega
  · rw [← heq, Nat.sub_self, Nat.shiftRight_zero] at hcode
    rw [← heq] at hlj hcodej
    rcases Nat.lt_or_gt_of_ne hij with hlt | hgt
    · have := count_take_lt_count_take hli hlt
      omega
    · have := count_take_lt_count_take hlj hgt
      omega

/-- Settles O12: by the closed form of the codes. -/
theorem canonCodesArePrefixFree : Obligations.CanonCodesArePrefixFree := by
  intro ls m cs i j ci cj hok hcanon hij hi hj
  exact (assigned_of_canon (bounds_of_lengthTableOk hok).2 hcanon).bits_not_begin hij hi hj

end Sys2Proof.Machine
end

section
/-! SUPPORT. The arena of a tree read as paths: where a path leads, and what one new child and one new code do to the paths
(42_huffman_tree.md rules R90, R91). -/

namespace Sys2Proof.Machine

/-! ### Nodes, children and paths -/

/-- A node's child field, none where the node is a LEAF. -/
def Node.child (n : Node) (b : Bool) : Option (Option Nat) :=
  match n with
  | .internal c0 c1 => some (if b then c1 else c0)
  | .leaf _ => none

theorem Tree.child_eq (T : Tree) (i : Nat) (b : Bool) : T.child i b = T.nodes[i]?.bind (·.child b) := by
  rw [Tree.child]
  cases T.nodes[i]? with
  | none => rfl
  | some n => cases n <;> rfl

/-- The child of node `i`, none where there is none. -/
def Tree.next (T : Tree) (i : Nat) (b : Bool) : Option Nat := (T.child i b).join

theorem Tree.next_eq_some {T : Tree} {i j : Nat} {b : Bool} : T.next i b = some j ↔ T.child i b = some (some j) := by
  rw [Tree.next, Option.join_eq_some_iff]

/-- The node that a path of bits leads to from node `i`, none where the path leaves the tree. -/
def Tree.path (T : Tree) (i : Nat) : List Bool → Option Nat
  | [] => some i
  | b :: rest => (T.next i b).bind fun j => T.path j rest

@[simp] theorem Tree.path_nil (T : Tree) (i : Nat) : T.path i [] = some i := rfl

theorem Tree.path_cons (T : Tree) (i : Nat) (b : Bool) (p : List Bool) :
    T.path i (b :: p) = (T.next i b).bind fun j => T.path j p := rfl

theorem Tree.path_append (T : Tree) (i : Nat) (p q : List Bool) :
    T.path i (p ++ q) = (T.path i p).bind fun j => T.path j q := by
  induction p generalizing i with
  | nil => rfl
  | cons b p ih =>
    simp only [List.cons_append, Tree.path_cons, Option.bind_assoc]
    exact Option.bind_congr fun j _ => ih j

theorem Tree.path_concat (T : Tree) (i : Nat) (p : List Bool) (b : Bool) :
    T.path i (p ++ [b]) = (T.path i p).bind fun j => T.next j b := by
  rw [Tree.path_append]
  exact Option.bind_congr fun j _ => by simp [Tree.path_cons]

/-- A walk gives the node at the path's end. -/
theorem Tree.walk_eq (T : Tree) (i : Nat) (p : List Bool) : T.walk i p = (T.path i p).bind fun j => T.nodes[j]? := by
  induction p generalizing i with
  | nil => rfl
  | cons b p ih =>
    rw [Tree.walk, Tree.path_cons, Tree.next]
    rcases T.child i b with _ | _ | j
    · rfl
    · rfl
    · exact ih j

theorem Tree.walk_eq_some {T : Tree} {i : Nat} {p : List Bool} {n : Node} :
    T.walk i p = some n ↔ ∃ j, T.path i p = some j ∧ T.nodes[j]? = some n := by
  rw [Tree.walk_eq, Option.bind_eq_some_iff]

theorem Tree.walk_cons (T : Tree) (i : Nat) (b : Bool) (p : List Bool) :
    T.walk i (b :: p) = (T.next i b).bind fun j => T.walk j p := by
  rw [Tree.walk_eq, Tree.path_cons, Option.bind_assoc]
  exact Option.bind_congr fun j _ => (T.walk_eq j p).symm

/-- Node `i` is INTERNAL. -/
def Tree.Inner (T : Tree) (i : Nat) : Prop := ∃ c0 c1, T.nodes[i]? = some (Node.internal c0 c1)

theorem Tree.Inner.not_leaf {T : Tree} {i v : Nat} (h : T.Inner i) : T.nodes[i]? ≠ some (Node.leaf v) := by
  obtain ⟨c0, c1, h⟩ := h
  simp [h]

/-- An INTERNAL node has both child fields. -/
theorem Tree.Inner.child {T : Tree} {i : Nat} (h : T.Inner i) (b : Bool) : T.child i b = some (T.next i b) := by
  obtain ⟨c0, c1, h⟩ := h
  simp [Tree.next, Tree.child_eq, h, Node.child]

/-- A node with a child field is INTERNAL. -/
theorem Tree.inner_of_child {T : Tree} {i : Nat} {b : Bool} {o : Option Nat} (h : T.child i b = some o) : T.Inner i := by
  rw [Tree.child_eq] at h
  obtain ⟨n, hn, hchild⟩ := Option.bind_eq_some_iff.1 h
  cases n with
  | internal c0 c1 => exact ⟨c0, c1, hn⟩
  | leaf v => simp [Node.child] at hchild

theorem Tree.inner_of_next {T : Tree} {i j : Nat} {b : Bool} (h : T.next i b = some j) : T.Inner i :=
  Tree.inner_of_child (Tree.next_eq_some.1 h)

/-! ### A tree whose fields are all there -/

section
variable {n m : Nat} {T : Tree}

theorem TreeOk.root_inner (h : TreeOk n m T) : T.Inner 0 := h.root

theorem TreeOk.count_pos (h : TreeOk n m T) : 0 < T.count := by
  obtain ⟨c0, c1, hroot⟩ := h.root
  exact (List.getElem?_eq_some_iff.1 hroot).1

theorem TreeOk.next_lt (h : TreeOk n m T) {i j : Nat} {b : Bool} (hj : T.next i b = some j) : j < T.count := by
  obtain ⟨c0, c1, hi⟩ := Tree.inner_of_next hj
  rw [Tree.next_eq_some, Tree.child_eq, hi, Option.bind_some, Node.child, Option.some.injEq] at hj
  cases b with
  | false => exact h.child0 i j c1 (by rw [hi]; exact congrArg (fun c => some (Node.internal c c1)) hj)
  | true => exact h.child1 i c0 j (by rw [hi]; exact congrArg (fun c => some (Node.internal c0 c)) hj)

theorem TreeOk.path_lt (h : TreeOk n m T) {i j : Nat} {p : List Bool} (hi : i < T.count) (hj : T.path i p = some j) :
    j < T.count := by
  induction p generalizing i with
  | nil => exact Option.some.inj hj ▸ hi
  | cons b p ih =>
    obtain ⟨k, hk, hrest⟩ := Option.bind_eq_some_iff.1 hj
    exact ih (h.next_lt hk) hrest

/-- A path that leads somewhere ends at a node. -/
theorem TreeOk.exists_walk (h : TreeOk n m T) {j : Nat} {p : List Bool} (hj : T.path 0 p = some j) :
    ∃ a, T.walk 0 p = some a :=
  ⟨T.nodes[j]'(h.path_lt h.count_pos hj), Tree.walk_eq_some.2 ⟨j, hj, List.getElem?_eq_getElem _⟩⟩

/-- The conditions of a tree, its children taken one by one. -/
theorem TreeOk.of_next (root : T.Inner 0) (next : ∀ i b j, T.next i b = some j → j < T.count)
    (symbols : ∀ i v : Nat, T.nodes[i]? = some (Node.leaf v) → v < n) (maxlen : T.maxlen ≤ m) : TreeOk n m T where
  root := root
  child0 := fun i j c1 hi => next i false j (by rw [Tree.next_eq_some, Tree.child_eq, hi]; rfl)
  child1 := fun i c0 j hi => next i true j (by rw [Tree.next_eq_some, Tree.child_eq, hi]; rfl)
  symbols := symbols
  maxlen := maxlen

/-- In a tree no two paths lead to one node. -/
theorem TreeShaped.path_inj (h : TreeShaped T) {p q : List Bool} {k : Nat} (hp : T.path 0 p = some k)
    (hq : T.path 0 q = some k) : p = q := by
  have root_only : ∀ r : List Bool, T.path 0 r = some 0 → r = [] := fun r hr => by
    rcases List.eq_nil_or_concat' r with rfl | ⟨r, b, rfl⟩
    · rfl
    · rw [Tree.path_concat] at hr
      obtain ⟨i, -, hi⟩ := Option.bind_eq_some_iff.1 hr
      exact absurd (Tree.next_eq_some.1 hi) (h.root i b)
  induction p using List.reverseRecOn generalizing q k with
  | nil =>
    obtain rfl := Option.some.inj hp
    exact (root_only q hq).symm
  | append_singleton p b ih =>
    rcases List.eq_nil_or_concat' q with rfl | ⟨q, d, rfl⟩
    · obtain rfl := Option.some.inj hq
      exact root_only _ hp
    · rw [Tree.path_concat] at hp hq
      obtain ⟨i, hi, hik⟩ := Option.bind_eq_some_iff.1 hp
      obtain ⟨j, hj, hjk⟩ := Option.bind_eq_some_iff.1 hq
      obtain ⟨rfl, rfl⟩ := h.parent _ _ _ _ _ (Tree.next_eq_some.1 hik) (Tree.next_eq_some.1 hjk)
      rw [ih hi hj]

end

/-! ### One new child -/

/-- A node that a rule creates: a LEAF, or an INTERNAL node with no child (R90). -/
def Node.Bare (a : Node) : Prop := ∀ b j, a.child b ≠ some (some j)

theorem Node.bare_leaf (v : Nat) : (Node.leaf v).Bare := fun b j => by simp [Node.child]

theorem Node.bare_internal : (Node.internal none none).Bare := fun b j => by cases b <;> simp [Node.child]

section
variable {n m : Nat} {T : Tree} {i : Nat} {b : Bool} {a : Node}

@[simp] theorem Tree.addChild_count (T : Tree) (i : Nat) (b : Bool) (a : Node) : (T.addChild i b a).count = T.count + 1 := by
  simp [Tree.addChild, Tree.count]

/-- The new node. -/
@[simp] theorem Tree.addChild_nodes_count (T : Tree) (i : Nat) (b : Bool) (a : Node) :
    (T.addChild i b a).nodes[T.count]? = some a := by
  simp [Tree.addChild, Tree.count]

/-- The nodes that were there. -/
theorem Tree.addChild_nodes_lt {k : Nat} (hk : k < T.count) :
    (T.addChild i b a).nodes[k]? = T.nodes[k]?.map fun x => if i = k then x.withChild b T.count else x := by
  have hk' : k < (T.nodes.modify i (·.withChild b T.count)).length := by simpa [Tree.count] using hk
  rw [Tree.addChild, List.getElem?_append_left hk', List.getElem?_modify]
  by_cases h : i = k
  · simp [h]
  · simp [h]

theorem Node.withChild_child (x : Node) (b d : Bool) (j : Nat) :
    (x.withChild b j).child d = if d = b then (x.child d).map fun _ => some j else x.child d := by
  cases x with
  | leaf v => simp [Node.withChild, Node.child]
  | internal c0 c1 => cases b <;> cases d <;> simp [Node.withChild, Node.child]

/-- The children that were there, and the new one. -/
theorem Tree.addChild_next_lt {k : Nat} (hk : k < T.count) (hi : T.child i b = some none) (d : Bool) :
    (T.addChild i b a).next k d = if k = i ∧ d = b then some T.count else T.next k d := by
  have hnext : (T.addChild i b a).child k d = T.nodes[k]?.bind fun x =>
      (if i = k then x.withChild b T.count else x).child d := by
    rw [Tree.child_eq, Tree.addChild_nodes_lt hk, Option.bind_map]
    rfl
  rw [Tree.next, hnext]
  by_cases hki : i = k
  · subst hki
    rw [Tree.child_eq] at hi
    obtain ⟨x, hx, hchild⟩ := Option.bind_eq_some_iff.1 hi
    rw [Tree.next, Tree.child_eq, hx, Option.bind_some, Option.bind_some, if_pos rfl, Node.withChild_child]
    by_cases hd : d = b
    · subst hd
      simp [hchild]
    · simp [hd]
  · rw [if_neg (fun h => hki h.1.symm), Tree.next, Tree.child_eq]
    simp only [if_neg hki]

/-- The new node has no child. -/
theorem Tree.addChild_next_count (ha : a.Bare) (d : Bool) : (T.addChild i b a).next T.count d = none := by
  rw [Option.eq_none_iff_forall_ne_some]
  intro j hj
  rw [Tree.next_eq_some, Tree.child_eq, Tree.addChild_nodes_count] at hj
  exact ha d j hj

/-- Every child of the larger tree: the new edge, or an edge that was there. -/
theorem Tree.addChild_next_eq_some (hi : T.child i b = some none) (ha : a.Bare) {k j : Nat} {d : Bool} :
    (T.addChild i b a).next k d = some j ↔ (k = i ∧ d = b ∧ j = T.count) ∨ T.next k d = some j := by
  have hnone : T.next i b = none := by rw [Tree.next, hi]; rfl
  have hilt : i < T.count := by
    obtain ⟨c0, c1, h⟩ := Tree.inner_of_child hi
    exact (List.getElem?_eq_some_iff.1 h).1
  rcases Nat.lt_trichotomy k T.count with hk | rfl | hk
  · rw [Tree.addChild_next_lt hk hi]
    by_cases h : k = i ∧ d = b
    · obtain ⟨rfl, rfl⟩ := h
      simp [hnone, eq_comm]
    · rw [if_neg h]
      exact ⟨.inr, fun hj => hj.resolve_left fun hc => h ⟨hc.1, hc.2.1⟩⟩
  · have hold : T.next T.count d = none := by simp [Tree.next, Tree.child_eq, Tree.count]
    rw [Tree.addChild_next_count ha, hold]
    simp [hilt.ne']
  · have hout : ∀ U : Tree, U.count ≤ k → U.next k d = none := fun U hU => by
      simp [Tree.next, Tree.child_eq, List.getElem?_eq_none hU]
    rw [hout T hk.le, hout _ (by simpa using hk)]
    simp only [reduceCtorEq, or_false, false_iff]
    rintro ⟨rfl, -⟩
    omega

/-- Leaves that were there stay, and no other node becomes one. -/
theorem Tree.addChild_leaf_lt {k v : Nat} (hk : k < T.count) :
    (T.addChild i b a).nodes[k]? = some (Node.leaf v) ↔ T.nodes[k]? = some (Node.leaf v) := by
  rw [Tree.addChild_nodes_lt hk]
  cases T.nodes[k]? with
  | none => simp
  | some x =>
    by_cases h : i = k
    · cases x <;> simp [h, Node.withChild]
      split <;> simp
    · simp [h]

theorem Tree.Inner.addChild {k : Nat} (h : T.Inner k) : (T.addChild i b a).Inner k := by
  obtain ⟨c0, c1, h⟩ := h
  rw [Tree.Inner, Tree.addChild_nodes_lt (List.getElem?_eq_some_iff.1 h).1, h]
  by_cases hik : i = k
  · cases b <;> simp [hik, Node.withChild]
  · simp [hik]

/-- Paths that were there lead where they led. -/
theorem Tree.addChild_path_of_path (hi : T.child i b = some none) (ha : a.Bare) {k j : Nat} {p : List Bool}
    (h : T.path k p = some j) : (T.addChild i b a).path k p = some j := by
  induction p generalizing k with
  | nil => exact h
  | cons d p ih =>
    obtain ⟨l, hl, hrest⟩ := Option.bind_eq_some_iff.1 h
    exact Option.bind_eq_some_iff.2 ⟨l, (Tree.addChild_next_eq_some hi ha).2 (.inr hl), ih hrest⟩

/-- Every path of the larger tree was there, or is one to the new child. -/
theorem Tree.addChild_path (hi : T.child i b = some none) (ha : a.Bare) {k : Nat} {p : List Bool}
    (h : (T.addChild i b a).path 0 p = some k) :
    T.path 0 p = some k ∨ (k = T.count ∧ ∃ q, p = q ++ [b] ∧ T.path 0 q = some i) := by
  induction p using List.reverseRecOn generalizing k with
  | nil => exact .inl h
  | append_singleton p d ih =>
    rw [Tree.path_concat] at h
    obtain ⟨l, hl, hlk⟩ := Option.bind_eq_some_iff.1 h
    rcases ih hl with hold | ⟨rfl, -⟩
    · rcases (Tree.addChild_next_eq_some hi ha).1 hlk with ⟨rfl, rfl, rfl⟩ | hnext
      · exact .inr ⟨rfl, p, rfl, hold⟩
      · left
        rw [Tree.path_concat]
        exact Option.bind_eq_some_iff.2 ⟨l, hold, hnext⟩
    · rw [Tree.addChild_next_count ha] at hlk
      cases hlk

/-- One new child keeps the tree's fields all there. -/
theorem TreeOk.addChild (hT : TreeOk n m T) (hi : T.child i b = some none) (ha : a.Bare)
    (hsym : ∀ v, a = .leaf v → v < n) : TreeOk n m (T.addChild i b a) :=
  .of_next hT.root_inner.addChild
    (fun k d j hj => by
      rw [Tree.addChild_count]
      rcases (Tree.addChild_next_eq_some hi ha).1 hj with ⟨-, -, rfl⟩ | hold
      · exact Nat.lt_succ_self _
      · exact Nat.lt_succ_of_lt (hT.next_lt hold))
    (fun k v hk => by
      have hlt : k < T.count + 1 := by
        rw [← Tree.addChild_count T i b a]
        exact (List.getElem?_eq_some_iff.1 hk).1
      rcases Nat.lt_or_eq_of_le (Nat.lt_succ_iff.1 hlt) with hlt | rfl
      · exact hT.symbols k v ((Tree.addChild_leaf_lt hlt).1 hk)
      · rw [Tree.addChild_nodes_count] at hk
        exact hsym v (Option.some.inj hk))
    hT.maxlen

/-- One new child keeps the arena a tree. -/
theorem TreeShaped.addChild (hs : TreeShaped T) (hT : TreeOk n m T) (hi : T.child i b = some none) (ha : a.Bare) :
    TreeShaped (T.addChild i b a) where
  root := fun k d hk => by
    rcases (Tree.addChild_next_eq_some hi ha).1 (Tree.next_eq_some.2 hk) with ⟨-, -, h0⟩ | hold
    · exact absurd h0 hT.count_pos.ne
    · exact hs.root k d (Tree.next_eq_some.1 hold)
  parent := fun k d l e j hk hl => by
    rcases (Tree.addChild_next_eq_some hi ha).1 (Tree.next_eq_some.2 hk) with ⟨rfl, rfl, rfl⟩ | hold
    · rcases (Tree.addChild_next_eq_some hi ha).1 (Tree.next_eq_some.2 hl) with ⟨rfl, rfl, -⟩ | hold
      · exact ⟨rfl, rfl⟩
      · exact absurd (hT.next_lt hold) (Nat.lt_irrefl _)
    · rcases (Tree.addChild_next_eq_some hi ha).1 (Tree.next_eq_some.2 hl) with ⟨rfl, rfl, rfl⟩ | hold'
      · exact absurd (hT.next_lt hold) (Nat.lt_irrefl _)
      · exact hs.parent k d l e j (Tree.next_eq_some.1 hold) (Tree.next_eq_some.1 hold')

end

end Sys2Proof.Machine
end

section
/-! SUPPORT. `ADDLEAF`: the path of one code is grown from the root and ends in its leaf (42_huffman_tree.md rule R91). -/

namespace Sys2Proof.Machine

/-! ### The loop of ADDLEAF over a list of bits -/

/-- The code bits `i` down to 1. -/
def upperBits (c i : Nat) : List Bool := (List.range i).map fun j => c.testBit (i - j)

theorem upperBits_succ (c i : Nat) : upperBits c (i + 1) = c.testBit (i + 1) :: upperBits c i := by
  simp [upperBits, List.range_succ_eq_map, Function.comp_def]

@[simp] theorem length_upperBits (c i : Nat) : (upperBits c i).length = i := by simp [upperBits]

/-- A code's bits are its upper bits and bit 0 (20_memory.md rule R43). -/
theorem Code.bits_succ (c L : Nat) : Code.bits ⟨c, L + 1⟩ = upperBits c L ++ [c.testBit 0] := by
  simp [Code.bits, upperBits, List.range_succ]

/-- `Tree.addPath` over the list of its bits. -/
def Tree.grow : List Bool → Tree → Nat → Except TreeErr (Tree × Nat)
  | [], T, i => .ok (T, i)
  | b :: rest, T, i =>
    match T.child i b with
    | none => .error .noNode
    | some none => Tree.grow rest (T.addChild i b (.internal none none)) T.count
    | some (some j) =>
      match T.nodes[j]? with
      | none => .error .noNode
      | some (.leaf _) => .error .malformed
      | some (.internal _ _) => Tree.grow rest T j

theorem Tree.addPath_eq_grow (c i : Nat) (T : Tree) (k : Nat) : Tree.addPath c i T k = Tree.grow (upperBits c i) T k := by
  induction i generalizing T k with
  | zero => rfl
  | succ i ih =>
    rw [upperBits_succ, Tree.addPath, Tree.grow]
    rcases T.child k (c.testBit (i + 1)) with _ | _ | j
    · rfl
    · exact ih _ _
    · dsimp only
      rcases T.nodes[j]? with _ | ⟨c0, c1⟩ | v
      · rfl
      · exact ih T j
      · rfl

section
variable {n m : Nat}

theorem Tree.grow_cons_none {T : Tree} {i : Nat} {b : Bool} (rest : List Bool) (h : T.child i b = some none) :
    Tree.grow (b :: rest) T i = Tree.grow rest (T.addChild i b (.internal none none)) T.count := by
  rw [Tree.grow, h]

theorem Tree.grow_cons_inner {T : Tree} {i j : Nat} {b : Bool} (rest : List Bool) (h : T.next i b = some j)
    (hj : T.Inner j) : Tree.grow (b :: rest) T i = Tree.grow rest T j := by
  obtain ⟨c0, c1, hj⟩ := hj
  rw [Tree.grow, Tree.next_eq_some.1 h]
  simp only [hj]

theorem Tree.grow_cons_leaf {T : Tree} {i j v : Nat} {b : Bool} (rest : List Bool) (h : T.next i b = some j)
    (hj : T.nodes[j]? = some (Node.leaf v)) : Tree.grow (b :: rest) T i = .error .malformed := by
  rw [Tree.grow, Tree.next_eq_some.1 h]
  simp only [hj]

/-- What growing the path `bs` from the end of the path `q` does to a tree: `k` is the INTERNAL node at the end, the new nodes
are INTERNAL, and the paths that were there stay. -/
structure Grown (n m : Nat) (T T1 : Tree) (q bs : List Bool) (k : Nat) : Prop where
  ok : TreeOk n m T1
  maxlen : T1.maxlen = T.maxlen
  le_count : T.count ≤ T1.count
  count_le : T1.count ≤ T.count + bs.length
  keeps : ∀ i p j, T.path i p = some j → T1.path i p = some j
  leaf : ∀ j v : Nat, T1.nodes[j]? = some (Node.leaf v) ↔ T.nodes[j]? = some (Node.leaf v)
  reach : T1.path 0 (q ++ bs) = some k
  inner : T1.Inner k
  shaped : TreeShaped T → TreeShaped T1
  paths : TreeShaped T → ∀ p j, T1.path 0 p = some j → T.path 0 p = some j ∨ (T.count ≤ j ∧ p <+: q ++ bs)

theorem Grown.refl {T : Tree} {q : List Bool} {k : Nat} (hT : TreeOk n m T) (hq : T.path 0 q = some k)
    (hk : T.Inner k) : Grown n m T T q [] k where
  ok := hT
  maxlen := rfl
  le_count := le_rfl
  count_le := le_rfl
  keeps := fun _ _ _ h => h
  leaf := fun _ _ => .rfl
  reach := by rw [List.append_nil, hq]
  inner := hk
  shaped := id
  paths := fun _ _ _ h => .inl h

/-- A bit that leads on to a node that is there. -/
theorem Grown.cons {T T1 : Tree} {q bs : List Bool} {b : Bool} {k : Nat} (h : Grown n m T T1 (q ++ [b]) bs k) :
    Grown n m T T1 q (b :: bs) k where
  ok := h.ok
  maxlen := h.maxlen
  le_count := h.le_count
  count_le := h.count_le.trans (Nat.add_le_add_left (Nat.le_succ _) _)
  keeps := h.keeps
  leaf := h.leaf
  reach := by simpa using h.reach
  inner := h.inner
  shaped := h.shaped
  paths := by simpa using h.paths

/-- A bit for which an INTERNAL node is created. -/
theorem Grown.cons_new {T T1 : Tree} {q bs : List Bool} {b : Bool} {i k : Nat} (hT : TreeOk n m T) (hq : T.path 0 q = some i)
    (hi : T.child i b = some none) (h : Grown n m (T.addChild i b (.internal none none)) T1 (q ++ [b]) bs k) :
    Grown n m T T1 q (b :: bs) k where
  ok := h.ok
  maxlen := h.maxlen
  le_count := (Nat.le_succ _).trans (by simpa using h.le_count)
  count_le := by
    have := h.count_le
    rw [Tree.addChild_count] at this
    rw [List.length_cons]
    omega
  keeps := fun l p j hp => h.keeps l p j (Tree.addChild_path_of_path hi Node.bare_internal hp)
  leaf := fun j v => (h.leaf j v).trans <| by
    rcases Nat.lt_trichotomy j T.count with hj | rfl | hj
    · exact Tree.addChild_leaf_lt hj
    · have hout : T.nodes[T.count]? = none := List.getElem?_eq_none le_rfl
      simp [hout]
    · have hout : T.nodes[j]? = none := List.getElem?_eq_none hj.le
      have hout' : (T.addChild i b (.internal none none)).nodes[j]? = none :=
        List.getElem?_eq_none (by simpa using hj : (T.addChild i b (.internal none none)).count ≤ j)
      simp [hout, hout']
  reach := by simpa using h.reach
  inner := h.inner
  shaped := fun hs => h.shaped (hs.addChild hT hi Node.bare_internal)
  paths := fun hs p j hp => by
    rcases h.paths (hs.addChild hT hi Node.bare_internal) p j hp with hold | ⟨hj, hpq⟩
    · rcases Tree.addChild_path hi Node.bare_internal hold with hold | ⟨rfl, r, rfl, hr⟩
      · exact .inl hold
      · obtain rfl := hs.path_inj hr hq
        exact .inr ⟨le_rfl, ⟨bs, by simp⟩⟩
    · rw [Tree.addChild_count] at hj
      exact .inr ⟨by omega, by simpa using hpq⟩

/-- Growing a path that meets no leaf completes, and its end has no child where the tree had none. -/
theorem Tree.exists_grow {T : Tree} {q bs : List Bool} {i : Nat} (hT : TreeOk n m T) (hq : T.path 0 q = some i) (hi : T.Inner i)
    (hleaf : ∀ p v, p <+: bs → T.walk i p ≠ some (Node.leaf v)) :
    ∃ T1 k, Tree.grow bs T i = .ok (T1, k) ∧ Grown n m T T1 q bs k
      ∧ ∀ b, T.path i (bs ++ [b]) = none → T1.next k b = none := by
  induction bs generalizing T q i with
  | nil =>
    refine ⟨T, i, rfl, .refl hT hq hi, fun b hb => ?_⟩
    simpa [Tree.path_cons] using hb
  | cons b bs ih =>
    have hqb : ∀ {U : Tree} {j}, U.path 0 q = some i → U.next i b = some j → U.path 0 (q ++ [b]) = some j := fun h1 h2 => by
      rw [Tree.path_concat, h1, Option.bind_some, h2]
    cases hnext : T.next i b with
    | none =>
      have hnone : T.child i b = some none := by rw [hi.child b, hnext]
      have hnew : (T.addChild i b (.internal none none)).next i b = some T.count :=
        (Tree.addChild_next_eq_some hnone Node.bare_internal).2 (.inl ⟨rfl, rfl, rfl⟩)
      have hbare := fun d => Tree.addChild_next_count (T := T) (i := i) (b := b) Node.bare_internal d
      have hinner : (T.addChild i b (.internal none none)).Inner T.count := ⟨none, none, Tree.addChild_nodes_count T i b _⟩
      obtain ⟨T1, k, hgrow, hgrown, hfree⟩ := ih (hT.addChild hnone Node.bare_internal (fun v h => by cases h))
        (hqb (Tree.addChild_path_of_path hnone Node.bare_internal hq) hnew) hinner fun p v _ => by
          cases p with
          | nil => exact hinner.not_leaf
          | cons d p => simp [Tree.walk_cons, hbare d]
      refine ⟨T1, k, by rw [Tree.grow_cons_none bs hnone, hgrow], .cons_new hT hq hnone hgrown, fun d _ => hfree d ?_⟩
      cases bs with
      | nil => simp [Tree.path_cons, hbare d]
      | cons e bs => simp [Tree.path_cons, hbare e]
    | some j =>
      have hj : T.Inner j := by
        have hnode : T.nodes[j]? = some (T.nodes[j]'(hT.next_lt hnext)) := List.getElem?_eq_getElem _
        cases hx : T.nodes[j]'(hT.next_lt hnext) with
        | internal c0 c1 => exact ⟨c0, c1, by rw [hnode, hx]⟩
        | leaf v =>
          refine absurd ?_ (hleaf [b] v ⟨bs, rfl⟩)
          rw [Tree.walk_cons, hnext, Option.bind_some, Tree.walk, hnode, hx]
      obtain ⟨T1, k, hgrow, hgrown, hfree⟩ := ih hT (hqb hq hnext) hj fun p v hp => by
        obtain ⟨r, rfl⟩ := hp
        have hbelow := hleaf (b :: p) v ⟨r, rfl⟩
        rwa [Tree.walk_cons, hnext] at hbelow
      refine ⟨T1, k, by rw [Tree.grow_cons_inner bs hnext hj, hgrow], hgrown.cons, fun d hd => hfree d ?_⟩
      rwa [List.cons_append, Tree.path_cons, hnext] at hd

/-- Growing a path that meets a leaf fails. -/
theorem Tree.grow_of_leaf {T : Tree} {bs p : List Bool} {i v : Nat} (hT : TreeOk n m T) (hi : T.Inner i) (hp : p <+: bs)
    (hleaf : T.walk i p = some (Node.leaf v)) : Tree.grow bs T i = .error .malformed := by
  obtain ⟨r, rfl⟩ := hp
  induction p generalizing i with
  | nil => exact absurd hleaf hi.not_leaf
  | cons b p ih =>
    rw [Tree.walk_cons] at hleaf
    obtain ⟨j, hnext, hrest⟩ := Option.bind_eq_some_iff.1 hleaf
    have hnode : T.nodes[j]? = some (T.nodes[j]'(hT.next_lt hnext)) := List.getElem?_eq_getElem _
    cases hx : T.nodes[j]'(hT.next_lt hnext) with
    | internal c0 c1 =>
      have hj : T.Inner j := ⟨c0, c1, by rw [hnode, hx]⟩
      rw [List.cons_append, Tree.grow_cons_inner _ hnext hj, ih hj hrest]
    | leaf u => exact Tree.grow_cons_leaf _ hnext (by rw [hnode, hx])

/-- A path that is there to an INTERNAL node grows nothing. -/
theorem Tree.grow_of_path {T : Tree} {bs : List Bool} {i k : Nat} (hk : T.Inner k) (hpath : T.path i bs = some k) :
    Tree.grow bs T i = .ok (T, k) := by
  induction bs generalizing i with
  | nil =>
    obtain rfl := Option.some.inj hpath
    rfl
  | cons b bs ih =>
    obtain ⟨j, hnext, hrest⟩ := Option.bind_eq_some_iff.1 hpath
    have hj : T.Inner j := by
      cases bs with
      | nil =>
        obtain rfl := Option.some.inj hrest
        exact hk
      | cons d bs =>
        obtain ⟨l, hl, -⟩ := Option.bind_eq_some_iff.1 hrest
        exact Tree.inner_of_next hl
    rw [Tree.grow_cons_inner bs hnext hj, ih hrest]

/-! ### ADDLEAF -/

/-- What begins a list and one more bit. -/
theorem begins_concat {p q : List Bool} {b : Bool} (h : p <+: q ++ [b]) : p <+: q ∨ p = q ++ [b] := by
  obtain ⟨r, hr⟩ := h
  rcases List.eq_nil_or_concat' r with rfl | ⟨r, d, rfl⟩
  · exact .inr (by simpa using hr)
  · rw [← List.append_assoc] at hr
    exact .inl ⟨r, (List.append_inj' hr rfl).1⟩

/-- What inserting the code `c` of symbol `v` does to a tree (R91). -/
structure Inserted (n m : Nat) (T T1 : Tree) (c : Code) (v : Nat) : Prop where
  ok : TreeOk n m T1
  maxlen : T1.maxlen = max T.maxlen c.len
  count_le : T1.count ≤ T.count + c.len
  here : T1.walk 0 c.bits = some (Node.leaf v)
  keeps : ∀ p u, T.walk 0 p = some (Node.leaf u) → T1.walk 0 p = some (Node.leaf u)
  shaped : TreeShaped T → TreeShaped T1
  leaves : TreeShaped T → ∀ p u, T1.walk 0 p = some (Node.leaf u) →
    T.walk 0 p = some (Node.leaf u) ∨ (p = c.bits ∧ u = v)
  paths : TreeShaped T → ∀ p j, T1.path 0 p = some j → T.path 0 p = some j ∨ p <+: c.bits

/-- The leaf at the end of a grown path, and the greatest length raised. -/
theorem Grown.inserted {T T1 : Tree} {c L v k : Nat} (hg : Grown n m T T1 [] (upperBits c L) k) (hL : L + 1 ≤ m)
    (hv : v < n) (hfree : T1.child k (c.testBit 0) = some none) :
    Inserted n m T { T1.addChild k (c.testBit 0) (.leaf v) with maxlen := max T1.maxlen (L + 1) } ⟨c, L + 1⟩ v := by
  have hpaths : ∀ i p, Tree.path { T1.addChild k (c.testBit 0) (.leaf v) with maxlen := max T1.maxlen (L + 1) } i p
      = (T1.addChild k (c.testBit 0) (.leaf v)).path i p := fun i p => by
    induction p generalizing i with
    | nil => rfl
    | cons b p ih => exact Option.bind_congr fun j _ => ih j
  have hwalks : ∀ p, Tree.walk { T1.addChild k (c.testBit 0) (.leaf v) with maxlen := max T1.maxlen (L + 1) } 0 p
      = (T1.addChild k (c.testBit 0) (.leaf v)).walk 0 p := fun p => by rw [Tree.walk_eq, Tree.walk_eq, hpaths]
  have hbare := Node.bare_leaf v
  have hok := hg.ok.addChild hfree hbare (fun u h => Node.leaf.inj h ▸ hv)
  have hreach : T1.path 0 (upperBits c L) = some k := hg.reach
  have hbits : Code.bits ⟨c, L + 1⟩ = upperBits c L ++ [c.testBit 0] := Code.bits_succ c L
  refine ⟨⟨hok.root, hok.child0, hok.child1, hok.symbols, Nat.max_le.2 ⟨hg.ok.maxlen, hL⟩⟩, ?_, ?_, ?_, fun p u hp => ?_,
    fun hs => ?_, fun hs p u hp => ?_, fun hs p j hp => ?_⟩
  · rw [hg.maxlen]
  · have hle := hg.count_le
    rw [length_upperBits] at hle
    have hcount := Tree.addChild_count T1 k (c.testBit 0) (.leaf v)
    exact (hcount.trans_le (Nat.succ_le_succ hle))
  · rw [hwalks, hbits, Tree.walk_eq_some]
    refine ⟨T1.count, ?_, Tree.addChild_nodes_count _ _ _ _⟩
    rw [Tree.path_concat, Tree.addChild_path_of_path hfree hbare hreach, Option.bind_some]
    exact (Tree.addChild_next_eq_some hfree hbare).2 (.inl ⟨rfl, rfl, rfl⟩)
  · obtain ⟨j, hj, hnode⟩ := Tree.walk_eq_some.1 hp
    rw [hwalks, Tree.walk_eq_some]
    refine ⟨j, Tree.addChild_path_of_path hfree hbare (hg.keeps 0 p j hj), ?_⟩
    have hleaf := (hg.leaf j u).2 hnode
    exact (Tree.addChild_leaf_lt (List.getElem?_eq_some_iff.1 hleaf).1).2 hleaf
  · have hs' := (hg.shaped hs).addChild hg.ok hfree hbare
    exact ⟨hs'.root, hs'.parent⟩
  · rw [hwalks] at hp
    obtain ⟨j, hj, hnode⟩ := Tree.walk_eq_some.1 hp
    rcases Tree.addChild_path hfree hbare hj with hold | ⟨rfl, q, rfl, hq⟩
    · have hlt := hg.ok.path_lt hg.ok.count_pos hold
      have hleaf := (hg.leaf j u).1 ((Tree.addChild_leaf_lt hlt).1 hnode)
      rcases hg.paths hs p j hold with hold | ⟨hnew, -⟩
      · exact .inl (Tree.walk_eq_some.2 ⟨j, hold, hleaf⟩)
      · exact absurd (List.getElem?_eq_some_iff.1 hleaf).1 (Nat.not_lt.2 hnew)
    · obtain rfl := (hg.shaped hs).path_inj hq hreach
      rw [Tree.addChild_nodes_count] at hnode
      exact .inr ⟨hbits.symm, (Node.leaf.inj (Option.some.inj hnode)).symm⟩
  · rw [hpaths] at hp
    rw [hbits]
    rcases Tree.addChild_path hfree hbare hp with hold | ⟨rfl, q, rfl, hq⟩
    · exact (hg.paths hs p j hold).imp_right fun h => h.2.trans ⟨[c.testBit 0], rfl⟩
    · obtain rfl := (hg.shaped hs).path_inj hq hreach
      exact .inr ⟨[], List.append_nil _⟩

/-- `ADDLEAF` of a code whose path is not there and meets no leaf (R91). -/
theorem Tree.exists_addLeaf {T : Tree} {c : Code} {v : Nat} (hT : TreeOk n m T) (hpos : 1 ≤ c.len) (hle : c.len ≤ m) (hv : v < n)
    (hleaf : ∀ p u, p <+: c.bits → T.walk 0 p ≠ some (Node.leaf u)) (hnone : T.walk 0 c.bits = none) :
    ∃ T1, T.addLeaf c.code c.len v = .ok T1 ∧ Inserted n m T T1 c v := by
  obtain ⟨code, len⟩ := c
  obtain ⟨L, rfl⟩ := Nat.exists_eq_add_of_le' hpos
  have hbits := Code.bits_succ code L
  obtain ⟨T1, k, hgrow, hgrown, hfree⟩ := Tree.exists_grow (bs := upperBits code L) hT (Tree.path_nil T 0) hT.root_inner
    fun p u hp => hleaf p u (hbits ▸ hp.trans ⟨[code.testBit 0], rfl⟩)
  have hchild : T1.child k (code.testBit 0) = some none := by
    rw [hgrown.inner.child, hfree]
    rw [← hbits, Option.eq_none_iff_forall_ne_some]
    intro j hj
    obtain ⟨a, ha⟩ := hT.exists_walk hj
    simp [hnone] at ha
  refine ⟨_, ?_, hgrown.inserted hle hv hchild⟩
  simp only [Tree.addLeaf, Nat.add_sub_cancel, Tree.addPath_eq_grow, hgrow, hchild]

/-- `ADDLEAF` of a code that collides with one inserted before (R91). -/
theorem Tree.addLeaf_of_collision {T : Tree} {c : Code} (v : Nat) (hT : TreeOk n m T) (hpos : 1 ≤ c.len)
    (h : (∃ p u, p <+: c.bits ∧ T.walk 0 p = some (Node.leaf u)) ∨ T.walk 0 c.bits ≠ none) :
    T.addLeaf c.code c.len v = .error .malformed := by
  obtain ⟨code, len⟩ := c
  obtain ⟨L, rfl⟩ := Nat.exists_eq_add_of_le' hpos
  rw [Code.bits_succ code L] at h
  have hcases : (∃ p u, p <+: upperBits code L ∧ T.walk 0 p = some (Node.leaf u))
      ∨ T.walk 0 (upperBits code L ++ [code.testBit 0]) ≠ none := by
    rcases h with ⟨p, u, hp, hwalk⟩ | h
    · rcases begins_concat hp with hp | rfl
      · exact .inl ⟨p, u, hp, hwalk⟩
      · exact .inr (hwalk ▸ Option.some_ne_none _)
    · exact .inr h
  rcases hcases with ⟨p, u, hp, hwalk⟩ | h
  · simp only [Tree.addLeaf, Nat.add_sub_cancel, Tree.addPath_eq_grow, Tree.grow_of_leaf hT hT.root_inner hp hwalk]
  · obtain ⟨a, ha⟩ := Option.ne_none_iff_exists'.1 h
    obtain ⟨j, hj, -⟩ := Tree.walk_eq_some.1 ha
    rw [Tree.path_concat] at hj
    obtain ⟨k, hk, hkj⟩ := Option.bind_eq_some_iff.1 hj
    simp only [Tree.addLeaf, Nat.add_sub_cancel, Tree.addPath_eq_grow, Tree.grow_of_path (Tree.inner_of_next hkj) hk,
      Tree.next_eq_some.1 hkj]

end

theorem exec_addLeaf {t : TreeId} {c L v : Nat} (h : addLeafOk t c L v = true) (s : State) :
    exec (.addLeaf t c L v) s = (addLeafOp t c L v s).outcome :=
  if_pos h

theorem addLeafOk_iff {t : TreeId} {c L v : Nat} :
    addLeafOk t c L v = true ↔ 1 ≤ L ∧ L ≤ t.maxLen ∧ c < 2 ^ L ∧ v < t.symbols := by
  simp [addLeafOk, and_assoc]

/-- Settles O15: the code's path is grown where it meets no leaf and is not there, and only there. -/
theorem addLeafAddsOnePath : Obligations.AddLeafAddsOnePath := by
  intro s t c L v T hok htree hT
  obtain ⟨hpos, hle, -, hv⟩ := addLeafOk_iff.1 hok
  rw [exec_addLeaf hok, addLeafOp, htree, need_some, Res.bind_ok]
  refine ⟨fun hleaf hnone hroom => ?_, fun hcollide => ?_⟩
  · obtain ⟨T1, hadd, hins⟩ := Tree.exists_addLeaf (c := ⟨c, L⟩) hT hpos hle hv hleaf hnone
    have hfits : ¬ t.capacity < T1.count := Nat.not_lt.2 (hins.count_le.trans hroom)
    simp only at hadd
    rw [hadd, treeRes, Res.bind_ok, if_neg hfits]
    exact ⟨T1, rfl, hins.here, hins.keeps, hins.leaves, hins.maxlen⟩
  · have hadd := Tree.addLeaf_of_collision (c := ⟨c, L⟩) v hT hpos hcollide
    simp only at hadd
    rw [hadd]
    rfl

end Sys2Proof.Machine
end

section
/-! SUPPORT. `BUILD`: the tree whose leaves are the codes of a table (42_huffman_tree.md rule R96). -/

namespace Sys2Proof.Machine

/-! ### A tree that holds a set of codes -/

/-- The leaves of `T` are the codes of `D`, each symbol's at the end of its own bits, and every path begins a code of `D`. -/
structure HoldsCodes (n m : Nat) (D : Nat → Code → Prop) (T : Tree) : Prop where
  ok : TreeOk n m T
  shaped : TreeShaped T
  leaf : ∀ p v, T.walk 0 p = some (Node.leaf v) ↔ ∃ c, D v c ∧ p = c.bits
  paths : ∀ p j, T.path 0 p = some j → p = [] ∨ ∃ v c, D v c ∧ p <+: c.bits
  le_maxlen : ∀ v c, D v c → c.len ≤ T.maxlen

/-- Codes for symbols below `n`, none longer than `m`, none beginning another. -/
structure PlainCodes (n m : Nat) (D : Nat → Code → Prop) : Prop where
  symbol_lt : ∀ v c, D v c → v < n
  len_pos : ∀ v c, D v c → 1 ≤ c.len
  len_le : ∀ v c, D v c → c.len ≤ m
  apart : ∀ v c u d, D v c → D u d → v ≠ u → ¬ c.bits <+: d.bits

section
variable {n m : Nat}

theorem Tree.new_next (i : Nat) (b : Bool) : Tree.new.next i b = none := by
  rcases i with _ | i
  · cases b <;> rfl
  · rfl

/-- A new tree holds no code (R90). -/
theorem holdsCodes_new : HoldsCodes n m (fun _ _ => False) Tree.new where
  ok := .of_next ⟨none, none, rfl⟩ (fun i b j h => by simp [Tree.new_next] at h)
    (fun i v h => by rcases i with _ | i <;> simp [Tree.new] at h) (Nat.zero_le m)
  shaped := ⟨fun i b h => by simpa [Tree.new_next] using Tree.next_eq_some.2 h,
    fun i b k d j h => by simpa [Tree.new_next] using Tree.next_eq_some.2 h⟩
  leaf := fun p v => by
    cases p with
    | nil => simp [Tree.walk, Tree.new]
    | cons b p => simp [Tree.walk_cons, Tree.new_next]
  paths := fun p j h => by
    cases p with
    | nil => exact .inl rfl
    | cons b p => simp [Tree.path_cons, Tree.new_next] at h
  le_maxlen := fun _ _ h => h.elim

/-- A code that begins none of the codes held, and that none begins, can be inserted. -/
theorem HoldsCodes.exists_addLeaf {D : Nat → Code → Prop} {T : Tree} {v : Nat} {c : Code} (h : HoldsCodes n m D T)
    (hpos : 1 ≤ c.len) (hle : c.len ≤ m) (hv : v < n) (hbegins : ∀ u d, D u d → ¬ d.bits <+: c.bits ∧ ¬ c.bits <+: d.bits) :
    ∃ T1, T.addLeaf c.code c.len v = .ok T1 ∧ HoldsCodes n m (fun u d => D u d ∨ (u = v ∧ d = c)) T1 := by
  have hleaf : ∀ p u, p <+: c.bits → T.walk 0 p ≠ some (Node.leaf u) := fun p u hp hwalk => by
    obtain ⟨d, hd, rfl⟩ := (h.leaf p u).1 hwalk
    exact (hbegins u d hd).1 hp
  have hnone : T.walk 0 c.bits = none := by
    refine Option.eq_none_iff_forall_ne_some.2 fun a ha => ?_
    obtain ⟨j, hj, -⟩ := Tree.walk_eq_some.1 ha
    rcases h.paths _ j hj with hnil | ⟨u, d, hd, hbits⟩
    · have hlen := c.length_bits
      rw [hnil] at hlen
      exact absurd hlen (Nat.ne_of_lt hpos)
    · exact (hbegins u d hd).2 hbits
  obtain ⟨T1, hadd, hins⟩ := Tree.exists_addLeaf h.ok hpos hle hv hleaf hnone
  refine ⟨T1, hadd, hins.ok, hins.shaped h.shaped, fun p u => ⟨fun hwalk => ?_, ?_⟩, fun p j hj => ?_, ?_⟩
  · rcases hins.leaves h.shaped p u hwalk with hold | ⟨rfl, rfl⟩
    · obtain ⟨d, hd, hp⟩ := (h.leaf p u).1 hold
      exact ⟨d, .inl hd, hp⟩
    · exact ⟨c, .inr ⟨rfl, rfl⟩, rfl⟩
  · rintro ⟨d, hd | ⟨rfl, rfl⟩, rfl⟩
    · exact hins.keeps _ _ ((h.leaf _ u).2 ⟨d, hd, rfl⟩)
    · exact hins.here
  · rcases hins.paths h.shaped p j hj with hold | hp
    · exact (h.paths p j hold).imp_right fun ⟨u, d, hd, hp⟩ => ⟨u, d, .inl hd, hp⟩
    · exact .inr ⟨v, c, .inr ⟨rfl, rfl⟩, hp⟩
  · rw [hins.maxlen]
    rintro u d (hd | ⟨-, rfl⟩)
    · exact (h.le_maxlen u d hd).trans (Nat.le_max_left _ _)
    · exact Nat.le_max_right _ _

/-- The codes of a list of symbols. -/
def CodesOf (cs : List (Option Code)) (v : Nat) (c : Code) : Prop := cs[v]? = some (some c)

/-- The codes of the symbols below `k`. -/
def CodesBelow (cs : List (Option Code)) (k v : Nat) (c : Code) : Prop := v < k ∧ CodesOf cs v c

theorem codesBelow_succ {cs : List (Option Code)} {k v : Nat} {c : Code} :
    CodesBelow cs (k + 1) v c ↔ CodesBelow cs k v c ∨ (v = k ∧ CodesOf cs k c) := by
  rw [CodesBelow, CodesBelow, Nat.lt_succ_iff_lt_or_eq]
  constructor
  · rintro ⟨hv | rfl, hc⟩
    · exact .inl ⟨hv, hc⟩
    · exact .inr ⟨rfl, hc⟩
  · rintro (⟨hv, hc⟩ | ⟨rfl, hc⟩)
    · exact ⟨.inl hv, hc⟩
    · exact ⟨.inr rfl, hc⟩

theorem HoldsCodes.congr {D E : Nat → Code → Prop} {T : Tree} (h : HoldsCodes n m D T) (hDE : ∀ v c, D v c ↔ E v c) :
    HoldsCodes n m E T := by
  obtain rfl : D = E := funext fun v => funext fun c => propext (hDE v c)
  exact h

/-- The insertion loop, from symbol `k` on, inserts every code (R96). -/
theorem exists_addCodes {cs rest : List (Option Code)} {k : Nat} {T : Tree} (hplain : PlainCodes n m (CodesOf cs))
    (hrest : cs.drop k = rest) (hT : HoldsCodes n m (CodesBelow cs k) T) :
    ∃ T1, T.addCodes k rest = .ok T1 ∧ HoldsCodes n m (CodesOf cs) T1 := by
  induction rest generalizing k T with
  | nil =>
    refine ⟨T, rfl, hT.congr fun v c => ⟨And.right, fun hc => ⟨?_, hc⟩⟩⟩
    exact (List.getElem?_eq_some_iff.1 hc).1.trans_le (List.drop_eq_nil_iff.1 hrest)
  | cons o rest ih =>
    have hk : cs[k]? = some o := by
      have := congrArg (·[0]?) hrest
      simpa using this
    have hnext : cs.drop (k + 1) = rest := by rw [← List.drop_drop, hrest]; rfl
    cases o with
    | none =>
      refine ih hnext (hT.congr fun v c => ?_)
      rw [codesBelow_succ]
      simp [CodesOf, hk]
    | some c =>
      obtain ⟨T1, hadd, hT1⟩ := hT.exists_addLeaf (hplain.len_pos k c hk) (hplain.len_le k c hk) (hplain.symbol_lt k c hk)
        fun u d hd => ⟨hplain.apart u d k c hd.2 hk hd.1.ne, hplain.apart k c u d hk hd.2 hd.1.ne'⟩
      obtain ⟨T2, hcodes, hT2⟩ := ih hnext (hT1.congr fun v d => by
        rw [codesBelow_succ]
        simp [CodesOf, hk, eq_comm])
      exact ⟨T2, by simp only [Tree.addCodes, hadd, hcodes], hT2⟩

/-- The codes that `CANON` gives are plain: they fit their lengths and none begins another (41_huffman_builder.md). -/
theorem Assigned.plainCodes {ls : List Nat} {cs : List (Option Code)} (h : Assigned (firstCode ls) ls cs)
    (hls : ∀ l ∈ ls, l ≤ m) (hlen : ls.length ≤ n) : PlainCodes n m (CodesOf cs) where
  symbol_lt := fun v c hc => by
    have hlt : v < cs.length := (List.getElem?_eq_some_iff.1 hc).1
    rw [h.length] at hlt
    exact hlt.trans_le hlen
  len_pos := fun v c hc => (h.of_code hc).2.1
  len_le := fun v c hc => hls c.len (List.mem_of_getElem? (h.of_code hc).1)
  apart := fun v c u d hc hd hne => h.bits_not_begin hne hc hd

/-- `BUILD` of a table that `CANON` accepts makes the tree of its codes (R96). -/
theorem exists_build {ls : List Nat} {cs : List (Option Code)} (hls : ∀ l ∈ ls, l ≤ m) (hlen : ls.length ≤ n)
    (hcanon : canon ls m = .ok cs) : ∃ T, Tree.build ls m = .ok T ∧ HoldsCodes n m (CodesOf cs) T := by
  obtain ⟨T, hT, hholds⟩ := exists_addCodes ((assigned_of_canon hls hcanon).plainCodes hls hlen) List.drop_zero
    (holdsCodes_new.congr fun v c => (iff_false_intro fun h => Nat.not_lt_zero v h.1).symm)
  exact ⟨T, by simp only [Tree.build, hcanon, hT], hholds⟩

theorem build_of_canon_error {ls : List Nat} {e : Nat} (h : canon ls m = .error e) :
    Tree.build ls m = .error .malformed := by
  simp only [Tree.build, h]

/-- What `BUILD` makes of a table, if it makes a tree (R96). -/
theorem holdsCodes_of_build {ls : List Nat} {T : Tree} (hls : ∀ l ∈ ls, l ≤ m) (hlen : ls.length ≤ n)
    (hbuild : Tree.build ls m = .ok T) : ∃ cs, canon ls m = .ok cs ∧ HoldsCodes n m (CodesOf cs) T := by
  cases hcanon : canon ls m with
  | ok cs =>
    obtain ⟨U, hU, hholds⟩ := exists_build hls hlen hcanon
    obtain rfl := Except.ok.inj (hU.symm.trans hbuild)
    exact ⟨cs, rfl, hholds⟩
  | error e => cases (build_of_canon_error hcanon).symm.trans hbuild

/-- `BUILD` never reads a field that is not there. -/
theorem build_ne_noNode {ls : List Nat} (hls : ∀ l ∈ ls, l ≤ m) : Tree.build ls m ≠ .error .noNode := by
  intro h
  cases hcanon : canon ls m with
  | ok cs =>
    obtain ⟨T, hT, -⟩ := exists_build hls le_rfl hcanon
    cases hT.symm.trans h
  | error e => cases (build_of_canon_error hcanon).symm.trans h

end

theorem exec_build {t : TreeId} {ls : List Nat} {m : Nat} (h : buildOk t ls m = true) (s : State) :
    exec (.build t ls m) s = (buildTree t ls m s).outcome :=
  if_pos h

/-- Settles O13: the operands' check, then `CANON` or `BUILD`. -/
theorem canonAndBuildComplete : Obligations.CanonAndBuildComplete := by
  intro s t ls m
  refine ⟨fun cs hok hcanon => ?_, fun hok => ?_, fun T hok hbuild => ?_, fun hok => ?_⟩
  · rw [exec_canon, execCanon, if_pos hok, hcanon]
  · rw [exec_canon, execCanon, if_neg (Bool.eq_false_iff.1 hok)]
  · rw [exec_build hok, (buildTree_eq_ok (u := ())).2 ⟨T, hbuild, rfl⟩]
    rfl
  · exact if_neg (Bool.eq_false_iff.1 hok)

/-- Settles O14: `CANON` accepts exactly the legal tables, and the insertion loop never collides on its codes. -/
theorem buildCompletesOnLegalTables : Obligations.BuildCompletesOnLegalTables := by
  intro s t ls m hok
  obtain ⟨rfl, hls, hlen⟩ := buildOk_iff.1 hok
  have hcanon := canon_isOk_iff_kraftOk t.maxLen_pos hls
  rw [exec_build hok]
  constructor
  · intro hkraft
    obtain ⟨cs, hcs⟩ := hcanon.2 hkraft
    obtain ⟨T, hbuild, hholds⟩ := exists_build hls hlen hcs
    exact ⟨T, cs, hbuild, hcs, by rw [(buildTree_eq_ok (u := ())).2 ⟨T, hbuild, rfl⟩]; rfl, hholds.leaf⟩
  · intro hkraft
    obtain ⟨e, he⟩ := exists_canon_error (mt hcanon.1 hkraft)
    rw [buildTree_eq_raised.2 ⟨build_of_canon_error he, rfl, rfl⟩]
    rfl

end Sys2Proof.Machine
end

section
/-! SUPPORT. `DECODESTEP`, `DECODESYM` and what they find: the stream's next bits are followed from the root
(42_huffman_tree.md rules R92 to R95). -/

namespace Sys2Proof.Machine

/-! ### One step down -/

section
variable {T : Tree} {i d k v : Nat} {b : Bool}

theorem Tree.decodeStep_of_leaf (h : T.child i b = some (some k)) (hk : T.nodes[k]? = some (Node.leaf v)) :
    T.decodeStep i d b = .symbol v := by
  simp only [Tree.decodeStep, h, hk]

theorem Tree.decodeStep_of_inner (h : T.child i b = some (some k)) (hk : T.Inner k) :
    T.decodeStep i d b = if T.maxlen ≤ d + 1 then .malformed else .cont k := by
  obtain ⟨c0, c1, hk⟩ := hk
  simp only [Tree.decodeStep, h, hk]

theorem Tree.decodeStep_of_none (h : T.child i b = some none) : T.decodeStep i d b = .malformed := by
  simp only [Tree.decodeStep, h]

end

theorem exec_decodeStep (t : TreeId) (b : Bool) (s : State) : exec (.decodeStep t b) s = execDecodeStep t b s := rfl

/-- `DECODESTEP` as an instruction, where the tree and its cursor hold values. -/
theorem execDecodeStep_of {s : State} {t : TreeId} {T : Tree} {i d : Nat} (b : Bool) (hT : s.blk.tree t = some T)
    (hc : s.blk.cursor t = ⟨some i, some d⟩) :
    execDecodeStep t b s =
      match T.decodeStep i d b with
      | .symbol v => .next ((s.withTreeCursor t ⟨some i, some (d + 1)⟩).withResult (.symbol v))
      | .cont j => .next ((s.withTreeCursor t ⟨some j, some (d + 1)⟩).withResult .cont)
      | .malformed => .next (s.raise .malformedHuffmanCode)
      | .noNode => .next s.raiseUnwritten := by
  have hstep := decodeStep_of (b := b) hT (congrArg TreeCursor.node hc) (congrArg TreeCursor.depth hc)
  rw [execDecodeStep, hstep]
  cases T.decodeStep i d b <;> rfl

/-- `DECODESTEP` that finds the tree or its cursor unwritten reads what holds no value (10_state.md rule R18). -/
theorem execDecodeStep_unwritten {s : State} {t : TreeId} (b : Bool)
    (h : s.blk.tree t = none ∨ (s.blk.cursor t).node = none ∨ (s.blk.cursor t).depth = none) :
    execDecodeStep t b s = .next s.raiseUnwritten := by
  rw [execDecodeStep, decodeStep]
  cases hT : s.blk.tree t with
  | none => rfl
  | some T =>
    rw [need_some, Res.bind_ok]
    cases hn : (s.blk.cursor t).node with
    | none => rfl
    | some n =>
      rw [need_some, Res.bind_ok]
      cases hd : (s.blk.cursor t).depth with
      | none => rfl
      | some d => simp [hT, hn, hd] at h

/-- Settles O16: by what the tree holds at the child. -/
theorem decodeStepFollowsTheTree : Obligations.DecodeStepFollowsTheTree := by
  intro s t b
  rw [exec_decodeStep]
  refine ⟨fun T n d hT _ hc _ => ⟨fun h => ?_, fun j v h hj => ?_, fun j c0 c1 h hj hd => ?_, fun j c0 c1 h hj hd => ?_⟩,
    fun h => ⟨_, ErrCode.fatal_ne_none _, ErrCode.fatal_ne_headerError _, execDecodeStep_unwritten b h⟩⟩
  · rw [execDecodeStep_of b hT hc, Tree.decodeStep_of_none h]
    rfl
  · rw [execDecodeStep_of b hT hc, Tree.decodeStep_of_leaf h hj]
  · rw [execDecodeStep_of b hT hc, Tree.decodeStep_of_inner h ⟨c0, c1, hj⟩, if_neg (Nat.not_le.2 hd)]
  · rw [execDecodeStep_of b hT hc, Tree.decodeStep_of_inner h ⟨c0, c1, hj⟩, if_pos hd]
    rfl

/-- Settles O17: two writes, no read. -/
theorem resetCursorGoesToTheRoot : Obligations.ResetCursorGoesToTheRoot := fun _ _ => rfl

/-! ### Following the stream -/

theorem streamBits_succ (s : State) (p n : Nat) : streamBits s p (n + 1) = streamBits s p n ++ [srcBit s (p + n)] := by
  simp [streamBits, List.range_succ]

@[simp] theorem length_streamBits (s : State) (p n : Nat) : (streamBits s p n).length = n := by simp [streamBits]

theorem State.withTreeCursor_cursorAt (s : State) (t : TreeId) (c : TreeCursor) (p k : Nat) :
    (s.withTreeCursor t c).cursorAt p k = (s.cursorAt p k).withTreeCursor t c := by
  rw [State.cursorAt, streamValue_of_src (s.withTreeCursor_src t c)]
  rfl

/-- `s` after `j` bits of a descent in the tree `t`, at node `i` (R92). -/
def State.descended (s : State) (t : TreeId) (i j : Nat) : State :=
  (s.seek (s.bitpos + j)).withTreeCursor t ⟨some i, some j⟩

section
variable {s : State} {t : TreeId} {T : Tree} {i j k v : Nat}

@[simp] theorem State.descended_bitpos : (s.descended t i j).bitpos = s.bitpos + j := s.bitpos_seek _

theorem State.descended_tree (hT : s.blk.tree t = some T) : (s.descended t i j).blk.tree t = some T := by
  rw [State.descended, State.withTreeCursor_blk, BlockState.withTreeCursor_tree, State.seek_blk, hT]

theorem CursorOk.descended (hc : CursorOk s) (hend : s.bitpos + j ≤ 8 * s.srclen) : CursorOk (s.descended t i j) :=
  (hc.seek (Nat.le_add_right _ _) hend).of_same rfl rfl rfl rfl rfl

/-- One bit read in a descent. -/
theorem readBits_descended (hs : SrcOk s) (hc : CursorOk s) (hend : s.bitpos + j + 1 ≤ 8 * s.srclen) :
    readBits 1 (s.descended t i j) = .ok (srcBit s (s.bitpos + j)).toNat
      ((s.seek (s.bitpos + j + 1)).withTreeCursor t ⟨some i, some j⟩) := by
  have hread := readBits_of_available (s := s.descended t i j) (n := 1) hs (hc.descended (by omega)) (by omega)
    (by rw [State.descended_bitpos]; exact hend)
  have hseek : (s.descended t i j).seek (s.bitpos + j + 1)
      = (s.seek (s.bitpos + j + 1)).withTreeCursor t ⟨some i, some j⟩ := by
    rw [← s.seek_seek (Nat.le_succ (s.bitpos + j)), State.seek, State.descended, State.withTreeCursor_cursorAt]
    rfl
  rw [State.descended_bitpos, hseek] at hread
  rw [hread, streamValue, streamValue, srcBit_of_src (t := s.descended t i j) rfl]
  rfl

theorem toNat_beq_one (b : Bool) : (b.toNat == 1) = b := by cases b <;> rfl

/-- One turn of the descent, as `DECODESTEP` finds it. -/
theorem decodeLoop_descended (turns : Nat) (hs : SrcOk s) (hc : CursorOk s) (hT : s.blk.tree t = some T)
    (hend : s.bitpos + j + 1 ≤ 8 * s.srclen) :
    decodeLoop t (turns + 1) (s.descended t i j) =
      match T.decodeStep i j (srcBit s (s.bitpos + j)) with
      | .symbol v => .ok v ((s.seek (s.bitpos + j + 1)).withTreeCursor t .root)
      | .cont k => decodeLoop t turns (s.descended t k (j + 1))
      | .malformed => .raised .malformedHuffmanCode ((s.seek (s.bitpos + j + 1)).withTreeCursor t ⟨some i, some j⟩)
      | .noNode => .unwritten (.treeNode t) ((s.seek (s.bitpos + j + 1)).withTreeCursor t ⟨some i, some j⟩) := by
  have hstep := decodeStep_of (t := t) (b := srcBit s (s.bitpos + j)) (T := T) (n := i) (d := j)
    (s := (s.seek (s.bitpos + j + 1)).withTreeCursor t ⟨some i, some j⟩)
    (by rw [State.withTreeCursor_blk, BlockState.withTreeCursor_tree, State.seek_blk, hT]) (by simp) (by simp)
  rw [decodeLoop, readBits_descended hs hc hend, Res.bind_ok, toNat_beq_one, hstep]
  cases T.decodeStep i j (srcBit s (s.bitpos + j)) <;> simp [resetCursor_eq, State.descended, Nat.add_assoc]

/-- A descent along a path of INTERNAL nodes. -/
theorem decodeLoop_path (turns : Nat) (hs : SrcOk s) (hc : CursorOk s) (hT : s.blk.tree t = some T)
    (hend : s.bitpos + j ≤ 8 * s.srclen) (hdepth : j = 0 ∨ j < T.maxlen)
    (hpath : T.path 0 (streamBits s s.bitpos j) = some i) (hi : T.Inner i) :
    decodeLoop t (turns + j) (s.descended t 0 0) = decodeLoop t turns (s.descended t i j) := by
  induction j generalizing i turns with
  | zero =>
    obtain rfl : 0 = i := Option.some.inj hpath
    rfl
  | succ j ih =>
    rw [streamBits_succ, Tree.path_concat] at hpath
    obtain ⟨l, hl, hnext⟩ := Option.bind_eq_some_iff.1 hpath
    have hlt : j + 1 < T.maxlen := hdepth.resolve_left (Nat.succ_ne_zero j)
    have hturns : turns + (j + 1) = turns + 1 + j := by omega
    rw [hturns, ih (turns + 1) (by omega) (.inr (by omega)) hl (Tree.inner_of_next hnext),
      decodeLoop_descended turns hs hc hT hend,
      Tree.decodeStep_of_inner (Tree.next_eq_some.1 hnext) hi, if_neg (Nat.not_le.2 hlt)]

/-- `DECODESYM` starts at the root with more turns than the longest code has bits (R94, R97). -/
theorem decodeSym_eq (hc : CursorOk s) (hT : s.blk.tree t = some T) :
    decodeSym t s = decodeLoop t (T.maxlen + 1) (s.descended t 0 0) := by
  have hroot : s.withTreeCursor t .root = s.descended t 0 0 := by
    rw [State.descended, Nat.add_zero, hc.seek_bitpos]
    rfl
  rw [decodeSym, resetCursor_eq, Res.bind_ok, State.withTreeCursor_blk, BlockState.withTreeCursor_tree, hT, descentTurns,
    hroot]

/-- `DECODESYM` behind `j` bits that lead to an INTERNAL node. -/
theorem decodeSym_path (hs : SrcOk s) (hc : CursorOk s) (hT : s.blk.tree t = some T) (hend : s.bitpos + j ≤ 8 * s.srclen)
    (hdepth : j = 0 ∨ j < T.maxlen) (hpath : T.path 0 (streamBits s s.bitpos j) = some i) (hi : T.Inner i) :
    decodeSym t s = decodeLoop t (T.maxlen - j + 1) (s.descended t i j) := by
  have hturns : T.maxlen + 1 = T.maxlen - j + 1 + j := by omega
  rw [decodeSym_eq hc hT, hturns, decodeLoop_path _ hs hc hT hend hdepth hpath hi]

/-- `DECODESYM` whose next bits lead to a leaf (R94). -/
theorem decodeSym_of_walk (hs : SrcOk s) (hc : CursorOk s) (hT : s.blk.tree t = some T) (hpos : 1 ≤ j) (hle : j ≤ T.maxlen)
    (hend : s.bitpos + j ≤ 8 * s.srclen) (hwalk : T.walk 0 (streamBits s s.bitpos j) = some (Node.leaf v)) :
    decodeSym t s = .ok v ((s.seek (s.bitpos + j)).withTreeCursor t .root) := by
  obtain ⟨j, rfl⟩ := Nat.exists_eq_add_of_le' hpos
  obtain ⟨k, hk, hleaf⟩ := Tree.walk_eq_some.1 hwalk
  rw [streamBits_succ, Tree.path_concat] at hk
  obtain ⟨i, hi, hnext⟩ := Option.bind_eq_some_iff.1 hk
  rw [decodeSym_path hs hc hT (by omega) (.inr hle) hi (Tree.inner_of_next hnext), decodeLoop_descended _ hs hc hT hend,
    Tree.decodeStep_of_leaf (Tree.next_eq_some.1 hnext) hleaf]
  rfl

/-- `DECODESYM` at a bit for which the tree has no child (R95). -/
theorem decodeSym_of_diverging (hs : SrcOk s) (hc : CursorOk s) (hT : s.blk.tree t = some T)
    (hend : s.bitpos + j + 1 ≤ 8 * s.srclen) (hdepth : j = 0 ∨ j < T.maxlen)
    (hpath : T.path 0 (streamBits s s.bitpos j) = some i) (hi : T.Inner i)
    (hnone : T.next i (srcBit s (s.bitpos + j)) = none) :
    decodeSym t s =
      .raised .malformedHuffmanCode ((s.seek (s.bitpos + (j + 1))).withTreeCursor t ⟨some i, some j⟩) := by
  have hchild : T.child i (srcBit s (s.bitpos + j)) = some none := by rw [hi.child, hnone]
  rw [decodeSym_path hs hc hT (by omega) hdepth hpath hi, decodeLoop_descended _ hs hc hT hend,
    Tree.decodeStep_of_none hchild]
  rfl

/-- `DECODESYM` at the end of the source (60_exceptions.md rule R157). -/
theorem decodeSym_of_exhausted (hs : SrcOk s) (hc : CursorOk s) (hT : s.blk.tree t = some T)
    (hend : s.bitpos + j = 8 * s.srclen) (hdepth : j = 0 ∨ j < T.maxlen)
    (hpath : T.path 0 (streamBits s s.bitpos j) = some i) (hi : T.Inner i) :
    decodeSym t s =
      .raised .streamExhausted ((s.cursorAt (8 * s.srclen) s.srclen).withTreeCursor t ⟨some i, some j⟩) := by
  have hread := readBits_of_exhausted (s := s.descended t i j) (n := 1) hs (hc.descended hend.le)
    (by rw [State.descended_bitpos]; exact Nat.lt_succ_of_le hend.ge)
  have hstate : (s.descended t i j).cursorAt (8 * s.srclen) s.srclen
      = (s.cursorAt (8 * s.srclen) s.srclen).withTreeCursor t ⟨some i, some j⟩ := by
    rw [State.descended, State.withTreeCursor_cursorAt, State.seek, State.cursorAt_cursorAt]
  rw [decodeSym_path hs hc hT hend.le hdepth hpath hi, decodeLoop, hread, State.descended_bitpos, hend]
  exact congrArg (Res.raised _) hstate

end

theorem exec_decodeSym (t : TreeId) (s : State) : exec (.decodeSym t) s = execDecodeSym t s := rfl

/-- Settles O18: the descent ends at the leaf with turns to spare. -/
theorem decodeSymFollowsTheStreamBits : Obligations.DecodeSymFollowsTheStreamBits := by
  intro s t T n v hT hs hc hpos hle hend hwalk
  rw [exec_decodeSym, execDecodeSym, decodeSym_of_walk hs hc hT hpos hle hend hwalk]
  rfl

/-! ### Codes in the stream -/

/-- `DECODESYM` with a code next in the stream (R95). -/
theorem HoldsCodes.decodeSym {n m : Nat} {D : Nat → Code → Prop} {T : Tree} (h : HoldsCodes n m D T) {s : State} {t : TreeId}
    {v : Nat} {c : Code} (hs : SrcOk s) (hc : CursorOk s) (hT : s.blk.tree t = some T) (hD : D v c)
    (hend : s.bitpos + c.len ≤ 8 * s.srclen) (hbits : streamBits s s.bitpos c.len = c.bits) :
    decodeSym t s = .ok v ((s.seek (s.bitpos + c.len)).withTreeCursor t .root) := by
  have hwalk := (h.leaf c.bits v).2 ⟨c, hD, rfl⟩
  have hpos : 1 ≤ c.len := by
    rw [Nat.one_le_iff_ne_zero]
    intro h0
    have hnil : c.bits = [] := List.length_eq_zero_iff.1 (c.length_bits.trans h0)
    rw [hnil] at hwalk
    exact h.ok.root_inner.not_leaf hwalk
  exact decodeSym_of_walk hs hc hT hpos (h.le_maxlen v c hD) hend (hbits ▸ hwalk)

/-- Bits that properly begin a code, or none at all, lead to an INTERNAL node above the longest code. -/
theorem HoldsCodes.exists_inner {n m : Nat} {D : Nat → Code → Prop} {T : Tree} (h : HoldsCodes n m D T) {p : List Bool}
    (hp : p = [] ∨ ∃ v c, D v c ∧ p <+: c.bits ∧ p ≠ c.bits) :
    ∃ i, T.path 0 p = some i ∧ T.Inner i ∧ (p.length = 0 ∨ p.length < T.maxlen) := by
  rcases hp with rfl | ⟨v, c, hD, ⟨r, hr⟩, hne⟩
  · exact ⟨0, rfl, h.ok.root_inner, .inl rfl⟩
  · obtain ⟨k, hk, -⟩ := Tree.walk_eq_some.1 ((h.leaf c.bits v).2 ⟨c, hD, rfl⟩)
    cases r with
    | nil => exact absurd (by simpa using hr) hne
    | cons b r =>
      rw [← hr, Tree.path_append] at hk
      obtain ⟨i, hi, hrest⟩ := Option.bind_eq_some_iff.1 hk
      obtain ⟨j, hnext, -⟩ := Option.bind_eq_some_iff.1 hrest
      refine ⟨i, hi, Tree.inner_of_next hnext, .inr (lt_of_lt_of_le ?_ (h.le_maxlen v c hD))⟩
      rw [← c.length_bits, ← hr, List.length_append, List.length_cons]
      omega

/-- The tree that `BUILD` made of a table holds the table's codes. -/
theorem holdsCodes_of_buildOk {t : TreeId} {ls : List Nat} {m : Nat} {T : Tree} {cs : List (Option Code)}
    (hok : buildOk t ls m = true) (hbuild : Tree.build ls m = .ok T) (hcanon : canon ls m = .ok cs) :
    HoldsCodes t.symbols t.maxLen (CodesOf cs) T := by
  obtain ⟨rfl, hls, hlen⟩ := buildOk_iff.1 hok
  obtain ⟨cs', hcs, hholds⟩ := holdsCodes_of_build hls hlen hbuild
  obtain rfl := Except.ok.inj (hcs.symm.trans hcanon)
  exact hholds

/-- Settles O19: the code's path leads to its leaf. -/
theorem decodeSymReturnsTheCodedSymbol : Obligations.DecodeSymReturnsTheCodedSymbol := by
  intro s t ls m T cs k c hok hbuild hcanon hk hT hs hc hend hbits
  have hholds := holdsCodes_of_buildOk hok hbuild hcanon
  rw [exec_decodeSym, execDecodeSym, hholds.decodeSym hs hc hT hk hend hbits]
  rfl

/-- Settles O20: the bits before lead to an INTERNAL node, and the diverging bit to no child. -/
theorem decodeSymFailsAtTheDivergingBit : Obligations.DecodeSymFailsAtTheDivergingBit := by
  intro s t ls m T cs k hok hbuild hcanon hT hs hc hpos hend hdiverge hbegin
  obtain ⟨j, rfl⟩ := Nat.exists_eq_add_of_le' hpos
  have hholds := holdsCodes_of_buildOk hok hbuild hcanon
  simp only [Nat.add_sub_cancel] at hbegin ⊢
  obtain ⟨i, hpath, hi, hdepth⟩ := hholds.exists_inner (p := streamBits s s.bitpos j) <| by
    rcases hbegin with h0 | ⟨c, hmem, hc⟩
    · obtain rfl : j = 0 := by omega
      exact .inl rfl
    · obtain ⟨v, hv⟩ := List.mem_iff_getElem?.1 hmem
      refine .inr ⟨v, c, hv, hc, fun heq => (hdiverge c hmem).1 ?_⟩
      rw [streamBits_succ, ← heq]
      exact ⟨_, rfl⟩
  rw [length_streamBits] at hdepth
  have hnone : T.next i (srcBit s (s.bitpos + j)) = none := by
    refine Option.eq_none_iff_forall_ne_some.2 fun l hl => ?_
    rcases hholds.paths (streamBits s s.bitpos (j + 1)) l
      (by rw [streamBits_succ, Tree.path_concat, hpath, Option.bind_some, hl]) with hnil | ⟨v, c, hv, hc⟩
    · simpa using congrArg List.length hnil
    · exact (hdiverge c (List.mem_iff_getElem?.2 ⟨v, hv⟩)).2 hc
  refine ⟨i, by rw [Tree.walk_eq, hpath, Option.bind_some], ?_⟩
  rw [exec_decodeSym, execDecodeSym, decodeSym_of_diverging hs hc hT hend hdepth hpath hi hnone]
  rfl

/-- Settles O21: the bits left lead to an INTERNAL node, where the next read finds the source at its end. -/
theorem decodeSymStopsAtTheSourceEnd : Obligations.DecodeSymStopsAtTheSourceEnd := by
  intro s t ls m T cs k hok hbuild hcanon hT hs hc hend hnocode hbegin
  have hholds := holdsCodes_of_buildOk hok hbuild hcanon
  obtain ⟨i, hpath, hi, hdepth⟩ := hholds.exists_inner (p := streamBits s s.bitpos k) <| by
    rcases hbegin with rfl | ⟨c, hmem, hc⟩
    · exact .inl rfl
    · obtain ⟨v, hv⟩ := List.mem_iff_getElem?.1 hmem
      exact .inr ⟨v, c, hv, hc, fun heq => hnocode c hmem ⟨[], by rw [heq, List.append_nil]⟩⟩
  rw [length_streamBits] at hdepth
  refine ⟨i, by rw [Tree.walk_eq, hpath, Option.bind_some], ?_⟩
  rw [exec_decodeSym, execDecodeSym, decodeSym_of_exhausted hs hc hT hend hdepth hpath hi]
  rfl

end Sys2Proof.Machine
end

section
/-! SUPPORT. The instructions of the block decoder one at a time: the header forms, the checks, the tables, the symbols and the
copy (43_code_length_expander.md, 44_block_decoder.md). -/

open Sys2Proof.Certificates

namespace Sys2Proof.Machine

/-! ### Arms -/

section
variable (s : State)

theorem exec_blkDynamic (f : BitVec 1) : exec (.blkDynamic f) s = (blockHeader f 2 s).outcome := rfl
theorem exec_blkStored (f : BitVec 1) : exec (.blkStored f) s = (blockHeader f 0 s).outcome := rfl
theorem exec_blkFixed (f : BitVec 1) : exec (.blkFixed f) s = (blockHeader f 1 s).outcome := rfl
theorem exec_blkReserved (f : BitVec 1) : exec (.blkReserved f) s = (blockHeader f 3 s).outcome := rfl
theorem exec_dynHeader (a b : BitVec 5) (c : BitVec 4) :
    exec (.dynHeader a b c) s = (rangeCheck (s.withDynHeader a b c)).outcome := rfl
theorem exec_rangeCheck : exec .rangeCheck s = (rangeCheck s).outcome := rfl
theorem exec_overrunCheck : exec .overrunCheck s = (overrunCheck s).outcome := rfl
theorem exec_tables : exec .tables s = (tables s).outcome := rfl
theorem exec_clLen (n : BitVec 3) : exec (.clLen n) s = (clLen n s).outcome := rfl
theorem exec_lit (b : Byte) : exec (.lit b) s = (outAppend b s).outcome := rfl
theorem exec_copyByte : exec .copyByte s = (copyByte s).outcome := rfl

end

/-! ### Headers -/

/-- Settles O22: the dynamic form goes on, the three others raise. -/
theorem blockHeaderForms : Obligations.BlockHeaderForms := by
  intro s f
  rw [exec_blkDynamic, exec_blkStored, exec_blkFixed, exec_blkReserved, blockHeader_of_dynamic,
    blockHeader_of_other f (by decide), blockHeader_of_other f (by decide), blockHeader_of_other f (by decide)]
  exact ⟨rfl, rfl, rfl, rfl⟩

/-- The range check behind the five registers of the header (44_block_decoder.md rules R122, R123). -/
theorem rangeCheck_withDynHeader (s : State) (a b : BitVec 5) (c : BitVec 4) :
    rangeCheck (s.withDynHeader a b c) =
      if 286 < a.toNat + 257 ∨ 30 < b.toNat + 1 then .raised .malformedHuffmanCode (s.withDynHeader a b c)
      else .ok () (s.withDynHeader a b c) :=
  rangeCheck_of rfl rfl

/-- Settles O24: the two reserved forms raise, the third behind its range check. -/
theorem dynamicHeaderForms : Obligations.DynamicHeaderForms := by
  intro s hl hd hc
  refine ⟨fun ha hb => ?_, fun _ => rfl, fun _ => rfl⟩
  rw [exec_dynHeader, rangeCheck_withDynHeader, if_neg (by omega)]
  rfl

/-- Settles O26: `RANGE_CHECK` where its registers hold values. -/
theorem rangeCheckRejectsLongTables : Obligations.RangeCheckRejectsLongTables := by
  intro s a b ha hb
  rw [exec_rangeCheck, rangeCheck_of ha hb]
  refine ⟨fun h1 h2 => ?_, fun h => ?_⟩
  · rw [if_neg (by omega), Res.outcome_ok]
  · rw [if_pos h, Res.outcome_raised, State.raise]

/-- Settles O32: `OVERRUN_CHECK` where its registers hold values. -/
theorem overrunCheckComparesWithTotal : Obligations.OverrunCheckComparesWithTotal := by
  intro s k r a b hk hr ha hb
  rw [exec_overrunCheck, overrunCheck_of hk hr ha hb]
  refine ⟨fun h => ?_, fun h => ?_⟩
  · rw [if_neg (Nat.not_lt.2 h), Res.outcome_ok]
  · rw [if_pos h, Res.outcome_raised, State.raise]

/-! ### Trees and tables -/

section
variable {s : State} {t : TreeId} {ls : List Nat} {m : Nat} {T : Tree}

theorem buildTree_of_ok (h : Tree.build ls m = .ok T) : buildTree t ls m s = .ok () (s.withNewTree t T) :=
  buildTree_eq_ok.2 ⟨T, h, rfl⟩

theorem buildTree_of_malformed (h : Tree.build ls m = .error .malformed) :
    buildTree t ls m s = .raised .malformedHuffmanCode s :=
  buildTree_eq_raised.2 ⟨h, rfl, rfl⟩

/-- A table whose entries all hold values is read whole. -/
theorem readList_of_holdsTable {c : List (Nat × BitVec 4)} {n : Nat} {l : List (BitVec 4)} (h : HoldsTable c n l) :
    Cells.readList c 0 n = some l :=
  Cells.readList_eq_some.2 ⟨h.1, fun i hi => by rw [Nat.zero_add]; exact h.2 i hi⟩

end

theorem State.withNewTree_ll (s : State) (T : Tree) :
    s.withNewTree .ll T = s.withBlk { s.blk with lltree := some T, llcursor := .unwritten } := rfl
theorem State.withNewTree_d (s : State) (T : Tree) :
    s.withNewTree .d T = s.withBlk { s.blk with dtree := some T, dcursor := .unwritten } := rfl

section
variable {s : State} {l d : List (BitVec 4)} {T U : Tree}

/-- TABLES behind the read of `LLLEN` (44_block_decoder.md rule R124). -/
theorem tables_of_lllen (hl : Cells.readList s.blk.lllen 0 286 = some l) :
    tables s = (buildTree .ll (l.map BitVec.toNat) Config.maxLen s).bind fun _ s2 =>
      (need .dlen (Cells.readList s2.blk.dlen 0 30) s2).bind fun d s3 =>
        (buildTree .d (d.map BitVec.toNat) Config.maxLen s3).bind fun _ s4 => .ok () (s4.withPhase .decodeSymbols) := by
  rw [tables, hl, need_some, Res.bind_ok]

/-- TABLES behind the build of the literal/length tree. -/
theorem tables_of_lltree (hl : Cells.readList s.blk.lllen 0 286 = some l)
    (hT : Tree.build (l.map BitVec.toNat) Config.maxLen = .ok T) (hd : Cells.readList s.blk.dlen 0 30 = some d) :
    tables s = (buildTree .d (d.map BitVec.toNat) Config.maxLen (s.withNewTree .ll T)).bind fun _ s4 =>
      .ok () (s4.withPhase .decodeSymbols) := by
  have hd1 : Cells.readList (s.withNewTree .ll T).blk.dlen 0 30 = some d := hd
  rw [tables_of_lllen hl, buildTree_of_ok hT, Res.bind_ok, hd1, need_some, Res.bind_ok]

end

/-- Settles O27: the two builds one after the other. -/
theorem tablesBuildsBothTrees : Obligations.TablesBuildsBothTrees := by
  intro s l hl
  have hll := readList_of_holdsTable hl
  refine ⟨fun d T U hd hT hU => ?_, fun hT => ?_, fun d T hd hT hU => ?_⟩
  · rw [exec_tables, tables_of_lltree hll hT (readList_of_holdsTable hd),
      buildTree_of_ok (m := Config.maxLen) hU, Res.bind_ok, Res.outcome_ok, State.withNewTree_ll, State.withNewTree_d]
    rfl
  · rw [exec_tables, tables_of_lllen hll, buildTree_of_malformed (m := Config.maxLen) hT, Res.bind_raised,
      Res.outcome_raised, State.raise]
  · rw [exec_tables, tables_of_lltree hll hT (readList_of_holdsTable hd),
      buildTree_of_malformed (m := Config.maxLen) hU, Res.bind_raised, Res.outcome_raised]
    rfl

/-! ### Code lengths -/

theorem clOrder_lt : ∀ v ∈ clOrder, v < 19 := by decide

/-- A field of the code-length loop is written to the entry that the order names (43_code_length_expander.md rule R100). -/
theorem clLen_of {s : State} {k sym : Nat} (n : BitVec 3) (hidx : s.blk.clIdx = k) (hsym : clOrder[k]? = some sym) :
    clLen n s = .ok () (s.withBlk { s.blk with cllen := some (s.blk.clLens.set sym n), clIdx := k + 1 }) := by
  simp only [clLen, hidx, hsym]

/-- An entry that no rule has written is 0 (10_state.md rule R19). -/
theorem clLens_of {b : BlockState} {l : List (BitVec 3)}
    (h : b.cllen = some l ∨ (b.cllen = none ∧ l = List.replicate 19 0)) : b.clLens = l := by
  rcases h with h | ⟨h, rfl⟩ <;> simp [BlockState.clLens, h]

/-- Settles O28: the new list is the old one with one entry set. -/
theorem clLenWritesInPermutationOrder : Obligations.ClLenWritesInPermutationOrder := by
  intro s n l k sym hl hlen hidx hsym
  have hlt : sym < l.length := hlen ▸ clOrder_lt sym (List.mem_of_getElem? hsym)
  refine ⟨l.set sym n, ?_, by rw [List.length_set, hlen], List.getElem?_set_self hlt,
    fun j hj => List.getElem?_set_ne hj.symm⟩
  rw [exec_clLen, clLen_of n hidx hsym, clLens_of hl, Res.outcome_ok]

/-! ### Literals, lengths and distances -/

theorem outIsFull_of_room {s : State} (h : Room s 1) : s.outIsFull = false := by
  cases hc : s.outCapacity with
  | none => simp [State.outIsFull, hc]
  | some c =>
    have hle := h c hc
    simp only [State.outIsFull, hc, decide_eq_false_iff_not]
    omega

theorem outIsFull_of_capacity {s : State} {c : Nat} (hc : s.outCapacity = some c) (h : c ≤ s.outlen) :
    s.outIsFull = true := by
  simp [State.outIsFull, hc, h]

theorem outAppend_of_room {s : State} (b : Byte) (h : s.outIsFull = false) : outAppend b s = .ok () (s.append b) :=
  outAppend_eq_ok.2 ⟨h, rfl⟩

/-- Settles O34: an append where there is room, and where there is none. -/
theorem litAppendsItsByte : Obligations.LitAppendsItsByte := by
  intro s b
  rw [exec_lit]
  refine ⟨fun hroom => ⟨Cells.write s.out s.outlen b, ?_, Cells.read_write_same _ _ _, fun a ha => Cells.read_write_ne _ _ ha⟩,
    fun c hc hfull => ?_⟩
  · rw [outAppend_of_room b (outIsFull_of_room hroom)]
    rfl
  · rw [outAppend_eq_stop.2 ⟨outIsFull_of_capacity hc hfull, rfl⟩, Res.outcome_stop]

/-- Each row of R61 is the length symbol of its place. -/
theorem exec_of_mem_lengthRows (s : State) : ∀ p ∈ lengthRows.zipIdx, exec p.1.1 s = (lengthSym p.2 s).outcome := by
  simp only [lengthRows, List.zipIdx_cons, List.zipIdx_nil, List.forall_mem_cons, List.not_mem_nil, false_implies,
    implies_true, and_true]
  and_intros <;> rfl

/-- The tables of the model are the columns of R61; no symbol has more extra bits than a read allows. -/
theorem lengthRows_columns : ∀ p ∈ lengthRows.zipIdx,
    lengthBase.getD p.2 0 = p.1.2.2 ∧ lengthExtra.getD p.2 0 = p.1.2.1 ∧ p.1.2.1 ≤ 16 := by decide

/-- Each row of R63 is the distance symbol of its place. -/
theorem exec_of_mem_distanceRows (s : State) : ∀ p ∈ distanceRows.zipIdx, exec p.1.1 s = (distanceSym p.2 s).outcome := by
  simp only [distanceRows, List.zipIdx_cons, List.zipIdx_nil, List.forall_mem_cons, List.not_mem_nil, false_implies,
    implies_true, and_true]
  and_intros <;> rfl

/-- The tables of the model are the columns of R63; no symbol has more extra bits than a read allows. -/
theorem distanceRows_columns : ∀ p ∈ distanceRows.zipIdx,
    distBase.getD p.2 0 = p.1.2.2 ∧ distExtra.getD p.2 0 = p.1.2.1 ∧ p.1.2.1 ≤ 16 := by decide

/-- A member of a list has a place. -/
theorem exists_mem_zipIdx {α : Type} {l : List α} {a : α} (h : a ∈ l) : ∃ i, (a, i) ∈ l.zipIdx := by
  obtain ⟨i, hi⟩ := List.mem_iff_getElem?.1 h
  exact ⟨i, List.mk_mem_zipIdx_iff_getElem?.2 hi⟩

/-- Settles O36: a length symbol is its base plus its extra bits. -/
theorem lengthSymbolsGiveTheirLengths : Obligations.LengthSymbolsGiveTheirLengths := by
  intro s hs hc p hp
  obtain ⟨i, hi⟩ := exists_mem_zipIdx hp
  obtain ⟨hbase, hextra, hwidth⟩ := lengthRows_columns _ hi
  rw [exec_of_mem_lengthRows s _ hi, lengthSym, hbase, hextra]
  refine ⟨fun hend => ?_, fun hend => ?_⟩
  · rw [basePlusExtra_of_available _ hs hc hwidth hend]
    rfl
  · rw [basePlusExtra_of_exhausted _ hs hc hend]
    rfl

/-- Settles O37: a distance symbol is its base plus its extra bits, behind which `CHECK` stands. -/
theorem distanceSymbolsGiveTheirDistances : Obligations.DistanceSymbolsGiveTheirDistances := by
  intro s hs hc p hp
  obtain ⟨i, hi⟩ := exists_mem_zipIdx hp
  obtain ⟨hbase, hextra, hwidth⟩ := distanceRows_columns _ hi
  rw [exec_of_mem_distanceRows s _ hi, distanceSym, hbase, hextra]
  refine ⟨fun hend => ?_, fun hend => ?_⟩
  · rw [basePlusExtra_of_available _ hs hc hwidth hend, Res.bind_ok, check_of rfl]
    exact ⟨fun hle => congrArg Res.outcome (if_neg (Nat.not_lt.2 hle)), fun hlt => congrArg Res.outcome (if_pos hlt)⟩
  · rw [basePlusExtra_of_exhausted _ hs hc hend]
    rfl

/-- Settles O4: the four arms raise. -/
theorem reservedSymbolsRaiseMalformed : Obligations.ReservedSymbolsRaiseMalformed := by
  intro s
  simp only [List.forall_mem_cons]
  exact ⟨rfl, rfl, rfl, rfl, List.forall_mem_nil _⟩

/-! ### The copy -/

section
variable {s : State} {r d : Nat}

theorem copyByte_of_zero (h : s.blk.copyrem = some 0) : copyByte s = .ok () s := by
  simp [copyByte, h]

/-- One turn of the copy where there is a byte to copy and room for it (44_block_decoder.md rule R131). -/
theorem copyByte_of_room {b : Byte} (hr : s.blk.copyrem = some (r + 1)) (hd : s.blk.distance = some d) (hle : d ≤ s.outlen)
    (hb : Cells.read s.out (s.outlen - d) = some b) (hroom : s.outIsFull = false) :
    copyByte s = .ok () ((s.append b).withBlk { s.blk with copyrem := some r }) := by
  have hread : outRead (s.outlen - d) s = .ok b s := outRead_eq_ok.2 ⟨hb, rfl⟩
  rw [copyByte, hr, need_some, Res.bind_ok, if_neg (Nat.succ_ne_zero r), hd, need_some, Res.bind_ok,
    if_neg (Nat.not_lt.2 hle), hread, Res.bind_ok, outAppend_of_room b hroom, Res.bind_ok]
  rfl

theorem copyByte_of_full {b : Byte} (hr : s.blk.copyrem = some (r + 1)) (hd : s.blk.distance = some d) (hle : d ≤ s.outlen)
    (hb : Cells.read s.out (s.outlen - d) = some b) (hfull : s.outIsFull = true) :
    copyByte s = .stop .outFull := by
  have hread : outRead (s.outlen - d) s = .ok b s := outRead_eq_ok.2 ⟨hb, rfl⟩
  rw [copyByte, hr, need_some, Res.bind_ok, if_neg (Nat.succ_ne_zero r), hd, need_some, Res.bind_ok,
    if_neg (Nat.not_lt.2 hle), hread, Res.bind_ok, outAppend_eq_stop.2 ⟨hfull, rfl⟩, Res.bind_stop]

end

/-- The byte a legal distance names is there. -/
theorem exists_read_behind {s : State} {d : Nat} (hout : OutOk s) (hpos : 1 ≤ d) (hle : d ≤ s.outlen) :
    ∃ b, Cells.read s.out (s.outlen - d) = some b :=
  Option.isSome_iff_exists.1 ((Cells.isSome_read_of_range hout _).2 (by omega))

/-- Settles O39: a turn of the copy with room, at its end, and on a full `OUT`. -/
theorem copyByteAppendsTheByteBehind : Obligations.CopyByteAppendsTheByteBehind := by
  intro s d hd hpos hle hout
  obtain ⟨b, hb⟩ := exists_read_behind hout hpos hle
  rw [exec_copyByte]
  refine ⟨fun r hr hroom => ?_, fun hr => ?_, fun r c hr hc hfull => ?_⟩
  · refine ⟨Cells.write s.out s.outlen b, ?_, ?_, ?_, fun a ha => Cells.read_write_ne _ _ ha⟩
    · rw [copyByte_of_room hr hd hle hb (outIsFull_of_room hroom)]
      rfl
    · rw [Cells.read_write_same, hb]
    · rw [Cells.read_write_same, Option.isSome_some]
  · rw [copyByte_of_zero hr, Res.outcome_ok]
  · rw [copyByte_of_full hr hd hle hb (outIsFull_of_capacity hc hfull), Res.outcome_stop]

end Sys2Proof.Machine
end

section
/-! SUPPORT. The instruction of a word as one operation, and the sequencer's follow-up of a word (30_encoding.md rules R58 to
R66). -/

open Sys2Proof.Certificates

namespace Sys2Proof.Machine

/-- `op` is what the instruction `i` does. -/
def Meaning (i : Instr) (op : State → Res Unit) : Prop :=
  ∀ s, exec i s = (op s).outcome

/-! ### The operation of a word -/

/-- The dynamic header: five registers, then the check (44_block_decoder.md rules R122, R123). -/
def dynHeader (hlit hdist : BitVec 5) (hclen : BitVec 4) (s : State) : Res Unit :=
  rangeCheck (s.withDynHeader hlit hdist hclen)

/-- A CL symbol: one length, the previous length again, or zeros (43_code_length_expander.md rules R103 to R106). -/
def clSymbol (w : Nat) : State → Res Unit :=
  if w < 16 then writeLens (BitVec.ofNat 4 w) 1
  else if w = 16 then clRep16
  else if w = 17 then repeatLen 0 3 3
  else repeatLen 0 11 7

/-- A literal/length symbol (44_block_decoder.md rules R126 to R128; I12). -/
def llSymbol (w : Nat) : State → Res Unit :=
  if w < 256 then outAppend (BitVec.ofNat 8 w)
  else if w = 256 then fun s => .ok () (s.withPhase .done)
  else if w < 286 then lengthSym (w - 257)
  else .raised .malformedHuffmanCode

/-- A distance symbol (44_block_decoder.md rule R129; I12). -/
def dSymbol (w : Nat) : State → Res Unit :=
  if w < 30 then distanceSym w else .raised .malformedHuffmanCode

/-- What the instruction of a word of a format does. -/
def wordOp (f : Format) (w : Nat) : State → Res Unit :=
  match f with
  | .bh => blockHeader (BitVec.ofNat 1 w) (BitVec.ofNat 2 (w / 2))
  | .dh => dynHeader (BitVec.ofNat 5 w) (BitVec.ofNat 5 (w / 2 ^ 5)) (BitVec.ofNat 4 (w / 2 ^ 10))
  | .cll => clLen (BitVec.ofNat 3 w)
  | .cls => clSymbol w
  | .ll => llSymbol w
  | .d => dSymbol w

/-- A bit field that starts at bit `lo` is the low bits of the word shifted there. -/
theorem ofNat_bitField_div (w lo n : Nat) :
    BitVec.ofNat (n + 1) (bitField w (lo + n) lo) = BitVec.ofNat (n + 1) (w / 2 ^ lo) := by
  refine BitVec.eq_of_toNat_eq ?_
  rw [ofNat_bitField, BitVec.toNat_ofNat]

theorem meaning_decodeBh : ∀ w < 8, Meaning (decodeBh w) (wordOp .bh w) := by
  intro w hw s
  interval_cases w <;> rfl

/-- A reserved form raises what the check would raise (44_block_decoder.md rule R123). -/
theorem meaning_decodeDh (w : Nat) : Meaning (decodeDh w) (wordOp .dh w) := by
  intro s
  have ha : BitVec.ofNat 5 (bitField w 4 0) = BitVec.ofNat 5 w := by simpa using ofNat_bitField_div w 0 4
  have hb : BitVec.ofNat 5 (bitField w 9 5) = BitVec.ofNat 5 (w / 2 ^ 5) := ofNat_bitField_div w 5 4
  have hc : BitVec.ofNat 4 (bitField w 13 10) = BitVec.ofNat 4 (w / 2 ^ 10) := ofNat_bitField_div w 10 3
  simp only [wordOp, dynHeader, decodeDh, ha, hb, hc]
  split_ifs with hlit hdist
  · rw [rangeCheck_withDynHeader, if_pos (by omega)]
    rfl
  · rw [rangeCheck_withDynHeader, if_pos (by omega)]
    rfl
  · rfl

theorem meaning_clsInstrs : ∀ p ∈ clsInstrs.zipIdx, Meaning p.1 (clSymbol p.2) := by
  simp only [clsInstrs, List.zipIdx_cons, List.zipIdx_nil, List.forall_mem_cons, List.not_mem_nil, false_implies,
    implies_true, and_true]
  and_intros <;> exact fun _ => rfl

theorem meaning_llInstrs : ∀ p ∈ llInstrs.zipIdx 256, Meaning p.1 (llSymbol p.2) := by
  simp only [llInstrs, List.zipIdx_cons, List.zipIdx_nil, List.forall_mem_cons, List.not_mem_nil, false_implies,
    implies_true, and_true]
  and_intros <;> exact fun _ => rfl

theorem meaning_dInstrs : ∀ p ∈ dInstrs.zipIdx, Meaning p.1 (dSymbol p.2) := by
  simp only [dInstrs, List.zipIdx_cons, List.zipIdx_nil, List.forall_mem_cons, List.not_mem_nil, false_implies,
    implies_true, and_true]
  and_intros <;> exact fun _ => rfl

/-- What a word decodes to does what the word says. -/
theorem meaning_of_decode {f : Format} {w : Nat} {i : Instr} (h : decode f w = .ok i) : Meaning i (wordOp f w) := by
  unfold decode at h
  split at h
  · cases h
  · rename_i hfits
    have hw : w < 2 ^ f.width := Nat.not_le.1 hfits
    split at h
    · obtain rfl := Except.ok.inj h
      exact meaning_decodeBh w hw
    · obtain rfl := Except.ok.inj h
      exact meaning_decodeDh w
    · obtain rfl := Except.ok.inj h
      have hfield := ofNat_bitField_div w 0 2
      rw [Nat.pow_zero, Nat.div_one] at hfield
      intro s
      rw [exec_clLen]
      exact congrArg (fun n => (clLen n s).outcome) hfield
    · exact meaning_clsInstrs _ (List.mk_mem_zipIdx_iff_getElem?.2 (symbolInstr_eq_ok.1 h))
    · split at h
      · rename_i hlt
        obtain rfl := Except.ok.inj h
        intro s
        rw [exec_lit, ofNat_bitField_byte, wordOp, llSymbol, if_pos hlt]
      · rename_i hge
        have hmem := List.mk_mem_zipIdx_iff_le_and_getElem?_sub.2 ⟨Nat.le_of_not_lt hge, symbolInstr_eq_ok.1 h⟩
        exact meaning_llInstrs _ hmem
    · exact meaning_dInstrs _ (List.mk_mem_zipIdx_iff_getElem?.2 (symbolInstr_eq_ok.1 h))

/-! ### The follow-up of a word -/

/-- The follow-up of an instruction that has a word. -/
def wordFollow (f : Format) (w : Nat) : Follow :=
  match f with
  | .dh => .toClLens
  | .ll => if 257 ≤ w then .toDist else .stay
  | .d => .toCopy
  | _ => .stay

theorem follow_of_encode {f : Format} {w : Nat} {i : Instr} (h : encode i = some (f, w)) : follow i = wordFollow f w := by
  unfold follow
  rw [h]
  cases f <;> rfl

theorem follow_of_decode {f : Format} {w : Nat} {i : Instr} (h : decode f w = .ok i) : follow i = wordFollow f w :=
  follow_of_encode (decodedWordEncodesBack f w i h).2

/-- The rows of R61 and R63 have their symbols as words. -/
theorem encode_of_mem_rows :
    (∀ p ∈ lengthRows.zipIdx 257, encode p.1.1 = some (.ll, p.2)) ∧ ∀ p ∈ distanceRows.zipIdx, encode p.1.1 = some (.d, p.2) := by
  decide

/-- Settles O52: an instruction's follow-up is its word's. -/
theorem followUpOfEachInstruction : Obligations.FollowUpOfEachInstruction := by
  obtain ⟨hlength, hdistance⟩ := encode_of_mem_rows
  refine ⟨fun i w h t => ?_, fun T ls m t => rfl, fun p hp t => ?_, fun p hp t => ?_, fun i h t => ?_⟩
  · rw [follow_of_encode h]
    rfl
  · obtain ⟨j, hj⟩ := List.mem_iff_getElem?.1 hp
    have hmem : (p, 257 + j) ∈ lengthRows.zipIdx 257 :=
      List.mk_mem_zipIdx_iff_le_and_getElem?_sub.2 ⟨Nat.le_add_right _ _, by rwa [Nat.add_sub_cancel_left]⟩
    rw [follow_of_encode (hlength _ hmem), wordFollow, if_pos (by simp)]
    rfl
  · obtain ⟨j, hj⟩ := exists_mem_zipIdx hp
    rw [follow_of_encode (hdistance _ hj)]
    refine ⟨fun n hn => ?_, fun hn => ?_⟩
    · simp only [wordFollow, Follow.apply, hn, need_some, Res.bind_ok]
      rfl
    · simp only [wordFollow, Follow.apply, hn, need_none, Res.bind_unwritten]
  · have hstay : follow i = .stay := by
      obtain ⟨w, h | h | h⟩ | ⟨b, rfl⟩ | rfl | rfl | rfl := h
      · exact follow_of_encode h
      · exact follow_of_encode h
      · exact follow_of_encode h
      · rw [follow_of_encode (w := b.toNat) rfl, wordFollow, if_neg (by have := b.isLt; omega)]
      · rfl
      · rfl
      · rfl
    rw [hstay]
    rfl

end Sys2Proof.Machine
end

section
/-! SUPPORT. The steps of a session: what a step is where its fetch is known, the fetch at each point, and whole steps of the
block decoder (44_block_decoder.md, 70_reset_and_hazards.md). -/

open Sys2Proof.Certificates

namespace Sys2Proof.Machine

/-! ### Sessions -/

/-- Settles O43: a core that is not RUNNING answers the stop of its STATUS. -/
theorem noStepOutsideARunningSession : Obligations.NoStepOutsideARunningSession := by
  intro s hstart
  refine ⟨fun h => ?_, fun h => ?_, fun h => ?_⟩ <;> simp [step, hstart, h, Status.stopFault]

/-- Settles O44: the reset state is IDLE. -/
theorem powerOnIsIdle : Obligations.PowerOnIsIdle := ⟨rfl, rfl, rfl, rfl⟩

/-- No register of a new BlockState holds a value (10_state.md rule R17). -/
theorem rangesOk_fresh : RangesOk .fresh where
  lllen := .inl rfl
  dlen := .inl rfl
  cursor := fun t _ h => by cases t <;> cases h
  nlit := nofun
  ndist := nofun
  cllen := nofun
  seqcnt := nofun
  cltree := nofun
  lltree := nofun
  dtree := nofun
  sym := nofun
  clsym := nofun
  rep := nofun
  length := nofun
  dsym := nofun
  distance := nofun
  copyrem := nofun

/-- Settles O54: nothing is stored and no register holds a value. -/
theorem powerOnMeetsTheInvariants : Obligations.PowerOnMeetsTheInvariants where
  mem := ⟨rfl, rfl, List.Pairwise.nil⟩
  cursor := ⟨rfl, ⟨Nat.le_refl 0, by decide, Nat.le_refl 0, by decide, fun j hj => absurd hj (Nat.not_lt_zero j)⟩,
    fun _ => Nat.zero_le 7⟩
  status := ⟨by decide, by decide⟩
  block := ⟨rangesOk_fresh, fun h => by cases h⟩

/-- A `START` that the host has issued is taken first (70_reset_and_hazards.md rule R180). -/
theorem step_of_hostStart {s : State} {src : List Byte} (h : s.hostStart = some src) :
    step s = .next (State.start src { s with hostStart := none }) := by
  simp only [step, h]
  rfl

/-- Settles O42: the source is bound from address 0 on, and every other session register is given its value. -/
theorem startBeginsAFreshSession : Obligations.StartBeginsAFreshSession := by
  intro s src h
  refine ⟨Cells.ofList 0 src, step_of_hostStart h, fun a => ?_, (step_of_hostStart h).symm⟩
  rw [Cells.read_ofList, if_pos (Nat.zero_le a), Nat.sub_zero]

/-! ### A step of a running session -/

section
variable {s s1 : State} {p : Phase} {i : Instr}

theorem step_of_running (h : RunningIn s p) : step s = stepRunning s := by
  obtain ⟨hstart, hrun, -⟩ := h
  simp only [step, hstart, hrun, if_true]

section
variable (h : RunningIn s p) (hp : p ≠ .done)
include h hp

/-- A fetch whose instruction does not wait: `exec` of it, then its follow-up. -/
theorem step_of_fetch_ok (hf : fetch s = .ok i s1) (hw : waitsForRoom s i s1 = false) :
    step s = afterExec i (exec i s1) := by
  rw [step_of_running h]
  unfold stepRunning
  split
  · rename_i hdone
    exact absurd (h.2.2.symm.trans hdone) hp
  · simp [hf, hw]

theorem step_of_waits (hf : fetch s = .ok i s1) (hw : waitsForRoom s i s1 = true) :
    step s = .next (s1.withBlk { s1.blk with symPoint := .append }) := by
  rw [step_of_running h]
  unfold stepRunning
  split
  · rename_i hdone
    exact absurd (h.2.2.symm.trans hdone) hp
  · simp [hf, hw]

theorem step_of_fetch_raised {e : ErrCode} (hf : fetch s = .raised e s1) : step s = .next (s1.raise e) := by
  rw [step_of_running h]
  unfold stepRunning
  split
  · rename_i hdone
    exact absurd (h.2.2.symm.trans hdone) hp
  · simp [hf]

theorem step_of_fetch_unwritten {r : Reg} (hf : fetch s = .unwritten r s1) : step s = .next s1.raiseUnwritten := by
  rw [step_of_running h]
  unfold stepRunning
  split
  · rename_i hdone
    exact absurd (h.2.2.symm.trans hdone) hp
  · simp [hf]

/-- A step whose instruction completes, the operation and the follow-up known. -/
theorem step_of_meaning {op : State → Res Unit} {fl : Follow} {t : State} (hf : fetch s = .ok i s1)
    (hw : waitsForRoom s i s1 = false) (hop : Meaning i op) (hfl : follow i = fl) (ht : op s1 = .ok () t)
    (hrun : t.status = .running) : step s = (fl.apply t).outcome := by
  rw [step_of_fetch_ok h hp hf hw, hop, ht, Res.outcome_ok, afterExec, if_pos hrun, hfl]

/-- A step whose instruction raises. -/
theorem step_of_meaning_raised {op : State → Res Unit} {e : ErrCode} {t : State} (hf : fetch s = .ok i s1)
    (hw : waitsForRoom s i s1 = false) (hop : Meaning i op) (ht : op s1 = .raised e t) : step s = .next (t.raise e) := by
  rw [step_of_fetch_ok h hp hf hw, hop, ht, Res.outcome_raised, afterExec, if_neg (by simp)]

end

/-- An instruction that is no literal, or a literal with room, does not wait. -/
theorem waitsForRoom_eq_false (h : ∀ b, i = .lit b → s.blk.symPoint = .append ∨ s1.outIsFull = false) :
    waitsForRoom s i s1 = false := by
  refine Bool.eq_false_iff.2 fun hw => ?_
  obtain ⟨⟨b, hb⟩, hpoint, hfull⟩ := waitsForRoom_eq_true.1 hw
  rcases h b hb with h | h
  · exact hpoint h
  · exact Bool.false_ne_true (h.symm.trans hfull)

end

/-- Settles O51: by what the fetch answers, and then by what `exec` and the follow-up answer. -/
theorem stepRunsTheFetchedInstruction : Obligations.StepRunsTheFetchedInstruction := by
  intro s p hs hp
  refine ⟨fun i s1 hf hroom => ?_, fun b s1 hf hpoint hfull => ?_, fun e s1 hf => step_of_fetch_raised hs hp hf,
    fun r s1 hf => step_of_fetch_unwritten hs hp hf⟩
  · rw [step_of_fetch_ok hs hp hf (waitsForRoom_eq_false hroom)]
    refine ⟨fun t u ht hrun hu => ?_, fun t r u ht hrun hu => ?_, fun t ht hrun => ?_, fun f hfault => ?_⟩
    · rw [ht, afterExec, if_pos hrun, hu, Res.outcome_ok]
    · rw [ht, afterExec, if_pos hrun, hu, Res.outcome_unwritten]
    · rw [ht, afterExec, if_neg hrun]
    · rw [hfault, afterExec]
  · exact step_of_waits hs hp hf (waitsForRoom_eq_true.2 ⟨⟨b, rfl⟩, hpoint, hfull⟩)

/-- Settles O35: the phase alone, then the step of Done by the value of `BFINAL`. -/
theorem eobEndsTheBlock : Obligations.EobEndsTheBlock := by
  intro s
  refine ⟨rfl, fun f hs hf => ?_⟩
  have hstep : step s = .next (State.endBlock { s with blocks := s.blocks + 1 } f) := by
    rw [step_of_running hs, stepRunning, hs.2.2]
    simp only [blockDone, hf, need_some, Res.bind_ok, Res.outcome_ok]
    rw [hs.2.2]
  rw [hstep]
  refine ⟨fun h => ?_, fun h => ?_⟩
  · rw [State.endBlock, if_pos h]
  · rw [State.endBlock, if_neg (by rw [h]; decide)]

/-! ### The fetch at each point -/

theorem decodeRes_of_ok {f : Format} {w : Nat} {i : Instr} (h : decode f w = .ok i) (s : State) :
    decodeRes f w s = .ok i s := by
  simp only [decodeRes, h]

section
variable {s : State}

theorem fetch_of_readHeader (hp : s.phase = .readHeader) : fetch s = fetchBlockHeader s := by simp only [fetch, hp]

theorem fetch_of_dynHeader (hp : s.phase = .readDynamicTables) (hpt : s.blk.clPoint = .dynHeader) :
    fetch s = fetchDynHeader s := by simp only [fetch, hp, hpt]

theorem fetch_of_clLens (hp : s.phase = .readDynamicTables) (hpt : s.blk.clPoint = .clLens) :
    fetch s = fetchClLen s := by simp only [fetch, hp, hpt]

theorem fetch_of_clSyms (hp : s.phase = .readDynamicTables) (hpt : s.blk.clPoint = .clSyms) :
    fetch s = fetchClSym s := by simp only [fetch, hp, hpt]

theorem fetch_of_symbols (hp : s.phase = .decodeSymbols) (hpt : s.blk.symPoint = .symbols) :
    fetch s = fetchSymbol s := by simp only [fetch, hp, hpt]

theorem fetch_of_dist (hp : s.phase = .decodeSymbols) (hpt : s.blk.symPoint = .dist) :
    fetch s = fetchDistance s := by simp only [fetch, hp, hpt]

theorem fetch_of_copy (hp : s.phase = .decodeSymbols) (hpt : s.blk.symPoint = .copy) :
    fetch s = fetchCopy s := by simp only [fetch, hp, hpt]

theorem fetch_of_append (hp : s.phase = .decodeSymbols) (hpt : s.blk.symPoint = .append) :
    fetch s = fetchAppend s := by simp only [fetch, hp, hpt]

/-- At the start of a symbol the point is written already. -/
theorem fetchSymbol_of_symbols (hpt : s.blk.symPoint = .symbols) :
    fetchSymbol s = (decodeSym .ll s).bind fun v s1 => decodeRes .ll v (s1.withBlk { s1.blk with sym := some v }) := by
  have hself : s.withBlk { s.blk with symPoint := .symbols } = s := by rw [← hpt]; rfl
  rw [fetchSymbol, hself]

/-- After the last byte of a copy a symbol is due. -/
theorem fetchCopy_of_zero (h : s.blk.copyrem = some 0) : fetchCopy s = fetchSymbol s := by
  rw [fetchCopy, h, need_some, Res.bind_ok, if_pos rfl]

theorem fetchCopy_of_succ {r : Nat} (h : s.blk.copyrem = some (r + 1)) : fetchCopy s = .ok .copyByte s := by
  rw [fetchCopy, h, need_some, Res.bind_ok, if_neg (Nat.succ_ne_zero r)]

end

/-- Settles O53: point by point. -/
theorem fetchDecodesTheNextSymbol : Obligations.FetchDecodesTheNextSymbol := by
  intro s s1
  refine ⟨fun v i hp hpt hv hi => ?_, fun v i hp hpt hr hv hi => ?_, fun r hp hpt hr => ?_, fun v i hp hpt hv hi => ?_,
    fun v i hp hpt hv hi => ?_, fun v i k a b hp hpt hk ha hb hlt hv hi => ?_, fun c hp hpt hc hlt hs hcur hend => ?_,
    fun c l hp hpt hc hle hl => ?_⟩
  · rw [fetch_of_symbols hp hpt, fetchSymbol_of_symbols hpt, hv, Res.bind_ok, decodeRes_of_ok hi]
  · rw [fetch_of_copy hp hpt, fetchCopy_of_zero hr, fetchSymbol, hv, Res.bind_ok, decodeRes_of_ok hi]
  · rw [fetch_of_copy hp hpt, fetchCopy_of_succ hr]
  · rw [fetch_of_append hp hpt, fetchAppend, hv, need_some, Res.bind_ok, decodeRes_of_ok hi]
  · rw [fetch_of_dist hp hpt, fetchDistance, hv, Res.bind_ok, decodeRes_of_ok hi]
  · rw [fetch_of_clSyms hp hpt, fetchClSym, hk, need_some, Res.bind_ok, seqTotal_eq_ok.2 ⟨a, b, ha, hb, rfl, rfl⟩,
      Res.bind_ok, if_pos hlt, hv, Res.bind_ok, decodeRes_of_ok hi]
  · have hw : decode .cll (streamValue s s.bitpos 3) = .ok (.clLen (BitVec.ofNat 3 (streamValue s s.bitpos 3))) := by
      have hdec := decode_clLen (BitVec.ofNat 3 (streamValue s s.bitpos 3))
      rwa [BitVec.toNat_ofNat, Nat.mod_eq_of_lt (streamValue_lt s _ _)] at hdec
    rw [fetch_of_clLens hp hpt, fetchClLen, hc, need_some, Res.bind_ok, if_pos hlt,
      readBits_of_available hs hcur (by decide) hend, Res.bind_ok, decodeRes_of_ok hw]
  · rw [fetch_of_clLens hp hpt, fetchClLen, hc, need_some, Res.bind_ok, if_neg (Nat.not_lt.2 hle), clLens_of hl]
    rfl

/-! ### The headers' steps -/

section
variable {s : State} {p n : Nat} (b : BlockState)

theorem State.withBlk_cursorAt (k : Nat) : (s.withBlk b).cursorAt p k = (s.cursorAt p k).withBlk b := by
  rw [State.cursorAt, streamValue_of_src (s.withBlk_src b)]
  rfl

/-- A read behind earlier reads of the same header: the BlockState has changed meanwhile, the stream has not. -/
theorem readBits_behind (hs : SrcOk s) (hc : CursorOk s) (hn : n ≤ 16) (hle : s.bitpos ≤ p) (hend : p + n ≤ 8 * s.srclen) :
    readBits n ((s.seek p).withBlk b) = .ok (streamValue s p n) ((s.seek (p + n)).withBlk b) := by
  have hcur : CursorOk ((s.seek p).withBlk b) := (hc.seek hle (by omega)).of_same rfl rfl rfl rfl rfl
  have hsrc : ((s.seek p).withBlk b).src = s.src := rfl
  have hpos : ((s.seek p).withBlk b).bitpos = p := s.bitpos_seek p
  have hread := readBits_of_available (s := (s.seek p).withBlk b) hs hcur hn (by rw [hpos]; exact hend)
  have hseek : ((s.seek p).withBlk b).seek (p + n) = (s.seek (p + n)).withBlk b := by
    rw [State.seek, State.withBlk_cursorAt]
    exact congrArg (State.withBlk · b) (s.seek_seek (Nat.le_add_right p n))
  rwa [hpos, streamValue_of_src hsrc, hseek] at hread

/-- A read of a header that the source does not satisfy. -/
theorem readBits_behind_exhausted (hs : SrcOk s) (hc : CursorOk s) (hle : s.bitpos ≤ p) (hp : p ≤ 8 * s.srclen)
    (hend : 8 * s.srclen < p + n) :
    readBits n ((s.seek p).withBlk b) = .raised .streamExhausted ((s.cursorAt p s.srclen).withBlk b) := by
  have hcur : CursorOk ((s.seek p).withBlk b) := (hc.seek hle hp).of_same rfl rfl rfl rfl rfl
  have hpos : ((s.seek p).withBlk b).bitpos = p := s.bitpos_seek p
  have hread := readBits_of_exhausted (s := (s.seek p).withBlk b) hs hcur (by rw [hpos]; exact hend)
  rwa [hpos, State.withBlk_cursorAt, State.seek, State.cursorAt_cursorAt] at hread

end

section
variable {s : State}

/-- A read at the bit position itself is a read behind no earlier one. -/
theorem CursorOk.withBlk_seek_bitpos (hc : CursorOk s) (b : BlockState) : s.withBlk b = (s.seek s.bitpos).withBlk b := by
  rw [hc.seek_bitpos]

/-- The registers of a block header of the bits `f` and `ty` (44_block_decoder.md rule R120). -/
def headerBlk (f ty : Nat) : BlockState :=
  { BlockState.fresh with bfinal := some (BitVec.ofNat 1 f), btype := some (BitVec.ofNat 2 ty) }

theorem fetchBlockHeader_of_available (hs : SrcOk s) (hc : CursorOk s) (hend : s.bitpos + 3 ≤ 8 * s.srclen) :
    fetchBlockHeader s =
      decodeRes .bh (streamValue s s.bitpos 1 + streamValue s (s.bitpos + 1) 2 * 2)
        ((s.seek (s.bitpos + 3)).withBlk (headerBlk (streamValue s s.bitpos 1) (streamValue s (s.bitpos + 1) 2))) := by
  rw [fetchBlockHeader, hc.withBlk_seek_bitpos, readBits_behind _ hs hc (by decide) le_rfl (by omega), Res.bind_ok,
    State.withBFinal, State.withBlk_withBlk, readBits_behind _ hs hc (by decide) (by omega) (by omega), Res.bind_ok]
  rfl

/-- A block header that is cut short has written no `BTYPE` (60_exceptions.md rule R157). -/
theorem fetchBlockHeader_of_exhausted (hs : SrcOk s) (hc : CursorOk s) (hend : 8 * s.srclen < s.bitpos + 3) :
    ∃ t, fetchBlockHeader s = .raised .streamExhausted t ∧ t.bytepos = s.srclen ∧ t.blk.btype = none := by
  have hpos : s.bitpos ≤ 8 * s.srclen := by
    have h1 := hc.bytepos_le
    have h2 := s.bitpos_le_fetched
    omega
  rw [fetchBlockHeader, hc.withBlk_seek_bitpos]
  rcases Nat.lt_or_ge (8 * s.srclen) (s.bitpos + 1) with hfirst | hfirst
  · rw [readBits_behind_exhausted _ hs hc le_rfl hpos hfirst]
    exact ⟨_, rfl, rfl, rfl⟩
  · rw [readBits_behind _ hs hc (by decide) le_rfl hfirst, Res.bind_ok, State.withBFinal, State.withBlk_withBlk,
      readBits_behind_exhausted _ hs hc (by omega) hfirst (by omega)]
    exact ⟨_, rfl, rfl, rfl⟩

/-- The operation of the header's word, its two fields apart. -/
theorem wordOp_bh {f ty : Nat} (hf : f < 2) :
    wordOp .bh (f + ty * 2) = blockHeader (BitVec.ofNat 1 f) (BitVec.ofNat 2 ty) := by
  have hlow : BitVec.ofNat 1 (f + ty * 2) = BitVec.ofNat 1 f := by
    refine BitVec.eq_of_toNat_eq ?_
    rw [BitVec.toNat_ofNat, BitVec.toNat_ofNat]
    omega
  have hhigh : (f + ty * 2) / 2 = ty := by omega
  rw [wordOp, hlow, hhigh]

theorem decode_bh_of_lt {w : Nat} (h : w < 8) : decode .bh w = .ok (decodeBh w) := by
  have hfits : ¬ 2 ^ Format.bh.width ≤ w := Nat.not_le.2 h
  simp only [decode, if_neg hfits]

end

/-- Settles O23: two reads, the check of the type, and no follow-up. -/
theorem blockHeaderStepReadsThreeBits : Obligations.BlockHeaderStepReadsThreeBits := by
  intro s hrun hs hc f ty b
  have hp : Phase.readHeader ≠ .done := by decide
  have hfetch := fetch_of_readHeader hrun.2.2
  have hf : streamValue s s.bitpos 1 < 2 := streamValue_lt s _ _
  have hty : ty < 4 := streamValue_lt s _ _
  have hw : decode .bh (streamValue s s.bitpos 1 + ty * 2) = .ok (decodeBh (streamValue s s.bitpos 1 + ty * 2)) :=
    decode_bh_of_lt (by omega)
  have hop := meaning_of_decode hw
  rw [wordOp_bh hf] at hop
  have hwait (t : State) : waitsForRoom s (decodeBh (streamValue s s.bitpos 1 + ty * 2)) t = false :=
    waitsForRoom_eq_false fun v hv => by
      have hformat := encode_format_of_decode hw
      rw [hv] at hformat
      cases hformat
  refine ⟨fun hend h2 => ?_, fun hend h2 => ?_, fun hend => ?_⟩
  · rw [fetchBlockHeader_of_available hs hc hend, decodeRes_of_ok hw] at hfetch
    have hexec := blockHeader_of_dynamic (BitVec.ofNat 1 (streamValue s s.bitpos 1)) ((s.seek (s.bitpos + 3)).withBlk b)
    have htype : BitVec.ofNat 2 ty = 2 := congrArg (BitVec.ofNat 2) h2
    rw [← htype] at hexec
    exact step_of_meaning hrun hp hfetch (hwait _) hop (follow_of_decode hw) hexec hrun.2.1
  · rw [fetchBlockHeader_of_available hs hc hend, decodeRes_of_ok hw] at hfetch
    have htype : BitVec.ofNat 2 ty ≠ 2 := by
      intro h
      have hnat := congrArg BitVec.toNat h
      rw [BitVec.toNat_ofNat, Nat.mod_eq_of_lt hty] at hnat
      exact h2 hnat
    exact step_of_meaning_raised hrun hp hfetch (hwait _) hop
      (blockHeader_of_other (BitVec.ofNat 1 (streamValue s s.bitpos 1)) htype ((s.seek (s.bitpos + 3)).withBlk b))
  · obtain ⟨t, ht, hpos, hbtype⟩ := fetchBlockHeader_of_exhausted hs hc hend
    exact ⟨t.raise .streamExhausted, step_of_fetch_raised hrun hp (hfetch.trans ht), rfl, rfl, hpos, hbtype⟩

section
variable {s : State}

theorem wordOp_dh {a b c : Nat} (ha : a < 2 ^ 5) (hb : b < 2 ^ 5) :
    wordOp .dh (a + b * 2 ^ 5 + c * 2 ^ 10) = dynHeader (BitVec.ofNat 5 a) (BitVec.ofNat 5 b) (BitVec.ofNat 4 c) := by
  have hlow : BitVec.ofNat 5 (a + b * 2 ^ 5 + c * 2 ^ 10) = BitVec.ofNat 5 a := by
    refine BitVec.eq_of_toNat_eq ?_
    rw [BitVec.toNat_ofNat, BitVec.toNat_ofNat]
    omega
  have hmid : BitVec.ofNat 5 ((a + b * 2 ^ 5 + c * 2 ^ 10) / 2 ^ 5) = BitVec.ofNat 5 b := by
    refine BitVec.eq_of_toNat_eq ?_
    rw [BitVec.toNat_ofNat, BitVec.toNat_ofNat]
    omega
  have hhigh : (a + b * 2 ^ 5 + c * 2 ^ 10) / 2 ^ 10 = c := by omega
  rw [wordOp, hlow, hmid, hhigh]

theorem decode_dh_of_lt {w : Nat} (h : w < 2 ^ 14) : decode .dh w = .ok (decodeDh w) := by
  have hfits : ¬ 2 ^ Format.dh.width ≤ w := Nat.not_le.2 h
  simp only [decode, if_neg hfits]

/-- The word of the dynamic header that is next in the stream (30_encoding.md rule R59). -/
def dynWord (s : State) : Nat :=
  streamValue s s.bitpos 5 + streamValue s (s.bitpos + 5) 5 * 2 ^ 5 + streamValue s (s.bitpos + 10) 4 * 2 ^ 10

theorem fetchDynHeader_of_available (hs : SrcOk s) (hc : CursorOk s) (hend : s.bitpos + 14 ≤ 8 * s.srclen) :
    fetchDynHeader s = decodeRes .dh (dynWord s) ((s.seek (s.bitpos + 14)).withDynHeader
      (BitVec.ofNat 5 (streamValue s s.bitpos 5)) (BitVec.ofNat 5 (streamValue s (s.bitpos + 5) 5))
      (BitVec.ofNat 4 (streamValue s (s.bitpos + 10) 4))) := by
  rw [fetchDynHeader, readBits_of_available hs hc (by decide) (by omega), Res.bind_ok, State.withHlit,
    readBits_behind _ hs hc (by decide) (by omega) (by omega), Res.bind_ok, State.withHdist, State.withBlk_withBlk,
    readBits_behind _ hs hc (by decide) (by omega) (by omega), Res.bind_ok]
  rfl

/-- A dynamic header that is cut short has not written `HCLEN` (60_exceptions.md rule R157). -/
theorem fetchDynHeader_of_exhausted (hs : SrcOk s) (hc : CursorOk s) (hend : 8 * s.srclen < s.bitpos + 14) :
    ∃ t, fetchDynHeader s = .raised .streamExhausted t ∧ t.bytepos = s.srclen ∧ t.blk.hclen = s.blk.hclen := by
  rw [fetchDynHeader]
  rcases Nat.lt_or_ge (8 * s.srclen) (s.bitpos + 5) with hfirst | hfirst
  · rw [readBits_of_exhausted hs hc hfirst]
    exact ⟨_, rfl, rfl, rfl⟩
  rw [readBits_of_available hs hc (by decide) hfirst, Res.bind_ok, State.withHlit]
  rcases Nat.lt_or_ge (8 * s.srclen) (s.bitpos + 10) with hsecond | hsecond
  · rw [readBits_behind_exhausted _ hs hc (by omega) hfirst (by omega)]
    exact ⟨_, rfl, rfl, rfl⟩
  · rw [readBits_behind _ hs hc (by decide) (by omega) (by omega), Res.bind_ok, State.withHdist, State.withBlk_withBlk,
      readBits_behind_exhausted _ hs hc (by omega) (by omega) (by omega)]
    exact ⟨_, rfl, rfl, rfl⟩

/-- The registers that a dynamic header leaves, its counts as numbers. -/
theorem withDynHeader_ofNat (t : State) {a b : Nat} (c : Nat) (ha : a < 2 ^ 5) (hb : b < 2 ^ 5) :
    t.withDynHeader (BitVec.ofNat 5 a) (BitVec.ofNat 5 b) (BitVec.ofNat 4 c) = t.withBlk { t.blk with
      hlit := some (BitVec.ofNat 5 a), nlit := some (a + 257), hdist := some (BitVec.ofNat 5 b), ndist := some (b + 1),
      hclen := some (BitVec.ofNat 4 c) } := by
  have htoa : (BitVec.ofNat 5 a).toNat = a := by rw [BitVec.toNat_ofNat, Nat.mod_eq_of_lt ha]
  have htob : (BitVec.ofNat 5 b).toNat = b := by rw [BitVec.toNat_ofNat, Nat.mod_eq_of_lt hb]
  rw [State.withDynHeader, State.withHlit, State.withHdist, State.withHclen, htoa, htob]
  rfl

/-- The check behind a dynamic header, its counts as numbers. -/
theorem dynHeader_ofNat (t : State) {a b : Nat} (c : Nat) (ha : a < 2 ^ 5) (hb : b < 2 ^ 5) :
    dynHeader (BitVec.ofNat 5 a) (BitVec.ofNat 5 b) (BitVec.ofNat 4 c) t =
      if 286 < a + 257 ∨ 30 < b + 1 then
        .raised .malformedHuffmanCode (t.withDynHeader (BitVec.ofNat 5 a) (BitVec.ofNat 5 b) (BitVec.ofNat 4 c))
      else .ok () (t.withDynHeader (BitVec.ofNat 5 a) (BitVec.ofNat 5 b) (BitVec.ofNat 4 c)) := by
  rw [dynHeader, rangeCheck_withDynHeader, BitVec.toNat_ofNat, Nat.mod_eq_of_lt ha, BitVec.toNat_ofNat, Nat.mod_eq_of_lt hb]

end

/-- Settles O25: three reads, the check of the counts, and the start of the code lengths. -/
theorem dynamicHeaderStepReadsFourteenBits : Obligations.DynamicHeaderStepReadsFourteenBits := by
  intro s hrun hpt hs hc hl hd hcl b
  have hp : Phase.readDynamicTables ≠ .done := by decide
  have hfetch := fetch_of_dynHeader hrun.2.2 hpt
  have ha : hl < 2 ^ 5 := streamValue_lt s _ _
  have hb : hd < 2 ^ 5 := streamValue_lt s _ _
  have hc4 : hcl < 2 ^ 4 := streamValue_lt s _ _
  have hw : decode .dh (dynWord s) = .ok (decodeDh (dynWord s)) := decode_dh_of_lt (by unfold dynWord; omega)
  have hop := meaning_of_decode hw
  rw [dynWord, wordOp_dh ha hb] at hop
  have hwait (t : State) : waitsForRoom s (decodeDh (dynWord s)) t = false :=
    waitsForRoom_eq_false fun v hv => by
      have hformat := encode_format_of_decode hw
      rw [hv] at hformat
      cases hformat
  let t := (s.seek (s.bitpos + 14)).withDynHeader (BitVec.ofNat 5 hl) (BitVec.ofNat 5 hd) (BitVec.ofNat 4 hcl)
  have ht : t = (s.seek (s.bitpos + 14)).withBlk b := withDynHeader_ofNat _ _ ha hb
  have hagain : t.withDynHeader (BitVec.ofNat 5 hl) (BitVec.ofNat 5 hd) (BitVec.ofNat 4 hcl) = t := rfl
  have hcheck := dynHeader_ofNat t hcl ha hb
  rw [hagain] at hcheck
  refine ⟨fun hend h1 h2 => ?_, fun hend h => ?_, fun hend => ?_⟩
  · rw [fetchDynHeader_of_available hs hc hend, decodeRes_of_ok hw] at hfetch
    rw [if_neg (by omega)] at hcheck
    rw [step_of_meaning hrun hp hfetch (hwait _) hop (follow_of_decode hw) hcheck hrun.2.1, ht]
    rfl
  · rw [fetchDynHeader_of_available hs hc hend, decodeRes_of_ok hw] at hfetch
    rw [if_pos h] at hcheck
    rw [step_of_meaning_raised hrun hp hfetch (hwait _) hop hcheck, ht]
  · obtain ⟨t, ht, hpos, hhclen⟩ := fetchDynHeader_of_exhausted hs hc hend
    exact ⟨t.raise .streamExhausted, step_of_fetch_raised hrun hp (hfetch.trans ht), rfl, rfl, hpos, hhclen⟩

end Sys2Proof.Machine
end

section
/-! SUPPORT. The split of the code lengths, a coded literal, and the copy as a whole (43_code_length_expander.md rule R108,
44_block_decoder.md rules R126, R131, R134). -/

open Sys2Proof.Certificates

namespace Sys2Proof.Machine

/-! ### The split -/

/-- `m` with the `n` entries from `i` on written as `e` says, one after the other. -/
def writeEntries (e : Nat → BitVec 4) : Nat → Nat → List (Nat × BitVec 4) → List (Nat × BitVec 4)
  | 0, _, m => m
  | n + 1, i, m => writeEntries e n (i + 1) (Cells.write m i (e i))

theorem read_writeEntries (e : Nat → BitVec 4) (n i j : Nat) (m : List (Nat × BitVec 4)) :
    Cells.read (writeEntries e n i m) j = if i ≤ j ∧ j < i + n then some (e j) else Cells.read m j := by
  induction n generalizing i m with
  | zero => rw [writeEntries, if_neg (by omega)]
  | succ n ih =>
    rw [writeEntries, ih, Cells.read_write]
    by_cases hj : j = i
    · subst hj
      rw [if_neg (by omega), if_pos rfl, if_pos (by omega)]
    · have hrange : (i + 1 ≤ j ∧ j < i + 1 + n) ↔ (i ≤ j ∧ j < i + (n + 1)) := by omega
      simp only [hrange, if_neg hj]

/-- A write to an address that is listed lists no new one. -/
theorem keys_write_listed {m : List (Nat × BitVec 4)} {k i : Nat} (h : m.map Prod.fst = List.range k) (hi : i < k)
    (v : BitVec 4) : (Cells.write m i v).map Prod.fst = List.range k := by
  refine List.Perm.eq_of_pairwise (le := (· < ·)) (fun a b _ _ h1 h2 => absurd h1 (Nat.lt_asymm h2))
    (Cells.wf_write (Cells.wf_of_range h) i v) List.pairwise_lt_range ?_
  refine (List.perm_ext_iff_of_nodup ?_ List.nodup_range).2 fun b => ?_
  · exact (Cells.wf_write (Cells.wf_of_range h) i v).imp Nat.ne_of_lt
  · rw [Cells.mem_keys_write, h, List.mem_range]
    omega

theorem keys_writeEntries_listed (e : Nat → BitVec 4) {m : List (Nat × BitVec 4)} {k n i : Nat}
    (h : m.map Prod.fst = List.range k) (hi : i + n ≤ k) : (writeEntries e n i m).map Prod.fst = List.range k := by
  induction n generalizing i m with
  | zero => exact h
  | succ n ih => exact ih (keys_write_listed h (by omega) _) (by omega)

theorem keys_writeEntries_next (e : Nat → BitVec 4) {m : List (Nat × BitVec 4)} {n i : Nat}
    (h : m.map Prod.fst = List.range i) : (writeEntries e n i m).map Prod.fst = List.range (i + n) := by
  induction n generalizing i m with
  | zero => exact h
  | succ n ih =>
    rw [writeEntries, ih (Cells.keys_write_next h (e i)), Nat.add_right_comm, Nat.add_assoc]

/-- A table filled from empty or once more holds exactly its entries (10_state.md section 1.2). -/
theorem keys_writeEntries (e : Nat → BitVec 4) {m : List (Nat × BitVec 4)} {n : Nat}
    (h : m = [] ∨ m.map Prod.fst = List.range n) : (writeEntries e n 0 m).map Prod.fst = List.range n := by
  rcases h with rfl | h
  · rw [keys_writeEntries_next e (m := []) rfl, Nat.zero_add]
  · exact keys_writeEntries_listed e h (by omega)

/-- `w` writes an entry of the table that `get` reads and `put` replaces, and none of `LENSEQ`. -/
structure WritesTable (w : BlockState → Nat → BitVec 4 → BlockState) (get : BlockState → List (Nat × BitVec 4))
    (put : BlockState → List (Nat × BitVec 4) → BlockState) : Prop where
  write : ∀ b i v, w b i v = put b (Cells.write (get b) i v)
  get_put : ∀ b m, get (put b m) = m
  put_put : ∀ b m n, put (put b m) n = put b n
  put_get : ∀ b, put b (get b) = b
  lenseq : ∀ b m, (put b m).lenseq = b.lenseq

/-- `LLLEN` replaced. -/
def BlockState.withLllen (b : BlockState) (m : List (Nat × BitVec 4)) : BlockState := { b with lllen := m }

/-- `DLEN` replaced. -/
def BlockState.withDlen (b : BlockState) (m : List (Nat × BitVec 4)) : BlockState := { b with dlen := m }

@[simp] theorem BlockState.withLllen_lenseq (b : BlockState) (m : List (Nat × BitVec 4)) : (b.withLllen m).lenseq = b.lenseq := rfl
@[simp] theorem BlockState.withLllen_ndist (b : BlockState) (m : List (Nat × BitVec 4)) : (b.withLllen m).ndist = b.ndist := rfl
@[simp] theorem BlockState.withLllen_dlen (b : BlockState) (m : List (Nat × BitVec 4)) : (b.withLllen m).dlen = b.dlen := rfl

theorem writesTable_lllen : WritesTable BlockState.writeLllen BlockState.lllen BlockState.withLllen :=
  ⟨fun _ _ _ => rfl, fun _ _ => rfl, fun _ _ _ => rfl, fun _ => rfl, fun _ _ => rfl⟩

theorem writesTable_dlen : WritesTable BlockState.writeDlen BlockState.dlen BlockState.withDlen :=
  ⟨fun _ _ _ => rfl, fun _ _ => rfl, fun _ _ _ => rfl, fun _ => rfl, fun _ _ => rfl⟩

/-- The entries that the split writes: the sequence's from `base` on, and 0 from entry `count` on (R108). -/
def SplitEntries (q : List (Nat × BitVec 4)) (base count n : Nat) (e : Nat → BitVec 4) : Prop :=
  ∀ j, j < n → if j < count then Cells.read q (base + j) = some (e j) else e j = 0

/-- The entry that the split gives symbol `i`: the sequence's from `base` on, or 0 (R108). -/
def entryOrZero (len : Nat → BitVec 4) (base count i : Nat) : BitVec 4 :=
  if i < count then len (base + i) else 0

theorem splitEntries_of {q : List (Nat × BitVec 4)} {len : Nat → BitVec 4} {base count : Nat} (n : Nat)
    (h : ∀ j, j < base + count → Cells.read q j = some (len j)) : SplitEntries q base count n (entryOrZero len base count) := by
  intro j _
  rw [entryOrZero]
  split
  · exact h (base + j) (by omega)
  · rfl

/-- One loop of the split, whose entries all hold values. -/
theorem splitLoop_of {w : BlockState → Nat → BitVec 4 → BlockState} {get : BlockState → List (Nat × BitVec 4)}
    {put : BlockState → List (Nat × BitVec 4) → BlockState} (hw : WritesTable w get put) {base count n i : Nat}
    {e : Nat → BitVec 4} {s : State} (he : SplitEntries s.blk.lenseq base count (i + n) e) :
    splitLoop w base count n i s = .ok () (s.withBlk (put s.blk (writeEntries e n i (get s.blk)))) := by
  induction n generalizing i s with
  | zero => rw [splitLoop, writeEntries, hw.put_get, State.withBlk_self]
  | succ n ih =>
    have hentry : splitEntry base count i s = .ok (e i) s := splitEntry_eq_ok.2 ⟨he i (by omega), rfl⟩
    have hrest : SplitEntries (s.withBlk (w s.blk i (e i))).blk.lenseq base count (i + 1 + n) e := by
      rw [State.withBlk_blk, hw.write, hw.lenseq]
      exact fun j hj => he j (by omega)
    rw [splitLoop, hentry, Res.bind_ok, ih hrest, State.withBlk_withBlk, State.withBlk_blk, hw.write, hw.get_put, hw.put_put]
    rfl

/-- One loop of the split from the first entry on. -/
theorem splitLoop_of_zero {w : BlockState → Nat → BitVec 4 → BlockState} {get : BlockState → List (Nat × BitVec 4)}
    {put : BlockState → List (Nat × BitVec 4) → BlockState} (hw : WritesTable w get put) {base count n : Nat}
    {e : Nat → BitVec 4} {s : State} (he : SplitEntries s.blk.lenseq base count n e) :
    splitLoop w base count n 0 s = .ok () (s.withBlk (put s.blk (writeEntries e n 0 (get s.blk)))) :=
  splitLoop_of hw (by rwa [Nat.zero_add])

/-- The whole split (43_code_length_expander.md rule R108). -/
theorem splitLengths_of {s : State} {a b : Nat} {e f : Nat → BitVec 4} (ha : s.blk.nlit = some a) (hb : s.blk.ndist = some b)
    (he : SplitEntries s.blk.lenseq 0 a 286 e) (hf : SplitEntries s.blk.lenseq a b 30 f) :
    splitLengths s = .ok () (s.withBlk ((s.blk.withLllen (writeEntries e 286 0 s.blk.lllen)).withDlen
      (writeEntries f 30 0 s.blk.dlen))) := by
  have hsecond := splitLoop_of_zero (s := s.withBlk (s.blk.withLllen (writeEntries e 286 0 s.blk.lllen)))
    writesTable_dlen (base := a) (count := b) (n := 30) (e := f)
    (by rwa [State.withBlk_blk, BlockState.withLllen_lenseq])
  rw [splitLengths, ha, need_some, Res.bind_ok, splitLoop_of_zero writesTable_lllen he, Res.bind_ok, State.withBlk_blk,
    BlockState.withLllen_ndist, hb, need_some, Res.bind_ok, hsecond, State.withBlk_withBlk, State.withBlk_blk,
    BlockState.withLllen_dlen]

/-- A complete sequence is split, and TABLES is next. -/
theorem fetchClSym_of_complete {s : State} {k a b : Nat} {e f : Nat → BitVec 4} (hk : s.blk.seqcnt = some k)
    (ha : s.blk.nlit = some a) (hb : s.blk.ndist = some b) (hle : a + b ≤ k) (he : SplitEntries s.blk.lenseq 0 a 286 e)
    (hf : SplitEntries s.blk.lenseq a b 30 f) :
    fetchClSym s = .ok .tables (s.withBlk ((s.blk.withLllen (writeEntries e 286 0 s.blk.lllen)).withDlen
      (writeEntries f 30 0 s.blk.dlen))) := by
  rw [fetchClSym, hk, need_some, Res.bind_ok, seqTotal_eq_ok.2 ⟨a, b, ha, hb, rfl, rfl⟩, Res.bind_ok,
    if_neg (Nat.not_lt.2 hle), splitLengths_of ha hb he hf, Res.bind_ok]

/-- Settles O33: two runs of writes, one for each table. -/
theorem completeSequenceIsSplit : Obligations.CompleteSequenceIsSplit := by
  intro s a b len hp hpt ha _ hb _ hk hlen
  have he := splitEntries_of (base := 0) (count := a) 286 fun j hj => hlen j (by omega)
  have hf := splitEntries_of (base := a) (count := b) 30 hlen
  refine ⟨writeEntries (entryOrZero len 0 a) 286 0 s.blk.lllen, writeEntries (entryOrZero len a b) 30 0 s.blk.dlen, ?_,
    fun i => ?_, fun i => ?_⟩
  · rw [fetch_of_clSyms hp hpt, fetchClSym_of_complete hk ha hb le_rfl he hf, BlockState.withLllen, BlockState.withDlen]
  · rw [read_writeEntries]
    simp only [Nat.zero_le, Nat.zero_add, true_and, entryOrZero]
  · rw [read_writeEntries]
    simp only [Nat.zero_le, Nat.zero_add, true_and, entryOrZero]

/-! ### A coded literal -/

/-- A symbol's fetch where the next code in the stream is that of a literal (44_block_decoder.md rule R125). -/
theorem fetchSymbol_of_code {s : State} {T : Tree} {n m k : Nat} {D : Nat → Code → Prop} {c : Code}
    (hT : s.blk.lltree = some T) (hholds : HoldsCodes n m D T) (hD : D k c) (hlt : k < 256) (hs : SrcOk s) (hc : CursorOk s)
    (hend : s.bitpos + c.len ≤ 8 * s.srclen) (hbits : streamBits s s.bitpos c.len = c.bits) :
    fetchSymbol s = .ok (.lit (BitVec.ofNat 8 k)) ((s.seek (s.bitpos + c.len)).withBlk
      { s.blk with llcursor := ⟨some 0, some 0⟩, sym := some k, symPoint := .symbols }) := by
  have hdec := hholds.decodeSym (t := .ll) (s := s.withBlk { s.blk with symPoint := .symbols }) hs
    (hc.of_same rfl rfl rfl rfl rfl) hT hD hend hbits
  rw [fetchSymbol, hdec, Res.bind_ok, decodeRes_of_ok (decode_ll_of_lt hlt), State.seek, State.withBlk_cursorAt]
  rfl

/-- Settles O41: the fetch is the descent, and the literal has room. -/
theorem codedLiteralIsAppended : Obligations.CodedLiteralIsAppended := by
  intro s ls T cs k c hrun hpt hok hbuild hcanon hk hlt hT hs hc hend hbits hroom
  have hfetch : fetch s = fetchSymbol s := by
    rcases hpt with hpt | ⟨hpt, hrem⟩
    · exact fetch_of_symbols hrun.2.2 hpt
    · exact (fetch_of_copy hrun.2.2 hpt).trans (fetchCopy_of_zero hrem)
  have hholds := holdsCodes_of_buildOk hok hbuild hcanon
  rw [fetchSymbol_of_code hT hholds hk hlt hs hc hend hbits] at hfetch
  have hfull := outIsFull_of_room hroom
  have hdec := decode_ll_of_lt hlt
  have hfollow := follow_of_decode hdec
  rw [wordFollow, if_neg (by omega)] at hfollow
  exact step_of_meaning hrun (by decide) hfetch (waitsForRoom_eq_false fun _ _ => .inr hfull) (fun t => exec_lit t _) hfollow
    (outAppend_of_room _ hfull) hrun.2.1

/-! ### The copy as a whole -/

/-- One step of the copy loop (44_block_decoder.md rule R131). -/
theorem step_of_copy {s : State} {r d : Nat} {b : Byte} (hrun : RunningIn s .decodeSymbols) (hpt : s.blk.symPoint = .copy)
    (hr : s.blk.copyrem = some (r + 1)) (hd : s.blk.distance = some d) (hle : d ≤ s.outlen)
    (hb : Cells.read s.out (s.outlen - d) = some b) (hroom : s.outIsFull = false) :
    step s = .next ((s.append b).withBlk { s.blk with copyrem := some r }) :=
  step_of_meaning hrun (by decide) ((fetch_of_copy hrun.2.2 hpt).trans (fetchCopy_of_succ hr))
    (waitsForRoom_eq_false fun _ h => by cases h) exec_copyByte rfl (copyByte_of_room hr hd hle hb hroom) hrun.2.1

/-- The place that byte `k + 1` of a copy comes from, seen from the state one byte later. -/
theorem copy_place {n d k : Nat} (hpos : 1 ≤ d) (hle : d ≤ n) :
    (n + 1 - d + k % d = n ∧ (k + 1) % d = 0) ∨ (n + 1 - d + k % d < n ∧ n + 1 - d + k % d = n - d + (k + 1) % d) := by
  have hlt := Nat.mod_lt k hpos
  have hnext : (k + 1) % d = (k % d + 1) % d := (Nat.mod_add_mod k d 1).symm
  by_cases h : k % d + 1 = d
  · rw [h, Nat.mod_self] at hnext
    omega
  · rw [Nat.mod_eq_of_lt (by omega : k % d + 1 < d)] at hnext
    omega

/-- A run goes on from where its first step leads. -/
theorem run_succ_of_step {s t : State} (n : Nat) (h : step s = .next t) :
    Host.Core.run core (n + 1) s = Host.Core.run core n t := by
  have hcore : core.step s = .next t := h
  simp only [Host.Core.run, hcore]

/-- Settles O40: by induction on the bytes left to copy; the byte just copied takes its turn in the period. -/
theorem copyRepeatsWithPeriodDistance : Obligations.CopyRepeatsWithPeriodDistance := by
  intro s L
  induction L generalizing s with
  | zero =>
    intro D _ _ hr _ _ _ _ _
    refine ⟨s.out, ?_, fun k hk => absurd hk (Nat.not_lt_zero k), fun _ _ => rfl⟩
    rw [← hr]
    rfl
  | succ L ih =>
    intro D hrun hpt hr hd hpos hle hout hroom
    obtain ⟨b, hb⟩ := exists_read_behind hout hpos hle
    have hfull : s.outIsFull = false := outIsFull_of_room fun c hc => by have := hroom c hc; omega
    have hstep := step_of_copy hrun hpt hr hd hle hb hfull
    obtain ⟨m, hm, hcopied, hbefore⟩ := ih ((s.append b).withBlk { s.blk with copyrem := some L }) D hrun hpt rfl hd hpos
      (Nat.le_succ_of_le hle) (append_outOk hout b) (fun c hc => by
        have := hroom c hc
        simp only [State.withBlk_outlen, State.append_outlen]
        omega)
    have hnew : Cells.read m s.outlen = some b :=
      (hbefore s.outlen (Nat.lt_succ_self _)).trans (Cells.read_write_same _ _ _)
    have hold : ∀ a, a < s.outlen → Cells.read (Cells.write s.out s.outlen b) a = Cells.read s.out a :=
      fun a ha => Cells.read_write_ne _ _ (Nat.ne_of_lt ha)
    refine ⟨m, ?_, fun k hk => ?_, fun a ha => (hbefore a (Nat.lt_succ_of_lt ha)).trans (hold a ha)⟩
    · rw [run_succ_of_step L hstep, hm, State.withBlk_outlen, State.append_outlen, Nat.add_assoc, Nat.add_comm 1 L]
      rfl
    · cases k with
      | zero => rw [Nat.add_zero, hnew, Nat.zero_mod, Nat.add_zero, hb]
      | succ k =>
        have hfrom := hcopied k (by omega)
        simp only [State.withBlk_outlen, State.append_outlen, State.withBlk_out, State.append_out] at hfrom
        rw [Nat.add_right_comm] at hfrom
        rw [← Nat.add_assoc, hfrom]
        rcases copy_place (k := k) hpos hle with ⟨hself, hmod⟩ | ⟨hlt, hplace⟩
        · rw [hself, Cells.read_write_same, hmod, Nat.add_zero, hb]
        · rw [hold _ hlt, hplace]

end Sys2Proof.Machine
end

section
/-! SUPPORT. What an operation may write: the parts of the state, the frame of an operation over them, and one lemma per
operation (10_state.md, the column "written by"). -/

namespace Sys2Proof.Machine

/-! ### Parts of the state -/

/-- The parts of the state that a session's operations write, and two properties of the BitCursor: that it stays a view of the
source, and that at most 7 bits stay buffered. -/
inductive Part where
  | phase
  | cursor
  | result
  | header
  | dynHeader
  | clLens
  | lengths
  | rep
  | length
  | distance
  | copyrem
  | tree (t : TreeId)
  | treeCursor (t : TreeId)
  | sequencer
  | out
  | sound
  | few

/-- A part of the BlockState is as it was. -/
def Part.SameBlk (p : Part) (b c : BlockState) : Prop :=
  match p with
  | .header => c.bfinal = b.bfinal ∧ c.btype = b.btype
  | .dynHeader => c.hlit = b.hlit ∧ c.nlit = b.nlit ∧ c.hdist = b.hdist ∧ c.ndist = b.ndist ∧ c.hclen = b.hclen
  | .clLens => c.cllen = b.cllen ∧ c.clIdx = b.clIdx
  | .lengths => c.lenseq = b.lenseq ∧ c.seqcnt = b.seqcnt
  | .rep => c.rep = b.rep
  | .length => c.length = b.length
  | .distance => c.distance = b.distance
  | .copyrem => c.copyrem = b.copyrem
  | .tree t => c.tree t = b.tree t
  | .treeCursor t => c.cursor t = b.cursor t
  | .sequencer =>
    c.lllen = b.lllen ∧ c.dlen = b.dlen ∧ c.sym = b.sym ∧ c.clsym = b.clsym ∧ c.dsym = b.dsym ∧ c.clPoint = b.clPoint
      ∧ c.symPoint = b.symPoint
  | _ => True

/-- A part outside the BlockState is as it was; for the two properties of the BitCursor, it is kept. -/
def Part.SameRest (p : Part) (s t : State) : Prop :=
  match p with
  | .phase => t.phase = s.phase
  | .cursor => t.bytepos = s.bytepos ∧ t.acc = s.acc ∧ t.bitcnt = s.bitcnt
  | .result => t.result = s.result
  | .out => SameOut s t
  | .sound => SrcOk s → CursorOk s → CursorOk t ∧ s.bitpos ≤ t.bitpos
  | .few => SrcOk s → CursorOk s → s.bitcnt ≤ 7 → CursorOk t ∧ t.bitcnt ≤ 7
  | _ => True

/-- A part of the state is as it was. -/
structure Part.Same (p : Part) (s t : State) : Prop where
  blk : p.SameBlk s.blk t.blk
  rest : p.SameRest s t

section
variable {p : Part} {s s1 t : State}

theorem Part.SameBlk.refl (p : Part) (b : BlockState) : p.SameBlk b b := by
  cases p <;> simp [Part.SameBlk]

theorem Part.SameBlk.trans {b c d : BlockState} (h : p.SameBlk b c) (h2 : p.SameBlk c d) : p.SameBlk b d := by
  cases p <;> simp_all [Part.SameBlk]

theorem Part.SameRest.trans (hsrc : SrcOk s → SrcOk s1) (h : p.SameRest s s1) (h2 : p.SameRest s1 t) : p.SameRest s t := by
  cases p with
  | sound =>
    intro hs hc
    obtain ⟨hc1, hle1⟩ := h hs hc
    obtain ⟨hc2, hle2⟩ := h2 (hsrc hs) hc1
    exact ⟨hc2, hle1.trans hle2⟩
  | few =>
    intro hs hc h7
    obtain ⟨hc1, h71⟩ := h hs hc h7
    exact h2 (hsrc hs) hc1 h71
  | out => exact SameOut.trans h h2
  | phase | result => exact Eq.trans h2 h
  | cursor => exact ⟨h2.1.trans h.1, h2.2.1.trans h.2.1, h2.2.2.trans h.2.2⟩
  | _ => trivial

end

/-- The registers that no operation of a session writes: `START` does, and the fault entry. -/
def State.core (s : State) :
    Option (List Byte) × Option Nat × Memory × Nat × Nat × Status × ErrCode × Nat :=
  (s.hostStart, s.outCapacity, s.src, s.srclen, s.blocks, s.status, s.err, s.unwrittenReads)

/-- The parts outside `A` and the core are as they were, and `LENSEQ` stays canonical. -/
structure Frame (A : Set Part) (s t : State) : Prop where
  core : t.core = s.core
  lenseq : Cells.wf s.blk.lenseq → Cells.wf t.blk.lenseq
  same : ∀ p, p ∉ A → p.Same s t

section
variable {A B : Set Part} {s s1 t : State}

theorem core_eq_iff : t.core = s.core ↔ t.hostStart = s.hostStart ∧ t.outCapacity = s.outCapacity ∧ t.src = s.src
    ∧ t.srclen = s.srclen ∧ t.blocks = s.blocks ∧ t.status = s.status ∧ t.err = s.err
    ∧ t.unwrittenReads = s.unwrittenReads := by
  simp only [State.core, Prod.mk.injEq]

theorem Frame.srcOk (h : Frame A s t) (hs : SrcOk s) : SrcOk t := by
  obtain ⟨-, -, hsrc, hlen, -⟩ := core_eq_iff.1 h.core
  rw [SrcOk, hsrc, hlen]
  exact hs

/-- What leaves the BitCursor and the source alone keeps what is said of them. -/
theorem Part.SameRest.of_cursor (hcore : t.core = s.core) (hcur : t.bytepos = s.bytepos ∧ t.acc = s.acc ∧ t.bitcnt = s.bitcnt) :
    Part.sound.SameRest s t ∧ Part.few.SameRest s t := by
  obtain ⟨-, -, hsrc, hlen, -⟩ := core_eq_iff.1 hcore
  obtain ⟨hpos, hacc, hcnt⟩ := hcur
  refine ⟨fun _ hc => ⟨hc.of_same hsrc hlen hpos hacc hcnt, ?_⟩, fun _ hc h7 => ⟨hc.of_same hsrc hlen hpos hacc hcnt, ?_⟩⟩
  · rw [State.bitpos, State.bitpos, hpos, hcnt]
  · rwa [hcnt]

/-- A change that leaves the BitCursor alone. -/
theorem Frame.of_cursor (hcore : t.core = s.core) (hcur : t.bytepos = s.bytepos ∧ t.acc = s.acc ∧ t.bitcnt = s.bitcnt)
    (hq : Cells.wf s.blk.lenseq → Cells.wf t.blk.lenseq) (hblk : ∀ p, p ∉ A → p.SameBlk s.blk t.blk)
    (hphase : .phase ∉ A → t.phase = s.phase) (hresult : .result ∉ A → t.result = s.result)
    (hout : .out ∉ A → SameOut s t) : Frame A s t where
  core := hcore
  lenseq := hq
  same := fun p hp => ⟨hblk p hp, by
    cases p with
    | sound => exact (Part.SameRest.of_cursor hcore hcur).1
    | few => exact (Part.SameRest.of_cursor hcore hcur).2
    | cursor => exact hcur
    | phase => exact hphase hp
    | result => exact hresult hp
    | out => exact hout hp
    | _ => trivial⟩

theorem Frame.refl (A : Set Part) (s : State) : Frame A s s :=
  .of_cursor rfl ⟨rfl, rfl, rfl⟩ id (fun p _ => .refl p s.blk) (fun _ => rfl) (fun _ => rfl) fun _ => .refl s

theorem Frame.trans (h : Frame A s s1) (h2 : Frame A s1 t) : Frame A s t where
  core := h2.core.trans h.core
  lenseq := h2.lenseq ∘ h.lenseq
  same := fun p hp => ⟨.trans (h.same p hp).blk (h2.same p hp).blk, .trans h.srcOk (h.same p hp).rest (h2.same p hp).rest⟩

theorem Frame.mono (h : Frame A s t) (hAB : A ⊆ B) : Frame B s t :=
  { h with same := fun p hp => h.same p fun hA => hp (hAB hA) }

/-- A change of the BlockState alone. -/
theorem frame_withBlk {b : BlockState} (hq : Cells.wf s.blk.lenseq → Cells.wf b.lenseq)
    (h : ∀ p, p ∉ A → p.SameBlk s.blk b) : Frame A s (s.withBlk b) :=
  .of_cursor rfl ⟨rfl, rfl, rfl⟩ hq h (fun _ => rfl) (fun _ => rfl) fun _ => ⟨rfl, rfl⟩

theorem frame_withPhase (s : State) (q : Phase) : Frame {.phase} s (s.withPhase q) :=
  .of_cursor rfl ⟨rfl, rfl, rfl⟩ id (fun p _ => .refl p s.blk) (fun h => absurd rfl h) (fun _ => rfl) fun _ => ⟨rfl, rfl⟩

theorem frame_withResult (s : State) (r : OpResult) : Frame {.result} s (s.withResult r) :=
  .of_cursor rfl ⟨rfl, rfl, rfl⟩ id (fun p _ => .refl p s.blk) (fun _ => rfl) (fun h => absurd rfl h) fun _ => ⟨rfl, rfl⟩

theorem frame_append (s : State) (b : Byte) : Frame {.out} s (s.append b) :=
  .of_cursor rfl ⟨rfl, rfl, rfl⟩ id (fun p _ => .refl p s.blk) (fun _ => rfl) (fun _ => rfl) fun h => absurd rfl h

/-- A move of the BitCursor. -/
theorem frame_withCursor (hA : .cursor ∈ A) (p : Nat) (a : BitVec 24) (c : Nat)
    (hsound : .sound ∉ A → Part.sound.SameRest s (s.withCursor p a c))
    (hfew : .few ∉ A → Part.few.SameRest s (s.withCursor p a c)) : Frame A s (s.withCursor p a c) where
  core := rfl
  lenseq := id
  same := fun q hq => ⟨.refl q s.blk, by
    cases q with
    | sound => exact hsound hq
    | few => exact hfew hq
    | cursor => exact absurd hA hq
    | phase | result => rfl
    | out => exact ⟨rfl, rfl⟩
    | _ => trivial⟩

theorem frame_withTree (s : State) (t : TreeId) (T : Tree) : Frame {.tree t} s (s.withTree t T) := by
  refine frame_withBlk (by rw [BlockState.withTree_lenseq]; exact id) fun p hp => ?_
  cases p with
  | tree u => exact BlockState.withTree_tree_ne _ _ fun h => hp (congrArg Part.tree h)
  | treeCursor u => exact BlockState.withTree_cursor _ _ _ _
  | _ => simp [Part.SameBlk]

theorem frame_withTreeCursor (s : State) (t : TreeId) (c : TreeCursor) : Frame {.treeCursor t} s (s.withTreeCursor t c) := by
  refine frame_withBlk (by rw [BlockState.withTreeCursor_lenseq]; exact id) fun p hp => ?_
  cases p with
  | tree u => exact BlockState.withTreeCursor_tree _ _ _ _
  | treeCursor u => exact BlockState.withTreeCursor_cursor_ne _ _ fun h => hp (congrArg Part.treeCursor h)
  | _ => simp [Part.SameBlk]

end

/-! ### Operations -/

/-- What an operation has written where it takes an error: nothing of `OUT` and no phase; the buffered bits may be many. -/
def early (A : Set Part) : Set Part :=
  {p | p = .few ∨ (p ∈ A ∧ p ≠ .phase ∧ p ≠ .out)}

/-- The errors that a rule of the core raises (60_exceptions.md rules R150, R152). -/
def ErrCode.Raised (e : ErrCode) : Prop :=
  e ≠ .none ∧ e ≠ .headerError

/-- An operation started in `s` writes the parts in `A` at most, also where it takes an error, but for `OUT` and the phase,
which it writes last. -/
def Acts {α : Type} (A : Set Part) (s : State) : Res α → Prop
  | .ok _ t => Frame A s t
  | .raised e t => e.Raised ∧ Frame (early A) s t
  | .unwritten _ t => Frame (early A) s t
  | .stop _ => True
  | .refused _ => True

section
variable {α β : Type} {A B : Set Part} {s s1 : State}

theorem early_mono (h : A ⊆ B) : early A ⊆ early B :=
  fun _ hp => hp.imp id fun hA => ⟨h hA.1, hA.2⟩

/-- Parts that an operation may have written where it takes an error later. -/
def Quiet (A : Set Part) : Prop :=
  .phase ∉ A ∧ .out ∉ A

theorem Quiet.subset_early (hA : Quiet A) (h : A ⊆ B) : A ⊆ early B :=
  fun _ hp => .inr ⟨h hp, fun he => hA.1 (he ▸ hp), fun he => hA.2 (he ▸ hp)⟩

theorem Acts.mono {r : Res α} (hr : Acts A s r) (h : A ⊆ B) : Acts B s r := by
  cases r with
  | ok a t => exact Frame.mono hr h
  | raised e t => exact ⟨hr.1, hr.2.mono (early_mono h)⟩
  | unwritten x t => exact Frame.mono hr (early_mono h)
  | stop f => trivial
  | refused x => trivial

/-- What has been written before an operation. -/
theorem Acts.after {r : Res α} (h : Frame A s s1) (hA : A ⊆ B) (hquiet : Quiet A) (hr : Acts B s1 r) : Acts B s r := by
  have hearly := h.mono (hquiet.subset_early hA)
  cases r with
  | ok a t => exact (h.mono hA).trans hr
  | raised e t => exact ⟨hr.1, hearly.trans hr.2⟩
  | unwritten x t => exact hearly.trans hr
  | stop f => trivial
  | refused x => trivial

/-- One operation after another. -/
theorem Acts.bind {r : Res α} {k : α → State → Res β} (hr : Acts A s r) (hA : A ⊆ B) (hquiet : Quiet A)
    (hk : ∀ a s1, Acts B s1 (k a s1)) : Acts B s (r.bind k) := by
  cases r with
  | ok a t => exact .after hr hA hquiet (hk a t)
  | raised e t => exact ⟨hr.1, hr.2.mono (early_mono hA)⟩
  | unwritten x t => exact Frame.mono hr (early_mono hA)
  | stop f => trivial
  | refused x => trivial

/-- A register read before an operation. -/
theorem Acts.need {r : Reg} {o : Option α} {k : α → State → Res β} (hk : ∀ a, Acts B s (k a s)) :
    Acts B s ((need r o s).bind k) := by
  cases o with
  | none => exact .refl _ s
  | some a => exact hk a

/-- An operation that completes with a change of the BlockState. -/
theorem acts_withBlk {a : α} {b : BlockState} (hq : Cells.wf s.blk.lenseq → Cells.wf b.lenseq)
    (h : ∀ p, p ∉ A → p.SameBlk s.blk b) : Acts A s (.ok a (s.withBlk b)) :=
  frame_withBlk hq h

theorem raised_malformed : ErrCode.malformedHuffmanCode.Raised := ⟨by decide, by decide⟩

theorem acts_raised {e : ErrCode} (he : e.Raised) (A : Set Part) (s : State) : Acts A s (.raised e s : Res α) :=
  ⟨he, .refl _ s⟩

end

section
variable (s : State)

/-- A read that may fail leaves more than 7 bits buffered only where it fails (60_exceptions.md rule R157). -/
theorem acts_readBits {n : Nat} (hn : n ≤ 16) : Acts {.cursor} s (readBits n s) := by
  have hcases (hs : SrcOk s) (hc : CursorOk s) : (s.bitpos + n ≤ 8 * s.srclen ∧
      readBits n s = .ok (streamValue s s.bitpos n) (s.seek (s.bitpos + n))) ∨ (8 * s.srclen < s.bitpos + n ∧
      readBits n s = .raised .streamExhausted (s.cursorAt s.bitpos s.srclen)) := by
    rcases Nat.lt_or_ge (8 * s.srclen) (s.bitpos + n) with hend | hend
    · exact .inr ⟨hend, readBits_of_exhausted hs hc hend⟩
    · exact .inl ⟨hend, readBits_of_available hs hc hn hend⟩
  cases h : readBits n s with
  | ok v t =>
    obtain ⟨-, k, acc, rfl, -⟩ := readBits_ok h
    refine frame_withCursor (by simp) _ _ _ (fun _ hs hc => ?_) fun _ hs hc h7 => ?_
    · rcases hcases hs hc with ⟨hend, h1⟩ | ⟨-, h1⟩
      · rw [(Res.ok.inj (h.symm.trans h1)).2]
        exact ⟨hc.seek (by omega) hend, by rw [State.bitpos_seek]; omega⟩
      · cases h.symm.trans h1
    · rcases hcases hs hc with ⟨hend, h1⟩ | ⟨-, h1⟩
      · rw [(Res.ok.inj (h.symm.trans h1)).2]
        refine ⟨hc.seek (by omega) hend, ?_⟩
        have hfetched := hc.bitcnt_le_fetched
        simp only [State.seek, State.cursorAt_bitcnt, State.bytesFor, State.bitpos]
        omega
      · cases h.symm.trans h1
  | raised e t =>
    obtain ⟨rfl, k, acc, rfl, -⟩ := readBits_raised h
    refine ⟨⟨by decide, by decide⟩, frame_withCursor (.inr (by simp)) _ _ _ (fun _ hs hc => ?_) fun hfew => absurd (.inl rfl) hfew⟩
    rcases hcases hs hc with ⟨-, h1⟩ | ⟨hend, h1⟩
    · cases h.symm.trans h1
    · rw [(Res.raised.inj (h.symm.trans h1)).2]
      refine ⟨hc.exhausted hn hend, ?_⟩
      have hpos := hc.bytepos_le
      have hfetched := s.bitpos_le_fetched
      rw [State.bitpos_cursorAt (by omega)]
  | unwritten x t => exact absurd h readBits_ne_unwritten
  | stop f => trivial
  | refused x => trivial

theorem acts_basePlusExtra (base : Nat) {extra : Nat} (hn : extra ≤ 16) : Acts {.cursor} s (basePlusExtra base extra s) :=
  (acts_readBits s hn).bind (by simp) (by simp [Quiet]) fun _ s1 => .refl _ s1

theorem acts_refill : Acts {.cursor, .sound, .few} s (refill s) := by
  cases h : refill s with
  | ok u t =>
    obtain ⟨-, b, -, rfl⟩ := refill_eq_ok.1 h
    exact frame_withCursor (by simp) _ _ _ (fun hp => absurd (by simp) hp) fun hp => absurd (by simp) hp
  | raised e t =>
    obtain ⟨-, rfl, rfl⟩ := refill_eq_raised.1 h
    exact ⟨⟨by decide, by decide⟩, .refl _ t⟩
  | unwritten x t => exact absurd h refill_ne_unwritten
  | stop f => trivial
  | refused x => trivial

theorem acts_fillLoop (n turns : Nat) : Acts {.cursor, .sound, .few} s (fillLoop n turns s) := by
  induction turns generalizing s with
  | zero => exact .refl _ s
  | succ turns ih =>
    rw [fillLoop]
    split
    · exact (acts_refill s).bind subset_rfl (by simp [Quiet]) fun _ s1 => ih s1
    · exact .refl _ s

theorem acts_peekBits (n : Nat) : Acts {.cursor, .sound, .few} s (peekBits n s) :=
  (acts_fillLoop s n n).bind subset_rfl (by simp [Quiet]) fun _ s1 => .refl _ s1

theorem acts_blockHeader (f : BitVec 1) (t : BitVec 2) :
    Acts (if t = 2 then {.header, .phase} else {.header}) s (blockHeader f t s) := by
  have hframe : Frame {.header} s ((s.withBFinal f).withBType t) :=
    frame_withBlk id fun p hp => by
      cases p with
      | header => exact absurd rfl hp
      | _ => trivial
  rw [blockHeader]
  split
  · exact (hframe.mono (by simp)).trans ((frame_withPhase _ _).mono (by simp))
  · exact ⟨⟨by decide, by decide⟩, hframe.mono (Quiet.subset_early (by simp [Quiet]) subset_rfl)⟩

theorem acts_rangeCheck : Acts ∅ s (rangeCheck s) :=
  .need fun _ => .need fun _ => by
    split
    · exact acts_raised raised_malformed _ s
    · exact .refl _ s

theorem acts_dynHeader (a b : BitVec 5) (c : BitVec 4) : Acts {.dynHeader} s (dynHeader a b c s) := by
  have hframe : Frame {.dynHeader} s (s.withDynHeader a b c) :=
    frame_withBlk id fun p hp => by
      cases p with
      | dynHeader => exact absurd rfl hp
      | _ => trivial
  exact .after hframe subset_rfl (by simp [Quiet]) ((acts_rangeCheck _).mono (Set.empty_subset _))

theorem acts_clLen (n : BitVec 3) : Acts {.clLens} s (clLen n s) := by
  rw [clLen]
  split
  · trivial
  · exact acts_withBlk id fun p hp => by
      cases p with
      | clLens => exact absurd rfl hp
      | _ => trivial

theorem acts_writeLens (v : BitVec 4) (n : Nat) : Acts {.lengths} s (writeLens v n s) :=
  .need fun k => by
    split
    · trivial
    · exact acts_withBlk (fun h => Cells.wf_writeRun h k n v) fun p hp => by
        cases p with
        | lengths => exact absurd rfl hp
        | _ => trivial

theorem acts_seqTotal : Acts ∅ s (seqTotal s) :=
  .need fun _ => .need fun _ => .refl _ s

theorem acts_overrunCheck : Acts ∅ s (overrunCheck s) :=
  .need fun _ => .need fun _ => (acts_seqTotal s).bind subset_rfl (by simp [Quiet]) fun _ s1 => by
    split
    · exact acts_raised ⟨by decide, by decide⟩ _ s1
    · exact .refl _ s1

/-- The parts that a CL repeat writes (43_code_length_expander.md rules R104 to R106). -/
def repeatParts : Set Part := {.cursor, .rep, .lengths}

theorem acts_repeatLen (v : BitVec 4) (base : Nat) {extra : Nat} (hn : extra ≤ 16) :
    Acts repeatParts s (repeatLen v base extra s) := by
  refine (acts_basePlusExtra s base hn).bind (by simp [repeatParts]) (by simp [Quiet]) fun r s1 => ?_
  have hframe : Frame {.rep} s1 (s1.withBlk { s1.blk with rep := some r }) :=
    frame_withBlk id fun p hp => by
      cases p with
      | rep => exact absurd rfl hp
      | _ => trivial
  exact .after hframe (by simp [repeatParts]) (by simp [Quiet])
    ((acts_overrunCheck _).bind (Set.empty_subset _) (by simp [Quiet]) fun _ s2 =>
      (acts_writeLens s2 v r).mono (by simp [repeatParts]))

theorem acts_clRep16 : Acts repeatParts s (clRep16 s) :=
  .need fun _ => by
    split
    · exact acts_raised ⟨by decide, by decide⟩ _ s
    · exact .need fun _ => acts_repeatLen s _ 3 (by decide)

theorem acts_outAppend (b : Byte) : Acts {.out} s (outAppend b s) := by
  rw [outAppend]
  split
  · trivial
  · exact frame_append s b

theorem acts_lengthSym {i : Nat} (hn : lengthExtra.getD i 0 ≤ 16) : Acts {.cursor, .length} s (lengthSym i s) :=
  (acts_basePlusExtra s _ hn).bind (by simp) (by simp [Quiet]) fun _ s1 => acts_withBlk id fun p hp => by
    cases p with
    | length => exact absurd (by simp) hp
    | _ => trivial

theorem acts_check : Acts ∅ s (check s) :=
  .need fun _ => by
    split
    · exact acts_raised ⟨by decide, by decide⟩ _ s
    · exact .refl _ s

theorem acts_distanceSym {d : Nat} (hn : distExtra.getD d 0 ≤ 16) : Acts {.cursor, .distance} s (distanceSym d s) := by
  refine (acts_basePlusExtra s _ hn).bind (by simp) (by simp [Quiet]) fun v s1 => ?_
  have hframe : Frame {.distance} s1 (s1.withBlk { s1.blk with distance := some v }) :=
    frame_withBlk id fun p hp => by
      cases p with
      | distance => exact absurd rfl hp
      | _ => trivial
  exact .after hframe (by simp) (by simp [Quiet]) ((acts_check _).mono (Set.empty_subset _))

/-- A turn of the copy takes no error behind its append. -/
theorem acts_copyByte : Acts {.out, .copyrem} s (copyByte s) :=
  .need fun r => by
    split
    · exact .refl _ s
    · refine .need fun d => ?_
      split
      · trivial
      · cases hread : outRead (s.outlen - d) s with
        | ok b t =>
          obtain ⟨-, rfl⟩ := outRead_eq_ok.1 hread
          rw [Res.bind_ok, outAppend]
          split
          · trivial
          · refine ((frame_append t b).mono (by simp)).trans (frame_withBlk id fun p hp => ?_)
            cases p with
            | copyrem => exact absurd (by simp) hp
            | _ => trivial
        | raised e t => exact absurd hread outRead_ne_raised
        | unwritten x t => exact absurd hread outRead_ne_unwritten
        | stop f => trivial
        | refused x => trivial

theorem acts_treeRes {α : Type} (t : TreeId) (r : Except TreeErr α) : Acts ∅ s (treeRes t r s) := by
  simp only [treeRes]
  split
  · exact .refl _ s
  · exact acts_raised raised_malformed _ s
  · exact .refl _ s

theorem acts_buildTree (t : TreeId) (ls : List Nat) (m : Nat) : Acts {.tree t, .treeCursor t} s (buildTree t ls m s) :=
  (acts_treeRes s t _).bind (Set.empty_subset _) (by simp [Quiet]) fun T s1 =>
    ((frame_withTree s1 t T).mono (by simp)).trans ((frame_withTreeCursor _ t _).mono (by simp))

/-- The parts that TABLES writes (44_block_decoder.md rule R124). -/
def tablesParts : Set Part := {.tree .ll, .treeCursor .ll, .tree .d, .treeCursor .d, .phase}

theorem acts_tables : Acts tablesParts s (tables s) :=
  .need fun _ => (acts_buildTree s .ll _ _).bind (by simp [tablesParts, Set.insert_subset_iff]) (by simp [Quiet]) fun _ s1 =>
    .need fun _ => (acts_buildTree s1 .d _ _).bind (by simp [tablesParts, Set.insert_subset_iff]) (by simp [Quiet]) fun _ s2 =>
      (frame_withPhase s2 _).mono (by simp [tablesParts])

theorem acts_addLeafOp (t : TreeId) (c L v : Nat) : Acts {.tree t} s (addLeafOp t c L v s) :=
  .need fun _ => (acts_treeRes s t _).bind (Set.empty_subset _) (by simp [Quiet]) fun _ s1 => by
    split
    · trivial
    · exact frame_withTree s1 t _

theorem acts_resetCursor (t : TreeId) : Acts {.treeCursor t} s (resetCursor t s) :=
  frame_withTreeCursor s t _

theorem acts_decodeStep (t : TreeId) (b : Bool) : Acts {.treeCursor t} s (decodeStep t b s) :=
  .need fun T => .need fun n => .need fun d => by
    cases T.decodeStep n d b with
    | symbol v => exact frame_withTreeCursor s t _
    | cont j => exact frame_withTreeCursor s t _
    | malformed => exact acts_raised raised_malformed _ s
    | noNode => exact .refl _ s

theorem acts_decodeLoop (t : TreeId) (turns : Nat) : Acts {.cursor, .treeCursor t} s (decodeLoop t turns s) := by
  induction turns generalizing s with
  | zero => exact acts_raised raised_malformed _ s
  | succ turns ih =>
    refine (acts_readBits s (by decide)).bind (by simp) (by simp [Quiet]) fun b s1 =>
      (acts_decodeStep s1 t _).bind (by simp) (by simp [Quiet]) fun r s2 => ?_
    cases r with
    | none => exact ih s2
    | some v => exact (acts_resetCursor s2 t).bind (by simp) (by simp [Quiet]) fun _ s3 => .refl _ s3

theorem acts_decodeSym (t : TreeId) : Acts {.cursor, .treeCursor t} s (decodeSym t s) :=
  (acts_resetCursor s t).bind (by simp) (by simp [Quiet]) fun _ s1 => acts_decodeLoop s1 t _

end

end Sys2Proof.Machine
end

section
/-! SUPPORT. What an instruction may write (10_state.md sections 1.1 to 1.3). -/

open Sys2Proof.Certificates

namespace Sys2Proof.Machine

/-! ### The effect of a step -/

/-- The next state of an operation or a step that writes the parts in `A`: what it left, or the fault entry of the error it
took. -/
def Effect (A : Set Part) (s t : State) : Prop :=
  Frame A s t ∨ ∃ u, Frame (early A) s u ∧ ((∃ e : ErrCode, e.Raised ∧ t = u.raise e) ∨ t = u.raiseUnwritten)

section
variable {A B : Set Part} {s s1 t : State}

theorem Acts.effect {α : Type} {r : Res α} (hr : Acts A s r) (h : r.outcome = .next t) : Effect A s t := by
  rcases Res.outcome_eq_next.1 h with ⟨a, rfl⟩ | ⟨e, u, rfl, rfl⟩ | ⟨x, u, rfl, rfl⟩
  · exact .inl hr
  · exact .inr ⟨u, hr.2, .inl ⟨e, hr.1, rfl⟩⟩
  · exact .inr ⟨u, hr, .inr rfl⟩

/-- The fault entry changes `STATUS`, `ERR` and the count of unwritten reads only (60_exceptions.md rule R151). -/
theorem Part.Same.raise {p : Part} (h : p.Same s t) (e : ErrCode) : p.Same s (t.raise e) := by
  refine ⟨h.blk, ?_⟩
  cases p with
  | sound => exact fun hs hc => ⟨(h.rest hs hc).1.of_same rfl rfl rfl rfl rfl, (h.rest hs hc).2⟩
  | few => exact fun hs hc h7 => ⟨(h.rest hs hc h7).1.of_same rfl rfl rfl rfl rfl, (h.rest hs hc h7).2⟩
  | out => exact SameOut.trans h.rest (sameOut_raise t e)
  | _ => exact h.rest

theorem Part.Same.raiseUnwritten {p : Part} (h : p.Same s t) : p.Same s t.raiseUnwritten := by
  refine ⟨h.blk, ?_⟩
  cases p with
  | sound => exact fun hs hc => ⟨(h.rest hs hc).1.of_same rfl rfl rfl rfl rfl, (h.rest hs hc).2⟩
  | few => exact fun hs hc h7 => ⟨(h.rest hs hc h7).1.of_same rfl rfl rfl rfl rfl, (h.rest hs hc h7).2⟩
  | out => exact SameOut.trans h.rest (sameOut_raiseUnwritten t)
  | _ => exact h.rest

/-- The fault entry of a step: nothing of the core but the three registers it writes, and the parts outside `A`. -/
structure Faulted (A : Set Part) (s t : State) : Prop where
  host : t.hostStart = s.hostStart ∧ t.outCapacity = s.outCapacity
  source : t.src = s.src ∧ t.srclen = s.srclen
  blocks : t.blocks = s.blocks
  status : t.status = .faulted
  err : t.err.Raised
  unwrittenReads : t.unwrittenReads = s.unwrittenReads ∨ t.unwrittenReads = s.unwrittenReads + 1
  lenseq : Cells.wf s.blk.lenseq → Cells.wf t.blk.lenseq
  same : ∀ p, p ∉ early A → p.Same s t

theorem Frame.faulted_raise {u : State} (h : Frame (early A) s u) {e : ErrCode} (he : e.Raised) : Faulted A s (u.raise e) := by
  obtain ⟨h1, h2, h3, h4, h5, -, -, h8⟩ := core_eq_iff.1 h.core
  exact ⟨⟨h1, h2⟩, ⟨h3, h4⟩, h5, rfl, he, .inl h8, h.lenseq, fun p hp => (h.same p hp).raise e⟩

theorem Frame.faulted_raiseUnwritten {u : State} (h : Frame (early A) s u) : Faulted A s u.raiseUnwritten := by
  obtain ⟨h1, h2, h3, h4, h5, -, -, h8⟩ := core_eq_iff.1 h.core
  refine ⟨⟨h1, h2⟩, ⟨h3, h4⟩, h5, rfl, ⟨ErrCode.fatal_ne_none _, ErrCode.fatal_ne_headerError _⟩, .inr ?_, h.lenseq,
    fun p hp => (h.same p hp).raiseUnwritten⟩
  rw [State.raiseUnwritten_unwrittenReads, h8]

/-- An effect is a change or a fault entry. -/
theorem Effect.frame_or_faulted (h : Effect A s t) : Frame A s t ∨ Faulted A s t := by
  rcases h with h | ⟨u, h, ⟨e, he, rfl⟩ | rfl⟩
  · exact .inl h
  · exact .inr (h.faulted_raise he)
  · exact .inr h.faulted_raiseUnwritten

/-- What an effect leaves alone of the core. -/
theorem Effect.core (h : Effect A s t) : (t.hostStart = s.hostStart ∧ t.outCapacity = s.outCapacity ∧ t.src = s.src
    ∧ t.srclen = s.srclen ∧ t.blocks = s.blocks) := by
  rcases h.frame_or_faulted with h | h
  · obtain ⟨h1, h2, h3, h4, h5, -⟩ := core_eq_iff.1 h.core
    exact ⟨h1, h2, h3, h4, h5⟩
  · exact ⟨h.host.1, h.host.2, h.source.1, h.source.2, h.blocks⟩

theorem not_mem_early {p : Part} (hp : p ∉ A) (hfew : p ≠ .few) : p ∉ early A :=
  fun h => h.elim hfew fun hA => hp hA.1

/-- The parts that an effect leaves as they were. -/
theorem Effect.same (h : Effect A s t) {p : Part} (hp : p ∉ A) (hfew : p ≠ .few) : p.Same s t := by
  rcases h.frame_or_faulted with h | h
  · exact h.same p hp
  · exact h.same p (not_mem_early hp hfew)

end

/-! ### What each instruction writes -/

/-- `i` may write the part `p`: the column "written by" of 10_state.md sections 1.1 to 1.3. -/
def Writes (i : Instr) (p : Part) : Prop :=
  match p with
  | .phase => (∃ f, i = .blkDynamic f) ∨ i = .eob ∨ i = .tables
  | .cursor => ReadsStream i
  | .result => ReturnsValue i
  | .header => HasFormat i .bh
  | .dynHeader => HasFormat i .dh
  | .clLens => ∃ n, i = .clLen n
  | .lengths => HasFormat i .cls
  | .rep => i ∈ [Instr.clRep16, .clZero17, .clZero18]
  | .length => ∃ p ∈ lengthRows, i = p.1
  | .distance => ∃ p ∈ distanceRows, i = p.1
  | .copyrem => i = .copyByte
  | .tree t => WritesTree i t
  | .treeCursor t => WritesCursor i t
  | .sequencer => False
  | .out => (∃ b, i = .lit b) ∨ i = .copyByte
  | .sound | .few => i = .refill ∨ ∃ n, i = .peekBits n

/-- The instruction's operation, and that it writes what the instruction may write. -/
def Frames (i : Instr) : Prop :=
  ∃ op, Meaning i op ∧ ∀ s, Acts {p | Writes i p} s (op s)

section
variable {i : Instr}

theorem frames_of {op : State → Res Unit} {A : Set Part} (hop : Meaning i op) (hacts : ∀ s, Acts A s (op s))
    (hA : ∀ p ∈ A, Writes i p) : Frames i :=
  ⟨op, hop, fun s => (hacts s).mono hA⟩

theorem frames_writeLens {v : BitVec 4} (hop : Meaning i (writeLens v 1)) (hi : HasFormat i .cls) : Frames i :=
  frames_of hop (fun s => acts_writeLens s v 1) fun p hp => by
    obtain rfl : p = .lengths := hp
    exact hi

theorem frames_repeat {op : State → Res Unit} (hop : Meaning i op) (hacts : ∀ s, Acts repeatParts s (op s))
    (hi : i ∈ [Instr.clRep16, .clZero17, .clZero18]) (hformat : HasFormat i .cls) : Frames i :=
  frames_of hop hacts fun p hp => by
    obtain rfl | rfl | rfl : p = .cursor ∨ p = .rep ∨ p = .lengths := hp
    · exact .inr (.inr (.inr (.inl hi)))
    · exact hi
    · exact hformat

theorem frames_lengthRow : ∀ p ∈ lengthRows.zipIdx, Frames p.1.1 := by
  intro p hp
  obtain ⟨-, hextra, hwidth⟩ := lengthRows_columns p hp
  refine frames_of (fun s => exec_of_mem_lengthRows s p hp) (fun s => acts_lengthSym s (hextra ▸ hwidth)) fun q hq => ?_
  have hrow : ∃ r ∈ lengthRows, p.1.1 = r.1 := ⟨p.1, (List.mem_zipIdx_iff_getElem?.1 hp) |> List.mem_of_getElem?, rfl⟩
  obtain rfl | rfl : q = .cursor ∨ q = .length := hq
  · exact .inr (.inr (.inr (.inr (.inl hrow))))
  · exact hrow

theorem frames_distanceRow : ∀ p ∈ distanceRows.zipIdx, Frames p.1.1 := by
  intro p hp
  obtain ⟨-, hextra, hwidth⟩ := distanceRows_columns p hp
  refine frames_of (fun s => exec_of_mem_distanceRows s p hp) (fun s => acts_distanceSym s (hextra ▸ hwidth)) fun q hq => ?_
  have hrow : ∃ r ∈ distanceRows, p.1.1 = r.1 := ⟨p.1, (List.mem_zipIdx_iff_getElem?.1 hp) |> List.mem_of_getElem?, rfl⟩
  obtain rfl | rfl : q = .cursor ∨ q = .distance := hq
  · exact .inr (.inr (.inr (.inr (.inr hrow))))
  · exact hrow

theorem frames_of_lengthRow (h : i ∈ lengthRows.map Prod.fst) : Frames i := by
  obtain ⟨p, hp, rfl⟩ := List.mem_map.1 h
  obtain ⟨k, hk⟩ := exists_mem_zipIdx hp
  exact frames_lengthRow _ hk

theorem frames_of_distanceRow (h : i ∈ distanceRows.map Prod.fst) : Frames i := by
  obtain ⟨p, hp, rfl⟩ := List.mem_map.1 h
  obtain ⟨k, hk⟩ := exists_mem_zipIdx hp
  exact frames_distanceRow _ hk

/-- A symbol that raises at once. -/
theorem frames_malformed (hop : Meaning i (.raised .malformedHuffmanCode)) : Frames i :=
  frames_of (A := ∅) hop (fun s => acts_raised raised_malformed ∅ s) fun p hp => absurd hp (Set.notMem_empty p)

/-- A block header of another type than 2 raises and leaves the phase. -/
theorem frames_blockHeader {f : BitVec 1} {t : BitVec 2} (hop : Meaning i (blockHeader f t)) (hi : HasFormat i .bh)
    (hphase : t = 2 → ∃ g, i = .blkDynamic g) : Frames i :=
  frames_of (A := if t = 2 then {.header, .phase} else {.header})
    hop (fun s => acts_blockHeader s f t) fun p hp => by
    split at hp
    · rename_i ht
      obtain rfl | rfl : p = .header ∨ p = .phase := hp
      · exact hi
      · exact .inl (hphase ht)
    · obtain rfl : p = .header := hp
      exact hi

theorem frames_dynHeader {a b : BitVec 5} {c : BitVec 4} (hop : Meaning i (dynHeader a b c)) (hi : HasFormat i .dh) : Frames i :=
  frames_of hop (fun s => acts_dynHeader s a b c) fun p hp => by
    obtain rfl : p = .dynHeader := hp
    exact hi

theorem frame_withDynHeader (s : State) (a b : BitVec 5) (c : BitVec 4) : Frame {.dynHeader} s (s.withDynHeader a b c) :=
  frame_withBlk id fun p hp => by
    cases p with
    | dynHeader => exact absurd rfl hp
    | _ => trivial

/-- The reserved forms of the dynamic header write its registers before they raise (44_block_decoder.md rule R123). -/
theorem frames_dynReserved {a b : BitVec 5} {c : BitVec 4}
    (hop : Meaning i fun s => .raised .malformedHuffmanCode (s.withDynHeader a b c)) (hi : HasFormat i .dh) : Frames i :=
  frames_of (A := {.dynHeader}) hop (fun s => .after (frame_withDynHeader s a b c) subset_rfl (by simp [Quiet])
    (acts_raised raised_malformed _ _)) fun p hp => by
    obtain rfl : p = .dynHeader := hp
    exact hi

/-- An operation whose operands are checked first. -/
theorem frames_guarded {c : State → Prop} [DecidablePred c] {x : Refusal} {op : State → Res Unit} {A : Set Part}
    (hexec : ∀ s, exec i s = if c s then .refused x else (op s).outcome) (hacts : ∀ s, ¬ c s → Acts A s (op s))
    (hA : ∀ p ∈ A, Writes i p) : Frames i := by
  refine frames_of (op := fun s => if c s then .refused x else op s) (fun s => ?_) (fun s => ?_) hA
  · exact (hexec s).trans (apply_ite Res.outcome (c s) (.refused x) (op s)).symm
  · split
    · trivial
    · rename_i hc
      exact hacts s hc

/-- The reads of the BitReader return a value (entry 8). -/
theorem acts_withResult {α : Type} {A : Set Part} {s : State} {r : Res α} (hr : Acts A s r) (hquiet : Quiet A) (f : α → OpResult) :
    Acts (insert .result A) s (r.bind fun v s1 => .ok () (s1.withResult (f v))) :=
  hr.bind (Set.subset_insert _ _) hquiet fun _ s1 => (frame_withResult s1 _).mono (by simp)

theorem frames_readBits (n : Nat) : Frames (.readBits n) :=
  frames_guarded (c := fun _ => Config.readMax < n) (fun s => exec_readBits n s)
    (fun s hn => acts_withResult (acts_readBits s (Nat.not_lt.1 hn)) (by simp [Quiet]) .value) fun p hp => by
    obtain rfl | rfl : p = .result ∨ p = .cursor := hp
    · exact .inl ⟨n, .inl rfl⟩
    · exact .inl ⟨n, .inl rfl⟩

theorem frames_peekBits (n : Nat) : Frames (.peekBits n) :=
  frames_guarded (c := fun _ => Config.readMax < n) (fun s => (exec_peekBits n s).trans (if_neg (by decide)))
    (fun s _ => acts_withResult (acts_peekBits s n) (by simp [Quiet]) .value) fun p hp => by
    obtain rfl | rfl | rfl | rfl : p = .result ∨ p = .cursor ∨ p = .sound ∨ p = .few := hp
    · exact .inl ⟨n, .inr rfl⟩
    · exact .inl ⟨n, .inr rfl⟩
    · exact .inr ⟨n, rfl⟩
    · exact .inr ⟨n, rfl⟩

theorem frames_refill : Frames .refill :=
  frames_guarded (fun s => exec_refill s) (fun s _ => acts_refill s) fun p hp => by
    obtain rfl | rfl | rfl : p = .cursor ∨ p = .sound ∨ p = .few := hp
    · exact .inr (.inl rfl)
    · exact .inl rfl
    · exact .inl rfl

/-- `CANON` as an operation. -/
def canonOp (ls : List Nat) (m : Nat) (s : State) : Res Unit :=
  match canon ls m with
  | .ok cs => .ok () (s.withResult (.codes cs))
  | .error _ => .raised .malformedHuffmanCode s

theorem frames_canon (ls : List Nat) (m : Nat) : Frames (.canon ls m) := by
  refine frames_guarded (c := fun _ => ¬ lengthTableOk ls m = true) (x := .operandOutOfRange) (op := canonOp ls m) (A := {.result}) (fun s => ?_)
    (fun s _ => ?_) fun p hp => ?_
  · rw [ite_not, canonOp]
    cases h : canon ls m <;> simp only [exec, execCanon, h] <;> rfl
  · rw [canonOp]
    cases canon ls m with
    | ok cs => exact frame_withResult s _
    | error e => exact acts_raised raised_malformed _ s
  · obtain rfl : p = .result := hp
    exact .inr (.inl ⟨ls, m, rfl⟩)

theorem frames_addLeaf (t : TreeId) (c L v : Nat) : Frames (.addLeaf t c L v) :=
  frames_guarded (c := fun _ => ¬ addLeafOk t c L v = true) (fun _ => (ite_not _ _ _).symm)
    (fun s _ => acts_addLeafOp s t c L v) fun p hp => by
    obtain rfl : p = .tree t := hp
    exact .inl ⟨c, L, v, rfl⟩

theorem frames_build (t : TreeId) (ls : List Nat) (m : Nat) : Frames (.build t ls m) :=
  frames_guarded (c := fun _ => ¬ buildOk t ls m = true) (fun _ => (ite_not _ _ _).symm)
    (fun s _ => acts_buildTree s t ls m) fun p hp => by
    obtain rfl | rfl : p = .tree t ∨ p = .treeCursor t := hp
    · exact .inr (.inl ⟨ls, m, rfl⟩)
    · exact .inr (.inr (.inr (.inl ⟨ls, m, rfl⟩)))

/-- What `DECODESTEP` returns (10_state.md rule R25). -/
def stepResult : Option Nat → OpResult
  | some v => .symbol v
  | none => .cont

theorem frames_decodeStep (t : TreeId) (b : Bool) : Frames (.decodeStep t b) := by
  refine frames_of (op := fun s => (decodeStep t b s).bind fun r s1 => .ok () (s1.withResult (stepResult r))) (fun s => ?_)
    (fun s => acts_withResult (acts_decodeStep s t b) (by simp [Quiet]) stepResult) fun p hp => ?_
  · rw [exec_decodeStep, execDecodeStep]
    refine congrArg (fun k => ((decodeStep t b s).bind k).outcome) (funext fun r => ?_)
    cases r <;> rfl
  · obtain rfl | rfl : p = .result ∨ p = .treeCursor t := hp
    · exact .inr (.inr (.inl ⟨t, b, rfl⟩))
    · exact .inl ⟨b, rfl⟩

theorem frames_resetCursor (t : TreeId) : Frames (.resetCursor t) :=
  frames_of (op := resetCursor t) (fun _ => rfl) (fun s => acts_resetCursor s t) fun p hp => by
    obtain rfl : p = .treeCursor t := hp
    exact .inr (.inl rfl)

theorem frames_decodeSym (t : TreeId) : Frames (.decodeSym t) :=
  frames_of (fun s => exec_decodeSym t s) (fun s => acts_withResult (acts_decodeSym s t) (by simp [Quiet]) .symbol)
    fun p hp => by
    obtain rfl | rfl | rfl : p = .result ∨ p = .cursor ∨ p = .treeCursor t := hp
    · exact .inr (.inr (.inr ⟨t, rfl⟩))
    · exact .inr (.inr (.inl ⟨t, rfl⟩))
    · exact .inr (.inr (.inl rfl))

theorem frames_tables : Frames .tables :=
  frames_of (fun s => exec_tables s) (fun s => acts_tables s) fun p hp => by
    obtain rfl | rfl | rfl | rfl | rfl :
      p = .tree .ll ∨ p = .treeCursor .ll ∨ p = .tree .d ∨ p = .treeCursor .d ∨ p = .phase := hp
    · exact .inr (.inr ⟨rfl, by decide⟩)
    · exact .inr (.inr (.inr (.inr ⟨rfl, by decide⟩)))
    · exact .inr (.inr ⟨rfl, by decide⟩)
    · exact .inr (.inr (.inr (.inr ⟨rfl, by decide⟩)))
    · exact .inr (.inr rfl)

theorem frames_copyByte : Frames .copyByte :=
  frames_of (fun s => exec_copyByte s) (fun s => acts_copyByte s) fun p hp => by
    obtain rfl | rfl : p = .out ∨ p = .copyrem := hp
    · exact .inr rfl
    · exact rfl

theorem frames_lit (b : Byte) : Frames (.lit b) :=
  frames_of (fun s => exec_lit s b) (fun s => acts_outAppend s b) fun p hp => by
    obtain rfl : p = .out := hp
    exact .inl ⟨b, rfl⟩

theorem frames_eob : Frames .eob :=
  frames_of (op := fun s => .ok () (s.withPhase .done)) (fun _ => rfl) (fun s => frame_withPhase s _) fun p hp => by
    obtain rfl : p = .phase := hp
    exact .inr (.inl rfl)

theorem frames_clLen (n : BitVec 3) : Frames (.clLen n) :=
  frames_of (fun s => exec_clLen s n) (fun s => acts_clLen s n) fun p hp => by
    obtain rfl : p = .clLens := hp
    exact ⟨n, rfl⟩

/-- A check writes nothing. -/
theorem frames_check {op : State → Res Unit} (hop : Meaning i op) (hacts : ∀ s, Acts ∅ s (op s)) : Frames i :=
  frames_of hop hacts fun p hp => absurd hp (Set.notMem_empty p)

end

/-- Every instruction but `START` writes what it may write and no more. -/
theorem frames_of_ne_start {i : Instr} (h : ∀ src, i ≠ .start src) : Frames i := by
  cases i with
  | start src => exact absurd rfl (h src)
  | blkDynamic f => exact frames_blockHeader (t := 2) (fun _ => rfl) ⟨_, rfl⟩ fun _ => ⟨f, rfl⟩
  | blkStored f => exact frames_blockHeader (t := 0) (fun _ => rfl) ⟨_, rfl⟩ fun h => by cases h
  | blkFixed f => exact frames_blockHeader (t := 1) (fun _ => rfl) ⟨_, rfl⟩ fun h => by cases h
  | blkReserved f => exact frames_blockHeader (t := 3) (fun _ => rfl) ⟨_, rfl⟩ fun h => by cases h
  | dynHeader a b c => exact frames_dynHeader (a := a) (b := b) (c := c) (fun _ => rfl) ⟨_, rfl⟩
  | dynHlitReserved a b c => exact frames_dynReserved (a := a) (b := b) (c := c) (fun _ => rfl) ⟨_, rfl⟩
  | dynHdistReserved a b c => exact frames_dynReserved (a := a) (b := b) (c := c) (fun _ => rfl) ⟨_, rfl⟩
  | clLen n => exact frames_clLen n
  | clLit0 | clLit1 | clLit2 | clLit3 | clLit4 | clLit5 | clLit6 | clLit7 | clLit8 | clLit9 | clLit10 | clLit11
  | clLit12 | clLit13 | clLit14 | clLit15 => exact frames_writeLens (fun _ => rfl) ⟨_, rfl⟩
  | clRep16 => exact frames_repeat (fun s => exec_clRep16 s) (fun s => acts_clRep16 s) (by simp) ⟨_, rfl⟩
  | clZero17 => exact frames_repeat (op := repeatLen 0 3 3) (fun _ => rfl) (fun s => acts_repeatLen s 0 3 (by decide)) (by simp) ⟨_, rfl⟩
  | clZero18 => exact frames_repeat (op := repeatLen 0 11 7) (fun _ => rfl) (fun s => acts_repeatLen s 0 11 (by decide)) (by simp) ⟨_, rfl⟩
  | lit b => exact frames_lit b
  | eob => exact frames_eob
  | len257 | len258 | len259 | len260 | len261 | len262 | len263 | len264 | len265 | len266 | len267 | len268 | len269
  | len270 | len271 | len272 | len273 | len274 | len275 | len276 | len277 | len278 | len279 | len280 | len281 | len282
  | len283 | len284 | len285 => exact frames_of_lengthRow (by decide)
  | litLen286 | litLen287 | dist30 | dist31 => exact frames_malformed fun _ => rfl
  | dist0 | dist1 | dist2 | dist3 | dist4 | dist5 | dist6 | dist7 | dist8 | dist9 | dist10 | dist11 | dist12 | dist13
  | dist14 | dist15 | dist16 | dist17 | dist18 | dist19 | dist20 | dist21 | dist22 | dist23 | dist24 | dist25 | dist26
  | dist27 | dist28 | dist29 => exact frames_of_distanceRow (by decide)
  | readBits n => exact frames_readBits n
  | refill => exact frames_refill
  | peekBits n => exact frames_peekBits n
  | canon ls m => exact frames_canon ls m
  | addLeaf t c L v => exact frames_addLeaf t c L v
  | decodeStep t b => exact frames_decodeStep t b
  | resetCursor t => exact frames_resetCursor t
  | decodeSym t => exact frames_decodeSym t
  | build t ls m => exact frames_build t ls m
  | overrunCheck => exact frames_check exec_overrunCheck fun s => acts_overrunCheck s
  | rangeCheck => exact frames_check exec_rangeCheck fun s => acts_rangeCheck s
  | tables => exact frames_tables
  | check => exact frames_check exec_check fun s => acts_check s
  | copyByte => exact frames_copyByte

/-- The effect of an instruction. -/
theorem exec_effect {i : Instr} {s t : State} (hi : ∀ src, i ≠ .start src) (h : exec i s = .next t) :
    Effect {p | Writes i p} s t := by
  obtain ⟨op, hop, hacts⟩ := frames_of_ne_start hi
  exact (hacts s).effect ((hop s).symm.trans h)

/-- Settles O50: register by register from the instruction's effect; `OUT` byte by byte as in O46. -/
theorem instructionsWriteOnlyTheirRegisters : Obligations.InstructionsWriteOnlyTheirRegisters := by
  intro i s t h hi
  have heffect := exec_effect hi h
  have hsame (p : Part) (hp : ¬ Writes i p) (hfew : p ≠ .few) : p.Same s t := heffect.same hp hfew
  refine ⟨heffect.core, fun a ha => ?_, fun hlit hcopy => ?_, fun h1 h2 h3 => ?_, ?_,
    fun hp => (hsame .cursor hp nofun).rest, fun hp => (hsame .result hp nofun).rest,
    fun hp => (hsame .header hp nofun).blk, fun hp => (hsame .dynHeader hp nofun).blk,
    fun hp => (hsame .clLens (fun ⟨n, hn⟩ => hp n hn) nofun).blk, fun hp => (hsame .lengths hp nofun).blk,
    fun hp => (hsame .rep hp nofun).blk, fun hp => (hsame .length (fun ⟨p, hmem, he⟩ => hp p hmem he) nofun).blk,
    fun hp => (hsame .distance (fun ⟨p, hmem, he⟩ => hp p hmem he) nofun).blk, fun hp => (hsame .copyrem hp nofun).blk,
    fun T => ⟨fun hp => (hsame (.tree T) hp nofun).blk, fun hp => (hsame (.treeCursor T) hp nofun).blk⟩,
    (hsame .sequencer id nofun).blk⟩
  · rcases (exec_outStep hi h).read with ⟨-, hread⟩ | ⟨-, -, hread⟩
    · exact hread a
    · exact hread a ha
  · obtain ⟨hout, hlen⟩ := exec_sameOut hlit hcopy hi h
    exact ⟨hlen, fun a => by rw [hout]⟩
  · exact (hsame .phase (fun hp => hp.elim (fun ⟨f, hf⟩ => h1 f hf) fun hp => hp.elim h2 h3) nofun).rest
  · rcases heffect.frame_or_faulted with hframe | hfault
    · obtain ⟨-, -, -, -, -, hstatus, herr, hreads⟩ := core_eq_iff.1 hframe.core
      exact .inl ⟨hstatus, herr, hreads⟩
    · exact .inr ⟨hfault.status, hfault.err.1, hfault.unwrittenReads⟩

end Sys2Proof.Machine
end

section
/-! SUPPORT. What a step may write, and the invariants that follow: the memories, the BitCursor, `STATUS` and `ERR`, the order of
the phases (10_state.md, 20_memory.md, 60_exceptions.md). -/

open Sys2Proof.Certificates

namespace Sys2Proof.Machine

/-! ### The fetch and the follow-up -/

/-- What a fetch may write: the BitCursor, kept sound, and the BlockState. -/
def fetchParts : Set Part :=
  {p | p ≠ .phase ∧ p ≠ .out ∧ p ≠ .result ∧ p ≠ .sound ∧ p ≠ .few}

theorem quiet_fetchParts : Quiet fetchParts := ⟨fun h => h.1 rfl, fun h => h.2.1 rfl⟩

section
variable {α β : Type} {s s1 : State}

theorem frame_fetch_withBlk {b : BlockState} (hq : Cells.wf s.blk.lenseq → Cells.wf b.lenseq) :
    Frame fetchParts s (s.withBlk b) :=
  frame_withBlk hq fun p hp => by
    cases p with
    | phase | out | result | sound | few => trivial
    | _ => exact absurd ⟨nofun, nofun, nofun, nofun, nofun⟩ hp

theorem Acts.after_fetch {r : Res α} (h : Frame fetchParts s s1) (hr : Acts fetchParts s1 r) : Acts fetchParts s r :=
  .after h subset_rfl quiet_fetchParts hr

theorem Acts.bind_fetch {r : Res α} {k : α → State → Res β} (hr : Acts fetchParts s r)
    (hk : ∀ a s1, Acts fetchParts s1 (k a s1)) : Acts fetchParts s (r.bind k) :=
  hr.bind subset_rfl quiet_fetchParts hk

theorem acts_need (r : Reg) (o : Option α) (s : State) : Acts fetchParts s (need r o s) := by
  cases o <;> exact .refl _ s

theorem acts_fetch_readBits {n : Nat} (hn : n ≤ 16) (s : State) : Acts fetchParts s (readBits n s) :=
  (acts_readBits s hn).mono fun p hp => by
    obtain rfl : p = .cursor := hp
    exact ⟨nofun, nofun, nofun, nofun, nofun⟩

theorem acts_fetch_decodeSym (t : TreeId) (s : State) : Acts fetchParts s (decodeSym t s) :=
  (acts_decodeSym s t).mono fun p hp => by
    obtain rfl | rfl : p = .cursor ∨ p = .treeCursor t := hp <;> exact ⟨nofun, nofun, nofun, nofun, nofun⟩

theorem acts_decodeRes (f : Format) (w : Nat) (s : State) : Acts fetchParts s (decodeRes f w s) := by
  rw [decodeRes]
  split
  · exact .refl _ s
  · trivial

/-- A word decoded behind a change of the BlockState that leaves `LENSEQ` alone. -/
theorem acts_decodeRes_withBlk (f : Format) (w : Nat) {b : BlockState} (hq : b.lenseq = s.blk.lenseq) :
    Acts fetchParts s (decodeRes f w (s.withBlk b)) :=
  .after_fetch (frame_fetch_withBlk fun h => by rwa [hq]) (acts_decodeRes f w _)

end

theorem acts_fetchBlockHeader (s : State) : Acts fetchParts s (fetchBlockHeader s) :=
  .after_fetch (frame_fetch_withBlk fun _ => List.Pairwise.nil) <|
    (acts_fetch_readBits (n := 1) (by decide) _).bind_fetch fun _ _ => .after_fetch (frame_fetch_withBlk fun h => by exact h) <|
      (acts_fetch_readBits (n := 2) (by decide) _).bind_fetch fun _ _ => acts_decodeRes_withBlk _ _ rfl

theorem acts_fetchDynHeader (s : State) : Acts fetchParts s (fetchDynHeader s) :=
  (acts_fetch_readBits (n := 5) (by decide) s).bind_fetch fun _ _ => .after_fetch (frame_fetch_withBlk fun h => by exact h) <|
    (acts_fetch_readBits (n := 5) (by decide) _).bind_fetch fun _ _ => .after_fetch (frame_fetch_withBlk fun h => by exact h) <|
      (acts_fetch_readBits (n := 4) (by decide) _).bind_fetch fun _ _ => acts_decodeRes_withBlk _ _ rfl

theorem acts_fetchClLen (s : State) : Acts fetchParts s (fetchClLen s) :=
  .need fun _ => by
    split
    · exact (acts_fetch_readBits (by decide) s).bind_fetch fun _ _ => acts_decodeRes _ _ _
    · exact .refl _ s

theorem acts_splitLoop {w : BlockState → Nat → BitVec 4 → BlockState} (hq : ∀ b i v, (w b i v).lenseq = b.lenseq)
    (base count n i : Nat) (s : State) : Acts fetchParts s (splitLoop w base count n i s) := by
  induction n generalizing i s with
  | zero => exact .refl _ s
  | succ n ih =>
    have hentry : Acts fetchParts s (splitEntry base count i s) := by
      rw [splitEntry]
      split
      · exact acts_need _ _ s
      · exact .refl _ s
    exact hentry.bind_fetch fun v s1 => .after_fetch (frame_fetch_withBlk fun h => by rwa [hq]) (ih (i + 1) _)

theorem acts_splitLengths (s : State) : Acts fetchParts s (splitLengths s) :=
  .need fun _ => (acts_splitLoop BlockState.writeLllen_lenseq _ _ _ _ s).bind_fetch fun _ s1 =>
    .need fun _ => acts_splitLoop BlockState.writeDlen_lenseq _ _ _ _ s1

theorem acts_fetchClSym (s : State) : Acts fetchParts s (fetchClSym s) :=
  .need fun _ => ((acts_seqTotal s).mono (Set.empty_subset _)).bind_fetch fun _ s1 => by
    split
    · exact (acts_fetch_decodeSym _ s1).bind_fetch fun _ _ => acts_decodeRes_withBlk _ _ rfl
    · exact (acts_splitLengths s1).bind_fetch fun _ s2 => .refl _ s2

theorem acts_fetchSymbol (s : State) : Acts fetchParts s (fetchSymbol s) :=
  .after_fetch (frame_fetch_withBlk (b := { s.blk with symPoint := .symbols }) id) <|
    (acts_fetch_decodeSym _ _).bind_fetch fun _ _ => acts_decodeRes_withBlk _ _ rfl

theorem acts_fetchCopy (s : State) : Acts fetchParts s (fetchCopy s) :=
  .need fun _ => by
    split
    · exact acts_fetchSymbol s
    · exact .refl _ s

theorem acts_fetch (s : State) : Acts fetchParts s (fetch s) := by
  unfold fetch
  split
  · exact acts_fetchBlockHeader s
  · split
    · exact acts_fetchDynHeader s
    · exact acts_fetchClLen s
    · exact acts_fetchClSym s
  · split
    · exact acts_fetchSymbol s
    · exact (acts_fetch_decodeSym _ s).bind_fetch fun _ _ => acts_decodeRes_withBlk _ _ rfl
    · exact acts_fetchCopy s
    · exact .need fun _ => acts_decodeRes_withBlk _ _ rfl
  · exact acts_fetchBlockHeader s

theorem acts_follow (fl : Follow) (s : State) : Acts fetchParts s (fl.apply s) := by
  cases fl with
  | stay => exact .refl _ s
  | toClLens | toClSyms | toDist => exact frame_fetch_withBlk id
  | toCopy => exact .need fun _ => frame_fetch_withBlk id

/-! ### The instructions that a phase issues -/

/-- Every instruction that `r` completes with meets `P`. -/
def Yields (P : Instr → Prop) (r : Res Instr) : Prop :=
  ∀ i s, r = .ok i s → P i

section
variable {P : Instr → Prop} {α : Type}

theorem yields_ok {i : Instr} (s : State) (h : P i) : Yields P (.ok i s) :=
  fun _ _ he => (Res.ok.inj he).1 ▸ h

theorem Yields.bind (r : Res α) {k : α → State → Res Instr} (hk : ∀ a s, Yields P (k a s)) : Yields P (r.bind k) := by
  intro i t h
  obtain ⟨a, s, -, h2⟩ := Res.bind_eq_ok.1 h
  exact hk a s i t h2

theorem Yields.imp {Q : Instr → Prop} {r : Res Instr} (h : Yields P r) (hPQ : ∀ i, P i → Q i) : Yields Q r :=
  fun i s hr => hPQ i (h i s hr)

/-- `i` is what some word of the format `f` decodes to. -/
def WordOf (f : Format) (i : Instr) : Prop :=
  ∃ w, decode f w = .ok i

theorem WordOf.format {f : Format} {i : Instr} (h : WordOf f i) : (encode i).map Prod.fst = some f :=
  h.elim fun _ => encode_format_of_decode

theorem yields_decodeRes (f : Format) (w : Nat) (s : State) : Yields (WordOf f) (decodeRes f w s) := by
  rw [decodeRes]
  split
  · rename_i i hi
    exact yields_ok s ⟨w, hi⟩
  · intro i t h
    cases h

end

/-- The instructions that the sequencer issues in a phase (44_block_decoder.md rules R120, R122, R125). -/
def IssuedIn (p : Phase) (i : Instr) : Prop :=
  match p with
  | .readHeader => WordOf .bh i
  | .readDynamicTables =>
    WordOf .dh i ∨ WordOf .cll i ∨ WordOf .cls i ∨ (∃ ls, i = .build .cl ls Config.clMaxLen) ∨ i = .tables
  | .decodeSymbols => WordOf .ll i ∨ WordOf .d i ∨ i = .copyByte
  | .done => False

theorem yields_fetchSymbol (s : State) : Yields (WordOf .ll) (fetchSymbol s) :=
  .bind _ fun _ _ => yields_decodeRes _ _ _

theorem yields_fetchClSym (s : State) : Yields (fun i => WordOf .cls i ∨ i = .tables) (fetchClSym s) :=
  .bind _ fun _ _ => .bind _ fun _ _ => by
    split
    · exact .bind _ fun _ _ => (yields_decodeRes _ _ _).imp fun _ => .inl
    · exact .bind _ fun _ s3 => yields_ok s3 (.inr rfl)

theorem yields_fetchClLen (s : State) :
    Yields (fun i => WordOf .cll i ∨ ∃ ls, i = .build .cl ls Config.clMaxLen) (fetchClLen s) :=
  .bind _ fun _ s1 => by
    split
    · exact .bind _ fun _ _ => (yields_decodeRes _ _ _).imp fun _ => .inl
    · exact yields_ok s1 (.inr ⟨_, rfl⟩)

theorem yields_fetchCopy (s : State) : Yields (fun i => WordOf .ll i ∨ i = .copyByte) (fetchCopy s) :=
  .bind _ fun _ s1 => by
    split
    · exact (yields_fetchSymbol s1).imp fun _ => .inl
    · exact yields_ok s1 (.inr rfl)

/-- A fetch issues an instruction of its phase. -/
theorem issuedIn_fetch {s : State} (hp : s.phase ≠ .done) : Yields (IssuedIn s.phase) (fetch s) := by
  cases h : s.phase with
  | readHeader =>
    rw [fetch_of_readHeader h]
    exact .bind _ fun _ _ => .bind _ fun _ _ => yields_decodeRes _ _ _
  | readDynamicTables =>
    cases hpt : s.blk.clPoint with
    | dynHeader =>
      rw [fetch_of_dynHeader h hpt]
      exact .bind _ fun _ _ => .bind _ fun _ _ => .bind _ fun _ _ => (yields_decodeRes _ _ _).imp fun _ => .inl
    | clLens =>
      rw [fetch_of_clLens h hpt]
      exact (yields_fetchClLen s).imp fun _ hi => hi.elim (.inr <| .inl ·) (.inr <| .inr <| .inr <| .inl ·)
    | clSyms =>
      rw [fetch_of_clSyms h hpt]
      exact (yields_fetchClSym s).imp fun _ hi => hi.elim (.inr <| .inr <| .inl ·) (.inr <| .inr <| .inr <| .inr ·)
  | decodeSymbols =>
    cases hpt : s.blk.symPoint with
    | symbols =>
      rw [fetch_of_symbols h hpt]
      exact (yields_fetchSymbol s).imp fun _ => .inl
    | dist =>
      rw [fetch_of_dist h hpt]
      exact .bind _ fun _ _ => (yields_decodeRes _ _ _).imp fun _ => .inr ∘ .inl
    | copy =>
      rw [fetch_of_copy h hpt]
      exact (yields_fetchCopy s).imp fun _ hi => hi.elim .inl (.inr ∘ .inr)
    | append =>
      rw [fetch_of_append h hpt]
      exact .bind _ fun _ _ => (yields_decodeRes _ _ _).imp fun _ => .inl
  | done => exact absurd h hp

/-! ### The effect of a step -/

/-- What a step may write: everything but `result`; the BitCursor stays sound. -/
def stepParts : Set Part :=
  {p | p ≠ .result ∧ p ≠ .sound ∧ p ≠ .few}

theorem fetchParts_subset : fetchParts ⊆ stepParts :=
  fun _ ⟨_, _, h3, h4, h5⟩ => ⟨h3, h4, h5⟩

/-- What the sequencer issues returns no value and is no request to the BitReader alone. -/
theorem Issued.writes_subset {i : Instr} (h : Issued i) : {p | Writes i p} ⊆ stepParts := by
  have hreturns : ¬ ReturnsValue i := by
    rintro (⟨n, rfl | rfl⟩ | ⟨ls, m, rfl⟩ | ⟨t, b, rfl⟩ | ⟨t, rfl⟩) <;> obtain ⟨f, hf⟩ := h <;> cases hf
  have hreader : ¬ (i = .refill ∨ ∃ n, i = .peekBits n) := by
    rintro (rfl | ⟨n, rfl⟩) <;> obtain ⟨f, hf⟩ := h <;> cases hf
  intro p hp
  refine ⟨?_, ?_, ?_⟩ <;> rintro rfl
  · exact hreturns hp
  · exact hreader hp
  · exact hreader hp

section
variable {A B : Set Part} {s s1 t : State}

theorem Effect.mono (h : Effect A s t) (hAB : A ⊆ B) : Effect B s t :=
  h.imp (·.mono hAB) fun ⟨u, hu, ht⟩ => ⟨u, hu.mono (early_mono hAB), ht⟩

/-- An effect behind a change. -/
theorem Effect.after (h : Frame A s s1) (hA : A ⊆ B) (hquiet : Quiet A) (h2 : Effect B s1 t) : Effect B s t :=
  h2.imp (h.mono hA).trans fun ⟨u, hu, ht⟩ => ⟨u, (h.mono (hquiet.subset_early hA)).trans hu, ht⟩

/-- A state that is still RUNNING has taken no fault entry. -/
theorem Effect.frame_of_running (h : Effect A s t) (ht : t.status = .running) : Frame A s t :=
  h.frame_or_faulted.resolve_right fun hf => by
    rw [hf.status] at ht
    cases ht

/-- An effect that a core left not RUNNING is a fault entry. -/
theorem Effect.faulted_of_status (h : Effect A s t) (hs : s.status = .running) (ht : t.status ≠ .running) : Faulted A s t :=
  h.frame_or_faulted.resolve_left fun hf => ht ((core_eq_iff.1 hf.core).2.2.2.2.2.1.trans hs)

end

/-- A distance symbol writes neither `OUT` nor the phase. -/
theorem quiet_of_toCopy {i : Instr} (h : follow i = .toCopy) : Quiet {p | Writes i p} := by
  refine ⟨?_, ?_⟩
  · rintro (⟨f, rfl⟩ | rfl | rfl) <;> cases h
  · rintro (⟨b, rfl⟩ | rfl)
    · rw [follow_of_encode (w := b.toNat) rfl, wordFollow, if_neg (by have := b.isLt; omega)] at h
      cases h
    · cases h

/-- A step of a session outside Done. -/
theorem step_effect {s t : State} (hstart : s.hostStart = none) (hp : s.phase ≠ .done) (h : step s = .next t) :
    Effect stepParts s t := by
  have hfetch := acts_fetch s
  rcases step_next h with ⟨src, hsrc, -⟩ | ⟨-, -, ⟨hdone, -⟩ | ⟨-, hrun⟩⟩
  · rw [hstart] at hsrc
    cases hsrc
  · exact absurd hdone hp
  · rcases hrun with ⟨i, s1, hf, -, rfl⟩ | ⟨i, s1, t1, hf, -, hexec, hfollow⟩ | ⟨e, s1, hf, rfl⟩ | ⟨x, s1, hf, rfl⟩
    · rw [hf] at hfetch
      exact .inl ((Frame.trans hfetch (frame_fetch_withBlk fun h => by exact h)).mono fetchParts_subset)
    · rw [hf] at hfetch
      have hissued := issues_fetch s i s1 hf
      have heffect := exec_effect hissued.ne_start hexec
      refine .after hfetch fetchParts_subset quiet_fetchParts ?_
      rcases hfollow with ⟨hrunning, ha⟩ | ⟨hrunning, htoCopy, -, rfl⟩ | ⟨-, rfl⟩
      · have hfl := acts_follow (follow i) t1
        rw [ha] at hfl
        exact .inl (((heffect.frame_of_running hrunning).mono hissued.writes_subset).trans (hfl.mono fetchParts_subset))
      · exact .inr ⟨t1, (heffect.frame_of_running hrunning).mono
          ((quiet_of_toCopy htoCopy).subset_early hissued.writes_subset), .inr rfl⟩
      · exact heffect.mono hissued.writes_subset
    · rw [hf] at hfetch
      exact .mono (.inr ⟨s1, hfetch.2, .inl ⟨e, hfetch.1, rfl⟩⟩) fetchParts_subset
    · rw [hf] at hfetch
      exact .mono (.inr ⟨s1, hfetch, .inr rfl⟩) fetchParts_subset

/-- The step of Done (44_block_decoder.md rules R132, R133). -/
theorem step_done {s t : State} (hstart : s.hostStart = none) (hp : s.phase = .done) (h : step s = .next t) :
    s.status = .running ∧ ((∃ f, s.blk.bfinal = some f ∧ t = State.endBlock { s with blocks := s.blocks + 1 } f)
      ∨ (s.blk.bfinal = none ∧ t = State.raiseUnwritten { s with blocks := s.blocks + 1 })) := by
  rcases step_next h with ⟨src, hsrc, -⟩ | ⟨-, hrun, ⟨-, hdone⟩ | ⟨hne, -⟩⟩
  · rw [hstart] at hsrc
    cases hsrc
  · exact ⟨hrun, hdone⟩
  · exact absurd hp hne

/-- A step without `START` is taken by a RUNNING core. -/
theorem status_of_step {s t : State} (hstart : s.hostStart = none) (h : step s = .next t) : s.status = .running := by
  rcases step_next h with ⟨src, hsrc, -⟩ | ⟨-, hrun, -⟩
  · rw [hstart] at hsrc
    cases hsrc
  · exact hrun

/-- A step is a `START`, or Done, or an effect. -/
theorem step_cases {s t : State} (h : step s = .next t) :
    (∃ src, t = State.start src { s with hostStart := none })
    ∨ (s.hostStart = none ∧ s.status = .running ∧ s.phase = .done
      ∧ ((∃ f, s.blk.bfinal = some f ∧ t = State.endBlock { s with blocks := s.blocks + 1 } f)
        ∨ (s.blk.bfinal = none ∧ t = State.raiseUnwritten { s with blocks := s.blocks + 1 })))
    ∨ (s.hostStart = none ∧ s.status = .running ∧ s.phase ≠ .done ∧ Effect stepParts s t) := by
  rcases Option.eq_none_or_eq_some s.hostStart with hstart | ⟨src, hstart⟩
  · by_cases hp : s.phase = .done
    · obtain ⟨hrun, hdone⟩ := step_done hstart hp h
      exact .inr (.inl ⟨hstart, hrun, hp, hdone⟩)
    · exact .inr (.inr ⟨hstart, status_of_step hstart h, hp, step_effect hstart hp h⟩)
  · exact .inl ⟨src, (Host.Outcome.next.inj ((step_of_hostStart hstart).symm.trans h)).symm⟩

theorem phase_notMem_early {A : Set Part} : .phase ∉ early A :=
  fun h => h.elim nofun fun h => h.2.1 rfl

theorem out_notMem_early {A : Set Part} : .out ∉ early A :=
  fun h => h.elim nofun fun h => h.2.2 rfl

/-! ### `STATUS` and `ERR` -/

/-- Settles O57: a fault entry writes both registers, nothing else of a session writes `ERR`. -/
theorem stepKeepsErrAndStatus : Obligations.StepKeepsErrAndStatus := by
  intro s t hinv h
  have hrunning (hrun : s.status = .running) : s.err = .none := by
    by_contra he
    have := hinv.faulted_iff.2 he
    rw [hrun] at this
    cases this
  have hfine {u : State} (hstatus : u.status ≠ .faulted) (herr : u.err = .none) : StatusInv u :=
    ⟨⟨fun hf => absurd hf hstatus, fun he => absurd herr he⟩, by rw [herr]; decide⟩
  rcases step_cases h with ⟨src, rfl⟩ | ⟨-, hrun, -, ⟨f, -, rfl⟩ | ⟨-, rfl⟩⟩ | ⟨-, hrun, -, heffect⟩
  · exact hfine (by rw [State.start_status]; decide) rfl
  · rw [State.endBlock]
    split
    · exact hfine nofun (hrunning hrun)
    · exact hfine (by rw [hrun]; decide) (hrunning hrun)
  · exact ⟨⟨fun _ => ErrCode.fatal_ne_none _, fun _ => rfl⟩, ErrCode.fatal_ne_headerError _⟩
  · rcases heffect.frame_or_faulted with hframe | hfault
    · obtain ⟨-, -, -, -, -, hstatus, herr, -⟩ := core_eq_iff.1 hframe.core
      exact hfine (by rw [hstatus, hrun]; decide) (herr.trans (hrunning hrun))
    · exact ⟨⟨fun _ => hfault.err.1, fun _ => hfault.status⟩, hfault.err.2⟩

/-- Settles O45: a fault entry behind what an instruction writes before it takes an error. -/
theorem faultEntryFreezesTheOutput : Obligations.FaultEntryFreezesTheOutput := by
  intro s t hdone h ht
  rcases step_cases h with ⟨src, rfl⟩ | ⟨-, hrun, hp, ⟨f, -, rfl⟩ | ⟨hf, -⟩⟩ | ⟨hstart, hrun, -, heffect⟩
  · cases ht
  · rw [State.endBlock] at ht
    split at ht
    · cases ht
    · rw [hrun] at ht
      cases ht
  · have := hdone hp
    rw [hf] at this
    cases this
  · have hfault := heffect.faulted_of_status hrun (by rw [ht]; decide)
    have hout := (hfault.same .out out_notMem_early).rest
    have hphase := (hfault.same .phase phase_notMem_early).rest
    exact ⟨hstart, hrun, hfault.err.1, hfault.err.2, hout.out, hout.outlen, hfault.blocks, hphase, hfault.source.1,
      hfault.source.2⟩

/-! ### The memories and the BitCursor -/

theorem Effect.lenseq {A : Set Part} {s t : State} (h : Effect A s t) (hq : Cells.wf s.blk.lenseq) : Cells.wf t.blk.lenseq :=
  h.frame_or_faulted.elim (·.lenseq hq) (·.lenseq hq)

theorem Effect.srcOk {A : Set Part} {s t : State} (h : Effect A s t) (hs : SrcOk s) : SrcOk t := by
  obtain ⟨-, -, hsrc, hlen, -⟩ := h.core
  rw [SrcOk, hsrc, hlen]
  exact hs

/-- An output that grows by at most one byte keeps exactly its addresses. -/
theorem OutStep.outOk {s t : State} (h : OutStep s t) (hout : OutOk s) : OutOk t := by
  rcases h with h | ⟨b, h⟩
  · rw [OutOk, h.out, h.outlen]
    exact hout
  · rw [OutOk, h.out, h.outlen]
    exact append_outOk hout b

/-- What Done leaves of the source, of `OUT` and of the BitCursor. -/
theorem endBlock_same (s : State) (f : BitVec 1) :
    (s.endBlock f).src = s.src ∧ (s.endBlock f).srclen = s.srclen ∧ (s.endBlock f).bytepos = s.bytepos
      ∧ (s.endBlock f).acc = s.acc ∧ (s.endBlock f).bitcnt = s.bitcnt ∧ SameOut s (s.endBlock f) := by
  rw [State.endBlock]
  split <;> exact ⟨rfl, rfl, rfl, rfl, rfl, rfl, rfl⟩

theorem endBlock_lenseq {s : State} (f : BitVec 1) (h : Cells.wf s.blk.lenseq) : Cells.wf (s.endBlock f).blk.lenseq := by
  rw [State.endBlock]
  split
  · exact h
  · exact List.Pairwise.nil

/-- Settles O55: by what a step does to each of the three memories. -/
theorem stepKeepsTheMemories : Obligations.StepKeepsTheMemories := by
  intro s t hinv h
  rcases step_cases h with ⟨src, rfl⟩ | ⟨hstart, -, -, ⟨f, -, rfl⟩ | ⟨-, rfl⟩⟩ | ⟨hstart, -, -, heffect⟩
  · exact ⟨start_srcOk src _, start_outOk src _, List.Pairwise.nil⟩
  · obtain ⟨hsrc, hlen, -⟩ := endBlock_same { s with blocks := s.blocks + 1 } f
    refine ⟨?_, (step_outStep hstart h).outOk hinv.out, endBlock_lenseq (s := { s with blocks := s.blocks + 1 }) f hinv.lenseq⟩
    rw [SrcOk, hsrc, hlen]
    exact hinv.src
  · exact ⟨hinv.src, hinv.out, hinv.lenseq⟩
  · exact ⟨heffect.srcOk hinv.src, (step_outStep hstart h).outOk hinv.out, heffect.lenseq hinv.lenseq⟩

/-- A fresh session has buffered nothing (10_state.md rule R26). -/
theorem cursorOk_start (src : List Byte) (s : State) : CursorOk (s.start src) where
  bytepos_le := Nat.zero_le _
  bitcnt_le := Nat.zero_le 23
  bitcnt_le_fetched := Nat.le_refl 0
  acc_lt := by simp
  acc_bits := fun j hj => absurd hj (Nat.not_lt_zero j)

/-- Settles O56: an effect keeps the cursor sound, and the bits buffered few unless it is a fault entry. -/
theorem stepKeepsTheBitCursor : Obligations.StepKeepsTheBitCursor := by
  intro s t hinv h
  rcases step_cases h with ⟨src, rfl⟩ | ⟨-, hrun, -, ⟨f, -, rfl⟩ | ⟨-, rfl⟩⟩ | ⟨-, hrun, -, heffect⟩
  · exact ⟨start_srcOk src _, cursorOk_start src _, fun _ => Nat.zero_le 7⟩
  · obtain ⟨hsrc, hlen, hpos, hacc, hcnt, -⟩ := endBlock_same { s with blocks := s.blocks + 1 } f
    refine ⟨?_, hinv.cursor.of_same hsrc hlen hpos hacc hcnt, fun _ => ?_⟩
    · rw [SrcOk, hsrc, hlen]
      exact hinv.src
    · rw [hcnt]
      exact hinv.few (by rw [hrun]; decide)
  · exact ⟨hinv.src, hinv.cursor.of_same rfl rfl rfl rfl rfl, fun hf => absurd rfl hf⟩
  · have hsound := (heffect.same (p := .sound) (fun hp => hp.2.1 rfl) nofun).rest hinv.src hinv.cursor
    refine ⟨heffect.srcOk hinv.src, hsound.1, fun hf => ?_⟩
    have hframe := heffect.frame_or_faulted.resolve_right fun hfault => hf hfault.status
    exact ((hframe.same .few fun hp => hp.2.2 rfl).rest hinv.src hinv.cursor (hinv.few (by rw [hrun]; decide))).2

/-- Settles O49: the cursor stays sound and only moves on. -/
theorem streamPositionNeverGoesBack : Obligations.StreamPositionNeverGoesBack := by
  intro s t hstart hinv h
  have hinv1 := stepKeepsTheBitCursor s t hinv h
  have hend : t.bitpos ≤ 8 * t.srclen :=
    t.bitpos_le_fetched.trans (Nat.mul_le_mul_left 8 hinv1.cursor.bytepos_le)
  refine ⟨?_, hend⟩
  by_cases hp : s.phase = .done
  · obtain ⟨-, ⟨f, -, rfl⟩ | ⟨-, rfl⟩⟩ := step_done hstart hp h
    · obtain ⟨-, -, hpos, -, hcnt, -⟩ := endBlock_same { s with blocks := s.blocks + 1 } f
      rw [State.bitpos, State.bitpos, hpos, hcnt]
    · exact le_rfl
  · have heffect := step_effect hstart hp h
    exact ((heffect.same (p := .sound) (fun hq => hq.2.1 rfl) nofun).rest hinv.src hinv.cursor).2

/-! ### The phases -/

theorem Frame.phase {A : Set Part} {s t : State} (h : Frame A s t) (hA : .phase ∉ A) : t.phase = s.phase :=
  (h.same .phase hA).rest

/-- What an instruction does to the phase (44_block_decoder.md rules R120, R124, R127). -/
theorem exec_phase {i : Instr} {s t : State} (hi : ∀ src, i ≠ .start src) (h : exec i s = .next t) :
    t.phase = s.phase ∨ ((∃ f, i = .blkDynamic f) ∧ t.phase = .readDynamicTables) ∨ (i = .eob ∧ t.phase = .done)
      ∨ (i = .tables ∧ t.phase = .decodeSymbols) := by
  by_cases hw : Writes i .phase
  · rcases hw with ⟨f, rfl⟩ | rfl | rfl
    · rw [exec_blkDynamic, blockHeader_of_dynamic] at h
      obtain rfl := Host.Outcome.next.inj h
      exact .inr (.inl ⟨⟨f, rfl⟩, rfl⟩)
    · obtain rfl := Host.Outcome.next.inj h
      exact .inr (.inr (.inl ⟨rfl, rfl⟩))
    · rw [exec_tables] at h
      have hacts := acts_tables s
      rcases Res.outcome_eq_next.1 h with ⟨a, ht⟩ | ⟨e, u, ht, rfl⟩ | ⟨x, u, ht, rfl⟩
      · simp only [tables, Res.bind_eq_ok] at ht
        obtain ⟨_, _, -, _, _, -, _, _, -, _, s4, -, ht⟩ := ht
        exact .inr (.inr (.inr ⟨rfl, by rw [← (Res.ok.inj ht).2, State.withPhase_phase]⟩))
      · rw [ht] at hacts
        exact .inl (hacts.2.phase phase_notMem_early)
      · rw [ht] at hacts
        exact .inl (Frame.phase (t := u) hacts phase_notMem_early)
  · exact .inl ((exec_effect hi h).same (p := .phase) hw nofun).rest

/-- The phase that issues an instruction of the sequencer: the formats and the component operations of a phase are its own. -/
def issuingPhase (i : Instr) : Phase :=
  match (encode i).map Prod.fst with
  | some .bh => .readHeader
  | some .ll => .decodeSymbols
  | some .d => .decodeSymbols
  | some _ => .readDynamicTables
  | none => if i = .copyByte then .decodeSymbols else .readDynamicTables

theorem IssuedIn.phase_eq {p : Phase} {i : Instr} (h : IssuedIn p i) : p = issuingPhase i := by
  cases p with
  | readHeader => rw [issuingPhase, WordOf.format h]
  | readDynamicTables =>
    rcases h with h | h | h | ⟨ls, rfl⟩ | rfl
    · rw [issuingPhase, h.format]
    · rw [issuingPhase, h.format]
    · rw [issuingPhase, h.format]
    · rfl
    · rfl
  | decodeSymbols =>
    rcases h with h | h | rfl
    · rw [issuingPhase, h.format]
    · rw [issuingPhase, h.format]
    · rfl
  | done => exact h.elim

/-- The order of the phases outside Done. -/
theorem step_phase {s t : State} (hstart : s.hostStart = none) (hp : s.phase ≠ .done) (h : step s = .next t) :
    t.phase = s.phase ∨ (s.phase = .readHeader ∧ t.phase = .readDynamicTables)
      ∨ (s.phase = .readDynamicTables ∧ t.phase = .decodeSymbols) ∨ (s.phase = .decodeSymbols ∧ t.phase = .done) := by
  have hfetch := acts_fetch s
  rcases step_next h with ⟨src, hsrc, -⟩ | ⟨-, -, ⟨hdone, -⟩ | ⟨-, hrun⟩⟩
  · rw [hstart] at hsrc
    cases hsrc
  · exact absurd hdone hp
  · rcases hrun with ⟨i, s1, hf, -, rfl⟩ | ⟨i, s1, t1, hf, -, hexec, hfollow⟩ | ⟨e, s1, hf, rfl⟩ | ⟨x, s1, hf, rfl⟩
    · rw [hf] at hfetch
      exact .inl (Frame.phase (t := s1) hfetch quiet_fetchParts.1)
    · rw [hf] at hfetch
      have hs1 := Frame.phase hfetch quiet_fetchParts.1
      have ht : t.phase = t1.phase := by
        rcases hfollow with ⟨-, ha⟩ | ⟨-, -, -, rfl⟩ | ⟨-, rfl⟩
        · obtain ⟨b, rfl⟩ := Follow.apply_ok ha
          rfl
        · rfl
        · rfl
      have hissued := issuedIn_fetch hp i s1 hf
      rw [ht, ← hs1]
      rw [← hs1] at hissued
      rcases exec_phase (issues_fetch s i s1 hf).ne_start hexec with hsame | ⟨⟨f, rfl⟩, hto⟩ | ⟨rfl, hto⟩ | ⟨rfl, hto⟩
      · exact .inl hsame
      · exact .inr (.inl ⟨hissued.phase_eq, hto⟩)
      · exact .inr (.inr (.inr ⟨hissued.phase_eq, hto⟩))
      · exact .inr (.inr (.inl ⟨hissued.phase_eq, hto⟩))
    · rw [hf] at hfetch
      exact .inl (hfetch.2.phase phase_notMem_early)
    · rw [hf] at hfetch
      exact .inl (Frame.phase (t := s1) hfetch phase_notMem_early)

theorem flag_eq_zero : ∀ f : BitVec 1, f ≠ 1 → f = 0 := by decide

/-- Settles O47: Done by its flag, every other step by what its instruction does to the phase. -/
theorem phaseAndStatusFollowTheDiagram : Obligations.PhaseAndStatusFollowTheDiagram := by
  intro s t hstart h
  have hrun := status_of_step hstart h
  by_cases hp : s.phase = .done
  · rw [if_pos hp]
    obtain ⟨-, ⟨f, hf, rfl⟩ | ⟨-, rfl⟩⟩ := step_done hstart hp h
    · rw [State.endBlock]
      split
      · rename_i hf1
        exact ⟨.inl rfl, .inr (.inr ⟨rfl, hp, by rw [hf, hf1]⟩), rfl⟩
      · rename_i hf1
        exact ⟨.inr (.inr (.inr (.inr ⟨hp, rfl, by rw [hf, flag_eq_zero f hf1]⟩))), .inl hrun, rfl⟩
    · exact ⟨.inl rfl, .inr (.inl rfl), rfl⟩
  · rw [if_neg hp]
    have heffect := step_effect hstart hp h
    have hblocks := heffect.core.2.2.2.2
    refine ⟨?_, ?_, hblocks⟩
    · rcases step_phase hstart hp h with h | h | h | h
      · exact .inl h
      · exact .inr (.inl h)
      · exact .inr (.inr (.inl h))
      · exact .inr (.inr (.inr (.inl h)))
    · rcases heffect.frame_or_faulted with hframe | hfault
      · exact .inl ((core_eq_iff.1 hframe.core).2.2.2.2.2.1.trans hrun)
      · exact .inr (.inl hfault.status)

end Sys2Proof.Machine
end

section
/-! SUPPORT. A step against a step from another source: what an operation has not fetched has no effect on it
(20_memory.md rules R44, R49, 70_reset_and_hazards.md rule R195). -/

open Sys2Proof.Certificates

namespace Sys2Proof.Machine

/-! ### Two sources -/

/-- `s` with another source. -/
def State.withSrc (m : Memory) (s : State) : State :=
  { s with src := m }

/-- What an operation answers, with another source in the state it leaves. -/
def Res.withSrc {α : Type} (m : Memory) : Res α → Res α
  | .ok a s => .ok a (s.withSrc m)
  | .raised e s => .raised e (s.withSrc m)
  | .unwritten x s => .unwritten x (s.withSrc m)
  | .stop f => .stop f
  | .refused x => .refused x

/-- `m` agrees with the source on the bytes fetched between `s` and `t`. -/
def FetchedAlike (m : Memory) (s t : State) : Prop :=
  ∀ a, s.bytepos ≤ a → a < t.bytepos → Cells.read m a = Cells.read s.src a

/-- `t` is reached from `s` without a write to the source and without giving a byte back, and where `m` agrees on the bytes
fetched on the way, `p` holds. -/
def Reached (m : Memory) (p : Prop) (s t : State) : Prop :=
  t.src = s.src ∧ s.bytepos ≤ t.bytepos ∧ (FetchedAlike m s t → p)

/-- `r`, started in `s`, and `r'`, started in `s` with the source `m`: every state that `r` leaves is reached, and `r'` answers
as `r` does. -/
def Local {α : Type} (m : Memory) (s : State) (r r' : Res α) : Prop :=
  r.Leaves (Reached m (r' = r.withSrc m) s)

section
variable {α β : Type} {m : Memory} {s s1 t : State}

theorem Reached.trans {p q : Prop} (h : Reached m p s s1) (h2 : Reached m q s1 t) : Reached m (p ∧ q) s t := by
  obtain ⟨hsrc, hle, hp⟩ := h
  obtain ⟨hsrc2, hle2, hq⟩ := h2
  refine ⟨hsrc2.trans hsrc, hle.trans hle2, fun hall => ⟨hp fun a h1 h3 => hall a h1 (by omega), hq fun a h1 h3 => ?_⟩⟩
  rw [hsrc]
  exact hall a (by omega) h3

theorem Reached.imp {p q : Prop} (h : Reached m p s t) (hpq : p → q) : Reached m q s t :=
  ⟨h.1, h.2.1, hpq ∘ h.2.2⟩

/-- A state that differs neither in the source nor in `BYTEPOS`. -/
theorem Reached.of_eq {p : Prop} (hsrc : t.src = s.src) (hpos : t.bytepos = s.bytepos) (hp : p) : Reached m p s t :=
  ⟨hsrc, hpos.ge, fun _ => hp⟩

theorem local_ok {a : α} (hsrc : t.src = s.src) (hpos : t.bytepos = s.bytepos) :
    Local m s (.ok a t) (.ok a (t.withSrc m)) :=
  .of_eq hsrc hpos rfl

theorem local_raised {e : ErrCode} : Local m s (.raised e s : Res α) (.raised e (s.withSrc m)) :=
  .of_eq rfl rfl rfl

theorem local_unwritten {x : Reg} : Local m s (.unwritten x s : Res α) (.unwritten x (s.withSrc m)) :=
  .of_eq rfl rfl rfl

/-- An operation behind a change that neither fetches nor writes the source. -/
theorem Local.after {r r' : Res α} (hsrc : s1.src = s.src) (hpos : s1.bytepos = s.bytepos) (h : Local m s1 r r') :
    Local m s r r' :=
  Res.Leaves.imp h fun _ ht => (Reached.trans (.of_eq hsrc hpos trivial) ht).imp And.right

theorem Local.after_withBlk {b : BlockState} {r r' : Res α} (h : Local m (s.withBlk b) r r') : Local m s r r' :=
  .after rfl rfl h

/-- One operation after another. -/
theorem Local.bind {r r' : Res α} {k k' : α → State → Res β} (hr : Local m s r r')
    (hk : ∀ a t, Local m t (k a t) (k' a (t.withSrc m))) : Local m s (r.bind k) (r'.bind k') := by
  cases r with
  | ok a t =>
    refine Res.Leaves.imp (hk a t) fun u hu => (Reached.trans hr hu).imp fun ⟨hr', hk'⟩ => ?_
    rw [hr']
    exact hk'
  | raised e t => exact Reached.imp hr fun hr' => by rw [hr']; rfl
  | unwritten x t => exact Reached.imp hr fun hr' => by rw [hr']; rfl
  | stop f => trivial
  | refused x => trivial

theorem Local.ite {c : Prop} [Decidable c] {r r' q q' : Res α} (hr : Local m s r r') (hq : Local m s q q') :
    Local m s (if c then r else q) (if c then r' else q') := by
  split
  · exact hr
  · exact hq

theorem local_need (x : Reg) (o : Option α) : Local m s (need x o s) (need x o (s.withSrc m)) := by
  cases o with
  | none => exact local_unwritten
  | some a => exact local_ok rfl rfl

/-- A register read before an operation. -/
theorem Local.need {x : Reg} {o : Option α} {k k' : α → State → Res β} (hk : ∀ a, Local m s (k a s) (k' a (s.withSrc m))) :
    Local m s ((need x o s).bind k) ((Machine.need x o (s.withSrc m)).bind k') := by
  cases o with
  | none => exact local_unwritten
  | some a => exact hk a

/-! ### The operations of a session -/

/-- The one read of the source. -/
theorem local_refill : Local m s (refill s) (refill (s.withSrc m)) := by
  simp only [refill]
  refine .ite local_raised ?_
  cases hb : Cells.read s.src s.bytepos with
  | none => trivial
  | some b =>
    refine ⟨rfl, Nat.le_succ _, fun hall => ?_⟩
    have hm : Cells.read m s.bytepos = some b := (hall s.bytepos le_rfl (Nat.lt_succ_self _)).trans hb
    show (match Cells.read m s.bytepos with | none => _ | some b => _) = _
    rw [hm]
    rfl

theorem local_fillLoop (n turns : Nat) (s : State) : Local m s (fillLoop n turns s) (fillLoop n turns (s.withSrc m)) := by
  induction turns generalizing s with
  | zero => exact local_ok rfl rfl
  | succ turns ih => exact .ite (local_refill.bind fun _ s1 => ih s1) (local_ok rfl rfl)

theorem local_readBits (n : Nat) (s : State) : Local m s (readBits n s) (readBits n (s.withSrc m)) :=
  (local_fillLoop n n s).bind fun _ _ => local_ok rfl rfl

theorem local_treeRes (t : TreeId) (r : Except TreeErr α) : Local m s (treeRes t r s) (treeRes t r (s.withSrc m)) := by
  match r with
  | .ok a => exact local_ok rfl rfl
  | .error .malformed => exact local_raised
  | .error .noNode => exact local_unwritten

theorem local_buildTree (t : TreeId) (ls : List Nat) (n : Nat) (s : State) :
    Local m s (buildTree t ls n s) (buildTree t ls n (s.withSrc m)) :=
  (local_treeRes t _).bind fun T s1 => by
    cases t <;> exact local_ok rfl rfl

theorem local_decodeStep (t : TreeId) (b : Bool) (s : State) : Local m s (decodeStep t b s) (decodeStep t b (s.withSrc m)) :=
  .need fun T => .need fun n => .need fun d => by
    cases T.decodeStep n d b with
    | symbol v => exact local_ok rfl rfl
    | cont j => exact local_ok rfl rfl
    | malformed => exact local_raised
    | noNode => exact local_unwritten

theorem local_decodeLoop (t : TreeId) (turns : Nat) (s : State) :
    Local m s (decodeLoop t turns s) (decodeLoop t turns (s.withSrc m)) := by
  induction turns generalizing s with
  | zero => exact local_raised
  | succ turns ih =>
    refine (local_readBits 1 s).bind fun b s1 => (local_decodeStep t (b == 1) s1).bind fun r s2 => ?_
    cases r with
    | some v => exact local_ok rfl rfl
    | none => exact ih s2

theorem local_decodeSym (t : TreeId) (s : State) : Local m s (decodeSym t s) (decodeSym t (s.withSrc m)) :=
  .after_withBlk (local_decodeLoop t _ (s.withTreeCursor t .root))

theorem local_seqTotal (s : State) : Local m s (seqTotal s) (seqTotal (s.withSrc m)) :=
  .need fun _ => .need fun _ => local_ok rfl rfl

theorem local_writeLens (v : BitVec 4) (n : Nat) (s : State) : Local m s (writeLens v n s) (writeLens v n (s.withSrc m)) :=
  .need fun _ => .ite trivial (local_ok rfl rfl)

theorem local_overrunCheck (s : State) : Local m s (overrunCheck s) (overrunCheck (s.withSrc m)) :=
  .need fun _ => .need fun _ => (local_seqTotal s).bind fun _ _ => .ite local_raised (local_ok rfl rfl)

theorem local_basePlusExtra (base extra : Nat) (s : State) :
    Local m s (basePlusExtra base extra s) (basePlusExtra base extra (s.withSrc m)) :=
  (local_readBits extra s).bind fun _ _ => local_ok rfl rfl

theorem local_repeatLen (v : BitVec 4) (base extra : Nat) (s : State) :
    Local m s (repeatLen v base extra s) (repeatLen v base extra (s.withSrc m)) :=
  (local_basePlusExtra base extra s).bind fun r s1 =>
    .after_withBlk <| (local_overrunCheck (s1.withBlk { s1.blk with rep := some r })).bind fun _ s2 => local_writeLens v r s2

theorem local_clRep16 (s : State) : Local m s (clRep16 s) (clRep16 (s.withSrc m)) :=
  .need fun _ => .ite local_raised <| .need fun prev => local_repeatLen prev 3 2 s

theorem local_rangeCheck (s : State) : Local m s (rangeCheck s) (rangeCheck (s.withSrc m)) :=
  .need fun _ => .need fun _ => .ite local_raised (local_ok rfl rfl)

theorem local_tables (s : State) : Local m s (tables s) (tables (s.withSrc m)) :=
  .need fun _ => (local_buildTree .ll _ _ s).bind fun _ _ => .need fun _ => (local_buildTree .d _ _ _).bind fun _ _ =>
    local_ok rfl rfl

theorem local_clLen (n : BitVec 3) (s : State) : Local m s (clLen n s) (clLen n (s.withSrc m)) := by
  simp only [clLen]
  show Local m s _ (match clOrder[s.blk.clIdx]? with | none => _ | some sym => _)
  cases clOrder[s.blk.clIdx]? with
  | none => trivial
  | some sym => exact local_ok rfl rfl

theorem local_outAppend (b : Byte) (s : State) : Local m s (outAppend b s) (outAppend b (s.withSrc m)) :=
  .ite trivial (local_ok rfl rfl)

theorem local_outRead (a : Nat) (s : State) : Local m s (outRead a s) (outRead a (s.withSrc m)) := by
  simp only [outRead]
  show Local m s _ (match Cells.read s.out a with | some b => _ | none => _)
  cases Cells.read s.out a with
  | none => trivial
  | some b => exact local_ok rfl rfl

theorem local_copyByte (s : State) : Local m s (copyByte s) (copyByte (s.withSrc m)) :=
  .need fun _ => .ite (local_ok rfl rfl) <| .need fun _ => .ite trivial <|
    (local_outRead _ s).bind fun b s3 => (local_outAppend b s3).bind fun _ _ => local_ok rfl rfl

theorem local_blockHeader (f : BitVec 1) (ty : BitVec 2) (s : State) :
    Local m s (blockHeader f ty s) (blockHeader f ty (s.withSrc m)) :=
  .ite (local_ok rfl rfl) (.of_eq rfl rfl rfl)

theorem local_lengthSym (i : Nat) (s : State) : Local m s (lengthSym i s) (lengthSym i (s.withSrc m)) :=
  (local_basePlusExtra _ _ s).bind fun _ _ => local_ok rfl rfl

theorem local_distanceSym (d : Nat) (s : State) : Local m s (distanceSym d s) (distanceSym d (s.withSrc m)) :=
  (local_basePlusExtra _ _ s).bind fun _ _ => .after_withBlk <| .need fun _ => .ite local_raised (local_ok rfl rfl)

theorem local_dynHeader (h d : BitVec 5) (c : BitVec 4) (s : State) :
    Local m s (dynHeader h d c s) (dynHeader h d c (s.withSrc m)) :=
  .after_withBlk (local_rangeCheck (s.withDynHeader h d c))

theorem local_wordOp (f : Format) (w : Nat) (s : State) : Local m s (wordOp f w s) (wordOp f w (s.withSrc m)) := by
  cases f with
  | bh => exact local_blockHeader _ _ s
  | dh =>
    simp only [wordOp]
    exact local_dynHeader _ _ _ s
  | cll => exact local_clLen _ s
  | cls =>
    simp only [wordOp, clSymbol]
    split_ifs
    · exact local_writeLens _ _ s
    · exact local_clRep16 s
    · exact local_repeatLen _ _ _ s
    · exact local_repeatLen _ _ _ s
  | ll =>
    simp only [wordOp, llSymbol]
    split_ifs
    · exact local_outAppend _ s
    · exact local_ok rfl rfl
    · generalize w - 257 = i
      exact local_lengthSym i s
    · exact local_raised
  | d =>
    simp only [wordOp, dSymbol]
    split_ifs
    · exact local_distanceSym _ s
    · exact local_raised

/-! ### The fetch and the follow-up -/

theorem local_decodeRes (f : Format) (w : Nat) (s : State) : Local m s (decodeRes f w s) (decodeRes f w (s.withSrc m)) := by
  simp only [decodeRes]
  cases decode f w with
  | error e => trivial
  | ok i => exact local_ok rfl rfl

theorem local_fetchBlockHeader (s : State) : Local m s (fetchBlockHeader s) (fetchBlockHeader (s.withSrc m)) :=
  .after_withBlk <| (local_readBits 1 (s.withBlk .fresh)).bind fun _ s1 => .after_withBlk <|
    (local_readBits 2 (s1.withBFinal _)).bind fun _ s2 => .after_withBlk <| local_decodeRes _ _ (s2.withBType _)

theorem local_fetchDynHeader (s : State) : Local m s (fetchDynHeader s) (fetchDynHeader (s.withSrc m)) :=
  (local_readBits 5 s).bind fun _ s1 => .after_withBlk <| (local_readBits 5 (s1.withHlit _)).bind fun _ s2 =>
    .after_withBlk <| (local_readBits 4 (s2.withHdist _)).bind fun _ s3 =>
      .after_withBlk <| local_decodeRes _ _ (s3.withHclen _)

theorem local_fetchClLen (s : State) : Local m s (fetchClLen s) (fetchClLen (s.withSrc m)) :=
  .need fun _ => .ite ((local_readBits 3 s).bind fun _ _ => local_decodeRes _ _ _) (local_ok rfl rfl)

theorem local_splitLoop {w : BlockState → Nat → BitVec 4 → BlockState} (base count n i : Nat) (s : State) :
    Local m s (splitLoop w base count n i s) (splitLoop w base count n i (s.withSrc m)) := by
  induction n generalizing i s with
  | zero => exact local_ok rfl rfl
  | succ n ih =>
    have hentry : Local m s (splitEntry base count i s) (splitEntry base count i (s.withSrc m)) :=
      .ite (local_need _ _) (local_ok rfl rfl)
    exact hentry.bind fun v s1 => .after_withBlk (ih (i + 1) (s1.withBlk (w s1.blk i v)))

theorem local_splitLengths (s : State) : Local m s (splitLengths s) (splitLengths (s.withSrc m)) :=
  .need fun _ => (local_splitLoop _ _ _ _ s).bind fun _ s1 => .need fun _ => local_splitLoop _ _ _ _ s1

theorem local_fetchClSym (s : State) : Local m s (fetchClSym s) (fetchClSym (s.withSrc m)) :=
  .need fun _ => (local_seqTotal s).bind fun _ s1 => .ite
    ((local_decodeSym .cl s1).bind fun _ s2 => .after_withBlk (local_decodeRes _ _ (s2.withBlk _)))
    ((local_splitLengths s1).bind fun _ _ => local_ok rfl rfl)

theorem local_fetchSymbol (s : State) : Local m s (fetchSymbol s) (fetchSymbol (s.withSrc m)) :=
  .after_withBlk <| (local_decodeSym .ll (s.withBlk _)).bind fun _ s1 =>
    .after_withBlk (local_decodeRes _ _ (s1.withBlk _))

theorem local_fetchDistance (s : State) : Local m s (fetchDistance s) (fetchDistance (s.withSrc m)) :=
  (local_decodeSym .d s).bind fun _ s1 => .after_withBlk (local_decodeRes _ _ (s1.withBlk _))

theorem local_fetchCopy (s : State) : Local m s (fetchCopy s) (fetchCopy (s.withSrc m)) :=
  .need fun _ => .ite (local_fetchSymbol s) (local_ok rfl rfl)

theorem local_fetchAppend (s : State) : Local m s (fetchAppend s) (fetchAppend (s.withSrc m)) :=
  .need fun _ => .after_withBlk (local_decodeRes _ _ (s.withBlk _))

theorem local_fetch (s : State) : Local m s (fetch s) (fetch (s.withSrc m)) := by
  cases h : s.phase with
  | readHeader =>
    rw [fetch_of_readHeader h, fetch_of_readHeader (s := s.withSrc m) h]
    exact local_fetchBlockHeader s
  | readDynamicTables =>
    cases hpt : s.blk.clPoint with
    | dynHeader =>
      rw [fetch_of_dynHeader h hpt, fetch_of_dynHeader (s := s.withSrc m) h hpt]
      exact local_fetchDynHeader s
    | clLens =>
      rw [fetch_of_clLens h hpt, fetch_of_clLens (s := s.withSrc m) h hpt]
      exact local_fetchClLen s
    | clSyms =>
      rw [fetch_of_clSyms h hpt, fetch_of_clSyms (s := s.withSrc m) h hpt]
      exact local_fetchClSym s
  | decodeSymbols =>
    cases hpt : s.blk.symPoint with
    | symbols =>
      rw [fetch_of_symbols h hpt, fetch_of_symbols (s := s.withSrc m) h hpt]
      exact local_fetchSymbol s
    | dist =>
      rw [fetch_of_dist h hpt, fetch_of_dist (s := s.withSrc m) h hpt]
      exact local_fetchDistance s
    | copy =>
      rw [fetch_of_copy h hpt, fetch_of_copy (s := s.withSrc m) h hpt]
      exact local_fetchCopy s
    | append =>
      rw [fetch_of_append h hpt, fetch_of_append (s := s.withSrc m) h hpt]
      exact local_fetchAppend s
  | done =>
    simp only [fetch, h, show (s.withSrc m).phase = .done from h]
    exact local_fetchBlockHeader s

theorem local_follow (fl : Follow) (s : State) : Local m s (fl.apply s) (fl.apply (s.withSrc m)) := by
  cases fl with
  | stay | toClLens | toClSyms | toDist => exact local_ok rfl rfl
  | toCopy => exact .need fun _ => local_ok rfl rfl

/-! ### A step -/

/-- `BUILD` as an operation. -/
theorem meaning_build (t : TreeId) (ls : List Nat) (n : Nat) :
    Meaning (.build t ls n) fun s => if buildOk t ls n then buildTree t ls n s else .refused .operandOutOfRange := by
  intro s
  show execBuild t ls n s = _
  rw [execBuild]
  split <;> rfl

/-- What an issued instruction does, it does from either source. -/
theorem IssuedIn.exists_local {p : Phase} {i : Instr} (h : IssuedIn p i) :
    ∃ op, Meaning i op ∧ ∀ s, Local m s (op s) (op (s.withSrc m)) := by
  have hword {f : Format} (hw : WordOf f i) : ∃ op, Meaning i op ∧ ∀ s, Local m s (op s) (op (s.withSrc m)) := by
    obtain ⟨w, hw⟩ := hw
    exact ⟨wordOp f w, meaning_of_decode hw, local_wordOp f w⟩
  cases p with
  | readHeader => exact hword h
  | readDynamicTables =>
    rcases h with h | h | h | ⟨ls, rfl⟩ | rfl
    · exact hword h
    · exact hword h
    · exact hword h
    · exact ⟨_, meaning_build _ _ _, fun s => .ite (local_buildTree _ _ _ s) trivial⟩
    · exact ⟨tables, exec_tables, local_tables⟩
  | decodeSymbols =>
    rcases h with h | h | rfl
    · exact hword h
    · exact hword h
    · exact ⟨copyByte, exec_copyByte, local_copyByte⟩
  | done => exact h.elim

/-- `o`, a step taken in `s`, and `o'`, the step taken with the source `m`. -/
def LocalStep (m : Memory) (s : State) (o o' : Host.Outcome State Fault Refusal) : Prop :=
  ∀ t, o = .next t → Reached m (o' = .next (t.withSrc m)) s t

theorem Local.outcome {r r' : Res α} (h : Local m s r r') : LocalStep m s r.outcome r'.outcome := by
  intro t ht
  rcases Res.outcome_eq_next.1 ht with ⟨a, rfl⟩ | ⟨e, u, rfl, rfl⟩ | ⟨x, u, rfl, rfl⟩
  · exact Reached.imp h fun hr' => by rw [hr']; rfl
  · exact Reached.imp (t := u) h fun hr' => by rw [hr']; rfl
  · exact Reached.imp (t := u) h fun hr' => by rw [hr']; rfl

/-- An instruction and its follow-up. -/
theorem LocalStep.afterExec {i : Instr} {o o' : Host.Outcome State Fault Refusal} (h : LocalStep m s o o') :
    LocalStep m s (afterExec i o) (Machine.afterExec i o') := by
  cases o with
  | fault f => intro t ht; cases ht
  | refused x => intro t ht; cases ht
  | next u =>
    intro t ht
    have hu := h u rfl
    have hfollow : LocalStep m u (Machine.afterExec i (.next u)) (Machine.afterExec i (.next (u.withSrc m))) := by
      simp only [Machine.afterExec]
      show LocalStep m u _ (if u.status = .running then _ else _)
      split
      · exact (local_follow (follow i) u).outcome
      · intro t ht
        obtain rfl := Host.Outcome.next.inj ht
        exact .of_eq rfl rfl rfl
    exact (hu.trans (hfollow t ht)).imp fun ⟨ho', hall⟩ => by rw [ho']; exact hall

theorem local_blockDone (s : State) : Local m s (blockDone s) (blockDone (s.withSrc m)) :=
  .after (s1 := { s with blocks := s.blocks + 1 }) rfl rfl <| .need fun f => by
    show Local m _ (.ok () (State.endBlock _ f)) (.ok () (State.endBlock (State.withSrc m _) f))
    simp only [State.endBlock]
    split
    · exact local_ok rfl rfl
    · exact local_ok rfl rfl

theorem local_step {p : Phase} (h : RunningIn s p) : LocalStep m s (step s) (step (s.withSrc m)) := by
  have h' : RunningIn (s.withSrc m) p := h
  intro t ht
  by_cases hp : p = .done
  · have hdone (u : State) (hu : RunningIn u p) : step u = (blockDone u).outcome := by
      rw [step_of_running hu]
      simp only [stepRunning, hu.2.2, hp]
    rw [hdone s h] at ht
    rw [hdone (s.withSrc m) h']
    exact (local_blockDone s).outcome t ht
  · have hp1 : s.phase ≠ .done := by rwa [h.2.2]
    have hfetch := local_fetch (m := m) s
    rcases step_next ht with ⟨src, hsrc, -⟩ | ⟨-, -, ⟨hdone, -⟩ | ⟨-, hrun⟩⟩
    · rw [h.1] at hsrc
      cases hsrc
    · exact absurd hdone hp1
    · rcases hrun with ⟨i, s1, hf, hw, rfl⟩ | ⟨i, s1, -, hf, hw, -⟩ | ⟨e, s1, hf, rfl⟩ | ⟨x, s1, hf, rfl⟩
      · rw [hf] at hfetch
        exact Reached.imp (t := s1) hfetch fun hf' => step_of_waits h' hp hf' hw
      · rw [hf] at hfetch
        obtain ⟨op, hmeaning, hop⟩ := (issuedIn_fetch hp1 i s1 hf).exists_local (m := m)
        rw [step_of_fetch_ok h hp hf hw, hmeaning] at ht
        refine (Reached.trans hfetch ((hop s1).outcome.afterExec t ht)).imp fun ⟨hf', hexec⟩ => ?_
        rw [step_of_fetch_ok h' hp hf' hw, hmeaning]
        exact hexec
      · rw [hf] at hfetch
        exact Reached.imp (t := s1) hfetch fun hf' => step_of_fetch_raised h' hp hf'
      · rw [hf] at hfetch
        exact Reached.imp (t := s1) hfetch fun hf' => step_of_fetch_unwritten h' hp hf'

end

/-- Settles O48: every operation of a step reads the source at `BYTEPOS` alone, where it fetches. -/
theorem unfetchedSourceBytesHaveNoEffect : Obligations.UnfetchedSourceBytesHaveNoEffect := by
  intro s t m hstart h hall
  obtain ⟨hsrc, hle, hstep⟩ := local_step (m := m) ⟨hstart, status_of_step hstart h, rfl⟩ t h
  exact ⟨hsrc, hle, hstep hall⟩

end Sys2Proof.Machine
end

section
/-! SUPPORT. What a session never meets: a register read that holds no value, a request refused, a value out of its range
(10_state.md sections 1.2 and 1.3, rule R18). -/

open Sys2Proof.Certificates

namespace Sys2Proof.Machine

/-! ### Safe operations -/

/-- A RUNNING core with `u` unwritten reads counted; where `m` holds, its memories and its BitCursor are sound. -/
structure At (m : Prop) (u : Nat) (s : State) : Prop where
  src : m → SrcOk s
  out : m → OutOk s
  cursor : m → CursorOk s
  reads : s.unwrittenReads = u
  running : s.status = .running

/-- An operation that completes with what `Q` says, or raises with every register in its range, and reads no register that
holds no value; where `m` holds it stops on a full `OUT` at most. -/
def Safe {α : Type} (m : Prop) (u : Nat) (Q : α → State → Prop) : Res α → Prop
  | .ok a t => At m u t ∧ Q a t
  | .raised _ t => t.unwrittenReads = u ∧ RangesOk t.blk
  | .unwritten _ _ => False
  | .stop f => m → f = .outFull
  | .refused _ => False

section
variable {α β : Type} {m : Prop} {u : Nat} {s : State} {Q : α → State → Prop} {R : β → State → Prop}

theorem At.withBlk (h : At m u s) (b : BlockState) : At m u (s.withBlk b) where
  src := h.src
  out := h.out
  cursor := fun hm => (h.cursor hm).of_same rfl rfl rfl rfl rfl
  reads := h.reads
  running := h.running

theorem At.withTreeCursor (h : At m u s) (t : TreeId) (c : TreeCursor) : At m u (s.withTreeCursor t c) := h.withBlk _

theorem At.withPhase (h : At m u s) (p : Phase) : At m u (s.withPhase p) where
  src := h.src
  out := h.out
  cursor := fun hm => (h.cursor hm).of_same rfl rfl rfl rfl rfl
  reads := h.reads
  running := h.running

theorem At.append (h : At m u s) (b : Byte) : At m u (s.append b) where
  src := h.src
  out := fun hm => append_outOk (h.out hm) b
  cursor := fun hm => (h.cursor hm).of_same rfl rfl rfl rfl rfl
  reads := h.reads
  running := h.running

theorem At.safe_ok {a : α} (h : At m u s) (hQ : Q a s) : Safe m u Q (.ok a s) := ⟨h, hQ⟩

theorem At.safe_raised {e : ErrCode} (h : At m u s) (hr : RangesOk s.blk) : Safe m u Q (.raised e s) := ⟨h.reads, hr⟩

theorem Safe.bind {r : Res α} {k : α → State → Res β} (hr : Safe m u Q r)
    (hk : ∀ a t, At m u t → Q a t → Safe m u R (k a t)) : Safe m u R (r.bind k) := by
  cases r with
  | ok a t => exact hk a t hr.1 hr.2
  | raised e t => exact hr
  | unwritten x t => exact hr
  | stop f => exact hr
  | refused x => exact hr

theorem Safe.imp {Q' : α → State → Prop} {r : Res α} (hr : Safe m u Q r) (hQ : ∀ a t, Q a t → Q' a t) : Safe m u Q' r := by
  cases r with
  | ok a t => exact ⟨hr.1, hQ a t hr.2⟩
  | raised e t => exact hr
  | unwritten x t => exact hr
  | stop f => exact hr
  | refused x => exact hr

end

/-- Where `m` holds, `t` lies further on in the stream than `s` (10_state.md rule R12). -/
def Ahead (m : Prop) (s t : State) : Prop :=
  m → s.bitpos < t.bitpos

theorem Ahead.trans {m : Prop} {s s1 t : State} (h : Ahead m s s1) (h2 : Ahead m s1 t) : Ahead m s t :=
  fun hm => (h hm).trans (h2 hm)

/-! ### The ranges of the registers -/

section
variable {b : BlockState}

/-- A tree's cursor moved to where `CursorIn` holds. -/
theorem RangesOk.withTreeCursor (h : RangesOk b) (t : TreeId) {c : TreeCursor}
    (hc : ∀ T, b.tree t = some T → CursorIn T c) : RangesOk (b.withTreeCursor t c) := by
  have hcursor : ∀ t' T, (b.withTreeCursor t c).tree t' = some T → CursorIn T ((b.withTreeCursor t c).cursor t') := by
    intro t' T hT
    rw [BlockState.withTreeCursor_tree] at hT
    by_cases ht : t' = t
    · subst ht
      rw [BlockState.withTreeCursor_cursor]
      exact hc T hT
    · rw [BlockState.withTreeCursor_cursor_ne _ _ ht]
      exact h.cursor t' T hT
  cases t <;> exact { h with cursor := hcursor }

theorem cursorIn_unwritten (T : Tree) : CursorIn T .unwritten := ⟨nofun, nofun⟩

/-- The tree of a block, in range. -/
theorem RangesOk.treeOk (h : RangesOk b) {t : TreeId} {T : Tree} (hT : b.tree t = some T) : TreeOk t.symbols t.maxLen T := by
  cases t with
  | cl => exact h.cltree T hT
  | ll => exact h.lltree T hT
  | d => exact h.dtree T hT

/-- A new tree, its cursor not written. -/
theorem RangesOk.withNewTree (h : RangesOk b) (t : TreeId) {T : Tree} (hT : TreeOk t.symbols t.maxLen T) :
    RangesOk ((b.withTree t T).withTreeCursor t .unwritten) := by
  have hcursor : ∀ t' T', ((b.withTree t T).withTreeCursor t .unwritten).tree t' = some T' →
      CursorIn T' (((b.withTree t T).withTreeCursor t .unwritten).cursor t') := by
    intro t' T' hT'
    by_cases ht : t' = t
    · subst ht
      rw [BlockState.withTreeCursor_cursor]
      exact cursorIn_unwritten T'
    · rw [BlockState.withTreeCursor_tree, BlockState.withTree_tree_ne _ _ ht] at hT'
      rw [BlockState.withTreeCursor_cursor_ne _ _ ht, BlockState.withTree_cursor]
      exact h.cursor t' T' hT'
  cases t with
  | cl => exact { h with cltree := fun T' hT' => Option.some.inj hT' ▸ hT, cursor := hcursor }
  | ll => exact { h with lltree := fun T' hT' => Option.some.inj hT' ▸ hT, cursor := hcursor }
  | d => exact { h with dtree := fun T' hT' => Option.some.inj hT' ▸ hT, cursor := hcursor }

end

/-! ### The BitReader and a descent -/

section
variable {m : Prop} {u : Nat} {s : State}

/-- A read moves the BitCursor alone, by its width. -/
theorem At.safe_readBits (h : At m u s) (hr : RangesOk s.blk) {n : Nat} (hn : n ≤ 16) :
    Safe m u (fun v t => v < 2 ^ n ∧ (∃ p a c, t = s.withCursor p a c) ∧ (0 < n → Ahead m s t)) (readBits n s) := by
  cases hread : readBits n s with
  | ok v t =>
    obtain ⟨hv, k, acc, rfl, -⟩ := readBits_ok hread
    have hseek (hm : m) : s.bitpos + n ≤ 8 * s.srclen ∧
        s.withCursor (s.bytepos + k) acc (s.bitcnt + 8 * k - n) = s.seek (s.bitpos + n) := by
      rcases Nat.lt_or_ge (8 * s.srclen) (s.bitpos + n) with hend | hend
      · cases hread.symm.trans (readBits_of_exhausted (h.src hm) (h.cursor hm) hend)
      · exact ⟨hend, (Res.ok.inj (hread.symm.trans (readBits_of_available (h.src hm) (h.cursor hm) hn hend))).2⟩
    refine ⟨⟨h.src, h.out, fun hm => ?_, h.reads, h.running⟩, hv, ⟨_, _, _, rfl⟩, fun hn0 hm => ?_⟩
    · rw [(hseek hm).2]
      exact (h.cursor hm).seek (by omega) (hseek hm).1
    · rw [(hseek hm).2, State.bitpos_seek]
      omega
  | raised e t =>
    obtain ⟨-, k, acc, rfl, -⟩ := readBits_raised hread
    exact ⟨h.reads, hr⟩
  | unwritten x t => exact absurd hread readBits_ne_unwritten
  | stop f =>
    intro hm
    obtain ⟨a, -, ha, hnone, -⟩ := readBits_stop hread
    have := (Cells.isSome_read_of_range (h.src hm) a).2 ha
    rw [hnone] at this
    cases this
  | refused x => exact absurd hread readBits_ne_refused

/-- What one `DECODESTEP` can find in a tree whose fields are all there, its cursor in it (42_huffman_tree.md rule R92). -/
theorem TreeOk.decodeStep_cases {n k i d : Nat} {T : Tree} (hT : TreeOk n k T) (hc : CursorIn T ⟨some i, some d⟩) (b : Bool) :
    (∃ v, v < n ∧ T.decodeStep i d b = .symbol v) ∨ (∃ j, CursorIn T ⟨some j, some (d + 1)⟩ ∧ T.decodeStep i d b = .cont j)
      ∨ T.decodeStep i d b = .malformed := by
  obtain ⟨c0, c1, hi⟩ := hc.node i rfl
  have hchild : T.child i b = some (if b then c1 else c0) := by simp only [Tree.child, hi]
  cases hj : (if b then c1 else c0) with
  | none => exact .inr (.inr (Tree.decodeStep_of_none (hchild.trans (by rw [hj]))))
  | some j =>
    rw [hj] at hchild
    have hlt : j < T.nodes.length := by
      cases b with
      | false => exact hT.child0 i j c1 (hi.trans (by rw [show c0 = some j from hj]))
      | true => exact hT.child1 i c0 j (hi.trans (by rw [show c1 = some j from hj]))
    have hnode : T.nodes[j]? = some T.nodes[j] := List.getElem?_eq_getElem hlt
    cases hkind : T.nodes[j] with
    | leaf v =>
      rw [hkind] at hnode
      exact .inl ⟨v, hT.symbols j v hnode, Tree.decodeStep_of_leaf hchild hnode⟩
    | internal e0 e1 =>
      rw [hkind] at hnode
      rw [Tree.decodeStep_of_inner hchild ⟨e0, e1, hnode⟩]
      split
      · exact .inr (.inr rfl)
      · refine .inr (.inl ⟨j, ⟨fun x hx => ?_, fun x hx => ?_⟩, rfl⟩)
        · obtain rfl := Option.some.inj hx
          exact ⟨e0, e1, hnode⟩
        · obtain rfl := Option.some.inj hx
          omega

/-- The BitCursor moved, and the cursor of the tree `t` inside `T`. -/
def Descended (t : TreeId) (T : Tree) (s s1 : State) : Prop :=
  ∃ p a c cur, CursorIn T cur ∧ s1 = (s.withCursor p a c).withTreeCursor t cur

theorem Descended.after {t : TreeId} {T : Tree} {s s1 : State} {p c : Nat} {a : BitVec 24} {cur : TreeCursor}
    (h : Descended t T ((s.withCursor p a c).withTreeCursor t cur) s1) : Descended t T s s1 := by
  obtain ⟨q, b, e, cur2, hin, rfl⟩ := h
  exact ⟨q, b, e, cur2, hin, by simp [State.withTreeCursor_withCursor]⟩

theorem TreeOk.cursorIn_root {n k : Nat} {T : Tree} (hT : TreeOk n k T) : CursorIn T .root where
  node := fun _ hi => Option.some.inj hi ▸ hT.root
  depth := fun _ hd => Option.some.inj hd ▸ Nat.zero_le _

theorem RangesOk.withTreeCursor_of {b : BlockState} (hr : RangesOk b) {t : TreeId} {T : Tree} (hT : b.tree t = some T)
    {c : TreeCursor} (hc : CursorIn T c) : RangesOk (b.withTreeCursor t c) :=
  hr.withTreeCursor t fun _ hT' => Option.some.inj (hT.symm.trans hT') ▸ hc

theorem At.safe_decodeLoop {t : TreeId} {T : Tree} {turns : Nat} {i d : Nat} (h : At m u s) (hr : RangesOk s.blk)
    (hT : s.blk.tree t = some T) (hc : s.blk.cursor t = ⟨some i, some d⟩) :
    Safe m u (fun v s1 => v < t.symbols ∧ Descended t T s s1 ∧ Ahead m s s1) (decodeLoop t turns s) := by
  induction turns generalizing s i d with
  | zero => exact h.safe_raised hr
  | succ turns ih =>
    have hok := hr.treeOk hT
    have hin := hr.cursor t T hT
    refine (h.safe_readBits hr (n := 1) (by decide)).bind ?_
    rintro b _ h1 ⟨-, ⟨p, a, c, rfl⟩, hpos⟩
    have hstep := decodeStep_of (s := s.withCursor p a c) (b := b == 1) hT (congrArg TreeCursor.node hc)
      (congrArg TreeCursor.depth hc)
    rw [hstep]
    rw [hc] at hin
    rcases hok.decodeStep_cases hin (b == 1) with ⟨v, hv, hfound⟩ | ⟨j, hj, hfound⟩ | hfound
    · rw [hfound]
      exact ((h1.withTreeCursor t _).withTreeCursor t _).safe_ok ⟨hv, ⟨p, a, c, .root, hok.cursorIn_root, by simp⟩,
        hpos Nat.one_pos⟩
    · rw [hfound]
      refine (ih (i := j) (d := d + 1) (h1.withTreeCursor t _) (hr.withTreeCursor_of hT hj) ?_ ?_).imp ?_
      · exact (BlockState.withTreeCursor_tree _ _ _ _).trans hT
      · exact BlockState.withTreeCursor_cursor _ _ _
      · exact fun w s1 ⟨hw, hdesc, hlt⟩ => ⟨hw, hdesc.after, (hpos Nat.one_pos).trans hlt⟩
    · rw [hfound]
      exact h1.safe_raised hr

/-- `DECODESYM` of a tree of the block: a symbol of its alphabet, behind at least one bit. -/
theorem At.safe_decodeSym {t : TreeId} {T : Tree} (h : At m u s) (hr : RangesOk s.blk) (hT : s.blk.tree t = some T) :
    Safe m u (fun v s1 => v < t.symbols ∧ Descended t T s s1 ∧ Ahead m s s1) (decodeSym t s) := by
  have hok := hr.treeOk hT
  refine (At.safe_decodeLoop (i := 0) (d := 0) (h.withTreeCursor t _) (hr.withTreeCursor_of hT hok.cursorIn_root) ?_ ?_).imp
    fun v s1 ⟨hv, hdesc, hpos⟩ => ⟨hv, Descended.after (p := s.bytepos) (a := s.acc) (c := s.bitcnt) hdesc, hpos⟩
  · exact (BlockState.withTreeCursor_tree _ _ _ _).trans hT
  · exact BlockState.withTreeCursor_cursor _ _ _

end

end Sys2Proof.Machine
end

section
/-! SUPPORT. The operations of a session where the registers they read hold values in their ranges (10_state.md sections 1.2 and
1.3, rule R18). -/

open Sys2Proof.Certificates

namespace Sys2Proof.Machine

/-! ### The points of a session -/

section
variable {s : State}

theorem pointOk_dynHeader (hp : s.phase = .readDynamicTables) (hpt : s.blk.clPoint = .dynHeader) :
    pointOk s ↔ s.blk.bfinal.isSome ∧ s.blk.symPoint = .symbols ∧ s.blk.lenseq = [] := by
  simp only [pointOk, hp, hpt]

theorem pointOk_clLens (hp : s.phase = .readDynamicTables) (hpt : s.blk.clPoint = .clLens) :
    pointOk s ↔ s.blk.bfinal.isSome ∧ s.blk.symPoint = .symbols ∧ s.blk.lenseq = [] ∧ countsOk s.blk ∧ s.blk.cllen.isSome
      ∧ ∃ c, s.blk.hclen = some c ∧ s.blk.clIdx ≤ c.toNat + 4 := by
  simp only [pointOk, hp, hpt]

theorem pointOk_clSyms (hp : s.phase = .readDynamicTables) (hpt : s.blk.clPoint = .clSyms) :
    pointOk s ↔ s.blk.bfinal.isSome ∧ s.blk.symPoint = .symbols ∧ countsOk s.blk ∧ seqOk s.blk ∧ s.blk.cltree.isSome := by
  simp only [pointOk, hp, hpt]

theorem pointOk_symbols (hp : s.phase = .decodeSymbols) (hpt : s.blk.symPoint = .symbols) :
    pointOk s ↔ s.blk.bfinal.isSome ∧ s.blk.lltree.isSome ∧ s.blk.dtree.isSome := by
  simp only [pointOk, hp, hpt, and_true]

theorem pointOk_dist (hp : s.phase = .decodeSymbols) (hpt : s.blk.symPoint = .dist) :
    pointOk s ↔ s.blk.bfinal.isSome ∧ s.blk.lltree.isSome ∧ s.blk.dtree.isSome ∧ s.blk.length.isSome := by
  simp only [pointOk, hp, hpt]

theorem pointOk_copy (hp : s.phase = .decodeSymbols) (hpt : s.blk.symPoint = .copy) :
    pointOk s ↔ s.blk.bfinal.isSome ∧ s.blk.lltree.isSome ∧ s.blk.dtree.isSome ∧ s.blk.copyrem.isSome
      ∧ ∃ d, s.blk.distance = some d ∧ d ≤ s.outlen := by
  simp only [pointOk, hp, hpt]

theorem pointOk_append (hp : s.phase = .decodeSymbols) (hpt : s.blk.symPoint = .append) :
    pointOk s ↔ s.blk.bfinal.isSome ∧ s.blk.lltree.isSome ∧ s.blk.dtree.isSome ∧ s.blk.sym.isSome := by
  simp only [pointOk, hp, hpt]

theorem pointOk_done (hp : s.phase = .done) : pointOk s ↔ s.blk.bfinal.isSome := by
  simp only [pointOk, hp]

theorem pointOk_readHeader (hp : s.phase = .readHeader) : pointOk s := by
  simp only [pointOk, hp]

end

/-- A state that a RUNNING core can be in between two instructions. -/
def Lands (s : State) : Prop :=
  RangesOk s.blk ∧ pointOk s

section
variable {s : State} (hr : RangesOk s.blk)
include hr

theorem lands_dynHeader (hp : s.phase = .readDynamicTables) (hpt : s.blk.clPoint = .dynHeader) (hfinal : s.blk.bfinal.isSome)
    (hsym : s.blk.symPoint = .symbols) (hseq : s.blk.lenseq = []) : Lands s :=
  ⟨hr, (pointOk_dynHeader hp hpt).2 ⟨hfinal, hsym, hseq⟩⟩

theorem lands_clLens (hp : s.phase = .readDynamicTables) (hpt : s.blk.clPoint = .clLens) (hfinal : s.blk.bfinal.isSome)
    (hsym : s.blk.symPoint = .symbols) (hseq : s.blk.lenseq = []) (hcounts : countsOk s.blk) (hcllen : s.blk.cllen.isSome)
    {c : BitVec 4} (hc : s.blk.hclen = some c) (hidx : s.blk.clIdx ≤ c.toNat + 4) : Lands s :=
  ⟨hr, (pointOk_clLens hp hpt).2 ⟨hfinal, hsym, hseq, hcounts, hcllen, c, hc, hidx⟩⟩

theorem lands_clSyms (hp : s.phase = .readDynamicTables) (hpt : s.blk.clPoint = .clSyms) (hfinal : s.blk.bfinal.isSome)
    (hsym : s.blk.symPoint = .symbols) (hcounts : countsOk s.blk) (hseq : seqOk s.blk) (htree : s.blk.cltree.isSome) :
    Lands s :=
  ⟨hr, (pointOk_clSyms hp hpt).2 ⟨hfinal, hsym, hcounts, hseq, htree⟩⟩

section
variable (hfinal : s.blk.bfinal.isSome)
include hfinal

theorem lands_done (hp : s.phase = .done) : Lands s := ⟨hr, (pointOk_done hp).2 hfinal⟩

variable (hp : s.phase = .decodeSymbols) (hll : s.blk.lltree.isSome) (hd : s.blk.dtree.isSome)
include hp hll hd

theorem lands_symbols (hpt : s.blk.symPoint = .symbols) : Lands s :=
  ⟨hr, (pointOk_symbols hp hpt).2 ⟨hfinal, hll, hd⟩⟩

theorem lands_dist (hpt : s.blk.symPoint = .dist) (hlength : s.blk.length.isSome) : Lands s :=
  ⟨hr, (pointOk_dist hp hpt).2 ⟨hfinal, hll, hd, hlength⟩⟩

theorem lands_copy (hpt : s.blk.symPoint = .copy) (hrem : s.blk.copyrem.isSome) {d : Nat} (hdist : s.blk.distance = some d)
    (hle : d ≤ s.outlen) : Lands s :=
  ⟨hr, (pointOk_copy hp hpt).2 ⟨hfinal, hll, hd, hrem, d, hdist, hle⟩⟩

theorem lands_append (hpt : s.blk.symPoint = .append) (hsym : s.blk.sym.isSome) : Lands s :=
  ⟨hr, (pointOk_append hp hpt).2 ⟨hfinal, hll, hd, hsym⟩⟩

end

end

/-- A bound on the steps of a session that consume no bit: they lower it. -/
def rank (s : State) : Nat :=
  match s.phase with
  | .readHeader => 0
  | .readDynamicTables =>
    match s.blk.clPoint with
    | .dynHeader => 0
    | .clLens => 2
    | .clSyms => 1
  | .decodeSymbols =>
    match s.blk.symPoint with
    | .symbols => 0
    | .dist => 0
    | .copy => s.blk.copyrem.getD 0
    | .append => 2
  | .done => 1

section
variable {s : State}

theorem rank_clLens (hp : s.phase = .readDynamicTables) (hpt : s.blk.clPoint = .clLens) : rank s = 2 := by
  simp only [rank, hp, hpt]

theorem rank_clSyms (hp : s.phase = .readDynamicTables) (hpt : s.blk.clPoint = .clSyms) : rank s = 1 := by
  simp only [rank, hp, hpt]

theorem rank_symbols (hp : s.phase = .decodeSymbols) (hpt : s.blk.symPoint = .symbols) : rank s = 0 := by
  simp only [rank, hp, hpt]

theorem rank_dist (hp : s.phase = .decodeSymbols) (hpt : s.blk.symPoint = .dist) : rank s = 0 := by
  simp only [rank, hp, hpt]

theorem rank_copy (hp : s.phase = .decodeSymbols) (hpt : s.blk.symPoint = .copy) {r : Nat} (hr : s.blk.copyrem = some r) :
    rank s = r := by
  simp only [rank, hp, hpt, hr, Option.getD_some]

theorem rank_append (hp : s.phase = .decodeSymbols) (hpt : s.blk.symPoint = .append) : rank s = 2 := by
  simp only [rank, hp, hpt]

theorem rank_done (hp : s.phase = .done) : rank s = 1 := by
  simp only [rank, hp]

end

/-! ### The headers -/

section
variable {m : Prop} {u : Nat} {s : State}

theorem RangesOk.withBits {b : BlockState} (h : RangesOk b) (f : Option (BitVec 1)) (ty : Option (BitVec 2)) :
    RangesOk { b with bfinal := f, btype := ty } := { h with }

theorem RangesOk.withHlit {b : BlockState} (h : RangesOk b) (v : BitVec 5) :
    RangesOk { b with hlit := some v, nlit := some (v.toNat + 257) } :=
  { h with nlit := fun w hw => by obtain rfl := Option.some.inj hw; omega }

theorem RangesOk.withHdist {b : BlockState} (h : RangesOk b) (v : BitVec 5) :
    RangesOk { b with hdist := some v, ndist := some (v.toNat + 1) } :=
  { h with ndist := fun w hw => by obtain rfl := Option.some.inj hw; omega }

theorem RangesOk.withHclen {b : BlockState} (h : RangesOk b) (v : BitVec 4) : RangesOk { b with hclen := some v } := { h with }

/-- The header of a new block (44_block_decoder.md rules R120, R121). -/
theorem At.safe_blockHeader (h : At m u s) (hr : RangesOk s.blk) (hpt : s.blk.clPoint = .dynHeader)
    (hsym : s.blk.symPoint = .symbols) (hseq : s.blk.lenseq = []) (f : BitVec 1) (ty : BitVec 2) :
    Safe m u (fun _ => Lands) (blockHeader f ty s) := by
  have hr1 := hr.withBits (some f) (some ty)
  rw [blockHeader]
  split
  · exact (((h.withBlk _).withBlk _).withPhase _).safe_ok (lands_dynHeader hr1 rfl hpt rfl hsym hseq)
  · exact ((h.withBlk _).withBlk _).safe_raised hr1

/-- The dynamic header, and the start of the code lengths (44_block_decoder.md rules R122, R123, 43 R100). -/
theorem At.safe_dynHeader (h : At m u s) (hr : RangesOk s.blk) (hp : s.phase = .readDynamicTables)
    (hfinal : s.blk.bfinal.isSome) (hsym : s.blk.symPoint = .symbols) (hseq : s.blk.lenseq = []) (a b : BitVec 5)
    (c : BitVec 4) : Safe m u (fun _ => Lands) ((dynHeader a b c s).bind fun _ t => Follow.toClLens.apply t) := by
  have hat : At m u (s.withDynHeader a b c) := ((h.withBlk _).withBlk _).withBlk _
  have hr1 : RangesOk (s.withDynHeader a b c).blk := ((hr.withHlit a).withHdist b).withHclen c
  rw [dynHeader, rangeCheck_withDynHeader]
  split
  · exact hat.safe_raised hr1
  · rename_i hrange
    have hcounts : countsOk (s.withDynHeader a b c).blk := ⟨_, _, rfl, by omega, rfl, by omega⟩
    have hr2 : RangesOk (s.withDynHeader a b c).beginClLens.blk :=
      { hr1 with cllen := fun l hl => Option.some.inj hl ▸ List.length_replicate }
    exact (hat.withBlk _).safe_ok (lands_clLens hr2 hp rfl hfinal hsym hseq hcounts rfl rfl (Nat.zero_le _))

/-! ### The code lengths -/

/-- One turn of the loop over the CL code lengths (43_code_length_expander.md rule R100). -/
theorem At.safe_clLen (h : At m u s) (hl : Lands s) (hp : s.phase = .readDynamicTables) (hpt : s.blk.clPoint = .clLens)
    {c : BitVec 4} (hc : s.blk.hclen = some c) (hidx : s.blk.clIdx < c.toNat + 4) (n : BitVec 3) :
    Safe m u (fun _ => Lands) (clLen n s) := by
  obtain ⟨hr, hpoint⟩ := hl
  obtain ⟨hfinal, hsym, hseq, hcounts, hcllen, -⟩ := (pointOk_clLens hp hpt).1 hpoint
  obtain ⟨l, hcllen⟩ := Option.isSome_iff_exists.1 hcllen
  have hlt : s.blk.clIdx < clOrder.length := by
    have := c.isLt
    have : clOrder.length = 19 := rfl
    omega
  have hr1 (sym : Nat) : RangesOk { s.blk with cllen := some (s.blk.clLens.set sym n), clIdx := s.blk.clIdx + 1 } :=
    { hr with cllen := fun l' hl' => by
                obtain rfl := Option.some.inj hl'
                rw [List.length_set, clLens_of (.inl hcllen)]
                exact hr.cllen l hcllen }
  rw [clLen_of n rfl (List.getElem?_eq_getElem hlt)]
  exact (h.withBlk _).safe_ok (lands_clLens (hr1 _) hp hpt hfinal hsym hseq hcounts rfl hc hidx)

/-- `BUILD` of a table of the tree's own alphabet: a tree in its range, or an error (42_huffman_tree.md rule R96). -/
theorem At.safe_buildTree (h : At m u s) (hr : RangesOk s.blk) (t : TreeId) {ls : List Nat} (hls : ∀ l ∈ ls, l ≤ t.maxLen)
    (hlen : ls.length ≤ t.symbols) :
    Safe m u (fun _ s1 => ∃ T, s1 = s.withNewTree t T ∧ RangesOk s1.blk) (buildTree t ls t.maxLen s) := by
  cases hbuild : Tree.build ls t.maxLen with
  | ok T =>
    obtain ⟨cs, -, hholds⟩ := holdsCodes_of_build hls hlen hbuild
    rw [buildTree_of_ok hbuild]
    exact ((h.withBlk _).withTreeCursor t _).safe_ok ⟨T, rfl, hr.withNewTree t hholds.ok⟩
  | error e =>
    cases e with
    | malformed =>
      rw [buildTree_of_malformed hbuild]
      exact h.safe_raised hr
    | noNode => exact absurd hbuild (build_ne_noNode hls)

/-! ### The CL symbols -/

section
variable (h : At m u s) (hl : Lands s) (hp : s.phase = .readDynamicTables) (hpt : s.blk.clPoint = .clSyms)
include h hl hp hpt

/-- Lengths that `NLIT + NDIST` admits (43_code_length_expander.md rules R102, R107). -/
theorem At.safe_writeLens {k n a b : Nat} (hk : s.blk.seqcnt = some k) (ha : s.blk.nlit = some a) (hb : s.blk.ndist = some b)
    (hle : k + n ≤ a + b) (v : BitVec 4) : Safe m u (fun _ => Lands) (writeLens v n s) := by
  obtain ⟨hr, hpoint⟩ := hl
  obtain ⟨hfinal, hsym, hcounts, hseq, htree⟩ := (pointOk_clSyms hp hpt).1 hpoint
  obtain ⟨a', b', ha', hale, hb', hble⟩ := id hcounts
  obtain rfl := Option.some.inj (ha.symm.trans ha')
  obtain rfl := Option.some.inj (hb.symm.trans hb')
  obtain ⟨-, -, k', -, -, hk', -, hkeys⟩ := hseq
  obtain rfl := Option.some.inj (hk.symm.trans hk')
  rw [writeLens_of_fits hk (by omega)]
  have hr1 : RangesOk { s.blk with lenseq := Cells.writeRun s.blk.lenseq k v n, seqcnt := some (k + n) } :=
    { hr with seqcnt := fun w hw => by obtain rfl := Option.some.inj hw; omega }
  exact (h.withBlk _).safe_ok (lands_clSyms hr1 hp hpt hfinal hsym hcounts
    ⟨a, b, k + n, ha, hb, rfl, hle, Cells.keys_writeRun_next hkeys v n⟩ htree)

/-- A run behind `OVERRUN_CHECK` (43_code_length_expander.md rule R107). -/
theorem At.safe_run {r : Nat} (hrep : s.blk.rep = some r) (v : BitVec 4) :
    Safe m u (fun _ => Lands) ((overrunCheck s).bind fun _ s1 => writeLens v r s1) := by
  obtain ⟨-, -, -, ⟨a, b, k, ha, hb, hk, -, -⟩, -⟩ := (pointOk_clSyms hp hpt).1 hl.2
  rw [overrunCheck_of hk hrep ha hb]
  split
  · exact h.safe_raised hl.1
  · rename_i hfits
    exact h.safe_writeLens hl hp hpt hk ha hb (by omega) v

/-- A CL repeat (43_code_length_expander.md rules R104 to R107). -/
theorem At.safe_repeatLen {base extra : Nat} (hbase : 3 ≤ base) (hmax : base + 2 ^ extra ≤ 139) (hn : extra ≤ 16) (v : BitVec 4) :
    Safe m u (fun _ => Lands) (repeatLen v base extra s) := by
  obtain ⟨hfinal, hsym, hcounts, hseq, htree⟩ := (pointOk_clSyms hp hpt).1 hl.2
  refine ((h.safe_readBits hl.1 hn).bind (R := fun r t => (3 ≤ r ∧ r ≤ 138) ∧ ∃ p x c, t = s.withCursor p x c) ?_).bind ?_
  · rintro x _ hat ⟨hx, hmoved, -⟩
    exact hat.safe_ok ⟨by omega, hmoved⟩
  · rintro r _ hat ⟨⟨hr3, hr138⟩, p, x, c, rfl⟩
    have hr1 : RangesOk { s.blk with rep := some r } :=
      { hl.1 with rep := fun w hw => Option.some.inj hw ▸ ⟨hr3, hr138⟩ }
    exact (hat.withBlk _).safe_run (lands_clSyms hr1 hp hpt hfinal hsym hcounts hseq htree) hp hpt rfl v

/-- `CL_REP16`: where there is a length before it, the entry holds a value (43_code_length_expander.md rule R104). -/
theorem At.safe_clRep16 : Safe m u (fun _ => Lands) (clRep16 s) := by
  obtain ⟨-, -, -, hseq, -⟩ := (pointOk_clSyms hp hpt).1 hl.2
  obtain ⟨a, b, k, -, -, hk, -, hkeys⟩ := hseq
  rw [clRep16, hk, need_some, Res.bind_ok]
  split
  · exact h.safe_raised hl.1
  · obtain ⟨v, hv⟩ := Option.isSome_iff_exists.1 ((Cells.isSome_read_of_range hkeys (k - 1)).2 (by omega))
    rw [hv, need_some, Res.bind_ok]
    exact h.safe_repeatLen hl hp hpt (by decide) (by decide) (by decide) v

theorem At.safe_clSymbol {k a b : Nat} (hk : s.blk.seqcnt = some k) (ha : s.blk.nlit = some a) (hb : s.blk.ndist = some b)
    (hlt : k < a + b) (w : Nat) : Safe m u (fun _ => Lands) (clSymbol w s) := by
  rw [clSymbol]
  split_ifs
  · exact h.safe_writeLens hl hp hpt hk ha hb hlt _
  · exact h.safe_clRep16 hl hp hpt
  · exact h.safe_repeatLen hl hp hpt (by decide) (by decide) (by decide) _
  · exact h.safe_repeatLen hl hp hpt (by decide) (by decide) (by decide) _

end

/-! ### The trees of a block -/

/-- A table whose entries are all listed is read whole. -/
theorem exists_readList {c : List (Nat × BitVec 4)} {n : Nat} (hc : c.map Prod.fst = List.range n) :
    ∃ l, Cells.readList c 0 n = some l ∧ l.length = n := by
  have hread (i : Nat) (hi : i < n) : ∃ v, Cells.read c i = some v :=
    Option.isSome_iff_exists.1 ((Cells.isSome_read_of_range hc i).2 hi)
  refine ⟨(List.range n).map fun i => (Cells.read c i).getD 0, Cells.readList_eq_some.2 ⟨by simp, fun i hi => ?_⟩, by simp⟩
  obtain ⟨v, hv⟩ := hread i hi
  simp [hi, hv]

theorem length_le_maxLen {l : List (BitVec 4)} : ∀ x ∈ l.map BitVec.toNat, x ≤ Config.maxLen := by
  intro x hx
  obtain ⟨v, -, rfl⟩ := List.mem_map.1 hx
  exact Nat.le_of_lt_succ v.isLt

/-- TABLES behind a complete split (44_block_decoder.md rule R124). -/
theorem At.safe_tables (h : At m u s) (hr : RangesOk s.blk) (hfinal : s.blk.bfinal.isSome) (hsym : s.blk.symPoint = .symbols)
    (hll : s.blk.lllen.map Prod.fst = List.range 286) (hd : s.blk.dlen.map Prod.fst = List.range 30) :
    Safe m u (fun _ t => Lands t ∧ rank t = 0) (tables s) := by
  obtain ⟨l, hl, hllen⟩ := exists_readList hll
  obtain ⟨d, hd, hdlen⟩ := exists_readList hd
  rw [tables_of_lllen hl]
  refine (h.safe_buildTree hr .ll length_le_maxLen (by rw [List.length_map, hllen]; decide)).bind ?_
  rintro _ _ h2 ⟨T, rfl, hr2⟩
  have hd2 : Cells.readList (s.withNewTree .ll T).blk.dlen 0 30 = some d := hd
  rw [hd2, need_some, Res.bind_ok]
  refine (h2.safe_buildTree hr2 .d length_le_maxLen (by rw [List.length_map, hdlen]; decide)).bind ?_
  rintro _ _ h3 ⟨U, rfl, hr3⟩
  rw [State.withNewTree_ll, State.withNewTree_d] at *
  exact (h3.withPhase _).safe_ok ⟨lands_symbols hr3 hfinal rfl rfl rfl hsym, rank_symbols rfl hsym⟩

/-! ### The symbols -/

/-- The tables of R60 give lengths of 3 to 258, those of R62 distances of 1 to 32768. -/
theorem length_range : ∀ i < 29, 3 ≤ lengthBase.getD i 0 ∧ lengthBase.getD i 0 + 2 ^ lengthExtra.getD i 0 ≤ 259
    ∧ lengthExtra.getD i 0 ≤ 16 := by decide

theorem distance_range : ∀ i < 30, 1 ≤ distBase.getD i 0 ∧ distBase.getD i 0 + 2 ^ distExtra.getD i 0 ≤ 32769
    ∧ distExtra.getD i 0 ≤ 16 := by decide

theorem At.safe_basePlusExtra (h : At m u s) (hr : RangesOk s.blk) (base : Nat) {extra : Nat} (hn : extra ≤ 16) :
    Safe m u (fun v t => (base ≤ v ∧ v < base + 2 ^ extra) ∧ ∃ p a c, t = s.withCursor p a c) (basePlusExtra base extra s) := by
  refine (h.safe_readBits hr hn).bind ?_
  rintro x t hat ⟨hx, hmoved, -⟩
  exact hat.safe_ok ⟨⟨by omega, by omega⟩, hmoved⟩

section
variable (h : At m u s) (hr : RangesOk s.blk) (hp : s.phase = .decodeSymbols) (hfinal : s.blk.bfinal.isSome)
  (hll : s.blk.lltree.isSome) (hd : s.blk.dtree.isSome)
include h hr hp hfinal hll hd

/-- A length symbol; its distance is due (44_block_decoder.md rule R128). -/
theorem At.safe_lengthSym {i : Nat} (hi : i < 29) :
    Safe m u (fun _ t => Lands t ∧ rank t = 0) ((lengthSym i s).bind fun _ t => Follow.toDist.apply t) := by
  obtain ⟨hmin, hmax, hn⟩ := length_range i hi
  rw [lengthSym]
  refine Safe.bind (Safe.bind (R := fun _ t => RangesOk t.blk ∧ ∃ p a c v, t = (s.withCursor p a c).withBlk { s.blk with length := some v })
    (h.safe_basePlusExtra hr _ hn) ?_) ?_
  · rintro v _ hat ⟨⟨hv1, hv2⟩, p, a, c, rfl⟩
    have hr1 : RangesOk { s.blk with length := some v } :=
      { hr with length := fun w hw => Option.some.inj hw ▸ ⟨hmin.trans hv1, Nat.le_of_lt_succ (hv2.trans_le hmax)⟩ }
    exact (hat.withBlk _).safe_ok ⟨hr1, p, a, c, v, rfl⟩
  · rintro _ _ hat ⟨hr1, p, a, c, v, rfl⟩
    exact (hat.withBlk _).safe_ok ⟨lands_dist { hr1 with } hfinal hp hll hd rfl rfl, rank_dist hp rfl⟩

theorem At.safe_outAppend (hpt : s.blk.symPoint = .symbols) (b : Byte) :
    Safe m u (fun _ t => Lands t ∧ rank t = 0) (outAppend b s) := by
  rw [outAppend]
  split
  · exact fun _ => rfl
  · exact (h.append b).safe_ok ⟨lands_symbols hr hfinal hp hll hd hpt, rank_symbols hp hpt⟩

/-- A literal/length symbol and what follows it (44_block_decoder.md rules R126 to R128). -/
theorem At.safe_llSymbol (hpt : s.blk.symPoint = .symbols) (w : Nat) :
    Safe m u (fun _ t => Lands t ∧ rank t ≤ 1) ((llSymbol w s).bind fun _ t => (wordFollow .ll w).apply t) := by
  have hzero (t : State) (ht : Lands t ∧ rank t = 0) : Lands t ∧ rank t ≤ 1 := ⟨ht.1, ht.2.le.trans zero_le_one⟩
  by_cases hlong : 257 ≤ w
  · rw [wordFollow, if_pos hlong, llSymbol, if_neg (by omega), if_neg (by omega)]
    split
    · have hi : w - 257 < 29 := by omega
      generalize w - 257 = i at hi
      exact (h.safe_lengthSym hr hp hfinal hll hd hi).imp fun _ => hzero
    · exact h.safe_raised hr
  · rw [wordFollow, if_neg hlong, llSymbol]
    split
    · exact (h.safe_outAppend hr hp hfinal hll hd hpt _).bind fun _ _ hat hl => hat.safe_ok (hzero _ hl)
    · rw [if_pos (by omega)]
      exact (h.withPhase _).safe_ok ⟨lands_done hr hfinal rfl, (rank_done rfl).le⟩

/-- A distance symbol, its check, and the start of the copy (44_block_decoder.md rules R129 to R131). -/
theorem At.safe_dSymbol (hlength : s.blk.length.isSome) (w : Nat) :
    Safe m u (fun _ => Lands) ((dSymbol w s).bind fun _ t => Follow.toCopy.apply t) := by
  obtain ⟨n, hlength⟩ := Option.isSome_iff_exists.1 hlength
  rw [dSymbol]
  split
  · rename_i hw
    obtain ⟨hmin, hmax, hn⟩ := distance_range w hw
    rw [distanceSym]
    refine Safe.bind (Safe.bind (R := fun _ t => RangesOk t.blk ∧ ∃ p a c v,
      t = (s.withCursor p a c).withBlk { s.blk with distance := some v } ∧ v ≤ s.outlen)
      (h.safe_basePlusExtra hr _ hn) ?_) ?_
    · rintro v _ hat ⟨⟨hv1, hv2⟩, p, a, c, rfl⟩
      have hr1 : RangesOk { s.blk with distance := some v } :=
        { hr with distance := fun w hw => Option.some.inj hw ▸ ⟨hmin.trans hv1, Nat.le_of_lt_succ (hv2.trans_le hmax)⟩ }
      rw [check, State.withBlk_blk, need_some, Res.bind_ok]
      split
      · exact (hat.withBlk _).safe_raised hr1
      · rename_i hle
        exact (hat.withBlk _).safe_ok ⟨hr1, p, a, c, v, rfl, Nat.not_lt.1 hle⟩
    · rintro _ _ hat ⟨hr1, p, a, c, v, rfl, hle⟩
      have hr2 : RangesOk { s.blk with distance := some v, copyrem := some n, symPoint := .copy } :=
        { hr1 with copyrem := fun w hw => Option.some.inj hw ▸ (hr.length n hlength).2 }
      rw [Follow.apply]
      show Safe m u _ ((need .length s.blk.length _).bind _)
      rw [hlength, need_some, Res.bind_ok]
      exact (hat.withBlk _).safe_ok (lands_copy hr2 hfinal hp hll hd rfl rfl rfl hle)
  · exact h.safe_raised hr

/-- One turn of the copy (44_block_decoder.md rule R131). -/
theorem At.safe_copyByte {r d : Nat} (hpt : s.blk.symPoint = .copy) (hrem : s.blk.copyrem = some (r + 1))
    (hdist : s.blk.distance = some d) (hle : d ≤ s.outlen) : Safe m u (fun _ t => Lands t ∧ rank t = r) (copyByte s) := by
  have hpos := (hr.distance d hdist).1
  rw [copyByte, hrem, need_some, Res.bind_ok, if_neg (Nat.succ_ne_zero r), hdist, need_some, Res.bind_ok,
    if_neg (Nat.not_lt.2 hle)]
  refine Safe.bind (Q := fun _ t => s = t) ?_ ?_
  · rw [outRead]
    split
    · exact h.safe_ok rfl
    · rename_i hnone
      intro hm
      obtain ⟨b, hb⟩ := exists_read_behind (h.out hm) hpos hle
      cases hb.symm.trans hnone
  · rintro b _ - rfl
    rw [outAppend]
    split
    · exact fun _ => rfl
    · have hr1 : RangesOk { s.blk with copyrem := some r } :=
        { hr with copyrem := fun w hw => Option.some.inj hw ▸ (Nat.le_succ r).trans (hr.copyrem _ hrem) }
      exact ((h.append b).withBlk _).safe_ok
        ⟨lands_copy hr1 hfinal hp hll hd hpt rfl hdist (hle.trans (Nat.le_succ _)), rank_copy (by exact hp) (by exact hpt) rfl⟩

end

end

end Sys2Proof.Machine
end

section
/-! SUPPORT. Each point of a session: what its step fetches and where it lands (44_block_decoder.md). -/

open Sys2Proof.Certificates

namespace Sys2Proof.Machine

/-! ### Words with a meaning -/

theorem exists_decode_cls {w : Nat} (h : w < 19) : ∃ i, decode .cls w = .ok i := by
  interval_cases w <;> exact ⟨_, rfl⟩

theorem exists_decode_d {w : Nat} (h : w < 32) : ∃ i, decode .d w = .ok i := by
  interval_cases w <;> exact ⟨_, rfl⟩

theorem exists_decode_cll {w : Nat} (h : w < 8) : ∃ i, decode .cll w = .ok i := by
  interval_cases w <;> exact ⟨_, rfl⟩

theorem exists_decode_ll {w : Nat} (h : w < 288) : ∃ i, decode .ll w = .ok i := by
  have hfits : ¬ 2 ^ Format.ll.width ≤ w := Nat.not_le.2 (h.trans (by decide))
  simp only [decode, if_neg hfits]
  split
  · exact ⟨_, rfl⟩
  · have hlt : w - 256 < llInstrs.length := by
      have : llInstrs.length = 32 := rfl
      omega
    rw [List.getElem?_eq_getElem hlt]
    exact ⟨_, rfl⟩

/-! ### What a fetch leaves to run -/

section
variable {m : Prop} {u : Nat} {s s1 : State} {i : Instr}

/-- The instruction `i`, fetched from `s` into `s1`, and its follow-up land at a point of the session, in a state further on in
the stream than `s` or of a lower rank. -/
def Runs (m : Prop) (u : Nat) (s : State) (i : Instr) (s1 : State) : Prop :=
  ∃ op, Meaning i op ∧
    Safe m u (fun _ t => Lands t ∧ (Ahead m s s1 ∨ rank t < rank s)) ((op s1).bind fun _ t => (follow i).apply t)

/-- A literal fetched from `s` into `s1` may wait there for room (20_memory.md rule R45). -/
def MayWait (m : Prop) (s : State) (i : Instr) (s1 : State) : Prop :=
  ∀ b, i = .lit b → s.blk.symPoint ≠ .append → Lands (s1.withBlk { s1.blk with symPoint := .append }) ∧ Ahead m s s1

/-- A fetch that leaves an instruction to run. -/
def Ready (m : Prop) (u : Nat) (s : State) (i : Instr) (s1 : State) : Prop :=
  Runs m u s i s1 ∧ MayWait m s i s1

theorem Safe.stay {Q : Unit → State → Prop} {r : Res Unit} (h : Safe m u Q r) :
    Safe m u Q (r.bind fun _ t => Follow.stay.apply t) :=
  h.bind fun _ _ hat hQ => hat.safe_ok hQ

theorem At.safe_decodeRes {f : Format} {w : Nat} (h : At m u s1) (hw : ∃ i, decode f w = .ok i)
    (hready : ∀ i, decode f w = .ok i → Ready m u s i s1) : Safe m u (Ready m u s) (decodeRes f w s1) := by
  obtain ⟨i, hi⟩ := hw
  rw [decodeRes_of_ok hi]
  exact h.safe_ok (hready i hi)

/-- No literal is a word of another format. -/
theorem mayWait_of_ne_lit (hi : ∀ b, i ≠ .lit b) : MayWait m s i s1 := fun b hb => absurd hb (hi b)

theorem ready_of_word {f : Format} {w : Nat} (hdec : decode f w = .ok i) (hf : f ≠ .ll) (hahead : Ahead m s s1)
    (h : Safe m u (fun _ => Lands) ((wordOp f w s1).bind fun _ t => (wordFollow f w).apply t)) : Ready m u s i s1 := by
  refine ⟨⟨wordOp f w, meaning_of_decode hdec, ?_⟩, mayWait_of_ne_lit ?_⟩
  · rw [follow_of_decode hdec]
    exact h.imp fun _ _ hl => ⟨hl, .inl hahead⟩
  · rintro b rfl
    exact hf (Option.some.inj ((encode_format_of_decode hdec).symm.trans rfl))

/-- A literal/length symbol that has just been decoded, or waits (44_block_decoder.md rule R125). -/
theorem ready_of_ll {w : Nat} (h : At m u s1) (hr : RangesOk s1.blk) (hp : s1.phase = .decodeSymbols)
    (hfinal : s1.blk.bfinal.isSome) (hll : s1.blk.lltree.isSome) (hd : s1.blk.dtree.isSome)
    (hpt : s1.blk.symPoint = .symbols) (hsym : s1.blk.sym.isSome)
    (honward : Ahead m s s1 ∨ (s.blk.symPoint = .append ∧ rank s = 2)) (hdec : decode .ll w = .ok i) : Ready m u s i s1 := by
  refine ⟨⟨wordOp .ll w, meaning_of_decode hdec, ?_⟩, fun b _ hne => ?_⟩
  · rw [follow_of_decode hdec]
    exact (h.safe_llSymbol hr hp hfinal hll hd hpt w).imp fun _ t ht =>
      ⟨ht.1, honward.imp_right fun ha => by rw [ha.2]; exact Nat.lt_succ_of_le ht.2⟩
  · exact ⟨lands_append { hr with } hfinal hp hll hd rfl hsym, honward.resolve_right fun ha => hne ha.1⟩

/-- TABLES behind the split (44_block_decoder.md rule R124). -/
theorem ready_of_tables (h : At m u s1) (hr : RangesOk s1.blk) (hfinal : s1.blk.bfinal.isSome)
    (hsym : s1.blk.symPoint = .symbols) (hll : s1.blk.lllen.map Prod.fst = List.range 286)
    (hd : s1.blk.dlen.map Prod.fst = List.range 30) (hrank : rank s = 1) : Ready m u s .tables s1 := by
  refine ⟨⟨tables, exec_tables, Safe.stay ((h.safe_tables hr hfinal hsym hll hd).imp fun _ t ht => ⟨ht.1, .inr ?_⟩)⟩,
    mayWait_of_ne_lit nofun⟩
  rw [ht.2, hrank]
  exact Nat.one_pos

theorem RangesOk.withTables {b : BlockState} (h : RangesOk b) {l d : List (Nat × BitVec 4)}
    (hl : l.map Prod.fst = List.range 286) (hd : d.map Prod.fst = List.range 30) :
    RangesOk ((b.withLllen l).withDlen d) :=
  { h with lllen := .inr hl, dlen := .inr hd }

/-! ### The points -/

variable (h : At m u s)
include h

theorem At.safe_fetchBlockHeader : Safe m u (Ready m u s) (fetchBlockHeader s) := by
  refine ((h.withBlk .fresh).safe_readBits rangesOk_fresh (n := 1) (by decide)).bind ?_
  rintro f _ h1 ⟨hf, ⟨p, a, c, rfl⟩, hpos1⟩
  have hr1 := rangesOk_fresh.withBits (some (BitVec.ofNat 1 f)) none
  refine ((h1.withBlk _).safe_readBits hr1 (n := 2) (by decide)).bind ?_
  rintro ty _ h2 ⟨hty, ⟨q, b, e, rfl⟩, hpos2⟩
  have hr2 := rangesOk_fresh.withBits (some (BitVec.ofNat 1 f)) (some (BitVec.ofNat 2 ty))
  exact (h2.withBlk _).safe_decodeRes ⟨_, decode_bh_of_lt (by omega)⟩ fun i hi =>
    ready_of_word hi (by decide) ((hpos1 (by decide)).trans (hpos2 (by decide)))
      (At.safe_blockHeader (h2.withBlk _) hr2 rfl rfl rfl _ _).stay

variable (hl : Lands s)
include hl

theorem At.safe_fetchDynHeader (hp : s.phase = .readDynamicTables) (hpt : s.blk.clPoint = .dynHeader) :
    Safe m u (Ready m u s) (fetchDynHeader s) := by
  obtain ⟨hr, hpoint⟩ := hl
  obtain ⟨hfinal, hsym, hseq⟩ := (pointOk_dynHeader hp hpt).1 hpoint
  refine (h.safe_readBits hr (n := 5) (by decide)).bind ?_
  rintro hlit _ h1 ⟨h5, ⟨p1, a1, c1, rfl⟩, hpos1⟩
  have hr1 := hr.withHlit (BitVec.ofNat 5 hlit)
  refine ((h1.withBlk _).safe_readBits hr1 (n := 5) (by decide)).bind ?_
  rintro hdist _ h2 ⟨h5', ⟨p2, a2, c2, rfl⟩, hpos2⟩
  have hr2 := hr1.withHdist (BitVec.ofNat 5 hdist)
  refine ((h2.withBlk _).safe_readBits hr2 (n := 4) (by decide)).bind ?_
  rintro hclen _ h3 ⟨h4, ⟨p3, a3, c3, rfl⟩, hpos3⟩
  have hr3 := hr2.withHclen (BitVec.ofNat 4 hclen)
  exact (h3.withBlk _).safe_decodeRes ⟨_, decode_dh_of_lt (by omega)⟩ fun i hi =>
    ready_of_word hi (by decide) ((hpos1 (by decide)).trans ((hpos2 (by decide)).trans (hpos3 (by decide))))
      (At.safe_dynHeader (h3.withBlk _) hr3 hp hfinal hsym hseq _ _ _)

theorem At.safe_fetchClLen (hp : s.phase = .readDynamicTables) (hpt : s.blk.clPoint = .clLens) :
    Safe m u (Ready m u s) (fetchClLen s) := by
  obtain ⟨hfinal, hsym, hseq, hcounts, hcllen, c, hc, hidx⟩ := (pointOk_clLens hp hpt).1 hl.2
  rw [fetchClLen, hc, need_some, Res.bind_ok]
  split
  · rename_i hlt
    refine (h.safe_readBits hl.1 (n := 3) (by decide)).bind ?_
    rintro w _ h1 ⟨hw, ⟨p, a, e, rfl⟩, hpos⟩
    have hl1 : Lands (s.withCursor p a e) := lands_clLens hl.1 hp hpt hfinal hsym hseq hcounts hcllen hc hidx
    exact h1.safe_decodeRes (exists_decode_cll hw) fun i hi =>
      ready_of_word hi (by decide) (hpos (by decide)) (h1.safe_clLen hl1 hp hpt hc hlt _).stay
  · obtain ⟨l, hcllen⟩ := Option.isSome_iff_exists.1 hcllen
    have hlen : (s.blk.clLens.map BitVec.toNat).length = 19 := by
      rw [List.length_map, clLens_of (.inl hcllen), hl.1.cllen l hcllen]
    have hle : ∀ x ∈ s.blk.clLens.map BitVec.toNat, x ≤ Config.clMaxLen := by
      intro x hx
      obtain ⟨v, -, rfl⟩ := List.mem_map.1 hx
      exact Nat.le_of_lt_succ v.isLt
    refine h.safe_ok ⟨⟨_, meaning_build _ _ _, ?_⟩, mayWait_of_ne_lit nofun⟩
    have hok : buildOk .cl (s.blk.clLens.map BitVec.toNat) Config.clMaxLen = true := buildOk_iff.2 ⟨rfl, hle, hlen.le⟩
    rw [if_pos hok]
    refine (h.safe_buildTree hl.1 .cl hle hlen.le).bind ?_
    rintro _ _ h2 ⟨T, rfl, hr2⟩
    have hr3 : RangesOk { (s.withNewTree .cl T).blk with seqcnt := some 0, clPoint := .clSyms } :=
      { hr2 with seqcnt := fun w hw => Option.some.inj hw ▸ Nat.zero_le _ }
    have hseq3 : seqOk { (s.withNewTree .cl T).blk with seqcnt := some 0, clPoint := .clSyms } := by
      obtain ⟨a, b, ha, -, hb, -⟩ := id hcounts
      exact ⟨a, b, 0, ha, hb, rfl, Nat.zero_le _, congrArg (List.map Prod.fst) hseq⟩
    refine (h2.withBlk _).safe_ok ⟨lands_clSyms hr3 hp rfl hfinal hsym hcounts hseq3 rfl, .inr ?_⟩
    rw [rank_clLens hp hpt, rank_clSyms (by exact hp) rfl]
    exact Nat.lt_succ_self 1

theorem At.safe_fetchClSym (hp : s.phase = .readDynamicTables) (hpt : s.blk.clPoint = .clSyms) :
    Safe m u (Ready m u s) (fetchClSym s) := by
  obtain ⟨hfinal, hsym, hcounts, hseq, htree⟩ := (pointOk_clSyms hp hpt).1 hl.2
  obtain ⟨a, b, k, ha, hb, hk, hle, hkeys⟩ := id hseq
  obtain ⟨T, hT⟩ := Option.isSome_iff_exists.1 htree
  rcases Nat.lt_or_ge k (a + b) with hlt | hge
  · rw [fetchClSym, hk, need_some, Res.bind_ok, seqTotal_eq_ok.2 ⟨a, b, ha, hb, rfl, rfl⟩, Res.bind_ok, if_pos hlt]
    refine (h.safe_decodeSym (t := .cl) hl.1 hT).bind ?_
    rintro v _ h1 ⟨hv, ⟨p, x, c, cur, hcur, rfl⟩, hpos⟩
    have hr1 : RangesOk { s.blk.withTreeCursor .cl cur with clsym := some v } :=
      { hl.1.withTreeCursor_of (t := .cl) hT hcur with clsym := fun w hw => Option.some.inj hw ▸ Nat.le_of_lt_succ hv }
    exact (h1.withBlk _).safe_decodeRes (exists_decode_cls hv) fun i hi =>
      ready_of_word hi (by decide) hpos
        ((h1.withBlk _).safe_clSymbol (lands_clSyms hr1 hp hpt hfinal hsym hcounts hseq htree) hp hpt hk ha hb hlt _).stay
  · have hread (j : Nat) (hj : j < a + b) : Cells.read s.blk.lenseq j = some ((Cells.read s.blk.lenseq j).getD 0) := by
      obtain ⟨v, hv⟩ := Option.isSome_iff_exists.1 ((Cells.isSome_read_of_range hkeys j).2 (by omega))
      rw [hv, Option.getD_some]
    have he := splitEntries_of (base := 0) (count := a) 286 fun j hj => hread j (by omega)
    have hf := splitEntries_of (base := a) (count := b) 30 hread
    rw [fetchClSym_of_complete hk ha hb hge he hf]
    have hkeysll := keys_writeEntries (entryOrZero (fun j => (Cells.read s.blk.lenseq j).getD 0) 0 a) hl.1.lllen
    have hkeysd := keys_writeEntries (entryOrZero (fun j => (Cells.read s.blk.lenseq j).getD 0) a b) hl.1.dlen
    generalize writeEntries (entryOrZero _ 0 a) 286 0 s.blk.lllen = l at hkeysll ⊢
    generalize writeEntries (entryOrZero _ a b) 30 0 s.blk.dlen = d at hkeysd ⊢
    exact (h.withBlk _).safe_ok (ready_of_tables (h.withBlk _) (hl.1.withTables hkeysll hkeysd) hfinal hsym hkeysll hkeysd
      (rank_clSyms hp hpt))

/-- A literal/length symbol, where one is due or a copy has ended (44_block_decoder.md rules R125, R131). -/
theorem At.safe_fetchSymbol (hp : s.phase = .decodeSymbols) (hfinal : s.blk.bfinal.isSome) (hll : s.blk.lltree.isSome)
    (hd : s.blk.dtree.isSome) : Safe m u (Ready m u s) (fetchSymbol s) := by
  obtain ⟨T, hT⟩ := Option.isSome_iff_exists.1 hll
  have hr0 : RangesOk { s.blk with symPoint := .symbols } := { hl.1 with }
  refine ((h.withBlk _).safe_decodeSym (t := .ll) hr0 hT).bind ?_
  rintro v _ h1 ⟨hv, ⟨p, x, c, cur, hcur, rfl⟩, hpos⟩
  have hr1 : RangesOk { s.blk.withTreeCursor .ll cur with symPoint := .symbols, sym := some v } :=
    { hl.1.withTreeCursor_of (t := .ll) hT hcur with sym := fun w hw => Option.some.inj hw ▸ Nat.le_of_lt_succ hv }
  exact (h1.withBlk _).safe_decodeRes (exists_decode_ll (hv.trans (by decide))) fun i hi =>
    ready_of_ll (h1.withBlk _) hr1 hp hfinal hll hd rfl rfl (.inl hpos) hi

theorem At.safe_fetchDistance (hp : s.phase = .decodeSymbols) (hpt : s.blk.symPoint = .dist) :
    Safe m u (Ready m u s) (fetchDistance s) := by
  obtain ⟨hfinal, hll, hd, hlength⟩ := (pointOk_dist hp hpt).1 hl.2
  obtain ⟨T, hT⟩ := Option.isSome_iff_exists.1 hd
  refine (h.safe_decodeSym (t := .d) hl.1 hT).bind ?_
  rintro v _ h1 ⟨hv, ⟨p, x, c, cur, hcur, rfl⟩, hpos⟩
  have hr1 : RangesOk { s.blk.withTreeCursor .d cur with dsym := some v } :=
    { hl.1.withTreeCursor_of (t := .d) hT hcur with dsym := fun w hw => Option.some.inj hw ▸ Nat.le_of_lt_succ hv }
  exact (h1.withBlk _).safe_decodeRes (exists_decode_d (Nat.lt_of_lt_of_le hv (by decide))) fun i hi =>
    ready_of_word hi (by decide) hpos ((h1.withBlk _).safe_dSymbol hr1 hp hfinal hll hd hlength _)

theorem At.safe_fetchCopy (hp : s.phase = .decodeSymbols) (hpt : s.blk.symPoint = .copy) :
    Safe m u (Ready m u s) (fetchCopy s) := by
  obtain ⟨hfinal, hll, hd, hrem, d, hdist, hle⟩ := (pointOk_copy hp hpt).1 hl.2
  obtain ⟨r, hrem⟩ := Option.isSome_iff_exists.1 hrem
  cases r with
  | zero =>
    rw [fetchCopy_of_zero hrem]
    exact h.safe_fetchSymbol hl hp hfinal hll hd
  | succ r =>
    rw [fetchCopy_of_succ hrem]
    refine h.safe_ok ⟨⟨copyByte, exec_copyByte, ?_⟩, mayWait_of_ne_lit nofun⟩
    refine Safe.stay ((h.safe_copyByte hl.1 hp hfinal hll hd hpt hrem hdist hle).imp fun _ t ht => ⟨ht.1, .inr ?_⟩)
    rw [ht.2, rank_copy hp hpt hrem]
    exact Nat.lt_succ_self r

theorem At.safe_fetchAppend (hp : s.phase = .decodeSymbols) (hpt : s.blk.symPoint = .append) :
    Safe m u (Ready m u s) (fetchAppend s) := by
  obtain ⟨hfinal, hll, hd, hsym⟩ := (pointOk_append hp hpt).1 hl.2
  obtain ⟨v, hv⟩ := Option.isSome_iff_exists.1 hsym
  rw [fetchAppend, hv, need_some, Res.bind_ok]
  have hr1 : RangesOk { s.blk with symPoint := .symbols } := { hl.1 with }
  have hlt : v < 288 := Nat.lt_of_le_of_lt (hl.1.sym v hv) (by decide)
  exact (h.withBlk _).safe_decodeRes (exists_decode_ll hlt) fun i hi =>
    ready_of_ll (h.withBlk _) hr1 hp hfinal hll hd rfl hsym (.inr ⟨hpt, rank_append hp hpt⟩) hi

/-- Every fetch of a session outside Done leaves an instruction to run, or raises. -/
theorem At.safe_fetch (hp : s.phase ≠ .done) : Safe m u (Ready m u s) (fetch s) := by
  cases hphase : s.phase with
  | readHeader =>
    rw [fetch_of_readHeader hphase]
    exact h.safe_fetchBlockHeader
  | readDynamicTables =>
    cases hpt : s.blk.clPoint with
    | dynHeader =>
      rw [fetch_of_dynHeader hphase hpt]
      exact h.safe_fetchDynHeader hl hphase hpt
    | clLens =>
      rw [fetch_of_clLens hphase hpt]
      exact h.safe_fetchClLen hl hphase hpt
    | clSyms =>
      rw [fetch_of_clSyms hphase hpt]
      exact h.safe_fetchClSym hl hphase hpt
  | decodeSymbols =>
    cases hpt : s.blk.symPoint with
    | symbols =>
      obtain ⟨hfinal, hll, hd⟩ := (pointOk_symbols hphase hpt).1 hl.2
      rw [fetch_of_symbols hphase hpt]
      exact h.safe_fetchSymbol hl hphase hfinal hll hd
    | dist =>
      rw [fetch_of_dist hphase hpt]
      exact h.safe_fetchDistance hl hphase hpt
    | copy =>
      rw [fetch_of_copy hphase hpt]
      exact h.safe_fetchCopy hl hphase hpt
    | append =>
      rw [fetch_of_append hphase hpt]
      exact h.safe_fetchAppend hl hphase hpt
  | done => exact absurd hphase hp

end

end Sys2Proof.Machine
end

section
/-! SUPPORT. Every step of a session keeps its block registers, reads none that holds no value, and brings the session closer to
its end (10_state.md rule R18, 70_reset_and_hazards.md rule R186). -/

open Sys2Proof.Certificates

namespace Sys2Proof.Machine

/-! ### A step from a point of a session -/

/-- `t` lies further on in the stream than `s`, or at the same place with a lower rank. -/
def Nearer (s t : State) : Prop :=
  s.bitpos < t.bitpos ∨ (s.bitpos ≤ t.bitpos ∧ rank t < rank s)

/-- The outcome of a step of the running core in `s`: it counts no unwritten read and keeps the ranges, and where it leaves the
core RUNNING it lands at a point of the session that is nearer to the end. It stops on a full `OUT` at most. -/
def Goes (m : Prop) (u : Nat) (s : State) : Host.Outcome State Fault Refusal → Prop
  | .next t => t.unwrittenReads = u ∧ RangesOk t.blk ∧ (t.status = .running → pointOk t ∧ (m → Nearer s t))
  | .fault f => m → f = .outFull
  | .refused _ => False

section
variable {m : Prop} {u : Nat} {s s1 t : State} {i : Instr} {p : Phase}

/-- What the instruction and its follow-up do to the stream position (10_state.md rule R12). -/
theorem bitpos_le_of_exec {t1 : State} (hi : Issued i) (hs : SrcOk s1) (hc : CursorOk s1) (hexec : exec i s1 = .next t1)
    (hfollow : (follow i).apply t1 = .ok () t) : s1.bitpos ≤ t.bitpos := by
  have heffect := (exec_effect hi.ne_start hexec).mono hi.writes_subset
  have hsound := (heffect.same (p := .sound) (fun hp => hp.2.1 rfl) nofun).rest hs hc
  obtain ⟨b, rfl⟩ := Follow.apply_ok hfollow
  exact hsound.2

theorem bitpos_le_of_fetch (hs : SrcOk s) (hc : CursorOk s) (hf : fetch s = .ok i s1) : s.bitpos ≤ s1.bitpos := by
  have hacts := acts_fetch s
  rw [hf] at hacts
  exact ((Frame.same hacts .sound fun hp => hp.2.2.2.1 rfl).rest hs hc).2

/-- The instruction that a fetch left, and its follow-up. -/
theorem Runs.goes (h : At m u s) (h1 : At m u s1) (hf : fetch s = .ok i s1) (hruns : Runs m u s i s1) :
    Goes m u s (afterExec i (exec i s1)) := by
  obtain ⟨op, hop, hsafe⟩ := hruns
  have hexec := hop s1
  rw [hexec]
  cases hr : op s1 with
  | ok a t1 =>
    rw [hr] at hsafe hexec
    cases hfollow : (follow i).apply t1 with
    | ok a t =>
      rw [Res.bind_ok, hfollow] at hsafe
      obtain ⟨hat, hl, hnearer⟩ := hsafe
      have hrun : t1.status = .running := by
        obtain ⟨b, rfl⟩ := Follow.apply_ok hfollow
        exact hat.running
      rw [Res.outcome_ok, afterExec, if_pos hrun, hfollow]
      refine ⟨hat.reads, hl.1, fun _ => ⟨hl.2, fun hm => ?_⟩⟩
      have hle := bitpos_le_of_exec (issues_fetch s i s1 hf) (h1.src hm) (h1.cursor hm) hexec hfollow
      exact hnearer.imp (fun hahead => (hahead hm).trans_le hle)
        fun hrank => ⟨(bitpos_le_of_fetch (h.src hm) (h.cursor hm) hf).trans hle, hrank⟩
    | raised e t => exact absurd hfollow Follow.apply_ne_raised
    | unwritten x t =>
      rw [Res.bind_ok, hfollow] at hsafe
      exact hsafe.elim
    | stop f => exact absurd hfollow Follow.apply_ne_stop
    | refused x => exact absurd hfollow Follow.apply_ne_refused
  | raised e t =>
    rw [hr] at hsafe
    rw [Res.outcome_raised, afterExec, if_neg (by simp)]
    exact ⟨hsafe.1, hsafe.2, fun hrun => by cases hrun⟩
  | unwritten x t =>
    rw [hr] at hsafe
    exact hsafe.elim
  | stop f =>
    rw [hr] at hsafe
    exact hsafe
  | refused x =>
    rw [hr] at hsafe
    exact hsafe.elim

theorem step_of_fetch_stop {f : Fault} (h : RunningIn s p) (hp : p ≠ .done) (hf : fetch s = .stop f) : step s = .fault f := by
  rw [step_of_running h]
  unfold stepRunning
  split
  · rename_i hdone
    exact absurd (h.2.2.symm.trans hdone) hp
  · simp [hf]

theorem At.goes_of_ne_done (h : At m u s) (hl : Lands s) (hrun : RunningIn s p) (hp : p ≠ .done) : Goes m u s (step s) := by
  have hsafe := h.safe_fetch hl (by rwa [hrun.2.2])
  cases hf : fetch s with
  | ok i s1 =>
    rw [hf] at hsafe
    obtain ⟨h1, hruns, hwait⟩ := hsafe
    cases hw : waitsForRoom s i s1 with
    | true =>
      obtain ⟨⟨b, hb⟩, hpoint, -⟩ := waitsForRoom_eq_true.1 hw
      obtain ⟨hl1, hahead⟩ := hwait b hb hpoint
      rw [step_of_waits hrun hp hf hw]
      exact ⟨h1.reads, hl1.1, fun _ => ⟨hl1.2, fun hm => .inl (hahead hm)⟩⟩
    | false =>
      rw [step_of_fetch_ok hrun hp hf hw]
      exact hruns.goes h h1 hf
  | raised e s1 =>
    rw [hf] at hsafe
    rw [step_of_fetch_raised hrun hp hf]
    exact ⟨hsafe.1, hsafe.2, fun hr => by cases hr⟩
  | unwritten x s1 =>
    rw [hf] at hsafe
    exact hsafe.elim
  | stop f =>
    rw [hf] at hsafe
    rw [step_of_fetch_stop hrun hp hf]
    exact hsafe
  | refused x =>
    rw [hf] at hsafe
    exact hsafe.elim

/-- Done (44_block_decoder.md rules R132, R133). -/
theorem At.goes_of_done (h : At m u s) (hl : Lands s) (hrun : RunningIn s .done) : Goes m u s (step s) := by
  obtain ⟨f, hf⟩ := Option.isSome_iff_exists.1 ((pointOk_done hrun.2.2).1 hl.2)
  obtain ⟨hlast, hnext⟩ := (eobEndsTheBlock s).2 f hrun hf
  by_cases hone : f = 1
  · rw [hlast hone]
    exact ⟨h.reads, hl.1, fun hr => by cases hr⟩
  · rw [hnext (flag_eq_zero f hone)]
    refine ⟨h.reads, rangesOk_fresh, fun _ => ⟨pointOk_readHeader rfl, fun _ => .inr ⟨le_rfl, ?_⟩⟩⟩
    rw [rank_done hrun.2.2]
    exact Nat.one_pos

/-- Every step of a running session from one of its points. -/
theorem At.goes (h : At m u s) (hl : Lands s) (hrun : RunningIn s p) : Goes m u s (step s) := by
  by_cases hp : p = .done
  · subst hp
    exact h.goes_of_done hl hrun
  · exact h.goes_of_ne_done hl hrun hp

end

/-! ### The invariants -/

/-- What the host has asked for stays, and the source keeps its length, through a step without `START`. -/
theorem step_source {s t : State} (hstart : s.hostStart = none) (h : step s = .next t) :
    t.hostStart = none ∧ t.srclen = s.srclen := by
  by_cases hp : s.phase = .done
  · obtain ⟨-, ⟨f, -, rfl⟩ | ⟨-, rfl⟩⟩ := step_done hstart hp h
    · refine ⟨?_, (endBlock_same _ f).2.1⟩
      rw [State.endBlock]
      split <;> exact hstart
    · exact ⟨hstart, rfl⟩
  · obtain ⟨hhost, -, -, hlen, -⟩ := (step_effect hstart hp h).core
    exact ⟨hhost.trans hstart, hlen⟩

/-- Settles O58: a step of a running session goes from point to point; `START` and Done begin with a new BlockState. -/
theorem stepKeepsTheBlockRegisters : Obligations.StepKeepsTheBlockRegisters := by
  intro s t hinv h
  rcases Option.eq_none_or_eq_some s.hostStart with hstart | ⟨src, hstart⟩
  · have hrun := status_of_step hstart h
    have hat : At False s.unwrittenReads s := ⟨False.elim, False.elim, False.elim, rfl, hrun⟩
    have hgoes := hat.goes ⟨hinv.ranges, hinv.point hrun⟩ ⟨hstart, hrun, rfl⟩
    rw [h] at hgoes
    exact ⟨hgoes.2.1, fun hr => (hgoes.2.2 hr).1⟩
  · obtain rfl := Host.Outcome.next.inj ((step_of_hostStart hstart).symm.trans h)
    exact ⟨rangesOk_fresh, fun _ => pointOk_readHeader rfl⟩

theorem SessionInv.at {s : State} (hinv : SessionInv s) (hrun : s.status = .running) : At True s.unwrittenReads s :=
  ⟨fun _ => hinv.mem.src, fun _ => hinv.mem.out, fun _ => hinv.cursor.cursor, rfl, hrun⟩

theorem SessionInv.goes {s : State} (hinv : SessionInv s) (hstart : s.hostStart = none) (hrun : s.status = .running) :
    Goes True s.unwrittenReads s (step s) :=
  (hinv.at hrun).goes ⟨hinv.block.ranges, hinv.block.point hrun⟩ ⟨hstart, hrun, rfl⟩

/-- Settles O59: outside a running session a step is a `START` or an expected stop. -/
theorem noSessionReadsAnUnwrittenRegister : Obligations.NoSessionReadsAnUnwrittenRegister := by
  intro s hinv
  rcases Option.eq_none_or_eq_some s.hostStart with hstart | ⟨src, hstart⟩
  · by_cases hrun : s.status = .running
    · have hgoes := hinv.goes hstart hrun
      refine ⟨fun t h => ?_, fun f h => ?_, fun r h => ?_⟩
      · rw [h] at hgoes
        exact hgoes.1
      · rw [h] at hgoes
        obtain rfl := hgoes trivial
        rfl
      · rw [h] at hgoes
        exact hgoes
    · have hstop : step s = .fault s.status.stopFault := by simp [step, hstart, hrun]
      rw [hstop]
      refine ⟨fun t h => (by cases h), fun f h => ?_, fun r h => (by cases h)⟩
      obtain rfl := Host.Outcome.fault.inj h
      cases s.status <;> rfl
  · rw [step_of_hostStart hstart]
    refine ⟨fun t h => ?_, fun f h => (by cases h), fun r h => (by cases h)⟩
    obtain rfl := Host.Outcome.next.inj h
    rfl

theorem SessionInv.step {s t : State} (hinv : SessionInv s) (h : step s = .next t) : SessionInv t where
  mem := stepKeepsTheMemories s t hinv.mem h
  cursor := stepKeepsTheBitCursor s t hinv.cursor h
  status := stepKeepsErrAndStatus s t hinv.status h
  block := stepKeepsTheBlockRegisters s t hinv.block h

/-! ### The end of a session -/

/-- A bound on the steps that a running session still takes. -/
def stepsLeft (s : State) : Nat :=
  300 * (8 * s.srclen - s.bitpos) + rank s

theorem rank_le {s : State} (hr : RangesOk s.blk) : rank s ≤ 258 := by
  unfold rank
  split
  · omega
  · split <;> omega
  · split
    · omega
    · omega
    · cases hrem : s.blk.copyrem with
      | none => exact Nat.zero_le _
      | some r => exact hr.copyrem r hrem
    · omega
  · omega

theorem stepsLeft_lt {s t : State} (hr : RangesOk t.blk) (hlen : t.srclen = s.srclen) (hend : t.bitpos ≤ 8 * t.srclen)
    (h : Nearer s t) : stepsLeft t < stepsLeft s := by
  have hrank := rank_le hr
  unfold stepsLeft
  rw [hlen] at hend ⊢
  rcases h with h | ⟨h, hlt⟩ <;> omega

/-- The three ends of a session (70_reset_and_hazards.md rule R186). -/
def Ended (o : Host.Outcome State Fault Refusal) : Prop :=
  o = .fault Fault.sessionComplete ∨ o = .fault Fault.sessionFaulted ∨ o = .fault Fault.outFull

theorem run_succ_of_fault {s : State} (n : Nat) {f : Fault} (h : step s = .fault f) :
    Host.Core.run core (n + 1) s = .fault f := by
  have hcore : core.step s = .fault f := h
  simp only [Host.Core.run, hcore]

/-- A core that a step of a session has left not RUNNING answers the stop of its `STATUS`. -/
theorem ended_run_of_stopped {s : State} {n : Nat} (hstart : s.hostStart = none) (hrun : s.status ≠ .running)
    (hidle : s.status ≠ .idle) : Ended (Host.Core.run core (n + 1) s) := by
  obtain ⟨-, hcomplete, hfaulted⟩ := noStepOutsideARunningSession s hstart
  cases hstatus : s.status with
  | idle => exact absurd hstatus hidle
  | running => exact absurd hstatus hrun
  | complete => exact .inl (run_succ_of_fault n (hcomplete hstatus))
  | faulted => exact .inr (.inl (run_succ_of_fault n (hfaulted hstatus)))

theorem ended_run {s : State} {n : Nat} (hinv : SessionInv s) (hstart : s.hostStart = none) (hrun : s.status = .running)
    (hn : stepsLeft s + 2 ≤ n) : Ended (Host.Core.run core n s) := by
  induction n generalizing s with
  | zero => omega
  | succ n ih =>
    have hgoes := hinv.goes hstart hrun
    cases h : step s with
    | next t =>
      rw [h] at hgoes
      obtain ⟨-, hr, hpoint⟩ := hgoes
      obtain ⟨hstart', hlen⟩ := step_source hstart h
      rw [run_succ_of_step n h]
      by_cases hrun' : t.status = .running
      · have hend := (streamPositionNeverGoesBack s t hstart hinv.cursor h).2
        have hlt := stepsLeft_lt hr hlen hend ((hpoint hrun').2 trivial)
        exact ih (hinv.step h) hstart' hrun' (by omega)
      · obtain ⟨k, rfl⟩ : ∃ k, n = k + 1 := ⟨n - 1, by omega⟩
        refine ended_run_of_stopped hstart' hrun' fun hidle => ?_
        rcases (phaseAndStatusFollowTheDiagram s t hstart h).2.1 with hs | hs | ⟨hs, -⟩ <;> rw [hs] at hidle <;> cases hidle
    | fault f =>
      rw [h] at hgoes
      obtain rfl := hgoes trivial
      exact .inr (.inr (run_succ_of_fault n h))
    | refused x =>
      rw [h] at hgoes
      exact hgoes.elim

/-- Settles O60: by induction on the steps, the stream position and the rank as the measure. -/
theorem everySessionEnds : Obligations.EverySessionEnds := by
  intro s hinv hstart hrun
  refine ended_run hinv hstart hrun ?_
  have := rank_le hinv.block.ranges
  unfold stepsLeft
  omega

end Sys2Proof.Machine
end
